-- ==== Sys2Proof/Word.lean ====
section
/-! DEFINITION. The word types of the QN212 model: bytes, the 16 and 32 bit fields of the memory formats, port
time and AXI IDs. Only names of `BitVec` types stand here; every operation on them is in `Machine/Ops.lean`. -/

namespace Sys2Proof

/-- One byte of a frame, a report record, the setup block or a view. -/
abbrev Byte := BitVec 8

/-- A 16-bit field: sequence numbers, plug numbers, alarm codes, object indices. -/
abbrev Half := BitVec 16

/-- A 32-bit field: terminal IDs, counters, ring index words. -/
abbrev Word := BitVec 32

/-- Port time QT: a 32-bit count of milliseconds (00_scope.md, Conventions; R168). -/
abbrev Qt := BitVec 32

/-- An AXI ID, 16 bits wide as the role table and INJ_ID hold it (10_memory_formats.md, 10.1). -/
abbrev AxiId := BitVec 16

end Sys2Proof
end

