-- ==== Sys2Proof/Syntax.lean ====
section
/-! DEFINITION. The commands the part takes: one constructor of `Instr` per row of spec/opcode_table.json, with the
operands of that row. The table gives no row any bits or fields, so the operands are those its rule speaks of: an
AXI transaction's bytes, a crane, a table index, a segment, a response. -/

namespace Sys2Proof

/-- An AXI4 response code. R164: "an EXOKAY response to an exclusive access counts as OKAY". -/
inductive Resp where
  | okay | exokay | slverr | decerr
  deriving DecidableEq, Repr

/-- The AXI4 burst types. -/
inductive BurstKind where
  | fixed | incr | wrap
  deriving DecidableEq, Repr

/-- The form of an AXI4 burst: its type, the bytes of each beat and the number of beats. -/
structure BurstForm where
  kind  : BurstKind
  size  : Nat
  beats : Nat
  deriving DecidableEq, Repr

/-- An upstream write burst at the moment its response passes back: the master's ID, the first byte covered, the
bytes covered in address order (`none` where the strobe is inactive) and the response. -/
structure Write where
  id   : AxiId
  addr : Nat
  data : List (Option Byte)
  resp : Resp
  deriving DecidableEq, Repr

/-- The bytes one read beat carries: `len` bytes from `addr`. -/
structure Span where
  addr : Nat
  len  : Nat
  deriving DecidableEq, Repr

/-- One beat of an upstream read passing back through the Path Unit: the burst's ID, the bytes of every beat of
the burst in the order the beats pass, which of them this is (0 first), the data DRAM returned for it and the
response. -/
structure ReadBeat where
  id    : AxiId
  spans : List Span
  beat  : Nat
  data  : List Byte
  resp  : Resp
  deriving DecidableEq, Repr

/-- The two request channels of the downstream port (R166). -/
inductive Channel where
  | read | write
  deriving DecidableEq, Repr

/-- The two sources of injected transactions (R165). -/
inductive Source where
  | rpu | su
  deriving DecidableEq, Repr

/-- What one TRANSACTION_FORWARD passes on: a request accepted at the upstream port with its address, burst and write
data (the bytes covered, in address order, `none` where the strobe is inactive), a read beat or a write response
returned with no watched effect (R164). -/
inductive Forward where
  | readRequest (id : AxiId) (addr : Nat) (burst : BurstForm)
  | writeRequest (id : AxiId) (addr : Nat) (burst : BurstForm) (data : List (Option Byte))
  | readBeat (b : ReadBeat)
  | writeResponse (w : Write)
  deriving DecidableEq, Repr

/-- The commands and events of spec/opcode_table.json, in the table's order. -/
inductive Instr where
  | powerOnReset (sbase : BitVec 8)
  | qtIncrement
  | linkLate (crane : Fin 12)
  | linkLost (crane : Fin 12)
  | irqCranePulseEnd
  | reeferLost (index : Fin 2048)
  | reeferSilent (index : Fin 2048)
  | coverageScanVisit
  | segmentAged (segment : Fin 128)
  | shadowAverageAged (segment : Fin 128)
  | ulSlotWrite (w : Write)
  | ulProducerIndexWrite (w : Write)
  | parseStart
  | parseComplete
  | dlSlotWrite (w : Write)
  | dlProducerIndexWrite (w : Write)
  | departure (b : ReadBeat)
  | motionBytesRead (b : ReadBeat)
  | viewReadBeat (b : ReadBeat)
  | viewBurstLastBeat (id : AxiId)
  | viewWrite (w : Write)
  | reportTake
  | reportRecordWriteDone (id : AxiId) (resp : Resp)
  | reportIndexWriteDone (id : AxiId) (resp : Resp)
  | consumerIndexWrite (w : Write)
  | injIdRefused (id : AxiId) (channel : Channel) (beats : Nat)
  | transactionForward (f : Forward)
  | injectionEnqueue (source : Source)
  | arbiterGrant (channel : Channel)
  | reload (w : Write)
  | setupReadDone (id : AxiId) (resp : Resp) (data : List Byte)
  | indexWordReadDone (id : AxiId) (resp : Resp) (value : Word)
  | ackLines (w : Write)
  | craneReset (w : Write)
  | traceOpen (w : Write)
  | reeferAck (w : Write)
  | reeferForget (w : Write)
  | coverageClear (w : Write)
  | clearCounters (w : Write)
  | commandCodeUnknown (w : Write)
  | commandWriteWhileBusy (w : Write)
  | commandStatusWriteDone (id : AxiId) (resp : Resp)
  deriving DecidableEq, Repr

end Sys2Proof
end

