-- ==== Sys2Proof/Config.lean ====
section
/-! DEFINITION. What the specification leaves open: the sizes it fixes for every part, and the free values, opaque
constants with no body that are applied to the counter `State.free` (notes/assumptions/11.md). -/

namespace Sys2Proof.Config

/-- Places of the uplink capture store (R1). -/
def captureEntries : Nat := 32
/-- Cranes supervised, crane 0 to crane 11 (R23). -/
def craneCount : Nat := 12
/-- Reefer table indices (R71). -/
def reeferCount : Nat := 2048
/-- Segment records of the Coverage Unit (R113). -/
def segmentRecords : Nat := 128
/-- Bytes of one uplink or downlink slot (R1, R15). -/
def slotBytes : Nat := 256
/-- Places of the report queue (R153). -/
def reportQueueDepth : Nat := 32
/-- Places of the injection queue (R165). -/
def injectionDepth : Nat := 8
/-- The largest through count of an arbiter (R166). -/
def throughLimit : Nat := 16
/-- Outstanding commands per crane (R23, R62). -/
def outstandingDepth : Nat := 8
/-- Trace entries per crane (R23, R36). -/
def traceDepth : Nat := 16
/-- Candidate history entries per segment (R113). -/
def historyDepth : Nat := 5
/-- Reads of 256 bytes that make up one load of the setup block (R169). -/
def setupReads : Nat := 64

/-- FREE VALUE. The fault code byte of a PENDING or REFUSED_BUSY command status write: R171 gives those writes a
code and an argument and states no fault code. notes/assumptions/11.md. -/
opaque freeFaultByte : Nat → BitVec 8

end Sys2Proof.Config
end

