-- ==== Sys2Proof/Machine/State.lean ====
section
/-! DEFINITION. The state of the part as plain data: one structure per unit of the block diagram (00_scope.md), each
field with the rule that names it, and `State.reset`, every field at the value the rules give for power-on reset.
HOLD lines, hold reasons, the two interrupt lines, the view modes, the reefer ID map and plug map and the crane summary
word are functions of this state (Machine/Flags.lean, Machine/Reefers.lean; notes/assumptions/6.md). -/

namespace Sys2Proof.Machine

open Sys2Proof

/-- A table of numbered records held sparsely: the listed numbers rise strictly and no listed record equals the value
an unlisted number holds (`Table.wf`, `Table.get` and `Table.set` in Machine/Ops.lean). -/
structure Table (α : Type) where
  cells : List (Nat × α)
  deriving DecidableEq, Repr

/-! ### Roles, modes and the setup in force -/

/-- The role of an upstream transaction (R162). -/
inductive Role where
  | app | radio | other
  deriving DecidableEq, Repr

/-- The run state (R167). -/
inductive RunState where
  | unloaded | loading | running | passOnly
  deriving DecidableEq, Repr

/-- The mode of the crane view and of the coverage view (R145, R163). -/
inductive ViewMode where
  | live | header | all
  deriving DecidableEq, Repr

/-- How the class thresholds are formed (R112). -/
inductive ClassMode where
  | absolute | relative
  deriving DecidableEq, Repr

/-- How IRQ_CRANE follows the crane links (R153, R161). -/
inductive CraneIrqMode where
  | level | latchRead | latchAck | timed
  deriving DecidableEq, Repr

/-- One range of the role table whose role is APP or RADIO (R162). -/
structure RoleRange where
  lowest  : Nat
  highest : Nat
  role    : Role
  deriving DecidableEq, Repr

/-- The window base addresses and ring sizes of a setup (R163). -/
structure Windows where
  ulSlots        : Nat
  ulProducer     : Nat
  dlSlots        : Nat
  dlProducer     : Nat
  reportRing     : Nat
  reportProducer : Nat
  reportConsumer : Nat
  statusPage     : Nat
  craneView      : Nat
  coverageView   : Nat
  reeferView     : Nat
  ulCount        : Nat
  dlCount        : Nat
  repCount       : Nat
  deriving DecidableEq, Repr

/-- One entry of the crane roster (R24). -/
structure RosterEntry where
  terminal : Word
  enabled  : Bool
  deriving DecidableEq, Repr

/-- The crane timing (R24). -/
structure CraneTiming where
  lateMs       : Nat
  lostMs       : Nat
  echoMs       : Nat
  recoverCount : Nat
  tracePost    : Nat
  deriving DecidableEq, Repr

/-- One entry of the reefer class table (R91). -/
structure ReeferClass where
  bandLow    : Nat
  bandHigh   : Nat
  excCount   : Nat
  stretchMax : Nat
  silenceMin : Nat
  lossMin    : Nat
  deriving DecidableEq, Repr

/-- The numeric coverage parameters (R112). -/
structure CoverageParams where
  segCount    : Nat
  weightShift : Nat
  segLenCm    : Nat
  shadowCm    : Nat
  accLow      : Int
  accHigh     : Int
  goodLevel   : Int
  holeLevel   : Int
  goodOfs     : Int
  holeOfs     : Int
  hyst16      : Nat
  driftDb     : Nat
  ageS        : Nat
  deriving DecidableEq, Repr

/-- The setup block contents taken by a load (10.1, R169). -/
structure Setup where
  roles          : List RoleRange
  injId          : AxiId
  windows        : Windows
  craneMode      : ViewMode
  coverageMode   : ViewMode
  roster         : List RosterEntry
  timing         : CraneTiming
  classes        : List ReeferClass
  plugsPerSeg    : Nat
  coverage       : CoverageParams
  classMode      : ClassMode
  baselines      : List (Option Int)
  eventThreshold : Nat
  irqMode        : CraneIrqMode
  pulseMs        : Nat
  irqMask        : Half
  deriving DecidableEq, Repr

/-! ### Report records and the Report Unit -/

/-- The units that make records (10.3). -/
inductive UnitName where
  | rcu | clu | rfu | cvu | su | rpu
  deriving DecidableEq, Repr

/-- A report record before its taking: all its fields but dropped_before (8.2); `detail` holds the twenty detail
bytes of 10.3. -/
structure Record where
  code   : Byte
  origin : UnitName
  object : Half
  qt     : Qt
  detail : List Byte
  deriving DecidableEq, Repr

/-- The write phase of the Report Unit (R153). -/
inductive WritePhase where
  | idle | record | index
  deriving DecidableEq, Repr

/-- The ring state (R153). -/
inductive RingState where
  | running | fault
  deriving DecidableEq, Repr

/-- The state of the Report Unit (R153). -/
structure ReportUnit where
  queue        : List Record
  producer     : Nat
  consumer     : Nat
  phase        : WritePhase
  inFlight     : Option Record
  pendingDrops : Nat
  totalDrops   : Word
  ring         : RingState
  dropFlag     : Bool
  craneLatch   : Bool
  pulseStart   : Option Qt
  deriving DecidableEq, Repr

/-! ### The Path Unit -/

/-- What an injected transaction carries (R165). -/
inductive InjBody where
  | setupRead (number : Nat)
  | ulIndexRead
  | dlIndexRead
  | repIndexRead
  | recordWrite (bytes : List Byte)
  | indexWrite (bytes : List Byte)
  | statusWrite (bytes : List Byte)
  deriving DecidableEq, Repr

/-- An injected transaction made by its source and not yet in the injection queue. `live` is no longer set once a
RELOAD completion or an entry into PASS_ONLY has made its response one that "does not act" (R160, R169). -/
structure InjRequest where
  body : InjBody
  addr : Nat
  live : Bool
  deriving DecidableEq, Repr

/-- A transaction of the injection queue, with the INJ_ID in force at its handing in (R165). -/
structure Injected where
  id      : AxiId
  request : InjRequest
  deriving DecidableEq, Repr

/-- An upstream request accepted and waiting for the arbiter of its channel; the role was decided at the acceptance
of its address (R162, R166). `data` is empty for a read. -/
structure FwdRequest where
  id    : AxiId
  role  : Role
  addr  : Nat
  burst : BurstForm
  data  : List (Option Byte)
  deriving DecidableEq, Repr

/-- A request issued downstream and not yet answered, in the order of issue (R165). -/
inductive Issued where
  | forwarded (id : AxiId) (role : Role)
  | injected (tx : Injected)
  deriving DecidableEq, Repr

/-- One beat or response returned at the upstream port; a write response has no data. -/
structure UpBeat where
  id   : AxiId
  resp : Resp
  data : List Byte
  deriving DecidableEq, Repr

/-- One request granted on a downstream channel, with its address, burst, ID and write data (R164). -/
inductive DownRequest where
  | read (id : AxiId) (addr : Nat) (burst : BurstForm)
  | write (id : AxiId) (addr : Nat) (burst : BurstForm) (data : List (Option Byte))
  deriving DecidableEq, Repr

/-- The four views (R142). -/
inductive View where
  | status | crane | coverage | reefer
  deriving DecidableEq, Repr

/-- A snapshot: the record images of a view as they stood at one moment, with what its header shows (R145). -/
structure Snapshot where
  generation : Word
  qt         : Qt
  count      : Nat
  images     : List (List Byte)
  deriving DecidableEq, Repr

/-- The binding of an APP burst to one view, made at its first data beat (R144, R148). For LIVE contents `held` has
the images already taken. `covered` and `spoiled` are the records of which a beat was returned with OKAY and with an
error. `newest` says the snapshot bound is still the newest of its view (R148). -/
structure ViewBinding where
  view     : View
  mode     : ViewMode
  snapshot : Option Snapshot
  held     : List (Nat × List Byte)
  covered  : List Nat
  spoiled  : List Nat
  newest   : Bool
  deriving DecidableEq, Repr

/-- An upstream read burst of which a data beat has passed: the role it was accepted under, the window table in force
at its first beat (R163), its view bindings, whether it has been counted in DL_EARLY (R58), and whether its last beat
has passed. -/
structure OpenRead where
  id     : AxiId
  role   : Role
  table  : Option Windows
  views  : List ViewBinding
  early  : Bool
  passed : Bool
  deriving DecidableEq, Repr

/-- The state of the Path Unit: what waits for the injection queue, the queue itself (`ready` and the injected entries
of the issued lists), forwarded requests waiting, requests issued and unanswered, the two through counts, the read
bursts in flight, and the last beats returned upstream and the last request granted downstream. -/
structure PathUnit where
  waitRpu      : List InjRequest
  waitSu       : List InjRequest
  ready        : List Injected
  fwdRead      : List FwdRequest
  fwdWrite     : List FwdRequest
  issuedRead   : List Issued
  issuedWrite  : List Issued
  throughRead  : Nat
  throughWrite : Nat
  openReads    : List OpenRead
  up           : List UpBeat
  down         : Option DownRequest
  deriving DecidableEq, Repr

/-! ### The Setup Unit -/

/-- The command state (R171). -/
inductive CmdPhase where
  | idle | pending | closing
  deriving DecidableEq, Repr

/-- Command status values (10.1). -/
inductive CmdStatus where
  | pending | done | refusedState | refusedArg | refusedBusy
  deriving DecidableEq, Repr

/-- The command in hand (R171): its code and argument, the final status once it is decided, whether the PENDING write
has been answered, the busy flag, the last command refused in CLOSING, and whether the REFUSED_BUSY write is out. -/
structure Command where
  phase           : CmdPhase
  code            : Byte
  arg             : Half
  verdict         : Option CmdStatus
  pendingAnswered : Bool
  busy            : Bool
  refused         : Option (Byte × Half)
  busyWrite       : Bool
  deriving DecidableEq, Repr

/-- How far a load has come (R169): reading the setup block, or reading the three index words of the new setup. -/
inductive LoadPhase where
  | block
  | words (setup : Setup) (ul dl rep : Option Word)
  deriving DecidableEq, Repr

/-- The load under way: KEEP, the copy so far, how many of its reads have been answered, and its phase (R169). -/
structure Load where
  keep     : Bool
  copy     : List Byte
  answered : Nat
  phase    : LoadPhase
  deriving DecidableEq, Repr

/-- The state of the Setup Unit (R167, R168, R169, R171). `setup` is the setup in force, or none. -/
structure SetupUnit where
  qt        : Qt
  sbase     : BitVec 8
  runState  : RunState
  setup     : Option Setup
  faultCode : Byte
  command   : Command
  load      : Option Load
  deriving DecidableEq, Repr

/-! ### The Ring Capture Unit -/

/-- A PENDING entry of the capture store (R1): 256 cells, `none` for UNSEEN. -/
structure CaptureEntry where
  slot       : Nat
  cells      : List (Option Byte)
  firstWrite : Qt
  deriving DecidableEq, Repr

/-- An item of the parse queue (R7). A QUEUED capture entry stands in its item and keeps its place in the store. -/
inductive ParseItem where
  | captured (entry : CaptureEntry) (commitQt : Qt)
  | placeholder (slot : Nat) (commitQt : Qt)
  deriving DecidableEq, Repr

/-- The reason of a HALT decision (R52). -/
inductive HaltReason where
  | hold | classRange | length
  deriving DecidableEq, Repr

/-- The overlay decision stored at a slot's first departure (R15). -/
inductive Overlay where
  | none | halt (reason : HaltReason) | stale
  deriving DecidableEq, Repr

/-- The last fetch decision of a slot (R57). -/
inductive FetchDecision where
  | undecided | none | halt | stale
  deriving DecidableEq, Repr

/-- A downlink slot record (R15, R57). Header-complete is `DlRecord.complete` (Machine/Downlink.lean). -/
structure DlRecord where
  cells     : List (Option Byte)
  writeQt   : Qt
  committed : Bool
  departed  : Bool
  overlay   : Overlay
  lastFetch : FetchDecision
  deriving DecidableEq, Repr

/-- A downlink slot record as power-on reset leaves it (R21, R65). -/
def DlRecord.blank : DlRecord where
  cells     := List.replicate 12 Option.none
  writeQt   := 0
  committed := false
  departed  := false
  overlay   := .none
  lastFetch := .undecided

/-- The nine uplink counters, in the order of R12. -/
structure UlCounters where
  committed     : Word
  uncaptured    : Word
  short         : Word
  unknownKind   : Word
  fieldBad      : Word
  ignored       : Word
  acceptedCrane  : Word
  acceptedReefer : Word
  acceptedMeas   : Word
  deriving DecidableEq, Repr

/-- Every uplink counter 0. -/
def UlCounters.zero : UlCounters := ⟨0, 0, 0, 0, 0, 0, 0, 0, 0⟩

/-- The nine downlink counters, in the order of R64. -/
structure DlCounters where
  departed    : Word
  delivered   : Word
  halted      : Word
  stale       : Word
  unrostered  : Word
  uncommitted : Word
  unseen      : Word
  early       : Word
  order       : Word
  deriving DecidableEq, Repr

/-- Every downlink counter 0. -/
def DlCounters.zero : DlCounters := ⟨0, 0, 0, 0, 0, 0, 0, 0, 0⟩

/-- The state of the Ring Capture Unit. The capture store is `filling` (PENDING, in order of creation) together with
the captured items of `queue` (QUEUED). `parsing` says the head of the queue is under parse (R8). -/
structure CaptureUnit where
  filling : List CaptureEntry
  queue   : List ParseItem
  parsing : Bool
  hUl     : Nat
  hDl     : Nat
  records : Table DlRecord
  ul      : UlCounters
  dl      : DlCounters
  deriving DecidableEq, Repr

/-! ### The Crane Link Unit -/

/-- The link state of a crane (R23). -/
inductive LinkState where
  | idle | live | late | lost | claim
  deriving DecidableEq, Repr

/-- The boom state of a crane (R23). -/
inductive Boom where
  | up | down | moving
  deriving DecidableEq, Repr

/-- Why HOLD[n] is asserted (R23, R45). -/
inductive HoldReason where
  | none | notRunning | disabled | idle | lost | claim
  deriving DecidableEq, Repr

/-- One outstanding command: sequence, class (0 KEEPALIVE, 1 MOTION, 2 STOP) and departure QT (R23). -/
structure Outstanding where
  seq      : Half
  cls      : Byte
  departed : Qt
  deriving DecidableEq, Repr

/-- One trace entry (R36); the level is as sent, 7FFFH kept. -/
structure TraceEntry where
  seq      : Half
  arrival  : Qt
  level    : Half
  position : Nat
  boom     : Boom
  deriving DecidableEq, Repr

/-- The trace state (R23). -/
inductive TraceState where
  | recording | closing (remaining : Nat) | frozen
  deriving DecidableEq, Repr

/-- The per-crane counters, in the order of R49. -/
structure CraneCounters where
  duplicate    : Word
  behind       : Word
  gap          : Word
  aged         : Word
  claimDiscard : Word
  halted       : Word
  stale        : Word
  unconfirmed  : Word
  deriving DecidableEq, Repr

/-- Every counter of a crane 0. -/
def CraneCounters.zero : CraneCounters := ⟨0, 0, 0, 0, 0, 0, 0, 0⟩

/-- A crane record (R23). The hold reason is `holdReason` (Machine/Flags.lean). -/
structure Crane where
  link          : LinkState
  learned       : Option Word
  lastSeq       : Half
  seqValid      : Bool
  lastArrival   : Option Qt
  recovery      : Nat
  position      : Option Nat
  boom          : Boom
  localCtl      : Bool
  clampReported : Bool
  outstanding   : List Outstanding
  lastListed    : Option Half
  rttLast       : Word
  rttGreatest   : Word
  counters      : CraneCounters
  trace         : List TraceEntry
  traceState    : TraceState
  deriving DecidableEq, Repr

/-- A crane record at its power-on values (R50). -/
def Crane.initial : Crane where
  link          := .idle
  learned       := none
  lastSeq       := 0
  seqValid      := false
  lastArrival   := none
  recovery      := 0
  position      := none
  boom          := .up
  localCtl      := false
  clampReported := false
  outstanding   := []
  lastListed    := none
  rttLast       := 0
  rttGreatest   := 0
  counters      := CraneCounters.zero
  trace         := []
  traceState    := .recording

/-- The state of the Crane Link Unit: the twelve crane records. -/
structure CraneUnit where
  cranes : Table Crane
  deriving DecidableEq, Repr

/-! ### The Reefer Unit -/

/-- Power states of a reefer (R71; 10.2). -/
inductive Power where
  | off | on | defrost | unplug
  deriving DecidableEq, Repr

/-- Where an entry stands in the life cycle (R71). -/
inductive ReeferState where
  | tracked | silent | lost | departed
  deriving DecidableEq, Repr

/-- Why a DEPARTED entry departed (R71). -/
inductive DepartReason where
  | none | unplugged | replaced
  deriving DecidableEq, Repr

/-- Excursion areas (R92, R97); `normal` also stands for count area none, which has the same code (10.4). -/
inductive Area where
  | normal | high | low
  deriving DecidableEq, Repr

/-- A reefer table entry (R71, R92). -/
structure Reefer where
  container    : List Byte
  plug         : Half
  segment      : Nat
  cls          : Nat
  power        : Power
  setpoint     : Int
  supply       : Option Int
  ret          : Option Int
  alarms       : List Half
  state        : ReeferState
  reason       : DepartReason
  excursion    : Area
  excCount     : Nat
  countArea    : Area
  latchHigh    : Bool
  latchLow     : Bool
  sensorAbsent : Bool
  excusals     : Nat
  lastReport   : Qt
  reportCount  : Nat
  deriving DecidableEq, Repr

/-- The state of the Reefer Unit: the table (an index holding `none` is free), the departed list, oldest first, and
the silence scan position (R71, R72, R105). -/
structure ReeferUnit where
  table    : Table (Option Reefer)
  departed : List Nat
  scanPos  : Nat
  deriving DecidableEq, Repr

/-! ### The Coverage Unit -/

/-- Segment classes (R113). -/
inductive SegClass where
  | unknown | good | marginal | hole
  deriving DecidableEq, Repr

/-- A segment record (R113); an average of `none` is EMPTY. -/
structure Segment where
  ul             : Option Int
  dl             : Option Int
  shadow         : Option Int
  unshadowed     : Nat
  shadowed       : Nat
  rejected       : Nat
  lastUnshadowed : Qt
  lastShadowed   : Qt
  declared       : SegClass
  history        : List SegClass
  discarded      : Nat
  drift          : Bool
  deriving DecidableEq, Repr

/-- A segment record in its empty values (R113, R138). -/
def Segment.blank : Segment where
  ul             := none
  dl             := none
  shadow         := none
  unshadowed     := 0
  shadowed       := 0
  rejected       := 0
  lastUnshadowed := 0
  lastShadowed   := 0
  declared       := .unknown
  history        := []
  discarded      := 0
  drift          := false

/-- The map geometry: SEG_COUNT and SEG_LEN_CM (R113). -/
structure Geometry where
  segCount : Nat
  segLenCm : Nat
  deriving DecidableEq, Repr

/-- The state of the Coverage Unit (R113, R116, R129). -/
structure CoverageUnit where
  segments      : Table Segment
  geometry      : Option Geometry
  scanPos       : Nat
  tick          : Nat
  clampReported : Bool
  deriving DecidableEq, Repr

/-! ### The View Unit -/

/-- What the View Unit holds for the crane view and for the coverage view besides the mode of the setup in force and
the snapshots bound to bursts in flight (R152). -/
structure ViewState where
  newest      : Option Snapshot
  generation  : Word
  coverageSet : List Nat
  deriving DecidableEq, Repr

/-- A view without snapshot (R152). -/
def ViewState.blank : ViewState := ⟨none, 0, []⟩

/-- The state of the View Unit (R149, R152). -/
structure ViewUnit where
  crane    : ViewState
  coverage : ViewState
  writes   : Word
  deriving DecidableEq, Repr

/-! ### The whole part -/

/-- MODEL's own: the tick-driven checks of the current millisecond not yet taken (R40, R41, R105, R129, R161;
notes/assumptions/3.md). -/
structure DueChecks where
  deadlines : List Nat
  visits    : List Nat
  coverage  : Bool
  pulse     : Bool
  deriving DecidableEq, Repr

/-- The whole part: the queue of waiting commands, its eight units, the checks due this millisecond and the counter
the free values are applied to (the first and the last two are the model's own, notes/assumptions/8.md). -/
structure State where
  pending : List Instr
  su      : SetupUnit
  pu      : PathUnit
  rcu     : CaptureUnit
  clu     : CraneUnit
  rfu     : ReeferUnit
  cvu     : CoverageUnit
  vu      : ViewUnit
  rpu     : ReportUnit
  due     : DueChecks
  free    : Nat
  deriving DecidableEq, Repr

/-- Why a command could make the part stop. No rule of the specification stops the part on any command, so this has
no constructor: no meaning faults. -/
inductive Fault where
  deriving DecidableEq, Repr

/-- Why the model could have no meaning for a command. -/
inductive Refusal where
  /-- Raised by `exec` for a command that has no meaning yet; safe (nothing is claimed of it). No arm uses it. -/
  | notModelled (mnemonic : String)
  deriving DecidableEq, Repr

/-- The Report Unit at power-on reset (R153). -/
def ReportUnit.reset : ReportUnit where
  queue        := []
  producer     := 0
  consumer     := 0
  phase        := .idle
  inFlight     := none
  pendingDrops := 0
  totalDrops   := 0
  ring         := .running
  dropFlag     := false
  craneLatch   := false
  pulseStart   := none

/-- The Path Unit at power-on reset (R167). -/
def PathUnit.reset : PathUnit where
  waitRpu      := []
  waitSu       := []
  ready        := []
  fwdRead      := []
  fwdWrite     := []
  issuedRead   := []
  issuedWrite  := []
  throughRead  := 0
  throughWrite := 0
  openReads    := []
  up           := []
  down         := none

/-- The command state IDLE with the busy flag clear (R171). -/
def Command.idle : Command where
  phase           := .idle
  code            := 0
  arg             := 0
  verdict         := none
  pendingAnswered := false
  busy            := false
  refused         := none
  busyWrite       := false

/-- The Setup Unit at power-on reset with the sampled straps (R167). -/
def SetupUnit.reset (sbase : BitVec 8) : SetupUnit where
  qt        := 0
  sbase     := sbase
  runState  := .unloaded
  setup     := none
  faultCode := 0
  command   := Command.idle
  load      := none

/-- The Ring Capture Unit at power-on reset (R21, R65). -/
def CaptureUnit.reset : CaptureUnit where
  filling := []
  queue   := []
  parsing := false
  hUl     := 0
  hDl     := 0
  records := ⟨[]⟩
  ul      := UlCounters.zero
  dl      := DlCounters.zero

/-- The Crane Link Unit at power-on reset: every record at R50's values. -/
def CraneUnit.reset : CraneUnit := ⟨⟨[]⟩⟩

/-- The Reefer Unit at power-on reset (R87, R105). -/
def ReeferUnit.reset : ReeferUnit := ⟨⟨[]⟩, [], 0⟩

/-- The Coverage Unit at power-on reset (R138). -/
def CoverageUnit.reset : CoverageUnit := ⟨⟨[]⟩, none, 0, 0, false⟩

/-- The View Unit at power-on reset (R149, R152). -/
def ViewUnit.reset : ViewUnit := ⟨ViewState.blank, ViewState.blank, 0⟩

/-- No check is due. -/
def DueChecks.none : DueChecks := ⟨[], [], false, false⟩

/-- The part after power-on reset with the straps sampled as `sbase` (R167). -/
def State.afterReset (sbase : BitVec 8) : State where
  pending := []
  su      := SetupUnit.reset sbase
  pu      := PathUnit.reset
  rcu     := CaptureUnit.reset
  clu     := CraneUnit.reset
  rfu     := ReeferUnit.reset
  cvu     := CoverageUnit.reset
  vu      := ViewUnit.reset
  rpu     := ReportUnit.reset
  due     := DueChecks.none
  free    := 0

/-- The machine right after reset: the power-on values of every unit (R167). The straps are read as 0 (DESIGN CHOICE,
notes/assumptions/7.md); the command POWER_ON_RESET samples any value of them. -/
def State.reset : State := State.afterReset 0

end Sys2Proof.Machine
end

