-- ==== Sys2Proof/Machine/Ops.lean ====
section
/-! DEFINITION. The shared operations: byte order, elapsed time, saturating counts, the sparse tables, and handing
records to the Report Unit. -/

namespace Sys2Proof.Machine

open Sys2Proof

/-! ### Numbers (00_scope.md, Conventions) -/

/-- Elapsed time in milliseconds: the later QT minus the earlier, modulo 2^32. -/
def elapsed (now since : Qt) : Nat := (now - since).toNat

/-- The later sequence minus the earlier, modulo 65536. -/
def seqDiff (later earlier : Half) : Nat := (later - earlier).toNat

/-- "a difference in 1..32767 means ahead". -/
def seqAhead (later earlier : Half) : Bool := 1 ≤ seqDiff later earlier && seqDiff later earlier ≤ 32767

/-- One more, stopping at 65535. -/
def satInc (n : Nat) : Nat := min 65535 (n + 1)

/-- The low byte of a number. -/
def lowByte (n : Nat) : Byte := BitVec.ofNat 8 n

/-- A number in one byte, stopping at 255 (R174: a count wider than its detail field saturates). -/
def satByte (n : Nat) : Byte := lowByte (min 255 n)

/-- Two bytes, little-endian. -/
def le16 (h : Half) : List Byte := [h.setWidth 8, (h >>> 8).setWidth 8]

/-- Four bytes, little-endian. -/
def le32 (w : Word) : List Byte :=
  [w.setWidth 8, (w >>> 8).setWidth 8, (w >>> 16).setWidth 8, (w >>> 24).setWidth 8]

/-- A signed or unsigned number as a 16-bit field in two's complement. -/
def half (i : Int) : Half := BitVec.ofInt 16 i

/-- The number that bytes in little-endian order make. -/
def ofLe : List Byte → Nat
  | [] => 0
  | b :: bs => b.toNat + 256 * ofLe bs

/-- The bytes filled up with zeros to `n`, or cut to `n`. -/
def padTo (n : Nat) (bs : List Byte) : List Byte := (bs ++ List.replicate n 0).take n

/-- One bit of a flag. -/
def flag (b : Bool) : Byte := if b then 1 else 0

/-- The bytes at `at_` .. `at_ + n - 1` of a list, 0 where it ends. -/
def slice (bs : List Byte) (at_ n : Nat) : List Byte := padTo n (bs.drop at_)

/-- The unsigned little-endian field of `n` bytes at an offset. -/
def field (bs : List Byte) (at_ n : Nat) : Nat := ofLe (slice bs at_ n)

/-- The signed 16-bit field at an offset. -/
def signed16 (bs : List Byte) (at_ : Nat) : Int := (BitVec.ofNat 16 (field bs at_ 2)).toInt

/-- Responses that count as OKAY where the part acts on an upstream transaction (R164). -/
def isOkay (r : Resp) : Bool := r == .okay || r == .exokay

/-- The response OKAY to an injected transaction: "any response other than OKAY" is a failure (R158, R169), and R164
counts EXOKAY as OKAY for upstream transactions only. -/
def injectedOkay (r : Resp) : Bool := r == .okay

/-! ### Sparse tables -/

/-- The record numbered `i`, or `d` where none is listed. -/
def Table.get {α : Type} (t : Table α) (d : α) (i : Nat) : α :=
  match t.cells.find? (fun c => c.1 == i) with
  | some c => c.2
  | none => d

/-- Puts a listed record before the first one of a higher number. -/
def Table.insertCell {α : Type} (i : Nat) (v : α) : List (Nat × α) → List (Nat × α)
  | [] => [(i, v)]
  | c :: cs => if c.1 < i then c :: Table.insertCell i v cs else (i, v) :: c :: cs

/-- The table with record `i` made `v`; a record equal to the default `d` is not listed. -/
def Table.set {α : Type} [DecidableEq α] (t : Table α) (d : α) (i : Nat) (v : α) : Table α :=
  let rest := t.cells.filter (fun c => c.1 != i)
  if v = d then ⟨rest⟩ else ⟨Table.insertCell i v rest⟩

/-- The table with record `i` changed by `f`. -/
def Table.modify {α : Type} [DecidableEq α] (t : Table α) (d : α) (i : Nat) (f : α → α) : Table α :=
  t.set d i (f (t.get d i))

/-- The table with each record of a list of numbers changed by `f` in turn. -/
def Table.modifyAll {α : Type} [DecidableEq α] (d : α) (f : α → α) : List Nat → Table α → Table α
  | [], t => t
  | i :: is, t => Table.modifyAll d f is (t.modify d i f)

/-- The numbers listed. -/
def Table.numbers {α : Type} (t : Table α) : List Nat := t.cells.map Prod.fst

/-- The canonical form: numbers strictly rising, no record equal to the default listed. -/
def Table.wf {α : Type} [DecidableEq α] (t : Table α) (d : α) : Bool :=
  (t.numbers.zip (t.numbers.drop 1)).all (fun p => decide (p.1 < p.2)) && t.cells.all (fun c => decide (c.2 ≠ d))

/-! ### Named accessors of the numbered tables -/

/-- Crane n's record (R23). -/
def CraneUnit.crane (u : CraneUnit) (n : Nat) : Crane := u.cranes.get Crane.initial n

/-- The unit with crane n's record made `c`. -/
def CraneUnit.setCrane (u : CraneUnit) (n : Nat) (c : Crane) : CraneUnit := ⟨u.cranes.set Crane.initial n c⟩

/-- Downlink slot record k (R15). -/
def CaptureUnit.record (u : CaptureUnit) (k : Nat) : DlRecord := u.records.get DlRecord.blank k

/-- The unit with downlink slot record k made `r`. -/
def CaptureUnit.setRecord (u : CaptureUnit) (k : Nat) (r : DlRecord) : CaptureUnit :=
  { u with records := u.records.set DlRecord.blank k r }

/-- Segment record s (R113). -/
def CoverageUnit.segment (u : CoverageUnit) (s : Nat) : Segment := u.segments.get Segment.blank s

/-- The unit with segment record s made `g`. -/
def CoverageUnit.setSegment (u : CoverageUnit) (s : Nat) (g : Segment) : CoverageUnit :=
  { u with segments := u.segments.set Segment.blank s g }

/-- Reefer table index i: `none` for a free index (R71). -/
def ReeferUnit.entry (u : ReeferUnit) (i : Nat) : Option Reefer := u.table.get none i

/-- The unit with table index i made `e`. -/
def ReeferUnit.setEntry (u : ReeferUnit) (i : Nat) (e : Option Reefer) : ReeferUnit :=
  { u with table := u.table.set none i e }

/-! ### The setup in force -/

/-- The INJ_ID in force: that of the setup in force, or 0 when none is in force (R162). -/
def injIdInForce (s : State) : AxiId :=
  match s.su.setup with
  | some p => p.injId
  | none => 0

/-- Whether crane n is enabled in the roster in force (R24). -/
def craneEnabled (setup : Option Setup) (n : Nat) : Bool :=
  match setup with
  | some p => (p.roster[n]?).any (fun r => r.enabled)
  | none => false

/-- The class table entry of a reefer class (R91). -/
def classEntry (p : Setup) (cls : Nat) : ReeferClass := (p.classes[cls]?).getD ⟨0, 0, 1, 0, 1, 1⟩

/-- The baseline of a segment, or none (R114). -/
def baselineOf (p : Setup) (seg : Nat) : Option Int := (p.baselines[seg]?).join

/-- The quay end: SEG_COUNT × SEG_LEN_CM (R112). -/
def quayEnd (p : Setup) : Nat := p.coverage.segCount * p.coverage.segLenCm

/-- The segment of a position on the quay (R112). -/
def segmentOf (p : Setup) (position : Nat) : Nat := position / p.coverage.segLenCm

/-! ### Handing records to the Report Unit -/

/-- `n` drops (R156): the pending count rises, saturating at 65535, the total count rises and wraps, the flag is set. -/
def ReportUnit.drop (u : ReportUnit) (n : Nat) : ReportUnit :=
  if n = 0 then u else
  { u with
    pendingDrops := min 65535 (u.pendingDrops + n)
    totalDrops := u.totalDrops + BitVec.ofNat 32 n
    dropFlag := true }

/-- A record handed to the Report Unit (R154): it joins the tail while the ring state is RUNNING and the queue holds
fewer than 32 records, and is dropped otherwise. -/
def ReportUnit.handOver (u : ReportUnit) (r : Record) : ReportUnit :=
  if u.ring = .running ∧ u.queue.length < Config.reportQueueDepth then { u with queue := u.queue ++ [r] } else u.drop 1

/-- Records handed over in the order their rule makes them (R154). -/
def ReportUnit.handOverAll (u : ReportUnit) : List Record → ReportUnit
  | [] => u
  | r :: rs => ReportUnit.handOverAll (u.handOver r) rs

/-- The state with records handed to the Report Unit. -/
def State.report (s : State) (rs : List Record) : State := { s with rpu := s.rpu.handOverAll rs }

/-- The number of unconsumed records, (P − C) mod REP_SLOTS (R153). -/
def ReportUnit.unconsumed (u : ReportUnit) (slots : Nat) : Nat := (u.producer + slots - u.consumer % slots) % slots

/-- Free space of the report ring, REP_SLOTS − 1 − unconsumed (R153). -/
def ReportUnit.freeSlots (u : ReportUnit) (slots : Nat) : Nat := slots - 1 - u.unconsumed slots

/-! ### Codes of enumerations (10.4) -/

/-- Link state codes. -/
def LinkState.code : LinkState → Nat
  | .idle => 0 | .live => 1 | .late => 2 | .lost => 3 | .claim => 4

/-- Hold reason codes. -/
def HoldReason.code : HoldReason → Nat
  | .none => 0 | .notRunning => 1 | .disabled => 2 | .idle => 3 | .lost => 4 | .claim => 5

/-- Trace state codes. -/
def TraceState.code : TraceState → Nat
  | .recording => 0 | .closing _ => 1 | .frozen => 2

/-- The remaining count of a CLOSING trace, 0 otherwise. -/
def TraceState.remaining : TraceState → Nat
  | .closing n => n
  | _ => 0

/-- Reefer state codes; FFH for a free index is `reeferImage`'s. -/
def ReeferState.code : ReeferState → Nat
  | .tracked => 0 | .silent => 1 | .lost => 2 | .departed => 3

/-- Departure reason codes. -/
def DepartReason.code : DepartReason → Nat
  | .none => 0 | .unplugged => 1 | .replaced => 2

/-- Excursion state and count area codes. -/
def Area.code : Area → Nat
  | .normal => 0 | .high => 1 | .low => 2

/-- Segment class codes. -/
def SegClass.code : SegClass → Nat
  | .unknown => 0 | .good => 1 | .marginal => 2 | .hole => 3

/-- Run state codes. -/
def RunState.code : RunState → Nat
  | .unloaded => 0 | .loading => 1 | .running => 2 | .passOnly => 3

/-- Boom state codes (10.2). -/
def Boom.code : Boom → Nat
  | .up => 0 | .down => 1 | .moving => 2

/-- Boom state of a frame's boom byte; the parser has refused a byte above 2 (R10). -/
def Boom.ofCode (n : Nat) : Boom := if n = 0 then .up else if n = 1 then .down else .moving

/-- Power state codes (10.2). -/
def Power.code : Power → Nat
  | .off => 0 | .on => 1 | .defrost => 2 | .unplug => 3

/-- Power state of a report's power byte; the parser has refused a byte above 3 (R10). -/
def Power.ofCode (n : Nat) : Power :=
  if n = 0 then .off else if n = 1 then .on else if n = 2 then .defrost else .unplug

/-- View mode codes (10.1). -/
def ViewMode.code : ViewMode → Nat
  | .live => 0 | .header => 1 | .all => 2

/-- Halt reason codes (10.3, code 18H). -/
def HaltReason.code : HaltReason → Nat
  | .hold => 0 | .classRange => 1 | .length => 2

/-- Originating unit codes (10.3). -/
def UnitName.code : UnitName → Nat
  | .rcu => 1 | .clu => 2 | .rfu => 3 | .cvu => 4 | .su => 5 | .rpu => 6

/-- Command status values (10.1). -/
def CmdStatus.code : CmdStatus → Nat
  | .pending => 1 | .done => 2 | .refusedState => 3 | .refusedArg => 4 | .refusedBusy => 5

end Sys2Proof.Machine
end

