-- ==== Sys2Proof/Machine/Operands.lean ====
section
/-! DEFINITION. The operand forms: the bytes a write covers with active strobes, index words, slots of a ring, the
windows and their extents, the role of a transaction, and the matching of a response with what was issued. -/

namespace Sys2Proof.Machine

open Sys2Proof

/-! ### The bytes of a write -/

/-- The byte at an address lies in `[base, base + size)`. -/
def inExtent (base size a : Nat) : Bool := decide (base ≤ a) && decide (a < base + size)

/-- The write covers the byte at `a`, whatever its strobe. -/
def coversByte (w : Write) (a : Nat) : Bool := inExtent w.addr w.data.length a

/-- The byte written at `a` with its strobe active. -/
def activeByte (w : Write) (a : Nat) : Option Byte :=
  if w.addr ≤ a then (w.data[a - w.addr]?).join else none

/-- `len` bytes from `addr` share a byte with the extent `[base, base + size)`. -/
def overlaps (addr len base size : Nat) : Bool :=
  decide (0 < len) && decide (0 < size) && decide (addr < base + size) && decide (base < addr + len)

/-- The write covers a byte of the extent. -/
def touches (w : Write) (base size : Nat) : Bool := overlaps w.addr w.data.length base size

/-- The bytes of a word of `n` bytes as written, uncovered or inactive bytes given as 0 (R6, R18, R157). -/
def writtenBytes (w : Write) (base : Nat) : Nat → List Byte
  | 0 => []
  | n + 1 => (activeByte w base).getD 0 :: writtenBytes w (base + 1) n

/-- Every byte of a word of `n` bytes is covered with an active strobe. -/
def coversWhole (w : Write) (base : Nat) : Nat → Bool
  | 0 => true
  | n + 1 => (activeByte w base).isSome && coversWhole w (base + 1) n

/-- A 4-byte index word as a write carries it (R5, R6). -/
def indexValue (w : Write) (base : Nat) : Nat := ofLe (writtenBytes w base 4)

/-- Cells after a write: every byte covered with its strobe active becomes SEEN with the written value, every other
cell keeps what it held (R2, R15). `a` is the address of the first cell. -/
def writeCells (w : Write) : Nat → List (Option Byte) → List (Option Byte)
  | _, [] => []
  | a, c :: cs => (match activeByte w a with | some b => some b | none => c) :: writeCells w (a + 1) cs

/-- The slots of a ring of `count` slots of 256 bytes at `base` of which a write covers a byte among the first
`part` bytes of the slot, in ascending order (R2, R15). -/
def touchedSlots (w : Write) (base count part : Nat) : List Nat :=
  (List.range count).filter (fun k => touches w (base + Config.slotBytes * k) part)

/-! ### Windows (R142, R163) -/

/-- The extent of each view (R142). -/
def viewExtent : View → Nat
  | .status => 256
  | .crane => 3136
  | .coverage => 4160
  | .reefer => 131136

/-- The base of each view. -/
def viewBase (t : Windows) : View → Nat
  | .status => t.statusPage
  | .crane => t.craneView
  | .coverage => t.coverageView
  | .reefer => t.reeferView

/-- The four views. -/
def allViews : List View := [.status, .crane, .coverage, .reefer]

/-- The write covers a byte of a view's extent. -/
def touchesView (w : Write) (t : Windows) : Bool := allViews.any (fun v => touches w (viewBase t v) (viewExtent v))

/-- The setup block lies at SBASE × 16 MiB (R163). -/
def setupBase (s : State) : Nat := s.su.sbase.toNat * 16777216

/-- Address of the command word (10.1: offset 8). -/
def commandWordAddr (s : State) : Nat := setupBase s + 8

/-- Address of the command status word (10.1: offset 10H). -/
def statusWordAddr (s : State) : Nat := setupBase s + 16

/-! ### Roles (R162) -/

/-- The role of an AXI ID under the setup in force; OTHER where no range or no role table holds it (R162). -/
def roleOf (setup : Option Setup) (id : AxiId) : Role :=
  match setup with
  | some p =>
    match p.roles.find? (fun r => decide (r.lowest ≤ id.toNat) && decide (id.toNat ≤ r.highest)) with
    | some r => r.role
    | none => .other
  | none => .other

/-! ### Matching responses (R165) -/

/-- The AXI ID of an issued request. -/
def Issued.id : Issued → AxiId
  | .forwarded i _ => i
  | .injected tx => tx.id

/-- The oldest issued request of an ID, and the list without it: "since responses of one ID return in the order of
their requests" (R165). -/
def takeIssued (id : AxiId) : List Issued → Option (Issued × List Issued)
  | [] => none
  | i :: is =>
    if Issued.id i = id then some (i, is)
    else match takeIssued id is with
      | some (j, js) => some (j, i :: js)
      | none => none

/-- The oldest issued request of an ID on a channel. -/
def oldestIssued (s : State) (ch : Channel) (id : AxiId) : Option (Issued × List Issued) :=
  match ch with
  | .read => takeIssued id s.pu.issuedRead
  | .write => takeIssued id s.pu.issuedWrite

/-- The role under which a forwarded transaction's response comes back, or none when the response is not one of a
forwarded transaction: it then belongs to an injected one (R165), or the ID is refused (R162). The role decided at the
acceptance of the address stands where the acceptance is on record; otherwise the acceptance is taken to coincide with
this event (notes/assumptions/5.md). -/
def forwardedRole (s : State) (ch : Channel) (id : AxiId) : Option Role :=
  match oldestIssued s ch id with
  | some (.forwarded _ r, _) => some r
  | some (.injected _, _) => none
  | none => if id = injIdInForce s then none else some (roleOf s.su.setup id)

/-- The list of issued requests without the oldest of an ID. -/
def dropIssued (id : AxiId) (is : List Issued) : List Issued :=
  match takeIssued id is with
  | some (_, rest) => rest
  | none => is

/-- A write response passing back upstream unchanged (R164). -/
def returnWrite (w : Write) (s : State) : State :=
  { s with pu := { s.pu with issuedWrite := dropIssued w.id s.pu.issuedWrite, up := [⟨w.id, w.resp, []⟩] } }

/-- The oldest injected request matched by a response, when it is one, with the state in which its place in the
injection queue is free (R165). -/
def takeInjected (s : State) (ch : Channel) (id : AxiId) : Option (InjRequest × State) :=
  match ch with
  | .read =>
    match takeIssued id s.pu.issuedRead with
    | some (.injected tx, rest) => some (tx.request, { s with pu := { s.pu with issuedRead := rest } })
    | _ => none
  | .write =>
    match takeIssued id s.pu.issuedWrite with
    | some (.injected tx, rest) => some (tx.request, { s with pu := { s.pu with issuedWrite := rest } })
    | _ => none

end Sys2Proof.Machine
end

