-- ==== Sys2Proof/Machine/Flags.lean ====
section
/-! DEFINITION. The lines and flags: hold reasons and HOLD lines, the crane summary word, IRQ_EVENT, IRQ_CRANE, and
what an entry of a crane into LOST or CLAIM does to the crane latch and the pulse. -/

namespace Sys2Proof.Machine

open Sys2Proof

/-- The hold reason of crane n: the first condition of R45's table that holds. -/
def holdReason (s : State) (n : Nat) : HoldReason :=
  if s.su.runState ≠ .running then .notRunning
  else if !craneEnabled s.su.setup n then .disabled
  else match (s.clu.crane n).link with
    | .idle => .idle
    | .lost => .lost
    | .claim => .claim
    | .live => .none
    | .late => .none

/-- HOLD[n]: deasserted only while the part is RUNNING, crane n is enabled, and its link state is LIVE or LATE (R44);
that is, exactly while the hold reason is NONE (R45). -/
def holdLine (s : State) (n : Nat) : Bool := holdReason s n != .none

/-- A crane in LOST or CLAIM. -/
def linkDown (c : Crane) : Bool := c.link == .lost || c.link == .claim

/-- Bits of the cranes of a list for which `p` holds, bit n for crane n. -/
def craneBits (p : Nat → Bool) : List Nat → Half
  | [] => 0
  | n :: ns => (if p n then (1 : Half) <<< n else 0) ||| craneBits p ns

/-- The crane summary word: the cranes whose link state is LOST or CLAIM, whatever the mask (R150). -/
def craneSummary (s : State) : Half :=
  craneBits (fun n => linkDown (s.clu.crane n)) (List.range Config.craneCount)

/-- The HOLD lines as one field, bit n = HOLD[n] asserted (10.5). -/
def holdWord (s : State) : Half := craneBits (holdLine s) (List.range Config.craneCount)

/-- Crane n is in the crane IRQ mask (R153). -/
def inMask (p : Setup) (n : Nat) : Bool := p.irqMask.getLsbD n

/-- IRQ_EVENT: asserted while one of R159's three terms holds; deasserted while no parameters are in force (R153). -/
def irqEvent (s : State) : Bool :=
  match s.su.setup with
  | none => false
  | some p =>
    decide (p.eventThreshold ≤ s.rpu.unconsumed p.windows.repCount) || s.rpu.dropFlag || s.rpu.ring == .fault

/-- IRQ_CRANE by the mode in force (R161); deasserted while no parameters are in force (R153). -/
def irqCrane (s : State) : Bool :=
  match s.su.setup with
  | none => false
  | some p =>
    match p.irqMode with
    | .level => (List.range Config.craneCount).any (fun n => inMask p n && linkDown (s.clu.crane n))
    | .latchRead => s.rpu.craneLatch
    | .latchAck => s.rpu.craneLatch
    | .timed => s.rpu.pulseStart.isSome

/-- An entry of crane n into LOST or CLAIM, as the Report Unit sees it (R161): a masked crane sets the latch in the
latch modes and starts a pulse at the current QT in TIMED mode (notes/assumptions/12.md). -/
def craneEntered (n : Nat) (s : State) : State :=
  match s.su.setup with
  | none => s
  | some p =>
    if !inMask p n then s
    else match p.irqMode with
      | .level => s
      | .latchRead => { s with rpu := { s.rpu with craneLatch := true } }
      | .latchAck => { s with rpu := { s.rpu with craneLatch := true } }
      | .timed => { s with rpu := { s.rpu with pulseStart := some s.su.qt } }

end Sys2Proof.Machine
end

