-- ==== Sys2Proof/Machine/Frames.lean ====
section
/-! DEFINITION. The uplink frame parser: the outcome tests of R9, the field checks of R10, and the container ID tests
of R73 and R74, over the captured cells of one slot. -/

namespace Sys2Proof.Machine

open Sys2Proof

/-- An accepted CRANE_STATUS frame as it is handed to the Crane Link Unit (R13). -/
structure StatusFrame where
  crane    : Nat
  terminal : Word
  seq      : Half
  echo     : Half
  boom     : Boom
  gantry   : Nat
  localCtl : Bool
  level    : Half
  age      : Half
  deriving DecidableEq, Repr

/-- An accepted REEFER_REPORT frame as it is handed to the Reefer Unit (R13). -/
structure ReeferReport where
  container : List Byte
  cls       : Nat
  power     : Power
  plug      : Half
  setpoint  : Int
  supply    : Int
  ret       : Int
  alarms    : List Half
  level     : Half
  deriving DecidableEq, Repr

/-- One entry of a measurement report (R116). -/
structure MeasEntry where
  position : Nat
  level    : Half
  deriving DecidableEq, Repr

/-- The outcome of an item (R9), with what its record or its dispatch carries (R11, R13). -/
inductive ParseOutcome where
  | uncaptured
  | short (unseen : Nat)
  | unknownKind (kind : Byte)
  | badId (container : List Byte)
  | fieldBad (reason kind : Byte)
  | ignored
  | acceptedCrane (f : StatusFrame)
  | acceptedReefer (r : ReeferReport)
  | acceptedMeas (entries : List MeasEntry)
  deriving DecidableEq, Repr

/-- 7FFFH in a level field means an unknown level (00_scope.md, Conventions). -/
def unknownLevel : Half := 0x7FFF

/-! ### Container IDs -/

/-- A capital letter, 41H..5AH. -/
def isCapital (c : Byte) : Bool := decide (0x41 ≤ c.toNat) && decide (c.toNat ≤ 0x5A)

/-- A decimal digit, 30H..39H. -/
def isDigit (c : Byte) : Bool := decide (0x30 ≤ c.toNat) && decide (c.toNat ≤ 0x39)

/-- The format test of R73. -/
def idFormatOk (cs : List Byte) : Bool :=
  decide (cs.length = 11) && (cs.take 4).all isCapital && (cs.drop 4).all isDigit

/-- The value of a letter (R74): the values skip 11, 22 and 33. -/
def letterValue (c : Byte) : Nat :=
  let k := c.toNat - 0x41
  if k = 0 then 10 else if k ≤ 10 then 11 + k else if k ≤ 20 then 12 + k else 13 + k

/-- The value of a character of a container ID (R74). -/
def charValue (c : Byte) : Nat := if isCapital c then letterValue c else c.toNat - 0x30

/-- The weighted sum of R74, steps 1 to 3: the character at position i counts 2^i times. -/
def weightedSum : Nat → List Byte → Nat
  | _, [] => 0
  | weight, c :: cs => charValue c * weight + weightedSum (2 * weight) cs

/-- The check value of R74: the remainder by 11, a remainder of 10 giving 0. -/
def checkValue (cs : List Byte) : Nat :=
  let r := weightedSum 1 (cs.take 10) % 11
  if r = 10 then 0 else r

/-- The check-digit test of R74. -/
def checkDigitOk (cs : List Byte) : Bool := decide (checkValue cs = ((cs[10]?).getD 0).toNat - 0x30)

/-! ### Cells -/

/-- The byte of a cell, if SEEN. -/
def cellAt (cells : List (Option Byte)) (i : Nat) : Option Byte := (cells[i]?).join

/-- The bytes of the cells, UNSEEN ones as 0; read only where the SHORT test has required them SEEN. -/
def cellBytes (cells : List (Option Byte)) : List Byte := cells.map (fun c => c.getD 0)

/-- Number of UNSEEN cells among the `n` from `i`. -/
def unseenIn (cells : List (Option Byte)) (i n : Nat) : Nat :=
  ((List.range n).filter (fun k => (cellAt cells (i + k)).isNone)).length

/-- The payload bytes the SHORT test requires: those of a payload length byte that is SEEN and 240 or less (R9). -/
def requiredPayload (cells : List (Option Byte)) : Nat :=
  match cellAt cells 5 with
  | some l => if l.toNat ≤ 240 then l.toNat else 0
  | none => 0

/-- The number of UNSEEN bytes among those the SHORT test requires (R9, R11; notes/assumptions/15.md). -/
def unseenRequired (cells : List (Option Byte)) : Nat :=
  unseenIn cells 0 12 + unseenIn cells 12 (requiredPayload cells)

/-! ### Field checks (R10) -/

/-- The reason code of the first failing check of a list, in order. -/
def firstFailing : List (Bool × Byte) → Option Byte
  | [] => none
  | (fails, code) :: rest => if fails then some code else firstFailing rest

/-- The field checks of R10 for a complete frame, in the table's order. The entry count of a MEAS_REPORT is judged only
where its byte is SEEN, which it is for every payload length of 1..240 (notes/assumptions/16.md). -/
def fieldCheck (cells : List (Option Byte)) : Option Byte :=
  let bs := cellBytes cells
  let kind := field bs 4 1
  let l := field bs 5 1
  firstFailing ([(decide (field bs 8 4 = 0), 0x01)] ++
    (if kind = 0x01 then
      [(decide (l ≠ 9), 0x02),
       (decide (field bs 12 1 > 11), 0x03),
       (decide (field bs 13 1 > 2), 0x04)]
    else if kind = 0x03 then
      [(decide (l < 22), 0x02),
       (decide (field bs 25 1 > 4), 0x05),
       (decide (l ≠ 22 + 2 * field bs 25 1), 0x02),
       (!idFormatOk (slice bs 12 11), 0x06),
       (!checkDigitOk (slice bs 12 11), 0x07),
       (decide (field bs 23 1 > 15), 0x08),
       (decide (field bs 24 1 > 3), 0x09)]
    else
      [(decide (l = 0), 0x02),
       ((cellAt cells 12).isSome && (decide (field bs 12 1 = 0) || decide (field bs 12 1 > 8)), 0x0A),
       (decide (l ≠ 1 + 6 * field bs 12 1), 0x02)]))

/-! ### Accepted frames -/

/-- The status frame of the cells (10.2). -/
def statusFrame (cells : List (Option Byte)) : StatusFrame :=
  let bs := cellBytes cells
  { crane    := field bs 12 1
    terminal := BitVec.ofNat 32 (field bs 8 4)
    seq      := BitVec.ofNat 16 (field bs 6 2)
    echo     := BitVec.ofNat 16 (field bs 14 2)
    boom     := Boom.ofCode (field bs 13 1)
    gantry   := field bs 16 4
    localCtl := (lowByte (field bs 20 1)).getLsbD 0
    level    := BitVec.ofNat 16 (field bs 0 2)
    age      := BitVec.ofNat 16 (field bs 2 2) }

/-- The reefer report of the cells (10.2). -/
def reeferReport (cells : List (Option Byte)) : ReeferReport :=
  let bs := cellBytes cells
  { container := slice bs 12 11
    cls       := field bs 23 1
    power     := Power.ofCode (field bs 24 1)
    plug      := BitVec.ofNat 16 (field bs 26 2)
    setpoint  := signed16 bs 28
    supply    := signed16 bs 30
    ret       := signed16 bs 32
    alarms    := (List.range (field bs 25 1)).map (fun k => BitVec.ofNat 16 (field bs (34 + 2 * k) 2))
    level     := BitVec.ofNat 16 (field bs 0 2) }

/-- The entries of a measurement report, in frame order (10.2). -/
def measEntries (cells : List (Option Byte)) : List MeasEntry :=
  let bs := cellBytes cells
  (List.range (field bs 12 1)).map (fun k =>
    { position := field bs (13 + 6 * k) 4, level := BitVec.ofNat 16 (field bs (17 + 6 * k) 2) })

/-- The outcome of a captured entry: the tests of R9, in order. -/
def parseCells (setup : Option Setup) (cells : List (Option Byte)) : ParseOutcome :=
  let bs := cellBytes cells
  let kind := lowByte (field bs 4 1)
  if unseenRequired cells ≠ 0 then .short (unseenRequired cells)
  else if kind ≠ 0x01 ∧ kind ≠ 0x03 ∧ kind ≠ 0x04 then .unknownKind kind
  else match fieldCheck cells with
    | some reason => if reason = 0x07 then .badId (slice bs 12 11) else .fieldBad reason kind
    | none =>
      if kind = 0x01 then
        if craneEnabled setup (field bs 12 1) then .acceptedCrane (statusFrame cells) else .ignored
      else if kind = 0x03 then .acceptedReefer (reeferReport cells)
      else .acceptedMeas (measEntries cells)

end Sys2Proof.Machine
end

