-- ==== Sys2Proof/Machine/Records.lean ====
section
/-! DEFINITION. The report records: for each code the originating unit, the object index and the detail bytes of
10_memory_formats.md, 10.3, and the 32-byte layout a record is written in (R174). -/

namespace Sys2Proof.Machine

open Sys2Proof

/-- FFFFH, the object index of a record that names none (10.3). -/
def noObject : Half := 0xFFFF

/-- A record with its detail filled up with zeros to twenty bytes (R174). -/
def mkRecord (code : Byte) (origin : UnitName) (object : Half) (qt : Qt) (detail : List Byte) : Record :=
  ⟨code, origin, object, qt, padTo 20 detail⟩

/-- The 32 bytes of a record with dropped_before filled in (10.3, R174). -/
def recordBytes (r : Record) (droppedBefore : Nat) : List Byte :=
  [r.code, lowByte r.origin.code] ++ le16 r.object ++ le32 r.qt ++ le16 (BitVec.ofNat 16 (min 65535 droppedBefore))
    ++ [0, 0] ++ padTo 20 r.detail

/-- A last arrival in a record: 0 where there is none (R174). -/
def arrivalBytes (a : Option Qt) : List Byte := le32 (a.getD 0)

/-! ### Packed IDs -/

/-- The number the serial characters 4..9 of a container ID make, read as decimal digits. -/
def serialNumber (cs : List Byte) : Nat := cs.foldl (fun n c => 10 * n + (c.toNat - 0x30)) 0

/-- The four letters, five bits each, character 0 in the lowest. -/
def letterBits : List Byte → Nat
  | [] => 0
  | c :: cs => (c.toNat - 0x41) + 32 * letterBits cs

/-- The 48-bit packed ID of a container ID (10.3). -/
def packedId (id : List Byte) : Nat :=
  serialNumber ((id.drop 4).take 6) + 2 ^ 20 * (((id[10]?).getD 0x30).toNat - 0x30) + 2 ^ 24 * letterBits (id.take 4)

/-- The six bytes of a packed ID. -/
def packedBytes (id : List Byte) : List Byte :=
  let n := packedId id
  [lowByte n, lowByte (n / 2 ^ 8), lowByte (n / 2 ^ 16), lowByte (n / 2 ^ 24), lowByte (n / 2 ^ 32),
    lowByte (n / 2 ^ 40)]

/-! ### Ring Capture Unit (R3, R6, R11, R18) -/

/-- 01H SLOT_SHORT: the number of UNSEEN required bytes. -/
def recSlotShort (slot : Nat) (unseen : Nat) (qt : Qt) : Record :=
  mkRecord 0x01 .rcu (BitVec.ofNat 16 slot) qt (le16 (BitVec.ofNat 16 unseen))

/-- 02H SLOT_UNCAPTURED. -/
def recSlotUncaptured (slot : Nat) (qt : Qt) : Record := mkRecord 0x02 .rcu (BitVec.ofNat 16 slot) qt []

/-- 03H KIND_UNKNOWN: the kind byte. -/
def recKindUnknown (slot : Nat) (kind : Byte) (qt : Qt) : Record :=
  mkRecord 0x03 .rcu (BitVec.ofNat 16 slot) qt [kind]

/-- 04H FIELD_BAD: the reason code of R10 and the kind byte. -/
def recFieldBad (slot : Nat) (reason : Byte) (kind : Byte) (qt : Qt) : Record :=
  mkRecord 0x04 .rcu (BitVec.ofNat 16 slot) qt [reason, kind]

/-- 05H INDEX_FAULT: ring (0 UL, 1 DL, 2 report), case (0 out of range, 1 partial write, 2 read at reload), value. It
names a ring and no object (notes/assumptions/13.md). -/
def recIndexFault (origin : UnitName) (ring kase : Byte) (value : Nat) (qt : Qt) : Record :=
  mkRecord 0x05 origin noObject qt ([ring, kase, 0, 0] ++ le32 (BitVec.ofNat 32 value))

/-- 06H CAPTURE_OVERFLOW: the slot of the write, and the slot dropped where one was (R3). The object index is the slot
of the write (notes/assumptions/13.md). -/
def recCaptureOverflow (slot : Nat) (dropped : Option Nat) (qt : Qt) : Record :=
  mkRecord 0x06 .rcu (BitVec.ofNat 16 slot) qt
    (le16 (BitVec.ofNat 16 slot) ++ le16 (BitVec.ofNat 16 (dropped.getD 0)) ++ [flag dropped.isSome])

/-! ### Crane Link Unit (R26 to R42, R55, R61, R62) -/

/-- A record of the Crane Link Unit about crane n. -/
def craneRecord (code : Byte) (n : Nat) (qt : Qt) (detail : List Byte) : Record :=
  mkRecord code .clu (BitVec.ofNat 16 n) qt detail

/-- 10H LINK_LIVE: the state left and the last arrival. -/
def recLinkLive (n : Nat) (left : LinkState) (arrival : Option Qt) (qt : Qt) : Record :=
  craneRecord 0x10 n qt ([lowByte left.code, 0, 0, 0] ++ arrivalBytes arrival)

/-- 11H LINK_LATE: outstanding entries and last arrival. -/
def recLinkLate (n outstanding : Nat) (arrival : Option Qt) (qt : Qt) : Record :=
  craneRecord 0x11 n qt ([satByte outstanding, 0, 0, 0] ++ arrivalBytes arrival)

/-- 12H LINK_LOST: reason (0 SILENT, 1 NO_ECHO), commands dropped, state left, segment (FFH unknown), class, last
arrival. -/
def recLinkLost (n : Nat) (noEcho : Bool) (dropped : Nat) (left : LinkState) (segment : Option Nat) (cls : SegClass)
    (arrival : Option Qt) (qt : Qt) : Record :=
  craneRecord 0x12 n qt
    ([flag noEcho, satByte dropped, lowByte left.code, lowByte (segment.getD 0xFF), lowByte cls.code, 0, 0, 0]
      ++ arrivalBytes arrival)

/-- 13H LINK_CLAIM: reason (0 MISMATCH, 1 BOUND_ELSEWHERE), state left, frame terminal, expected terminal (0 none). -/
def recLinkClaim (n : Nat) (elsewhere : Bool) (left : LinkState) (frame : Word) (expected : Option Word) (qt : Qt) :
    Record :=
  craneRecord 0x13 n qt ([flag elsewhere, lowByte left.code, 0, 0] ++ le32 frame ++ le32 (expected.getD 0))

/-- 14H SEQ_GAP: expected, received, missing. -/
def recSeqGap (n : Nat) (expected received : Half) (missing : Nat) (qt : Qt) : Record :=
  craneRecord 0x14 n qt (le16 expected ++ le16 received ++ le16 (BitVec.ofNat 16 missing))

/-- 15H TERMINAL_LEARNED: the terminal. -/
def recTerminalLearned (n : Nat) (terminal : Word) (qt : Qt) : Record :=
  craneRecord 0x15 n qt ([0, 0, 0, 0] ++ le32 terminal)

/-- 18H CMD_HALTED. -/
def recCmdHalted (n slot : Nat) (seq : Half) (cls : Byte) (reason : HaltReason) (hold : HoldReason) (first : Bool)
    (validity : Half) (qt : Qt) : Record :=
  craneRecord 0x18 n qt
    (le16 (BitVec.ofNat 16 slot) ++ le16 seq ++ [cls, lowByte reason.code, lowByte hold.code, flag first]
      ++ le16 validity)

/-- 19H CMD_STALE. -/
def recCmdStale (n slot : Nat) (seq : Half) (cls : Byte) (first listed : Bool) (validity : Half) (elapsedMs : Nat)
    (qt : Qt) : Record :=
  craneRecord 0x19 n qt
    (le16 (BitVec.ofNat 16 slot) ++ le16 seq ++ [cls, flag first, flag listed, 0] ++ le16 validity ++ [0, 0]
      ++ le32 (BitVec.ofNat 32 elapsedMs))

/-- 1AH CMD_UNCONFIRMED: the removed entry and the displacing sequence. -/
def recCmdUnconfirmed (n : Nat) (removed : Outstanding) (displacing : Half) (qt : Qt) : Record :=
  craneRecord 0x1A n qt (le16 removed.seq ++ [removed.cls, 0] ++ le16 displacing ++ [0, 0] ++ le32 removed.departed)

/-- 1BH ECHO_AHEAD: the echo, the sequence compared, and with what (0 newest entry, 1 last listed). -/
def recEchoAhead (n : Nat) (echo compared : Half) (withLastListed : Bool) (qt : Qt) : Record :=
  craneRecord 0x1B n qt (le16 echo ++ le16 compared ++ [flag withLastListed])

/-- 1CH CMD_ORDER: slot, sequence, newest, oldest, decision (0 DELIVERED, 1 STALE), failed comparison (0 newest,
1 oldest). -/
def recCmdOrder (n slot : Nat) (seq newest oldest : Half) (stale failedOldest : Bool) (qt : Qt) : Record :=
  craneRecord 0x1C n qt
    (le16 (BitVec.ofNat 16 slot) ++ le16 seq ++ le16 newest ++ le16 oldest ++ [flag stale, flag failedOldest])

/-- 34H POSITION_CLAMPED of the Crane Link Unit: the position as sent (R35). -/
def recCraneClamped (n : Nat) (sent : Nat) (qt : Qt) : Record := craneRecord 0x34 n qt (le32 (BitVec.ofNat 32 sent))

/-! ### Reefer Unit (R75 to R82, R94 to R107) -/

/-- A record of the Reefer Unit about table index i. -/
def reeferRecord (code : Byte) (i : Nat) (qt : Qt) (detail : List Byte) : Record :=
  mkRecord code .rfu (BitVec.ofNat 16 i) qt detail

/-- 20H REEFER_NEW: the ID, the old ID (zero if the index was free), plug, class, reused, old departure reason. -/
def recReeferNew (i : Nat) (id : List Byte) (plug : Half) (cls : Nat) (old : Option Reefer) (qt : Qt) : Record :=
  reeferRecord 0x20 i qt
    (packedBytes id ++ (match old with | some o => packedBytes o.container | none => List.replicate 6 0) ++ le16 plug
      ++ [lowByte cls, flag old.isSome, lowByte (match old with | some o => o.reason.code | none => 0)])

/-- 21H REEFER_REPLACED: occupant and claimant IDs, plug, claimant index, state left. -/
def recReeferReplaced (y : Nat) (occupant claimant : List Byte) (plug : Half) (i : Nat) (left : ReeferState) (qt : Qt) :
    Record :=
  reeferRecord 0x21 y qt
    (packedBytes occupant ++ packedBytes claimant ++ le16 plug ++ le16 (BitVec.ofNat 16 i) ++ [lowByte left.code])

/-- 22H REEFER_DEPARTED: the ID, the report's plug, the plug left and its presence, state left, reason. -/
def recReeferDeparted (i : Nat) (id : List Byte) (plug : Half) (plugLeft : Option Half) (left : ReeferState) (qt : Qt) :
    Record :=
  reeferRecord 0x22 i qt
    (packedBytes id ++ le16 plug ++ le16 (plugLeft.getD 0)
      ++ [flag plugLeft.isSome, lowByte left.code, lowByte DepartReason.unplugged.code])

/-- 23H REEFER_TABLE_FULL: the ID, plug, class, and the occupant where there is one; its object index is the
occupant's, or FFFFH (R81). -/
def recTableFull (id : List Byte) (plug : Half) (cls : Nat) (occupant : Option (Nat × Reefer)) (qt : Qt) : Record :=
  mkRecord 0x23 .rfu (match occupant with | some (y, _) => BitVec.ofNat 16 y | none => noObject) qt
    (packedBytes id ++ le16 plug ++ [lowByte cls, flag occupant.isSome] ++
      (match occupant with
        | some (y, o) => packedBytes o.container ++ le16 (BitVec.ofNat 16 y)
        | none => []))

/-- 24H REEFER_BAD_ID: the eleven ID characters; the object index is the slot (R11). -/
def recBadId (slot : Nat) (id : List Byte) (qt : Qt) : Record :=
  mkRecord 0x24 .rfu (BitVec.ofNat 16 slot) qt (padTo 11 id)

/-- 27H REEFER_POWER_OFF: the ID, the power state left, the excursion state, the plug. -/
def recPowerOff (i : Nat) (e : Reefer) (qt : Qt) : Record :=
  reeferRecord 0x27 i qt
    (packedBytes e.container ++ [lowByte e.power.code, lowByte e.excursion.code] ++ le16 e.plug)

/-- 28H EXCURSION_HIGH, 29H EXCURSION_LOW: the ID, T, its sensor (0 supply, 1 return), state left, setpoint, count. -/
def recExcursion (low : Bool) (i : Nat) (id : List Byte) (t : Int) (fromReturn : Bool) (left : Area) (setpoint : Int)
    (count : Nat) (qt : Qt) : Record :=
  reeferRecord (if low then 0x29 else 0x28) i qt
    (packedBytes id ++ le16 (half t) ++ [flag fromReturn, lowByte left.code] ++ le16 (half setpoint)
      ++ [lowByte count])

/-- 2AH EXCURSION_CLEAR: as 28H without the count. -/
def recExcursionClear (i : Nat) (id : List Byte) (t : Int) (fromReturn : Bool) (left : Area) (setpoint : Int)
    (qt : Qt) : Record :=
  reeferRecord 0x2A i qt
    (packedBytes id ++ le16 (half t) ++ [flag fromReturn, lowByte left.code] ++ le16 (half setpoint))

/-- 2BH REEFER_ALARM: the ID, the code, its position, the power state. -/
def recAlarm (i : Nat) (id : List Byte) (code : Half) (position : Nat) (power : Power) (qt : Qt) : Record :=
  reeferRecord 0x2B i qt (packedBytes id ++ le16 code ++ [lowByte position, lowByte power.code])

/-- 2CH REEFER_SILENT, 2EH SILENCE_EXCUSED: the ID, segment, class code, shadowed, excusals used, elapsed. -/
def recSilence (excused : Bool) (i : Nat) (e : Reefer) (cls : Nat) (shadowed : Bool) (excusals : Nat)
    (elapsedMs : Nat) (qt : Qt) : Record :=
  reeferRecord (if excused then 0x2E else 0x2C) i qt
    (packedBytes e.container ++ [lowByte e.segment, lowByte cls, flag shadowed, lowByte excusals, 0, 0]
      ++ le32 (BitVec.ofNat 32 elapsedMs))

/-- 2DH REEFER_LOST: the ID, segment, state left, excusals used, elapsed. -/
def recReeferLost (i : Nat) (e : Reefer) (elapsedMs : Nat) (qt : Qt) : Record :=
  reeferRecord 0x2D i qt
    (packedBytes e.container ++ [lowByte e.segment, lowByte e.state.code, 0, lowByte e.excusals, 0, 0]
      ++ le32 (BitVec.ofNat 32 elapsedMs))

/-- 2FH REEFER_RETURNED: the ID, state left, departure reason held, plug, plug changed. -/
def recReturned (i : Nat) (id : List Byte) (left : ReeferState) (reason : DepartReason) (plug : Half) (changed : Bool)
    (qt : Qt) : Record :=
  reeferRecord 0x2F i qt
    (packedBytes id ++ [lowByte left.code, lowByte reason.code] ++ le16 plug ++ [flag changed])

/-- 34H POSITION_CLAMPED of the Reefer Unit: the plug as sent and the segment given (R75). -/
def recPlugClamped (i : Nat) (plug : Half) (segment : Nat) (qt : Qt) : Record :=
  reeferRecord 0x34 i qt (le16 plug ++ [lowByte segment])

/-! ### Coverage Unit (R116, R125, R130, R132) -/

/-- A record of the Coverage Unit about segment s. -/
def segmentRecord (code : Byte) (s : Nat) (qt : Qt) (detail : List Byte) : Record :=
  mkRecord code .cvu (BitVec.ofNat 16 s) qt detail

/-- 30H CLASS_CHANGE: class left and declared, cause (0 OBSERVATION, 1 VOTE), history length, V (8000H none), G, H, the
history oldest first. -/
def recClassChange (s : Nat) (left declared : SegClass) (v : Option Int) (g h : Int) (history : List SegClass)
    (qt : Qt) : Record :=
  segmentRecord 0x30 s qt
    ([lowByte left.code, lowByte declared.code, flag v.isNone, lowByte history.length]
      ++ le16 (match v with | some x => half x | none => 0x8000) ++ le16 (half g) ++ le16 (half h)
      ++ history.map (fun c => lowByte c.code))

/-- 31H SEGMENT_AGED: class left, DRIFT was set, elapsed. -/
def recSegmentAged (s : Nat) (left : SegClass) (drift : Bool) (elapsedMs : Nat) (qt : Qt) : Record :=
  segmentRecord 0x31 s qt ([lowByte left.code, flag drift, 0, 0] ++ le32 (BitVec.ofNat 32 elapsedMs))

/-- 32H DRIFT_SET, 33H DRIFT_CLEAR: D, B, D − B. -/
def recDrift (set : Bool) (s : Nat) (d b : Int) (qt : Qt) : Record :=
  segmentRecord (if set then 0x32 else 0x33) s qt (le16 (half d) ++ le16 (half b) ++ le16 (half (d - b)))

/-- 34H POSITION_CLAMPED of the Coverage Unit: entries clamped and the first position as sent (R116). -/
def recMeasClamped (lastSegment entries first : Nat) (qt : Qt) : Record :=
  segmentRecord 0x34 lastSegment qt ([lowByte entries, 0, 0, 0] ++ le32 (BitVec.ofNat 32 first))

/-! ### Setup Unit (R170) -/

/-- 40H SETUP_LOADED: KEEP, reefer table kept, coverage map kept, geometry changed, crane table reset, entries with
clamped segment, entries returned from LOST to SILENT, segments with clamped average. -/
def recSetupLoaded (keep mapKept geometryChanged : Bool) (clampedEntries returnedEntries clampedSegments : Nat)
    (qt : Qt) : Record :=
  mkRecord 0x40 .su noObject qt
    ([flag keep, flag keep, flag mapKept, flag geometryChanged, 1, 0] ++ le16 (BitVec.ofNat 16 clampedEntries)
      ++ le16 (BitVec.ofNat 16 returnedEntries) ++ le16 (BitVec.ofNat 16 clampedSegments))

end Sys2Proof.Machine
end

