-- ==== Sys2Proof/Machine/Coverage.lean ====
section
/-! DEFINITION. The Coverage Unit (06_the_quay_coverage_map.md): observations, the running average, candidates and the
declared class, loss votes, the shadow test, the steps of a coverage scan visit, and COVERAGE_CLEAR. -/

namespace Sys2Proof.Machine

open Sys2Proof

/-! ### Shadows (R46, R118, R135) -/

/-- Crane n shadows: enabled, position known, not IDLE, boom DOWN or MOVING (R46). The answer is its position. -/
def shadowPosition (s : State) (n : Nat) : Option Nat :=
  let c := s.clu.crane n
  if craneEnabled s.su.setup n && c.link != .idle && c.boom != .up then c.position else none

/-- The stretch around a position overlaps segment `seg`, on signed numbers without wrap (R118). -/
def stretchCovers (p : CoverageParams) (position seg : Nat) : Bool :=
  decide ((position : Int) - p.shadowCm < ((seg + 1) * p.segLenCm : Nat)) &&
    decide (((seg * p.segLenCm : Nat) : Int) ≤ position + p.shadowCm)

/-- Segment `seg` is shadowed now by a crane other than the excluded one (R118, R135). -/
def shadowedNow (s : State) (p : Setup) (seg : Nat) (excluded : Option Nat) : Bool :=
  (List.range Config.craneCount).any (fun n =>
    if excluded = some n then false
    else match shadowPosition s n with
      | some position => stretchCovers p.coverage position seg
      | none => false)

/-! ### The running average (R121) -/

/-- The weighting step: floor((diff + 2^(k−1)) / 2^k). -/
def weightStep (k : Nat) (diff : Int) : Int := (diff + 2 ^ (k - 1)) / 2 ^ k

/-- An average after an observation of level16 `l16`: EMPTY becomes it, another moves toward it (R121). -/
def average (k : Nat) (a : Option Int) (l16 : Int) : Option Int :=
  match a with
  | none => some l16
  | some v => some (v + weightStep k (l16 - v))

/-! ### Candidates and the declared class (R123 to R125) -/

/-- The thresholds G and H of a segment (R123). -/
def thresholds (p : Setup) (seg : Nat) : Int × Int :=
  match p.classMode, baselineOf p seg with
  | .relative, some b => (b + 16 * p.coverage.goodOfs, b + 16 * p.coverage.holeOfs)
  | _, _ => (16 * p.coverage.goodLevel, 16 * p.coverage.holeLevel)

/-- The lower of the UL and DL averages that are not EMPTY (R124). -/
def weakerAverage (g : Segment) : Option Int :=
  match g.ul, g.dl with
  | some a, some b => some (min a b)
  | some a, none => some a
  | none, some b => some b
  | none, none => none

/-- The class of V by the thresholds alone (R124, the last case). -/
def plainClass (v g h : Int) : SegClass := if g ≤ v then .good else if v < h then .hole else .marginal

/-- The candidate of R124, with the hysteresis of the declared class. -/
def candidate (hyst : Nat) (declared : SegClass) (v g h : Int) : SegClass :=
  match declared with
  | .hole => if v < h + hyst then .hole else plainClass v g h
  | .good => if g - hyst ≤ v then .good else plainClass v g h
  | .marginal => plainClass v g h
  | .unknown => plainClass v g h

/-- The history with a class appended, the oldest removed when it held 5 (R125). -/
def pushHistory (history : List SegClass) (c : SegClass) : List SegClass :=
  let h := history ++ [c]
  h.drop (h.length - Config.historyDepth)

/-- The class that 3 or more entries of a history equal, if any (R125). -/
def majority (history : List SegClass) : Option SegClass :=
  [SegClass.good, SegClass.marginal, SegClass.hole].find? (fun c => decide (3 ≤ history.count c))

/-- A class appended to the history of a segment and the declaration check made (R125). `v` is V for an observation
and none for a vote. -/
def appendClass (p : Setup) (seg : Nat) (g : Segment) (c : SegClass) (v : Option Int) (now : Qt) :
    Segment × List Record :=
  let history := pushHistory g.history c
  let t := thresholds p seg
  match majority history with
  | some declared =>
    if declared = g.declared then ({ g with history := history }, [])
    else ({ g with history := history, declared := declared },
      [recClassChange seg g.declared declared v t.1 t.2 history now])
  | none => ({ g with history := history }, [])

/-! ### Observations (R115 to R120) -/

/-- The average an observation feeds (R115). -/
inductive Direction where
  | ul | dl
  deriving DecidableEq, Repr

/-- An unshadowed observation (R120): stored, counted, then the candidate and the declaration check. -/
def storeUnshadowed (p : Setup) (seg : Nat) (dir : Direction) (l16 : Int) (now : Qt) (g : Segment) :
    Segment × List Record :=
  let k := p.coverage.weightShift
  let g1 : Segment := match dir with
    | .ul => { g with ul := average k g.ul l16 }
    | .dl => { g with dl := average k g.dl l16 }
  let g2 : Segment := { g1 with lastUnshadowed := now, unshadowed := satInc g1.unshadowed }
  match weakerAverage g2 with
  | some v =>
    let t := thresholds p seg
    appendClass p seg g2 (candidate p.coverage.hyst16 g2.declared v t.1 t.2) (some v) now
  | none => (g2, [])

/-- A shadowed observation (R119). -/
def storeShadowed (p : Setup) (l16 : Int) (now : Qt) (g : Segment) : Segment :=
  { g with
    shadow := average p.coverage.weightShift g.shadow l16
    lastShadowed := now
    shadowed := satInc g.shadowed }

/-- One observation of `level` dBm taken whole (R117 to R120). -/
def observeSegment (p : Setup) (shadow : Bool) (seg : Nat) (dir : Direction) (level : Int) (now : Qt) (g : Segment) :
    Segment × List Record :=
  if level < p.coverage.accLow ∨ p.coverage.accHigh < level then ({ g with rejected := satInc g.rejected }, [])
  else if shadow then (storeShadowed p (16 * level) now g, [])
  else storeUnshadowed p seg dir (16 * level) now g

/-- An observation reaching the Coverage Unit, with its segment, direction, excluded crane and now (R115). -/
def observe (p : Setup) (seg : Nat) (dir : Direction) (excluded : Option Nat) (level : Int) (now : Qt) (s : State) :
    State :=
  let r := observeSegment p (shadowedNow s p seg excluded) seg dir level now (s.cvu.segment seg)
  { s with cvu := s.cvu.setSegment seg r.1 }.report r.2

/-- The observation of a frame's receive level, none for 7FFFH (R14). -/
def observeLevel (p : Setup) (seg : Nat) (excluded : Option Nat) (level : Half) (now : Qt) (s : State) : State :=
  if level = unknownLevel then s else observe p seg .ul excluded level.toInt now s

/-! ### Measurement reports (R116) -/

/-- The position of an entry brought onto the quay. -/
def clampPosition (p : Setup) (position : Nat) : Nat := if position < quayEnd p then position else quayEnd p - 1

/-- The entries of a measurement report as DL observations, in list order. -/
def observeEntries (p : Setup) (now : Qt) : List MeasEntry → State → State
  | [], s => s
  | e :: es, s =>
    let s' := if e.level = unknownLevel then s
      else observe p (segmentOf p (clampPosition p e.position)) .dl none e.level.toInt now s
    observeEntries p now es s'

/-- The measurement clamp reported flag and its POSITION_CLAMPED record (R116). -/
def measClamp (p : Setup) (entries : List MeasEntry) (now : Qt) (s : State) : State :=
  let clamped := entries.filter (fun e => decide (quayEnd p ≤ e.position))
  match clamped with
  | [] => { s with cvu := { s.cvu with clampReported := false } }
  | e :: _ =>
    if s.cvu.clampReported then s
    else { s with cvu := { s.cvu with clampReported := true } }.report
      [recMeasClamped (p.coverage.segCount - 1) clamped.length e.position now]

/-- A measurement report taken whole (R116). -/
def takeMeasurement (p : Setup) (entries : List MeasEntry) (now : Qt) (s : State) : State :=
  observeEntries p now entries (measClamp p entries now s)

/-! ### Loss votes (R127) -/

/-- A loss vote for a segment: taken as HOLE when an average is filled, else discarded and counted. -/
def voteSegment (p : Setup) (seg : Nat) (now : Qt) (g : Segment) : Segment × List Record :=
  if (weakerAverage g).isSome then appendClass p seg g .hole none now
  else ({ g with discarded := satInc g.discarded }, [])

/-! ### Scan visits (R130 to R132) -/

/-- AGE_S × 1000 ms have passed since `last`. -/
def agedOut (p : Setup) (now last : Qt) : Bool := decide (p.coverage.ageS * 1000 ≤ elapsed now last)

/-- A visit ages the UL and DL averages of the segment: one is filled and AGE_S has passed (R130). -/
def averagesAged (p : Setup) (now : Qt) (g : Segment) : Bool :=
  (weakerAverage g).isSome && agedOut p now g.lastUnshadowed

/-- A visit ages the shadow average of the segment: it is filled and AGE_S has passed (R131). -/
def shadowAged (p : Setup) (now : Qt) (g : Segment) : Bool := g.shadow.isSome && agedOut p now g.lastShadowed

/-- The aging of the UL and DL averages (R130). -/
def ageSegment (p : Setup) (seg : Nat) (now : Qt) (g : Segment) : Segment × List Record :=
  if averagesAged p now g then
    ({ g with ul := none, dl := none, history := [], declared := .unknown, drift := false },
      [recSegmentAged seg g.declared g.drift (elapsed now g.lastUnshadowed) now])
  else (g, [])

/-- The aging of the shadow average (R131). -/
def ageShadow (p : Setup) (now : Qt) (g : Segment) : Segment :=
  if shadowAged p now g then { g with shadow := none } else g

/-- The drift test (R132). -/
def driftTest (p : Setup) (seg : Nat) (now : Qt) (g : Segment) : Segment × List Record :=
  match baselineOf p seg, g.dl with
  | some b, some d =>
    if !g.drift && decide ((16 * p.coverage.driftDb : Nat) < (d - b).natAbs) then
      ({ g with drift := true }, [recDrift true seg d b now])
    else if g.drift && decide ((d - b).natAbs ≤ 16 * (p.coverage.driftDb - 1)) then
      ({ g with drift := false }, [recDrift false seg d b now])
    else (g, [])
  | _, _ => (g, [])

/-- A change of one segment that may make records, applied to the state. -/
def changeSegment (seg : Nat) (f : Segment → Segment × List Record) (s : State) : State :=
  let r := f (s.cvu.segment seg)
  { s with cvu := s.cvu.setSegment seg r.1 }.report r.2

/-- The three steps of a visit in R129's order. -/
def visitSegment (p : Setup) (seg : Nat) (now : Qt) (s : State) : State :=
  changeSegment seg (driftTest p seg now)
    (changeSegment seg (fun g => (ageShadow p now g, []))
      (changeSegment seg (ageSegment p seg now) s))

/-- The coverage scan visit of the segment at the scan position, and the advance of the position (R129). -/
def coverageVisit (p : Setup) (s : State) : State :=
  let s' := visitSegment p s.cvu.scanPos s.su.qt s
  let next := if s'.cvu.scanPos + 1 < p.coverage.segCount then s'.cvu.scanPos + 1 else 0
  { s' with cvu := { s'.cvu with scanPos := next } }

/-! ### COVERAGE_CLEAR (R136) -/

/-- The segments an argument of COVERAGE_CLEAR names. -/
def clearedSegments (p : Setup) (arg : Half) : List Nat :=
  if arg = 0xFFFF then List.range p.coverage.segCount else [arg.toNat]

/-- The map with the named segments emptied. -/
def clearSegments (p : Setup) (arg : Half) (u : CoverageUnit) : CoverageUnit :=
  { u with segments := Table.modifyAll Segment.blank (fun _ => Segment.blank) (clearedSegments p arg) u.segments }

end Sys2Proof.Machine
end

