-- ==== Sys2Proof/Machine/Cranes.lean ====
section
/-! DEFINITION. The Crane Link Unit (02_crane_links.md): the seven steps of a status frame, the deadline checks, entry
into LOST, and the commands CRANE_RESET and TRACE_OPEN. -/

namespace Sys2Proof.Machine

open Sys2Proof

/-! ### Counters (R49) -/

/-- One more status frame discarded as a duplicate. -/
def Crane.countDuplicate (c : Crane) : Crane :=
  { c with counters := { c.counters with duplicate := c.counters.duplicate + 1 } }
/-- One more status frame discarded as behind. -/
def Crane.countBehind (c : Crane) : Crane := { c with counters := { c.counters with behind := c.counters.behind + 1 } }
/-- One more status frame taken with a gap. -/
def Crane.countGap (c : Crane) : Crane := { c with counters := { c.counters with gap := c.counters.gap + 1 } }
/-- One more aged frame. -/
def Crane.countAged (c : Crane) : Crane := { c with counters := { c.counters with aged := c.counters.aged + 1 } }
/-- One more frame discarded in CLAIM. -/
def Crane.countClaimDiscard (c : Crane) : Crane :=
  { c with counters := { c.counters with claimDiscard := c.counters.claimDiscard + 1 } }
/-- One more command fetch decided HALT. -/
def Crane.countHalted (c : Crane) : Crane := { c with counters := { c.counters with halted := c.counters.halted + 1 } }
/-- One more command decided STALE. -/
def Crane.countStale (c : Crane) : Crane := { c with counters := { c.counters with stale := c.counters.stale + 1 } }
/-- `n` more commands removed from the list without an echo. -/
def Crane.countUnconfirmed (c : Crane) (n : Nat) : Crane :=
  { c with counters := { c.counters with unconfirmed := c.counters.unconfirmed + BitVec.ofNat 32 n } }

/-- The outstanding list emptied and its entries counted as unconfirmed (R27, R42, R48). -/
def Crane.dropOutstanding (c : Crane) : Crane :=
  { c.countUnconfirmed c.outstanding.length with outstanding := [] }

/-- IDLE or LOST: the states in which fresh frames count toward recovery (R38). -/
def Crane.recovering (c : Crane) : Bool := c.link == .idle || c.link == .lost

/-! ### Step 1: claim (R26, R27, R28) -/

/-- The terminal the crane's link expects: the roster's when that is not zero, else the learned one (R26). -/
def expectedTerminal (rosterId : Word) (c : Crane) : Option Word := if rosterId ≠ 0 then some rosterId else c.learned

/-- Terminal `t` is bound to a crane other than `n`, by the roster, enabled or not, or by learning (R26). -/
def boundElsewhere (p : Setup) (clu : CraneUnit) (n : Nat) (t : Word) : Bool :=
  (List.range Config.craneCount).any (fun m =>
    decide (m ≠ n) && (decide (((p.roster[m]?).map (fun r => r.terminal)) = some t) ||
      decide ((clu.crane m).learned = some t)))

/-- What the claim step finds (R26). -/
inductive Claim where
  | passes | learns | mismatch | elsewhere
  deriving DecidableEq, Repr

/-- The table of R26. -/
def claimOutcome (p : Setup) (clu : CraneUnit) (n : Nat) (rosterId : Word) (c : Crane) (t : Word) : Claim :=
  match expectedTerminal rosterId c with
  | some e => if t = e then .passes else .mismatch
  | none => if boundElsewhere p clu n t then .elsewhere else .learns

/-- Entry into CLAIM (R27). -/
def Crane.enterClaim (c : Crane) : Crane :=
  { c.dropOutstanding with
    link := .claim
    recovery := 0
    traceState := .frozen }

/-! ### Step 2: sequence (R29, R30) -/

/-- What the sequence step finds (R29). -/
inductive Sequence where
  | inSequence | duplicate | behind | gap (missing : Nat)
  deriving DecidableEq, Repr

/-- The table of R29; a frame is in sequence when the crane's sequence is not valid. -/
def sequenceOutcome (c : Crane) (seq : Half) : Sequence :=
  let d := seqDiff seq c.lastSeq
  if !c.seqValid then .inSequence
  else if d = 0 then .duplicate
  else if 32768 ≤ d then .behind
  else if d = 1 then .inSequence
  else .gap (d - 1)

/-- A taken frame's sequence (R29), the gap counter, and the recovery run a gap restarts (R30). -/
def Crane.takeSequence (c : Crane) (seq : Half) (gap fresh : Bool) : Crane :=
  let c1 := if gap then c.countGap else c
  let c2 := if gap && c.recovering then { c1 with recovery := if fresh then 1 else 0 } else c1
  { c2 with lastSeq := seq, seqValid := true }

/-! ### Step 3: age (R31, R32) -/

/-- The effects of an aged frame (R31). -/
def Crane.takeAged (c : Crane) : Crane :=
  let c1 := c.countAged
  if c.recovering then { c1 with recovery := 0 } else c1

/-- `a` is later than `b`: (a − b) mod 2^32 is in 1..2^31 − 1 (R32). -/
def laterQt (a b : Qt) : Bool := decide (1 ≤ elapsed a b) && decide (elapsed a b < 2 ^ 31)

/-- The last arrival after a fresh frame (R32). -/
def Crane.moveArrival (c : Crane) (arrival : Qt) : Crane :=
  match c.lastArrival with
  | none => { c with lastArrival := some arrival }
  | some last => if c.recovering || laterQt arrival last then { c with lastArrival := some arrival } else c

/-! ### Step 4: echo (R33, R34) -/

/-- The echo `e` covers command sequence `c`: (e − c) mod 65536 < 32768 (R33). -/
def echoCovers (e c : Half) : Bool := decide (seqDiff e c < 32768)

/-- The round-trip time of an exact match: 0 when the arrival lies before the departure (R33). -/
def roundTrip (arrival departed : Qt) : Word := if 2 ^ 31 ≤ elapsed arrival departed then 0 else arrival - departed

/-- The entry of a list with sequence `e`. -/
def exactEntry (l : List Outstanding) (e : Half) : Option Outstanding := l.find? (fun o => decide (o.seq = e))

/-- The removal of R33 and its round-trip time. -/
def Crane.takeEcho (c : Crane) (echo : Half) (arrival : Qt) : Crane :=
  let c1 := { c with outstanding := c.outstanding.filter (fun o => !echoCovers echo o.seq) }
  match exactEntry c.outstanding echo with
  | some o =>
    let t := roundTrip arrival o.departed
    { c1 with rttLast := t, rttGreatest := if c.rttGreatest.toNat < t.toNat then t else c.rttGreatest }
  | none => c1

/-- The ECHO_AHEAD record of R34, judged on the list as it stood before the removal. -/
def echoAheadRecord (n : Nat) (c : Crane) (echo : Half) (now : Qt) : List Record :=
  if (exactEntry c.outstanding echo).isSome then []
  else match c.outstanding.getLast?, c.lastListed with
    | some newest, _ => if seqAhead echo newest.seq then [recEchoAhead n echo newest.seq false now] else []
    | none, some last => if seqAhead echo last then [recEchoAhead n echo last true now] else []
    | none, none => []

/-! ### Steps 5 and 6: position and trace (R35, R36) -/

/-- A fresh frame's position, boom and LOCAL stored, and the POSITION_CLAMPED record (R35). -/
def Crane.takePosition (p : Setup) (n : Nat) (c : Crane) (f : StatusFrame) (now : Qt) : Crane × List Record :=
  let c1 := { c with position := some (clampPosition p f.gantry), boom := f.boom, localCtl := f.localCtl }
  if f.gantry < quayEnd p then ({ c1 with clampReported := false }, [])
  else ({ c1 with clampReported := true }, if c.clampReported then [] else [recCraneClamped n f.gantry now])

/-- A list with an entry appended, the oldest removed when it held `depth` (R36). -/
def pushBounded {α : Type} (depth : Nat) (l : List α) (x : α) : List α := (l ++ [x]).drop (l.length + 1 - depth)

/-- A fresh frame appended to an OPEN or CLOSING trace (R36). -/
def Crane.appendTrace (c : Crane) (e : TraceEntry) : Crane :=
  match c.traceState with
  | .frozen => c
  | .recording => { c with trace := pushBounded Config.traceDepth c.trace e }
  | .closing n =>
    { c with
      trace := pushBounded Config.traceDepth c.trace e
      traceState := if n ≤ 1 then .frozen else .closing (n - 1) }

/-! ### Step 7: state (R38, R39) -/

/-- The spacing of a recovery frame breaks the run: its arrival is later than the last by LATE_MS or more (R38). -/
def spacingBreaks (lateMs : Nat) (last : Option Qt) (arrival : Qt) : Bool :=
  match last with
  | some l => laterQt arrival l && decide (lateMs ≤ elapsed arrival l)
  | none => false

/-- The state step of a fresh frame; `before` is the last arrival as it stood before the frame (R38, R39). -/
def Crane.takeState (p : Setup) (n : Nat) (c : Crane) (gap : Bool) (before : Option Qt) (arrival now : Qt) :
    Crane × List Record :=
  match c.link with
  | .late => ({ c with link := .live }, [recLinkLive n .late c.lastArrival now])
  | .live => (c, [])
  | .claim => (c, [])
  | _ =>
    let count := if gap then c.recovery
      else (if spacingBreaks p.timing.lateMs before arrival then 0 else c.recovery) + 1
    if count = p.timing.recoverCount then
      ({ c with link := .live, recovery := 0 }, [recLinkLive n c.link c.lastArrival now])
    else ({ c with recovery := count }, [])

/-! ### The frame as a whole (R25) -/

/-- How the handling of a status frame ended: in CLAIM or at the sequence step, by an entry into CLAIM, as an aged
frame, or as a fresh one (R25). -/
inductive Handling where
  | ended | claimed | aged | fresh
  deriving DecidableEq, Repr

/-- Steps 3 to 7 for a taken frame. -/
def takeStatus (p : Setup) (n : Nat) (f : StatusFrame) (now : Qt) (gap : Bool) (c : Crane) :
    Crane × List Record × Handling :=
  let fresh := decide (f.age.toNat < p.timing.lateMs)
  let arrival : Qt := now - f.age.setWidth 32
  let c2 := c.takeSequence f.seq gap fresh
  let echoRecords := echoAheadRecord n c2 f.echo now
  if fresh then
    let c4 := (c2.moveArrival arrival).takeEcho f.echo arrival
    let r5 := Crane.takePosition p n c4 f now
    let c6 := r5.1.appendTrace ⟨f.seq, arrival, f.level, clampPosition p f.gantry, f.boom⟩
    let r7 := Crane.takeState p n c6 gap c.lastArrival arrival now
    (r7.1, echoRecords ++ r5.2 ++ r7.2, .fresh)
  else (c2.takeAged.takeEcho f.echo arrival, echoRecords, .aged)

/-- A status frame for crane n taken through the steps of R25. `learned` is the crane as the claim step leaves it. -/
def handleStatus (p : Setup) (clu : CraneUnit) (f : StatusFrame) (now : Qt) : Crane × List Record × Handling :=
  let n := f.crane
  let c := clu.crane n
  let rosterId := ((p.roster[n]?).map (fun r => r.terminal)).getD 0
  if c.link = .claim then (c.countClaimDiscard, [], .ended)
  else
    let afterClaim : Crane → List Record → Crane × List Record × Handling := fun c1 rs =>
      match sequenceOutcome c1 f.seq with
      | .duplicate => (c1.countDuplicate, rs, .ended)
      | .behind => (c1.countBehind, rs, .ended)
      | .inSequence =>
        let r := takeStatus p n f now false c1
        (r.1, rs ++ r.2.1, r.2.2)
      | .gap missing =>
        let r := takeStatus p n f now true c1
        (r.1, rs ++ [recSeqGap n (c1.lastSeq + 1) f.seq missing now] ++ r.2.1, r.2.2)
    match claimOutcome p clu n rosterId c f.terminal with
    | .passes => afterClaim c []
    | .learns => afterClaim { c with learned := some f.terminal } [recTerminalLearned n f.terminal now]
    | .mismatch =>
      (c.enterClaim, [recLinkClaim n false c.link f.terminal (expectedTerminal rosterId c) now], .claimed)
    | .elsewhere => (c.enterClaim, [recLinkClaim n true c.link f.terminal none now], .claimed)

/-- A dispatched CRANE_STATUS frame: its handling, its records, the Report Unit's sight of an entry into CLAIM, and
the observation of a fresh frame at the clamped position, the sending crane excluded (R13, R14, R25). -/
def dispatchStatus (p : Setup) (f : StatusFrame) (commitQt : Qt) (s : State) : State :=
  let r := handleStatus p s.clu f commitQt
  let s1 := { s with clu := s.clu.setCrane f.crane r.1 }.report r.2.1
  match r.2.2 with
  | .claimed => craneEntered f.crane s1
  | .fresh => observeLevel p (segmentOf p (clampPosition p f.gantry)) (some f.crane) f.level commitQt s1
  | .aged => s1
  | .ended => s1

/-! ### Deadlines (R40 to R42) -/

/-- LIVE or LATE: the states with deadlines. -/
def Crane.watched (c : Crane) : Bool := c.link == .live || c.link == .late

/-- Silence of `ms` or more since the last arrival. -/
def silentFor (c : Crane) (now : Qt) (ms : Nat) : Bool :=
  match c.lastArrival with
  | some a => decide (ms ≤ elapsed now a)
  | none => false

/-- The oldest outstanding command has waited ECHO_MS or more (R41). -/
def echoOverdue (c : Crane) (now : Qt) (ms : Nat) : Bool :=
  match c.outstanding with
  | o :: _ => decide (ms ≤ elapsed now o.departed)
  | [] => false

/-- A LOST condition of R41. -/
def lostCondition (p : Setup) (c : Crane) (now : Qt) : Bool :=
  c.watched && (silentFor c now p.timing.lostMs || echoOverdue c now p.timing.echoMs)

/-- The LATE condition of R40. -/
def lateCondition (p : Setup) (c : Crane) (now : Qt) : Bool :=
  c.link == .live && silentFor c now p.timing.lateMs && !lostCondition p c now

/-- Entry into LATE (R40). -/
def enterLate (n : Nat) (s : State) : State :=
  let c := s.clu.crane n
  { s with clu := s.clu.setCrane n { c with link := .late } }.report
    [recLinkLate n c.outstanding.length c.lastArrival s.su.qt]

/-- The crane's record at entry into LOST (R42, steps 2 to 4 and 6). -/
def Crane.enterLost (tracePost : Nat) (c : Crane) : Crane :=
  { c.dropOutstanding with
    link := .lost
    recovery := 0
    traceState := match c.traceState with
      | .recording => if tracePost = 0 then .frozen else .closing tracePost
      | t => t }

/-- The declared class of a segment, as the Coverage Unit answers (R134). -/
def declaredClass (s : State) (seg : Nat) : SegClass := (s.cvu.segment seg).declared

/-- Entry into LOST (R42): the class asked, the record changed, HOLD asserted with it, LINK_LOST made, the vote of R47
taken (its CLASS_CHANGE record follows LINK_LOST, R128), and the entry seen by the Report Unit. -/
def enterLost (p : Setup) (n : Nat) (s : State) : State :=
  let c := s.clu.crane n
  let now := s.su.qt
  let seg := c.position.map (segmentOf p)
  let cls := match seg with | some g => declaredClass s g | none => .unknown
  let noEcho := !silentFor c now p.timing.lostMs
  let s1 := { s with clu := s.clu.setCrane n (c.enterLost p.timing.tracePost) }.report
    [recLinkLost n noEcho c.outstanding.length c.link seg cls c.lastArrival now]
  let s2 := match seg with
    | some g => if c.localCtl then s1 else changeSegment g (voteSegment p g now) s1
    | none => s1
  craneEntered n s2

/-- The deadline check of crane n (R40, R41). -/
def deadlineCheck (p : Setup) (n : Nat) (s : State) : State :=
  let c := s.clu.crane n
  if lostCondition p c s.su.qt then enterLost p n s
  else if lateCondition p c s.su.qt then enterLate n s
  else s

/-! ### CRANE_RESET and TRACE_OPEN (R48, R37) -/

/-- A crane record after CRANE_RESET: the counters and round-trip times are kept (R48). -/
def Crane.afterReset (c : Crane) : Crane :=
  { Crane.initial with
    lastSeq := c.lastSeq
    rttLast := c.rttLast
    rttGreatest := c.rttGreatest
    counters := c.dropOutstanding.counters }

/-- A crane record after TRACE_OPEN (R37). -/
def Crane.traceOpened (c : Crane) : Crane := { c with traceState := .recording }

end Sys2Proof.Machine
end

