-- ==== Sys2Proof/Machine/Downlink.lean ====
section
/-! DEFINITION. The downlink: slot records, their rewrite and commit (R15 to R18), the decision at a departure and its
effects (R52 to R55), the outstanding list (R61, R62), and the STOP overlay (R56 to R58). -/

namespace Sys2Proof.Machine

open Sys2Proof

/-! ### Slot records (R15 to R17) -/

/-- Header-complete: all twelve cells are SEEN (R15). -/
def DlRecord.complete (r : DlRecord) : Bool := r.cells.all (fun c => c.isSome)

/-- The bytes of the header cells, UNSEEN ones as 0. -/
def DlRecord.bytes (r : DlRecord) : List Byte := cellBytes r.cells

/-- Kind cell (10.2: downlink slot byte 0). -/
def DlRecord.kind (r : DlRecord) : Nat := field r.bytes 0 1
/-- Payload length cell L. -/
def DlRecord.len (r : DlRecord) : Nat := field r.bytes 1 1
/-- Command sequence. -/
def DlRecord.seq (r : DlRecord) : Half := BitVec.ofNat 16 (field r.bytes 2 2)
/-- Crane number cell. -/
def DlRecord.crane (r : DlRecord) : Nat := field r.bytes 8 1
/-- Class cell. -/
def DlRecord.cls (r : DlRecord) : Byte := lowByte (field r.bytes 9 1)
/-- Validity cell, in ms. -/
def DlRecord.validity (r : DlRecord) : Half := BitVec.ofNat 16 (field r.bytes 10 2)

/-- The record made ready for a new frame by a rewrite (R16, R57). -/
def DlRecord.rewritten (r : DlRecord) : DlRecord :=
  { r with
    cells := List.replicate 12 none
    committed := false
    departed := false
    overlay := .none
    lastFetch := .undecided }

/-- The record after a completed APP write covering header bytes of the slot at `base` (R15, R16). -/
def DlRecord.written (r : DlRecord) (w : Write) (base : Nat) (now : Qt) : DlRecord :=
  let r1 := if r.committed then r.rewritten else r
  { r1 with cells := writeCells w base r1.cells, writeQt := now }

/-- The record committed (R17, R57). -/
def DlRecord.commit (r : DlRecord) : DlRecord :=
  { r with committed := true, departed := false, overlay := .none, lastFetch := .undecided }

/-- A header write applied to each touched slot's record in ascending order (R15). -/
def writeRecords (w : Write) (base : Nat) (now : Qt) : List Nat → CaptureUnit → CaptureUnit
  | [], u => u
  | k :: ks, u =>
    writeRecords w base now ks (u.setRecord k ((u.record k).written w (base + Config.slotBytes * k) now))

/-- The slots from `h` on, `n` of them, counted modulo `count` (R5, R17). -/
def ringSlots (count : Nat) : Nat → Nat → List Nat
  | _, 0 => []
  | h, n + 1 => h :: ringSlots count ((h + 1) % count) n

/-- How many slots lie from `h` up to the slot before `p`, modulo `count` (R5). -/
def ringDistance (count h p : Nat) : Nat := (p + count - h % count) % count

/-- The records of a list of slots committed in order (R17). -/
def commitRecords : List Nat → CaptureUnit → CaptureUnit
  | [], u => u
  | k :: ks, u => commitRecords ks (u.setRecord k (u.record k).commit)

/-! ### The decision at a departure (R52 to R54) -/

/-- The four decisions (R52). -/
inductive Decision where
  | pass | delivered | stale | halt (reason : HaltReason)
  deriving DecidableEq, Repr

/-- The stale test of R53: a non-zero validity, and more than it has passed since the header was written. -/
def isStale (r : DlRecord) (now : Qt) : Bool :=
  decide (r.validity ≠ 0) && decide (r.validity.toNat < elapsed now r.writeQt)

/-- The crane of a departure is out of range or not enabled (R52, test 1). -/
def unrostered (s : State) (r : DlRecord) : Bool :=
  decide (11 < r.crane) || !craneEnabled s.su.setup r.crane

/-- The decision at a first departure: the first test of R52's table that applies. -/
def firstDecision (s : State) (r : DlRecord) : Decision :=
  if unrostered s r then .pass
  else if holdLine s r.crane then .halt .hold
  else if 2 < r.cls.toNat then .halt .classRange
  else if r.len < 4 ∨ 248 < r.len then .halt .length
  else if isStale r s.su.qt then .stale
  else .delivered

/-- The decision at a later departure (R54). -/
def laterDecision (s : State) (r : DlRecord) : Decision :=
  if unrostered s r then .pass
  else if holdLine s r.crane then .halt .hold
  else match r.overlay with
    | .halt reason => .halt reason
    | .stale => .stale
    | .none => .delivered

/-- The decision at a departure (R52, R54). -/
def departureDecision (s : State) (r : DlRecord) : Decision :=
  if r.departed then laterDecision s r else firstDecision s r

/-- The overlay decision a first departure stores (R19). -/
def Decision.overlay : Decision → Overlay
  | .halt reason => .halt reason
  | .stale => .stale
  | .pass => .none
  | .delivered => .none

/-- The last fetch decision of a departure (R57). -/
def Decision.fetch : Decision → FetchDecision
  | .halt _ => .halt
  | .stale => .stale
  | .pass => .none
  | .delivered => .none

/-- The record after a departure (R19, R57). -/
def DlRecord.afterDeparture (r : DlRecord) (d : Decision) : DlRecord :=
  if r.departed then { r with lastFetch := d.fetch }
  else { r with departed := true, overlay := d.overlay, lastFetch := d.fetch }

/-! ### The outstanding list (R61, R62) -/

/-- What the comparisons of R61 find for a sequence offered to a list. -/
inductive Offer where
  | enters
  | refusedNewest (newest oldest : Half)
  | refusedOldest (newest oldest : Half)
  deriving DecidableEq, Repr

/-- The comparisons of R61; where both fail the newest is named (notes/assumptions/18.md). -/
def offer (l : List Outstanding) (s : Half) : Offer :=
  match l.head?, l.getLast? with
  | some oldest, some newest =>
    if !seqAhead s newest.seq then .refusedNewest newest.seq oldest.seq
    else if !seqAhead s oldest.seq then .refusedOldest newest.seq oldest.seq
    else .enters
  | _, _ => .enters

/-- A command that enters the list of its crane, displacing the oldest of a full one (R61, R62). -/
def Crane.listCommand (n : Nat) (c : Crane) (o : Outstanding) (now : Qt) : Crane × List Record :=
  match c.outstanding with
  | oldest :: rest =>
    if Config.outstandingDepth ≤ c.outstanding.length then
      ({ c.countUnconfirmed 1 with outstanding := rest ++ [o], lastListed := some o.seq },
        [recCmdUnconfirmed n oldest o.seq now])
    else ({ c with outstanding := c.outstanding ++ [o], lastListed := some o.seq }, [])
  | [] => ({ c with outstanding := [o], lastListed := some o.seq }, [])

/-- What offering a command to a list does: the crane, the records, whether it was refused (R61). -/
structure Listing where
  crane   : Crane
  records : List Record
  refused : Bool
  deriving DecidableEq, Repr

/-- A first departure's command offered to its crane's list (R61). -/
def offerCommand (n slot : Nat) (c : Crane) (seq : Half) (cls : Byte) (stale : Bool) (now : Qt) : Listing :=
  match offer c.outstanding seq with
  | .enters =>
    let r := c.listCommand n ⟨seq, cls, now⟩ now
    ⟨r.1, r.2, false⟩
  | .refusedNewest newest oldest => ⟨c, [recCmdOrder n slot seq newest oldest stale false now], true⟩
  | .refusedOldest newest oldest => ⟨c, [recCmdOrder n slot seq newest oldest stale true now], true⟩

/-! ### The effects of a decision (R55, R64) -/

/-- One departure counted by its decision: DL_DEPARTED and one of the four (R55, R64). -/
def DlCounters.count (k : DlCounters) (d : Decision) : DlCounters :=
  let k1 := { k with departed := k.departed + 1 }
  match d with
  | .pass => { k1 with unrostered := k1.unrostered + 1 }
  | .delivered => { k1 with delivered := k1.delivered + 1 }
  | .stale => { k1 with stale := k1.stale + 1 }
  | .halt _ => { k1 with halted := k1.halted + 1 }

/-- DL_ORDER counted where the list refused the command (R61). -/
def DlCounters.countOrder (k : DlCounters) (refused : Bool) : DlCounters :=
  if refused then { k with order := k.order + 1 } else k

/-- The class a listed command has: as written for DELIVERED, STOP for STALE (R61). -/
def listedClass (stale : Bool) (r : DlRecord) : Byte := if stale then 2 else r.cls

/-- The crane record and its records after a decision (R55). -/
def craneDecision (s : State) (slot : Nat) (r : DlRecord) (d : Decision) (c : Crane) : Listing :=
  let n := r.crane
  let now := s.su.qt
  let first := !r.departed
  match d with
  | .pass => ⟨c, [], false⟩
  | .delivered => if first then offerCommand n slot c r.seq (listedClass false r) false now else ⟨c, [], false⟩
  | .stale =>
    let o := if first then offerCommand n slot c r.seq (listedClass true r) true now else ⟨c, [], false⟩
    ⟨o.crane.countStale,
      recCmdStale n slot r.seq r.cls first (first && !o.refused) r.validity (elapsed now r.writeQt) now :: o.records,
      o.refused⟩
  | .halt reason =>
    ⟨c.countHalted, [recCmdHalted n slot r.seq r.cls reason (holdReason s n) first r.validity now], false⟩

/-- A departure of a slot (R19): the decision, the slot record, the counters, the crane record, the records made. A
PASS touches no crane record (R55). -/
def depart (slot : Nat) (s : State) : State :=
  let r := s.rcu.record slot
  let d := departureDecision s r
  let o := craneDecision s slot r d (s.clu.crane r.crane)
  let rcu1 := s.rcu.setRecord slot (r.afterDeparture d)
  { s with
    rcu := { rcu1 with dl := (rcu1.dl.count d).countOrder o.refused }
    clu := if d = Decision.pass then s.clu else s.clu.setCrane r.crane o.crane }.report o.records

/-- The record of a slot is one of a crane command that can depart (R19). -/
def isCommand (r : DlRecord) : Bool := r.committed && r.complete && decide (r.kind = 2)

/-- A RADIO beat with byte 9 of a slot, answered OKAY: a departure (R19) or a classified read (R20). DL_UNCOMMITTED and
DL_UNSEEN count at each passing of a byte 9, as DL_DEPARTED does: once for each of two slots a read carries, and each
time for one slot whose byte 9 a read carries more than once (DESIGN CHOICE, notes/assumptions/39.md). -/
def fetchClassByte (slot : Nat) (s : State) : State :=
  let r := s.rcu.record slot
  if isCommand r then depart slot s
  else if !r.committed then
    { s with rcu := { s.rcu with dl := { s.rcu.dl with uncommitted := s.rcu.dl.uncommitted + 1 } } }
  else if !r.complete then { s with rcu := { s.rcu with dl := { s.rcu.dl with unseen := s.rcu.dl.unseen + 1 } } }
  else s

/-! ### The STOP overlay (R52, R56, R58) -/

/-- Byte `off` of a slot is a motion byte: 12..(7 + L), cut at byte 255 (R52). -/
def isMotionByte (r : DlRecord) (off : Nat) : Bool := decide (12 ≤ off) && decide (off ≤ 7 + r.len) && decide (off ≤ 255)

/-- The record's overlay governs reads: a committed, header-complete crane command of an enabled crane (R58). -/
def governs (s : State) (r : DlRecord) : Bool := isCommand r && !unrostered s r

/-- The slot and offset of an address in the downlink ring, if it lies there. -/
def dlPlace (t : Windows) (a : Nat) : Option (Nat × Nat) :=
  if inExtent t.dlSlots (t.dlCount * Config.slotBytes) a then
    some ((a - t.dlSlots) / Config.slotBytes, (a - t.dlSlots) % Config.slotBytes)
  else none

/-- One byte of read data returned to RADIO: the class byte as STOP and motion bytes as zero under a last fetch
decision of HALT or STALE, motion bytes as zero under UNDECIDED, any other byte as DRAM gave it (R56 to R58). -/
def overlayByte (s : State) (t : Windows) (a : Nat) (b : Byte) : Byte :=
  match dlPlace t a with
  | none => b
  | some (slot, off) =>
    let r := s.rcu.record slot
    if !governs s r then b
    else match r.lastFetch with
      | .none => b
      | .undecided => if isMotionByte r off then 0 else b
      | .halt => if off = 9 then 2 else if isMotionByte r off then 0 else b
      | .stale => if off = 9 then 2 else if isMotionByte r off then 0 else b

/-- Read data from address `a` on as it is returned to RADIO. -/
def overlayBytes (s : State) (t : Windows) : Nat → List Byte → List Byte
  | _, [] => []
  | a, b :: bs => overlayByte s t a b :: overlayBytes s t (a + 1) bs

/-- The slots whose byte 9 lies among `n` bytes from `a`, in the order their bytes pass (R19). -/
def classByteSlots (t : Windows) (a n : Nat) : List Nat :=
  (List.range n).filterMap (fun k =>
    match dlPlace t (a + k) with
    | some (slot, off) => if off = 9 then some slot else none
    | none => none)

/-- Some of `n` bytes from `a` is a motion byte of a slot whose last fetch decision is UNDECIDED and governs (R58). -/
def carriesEarly (s : State) (t : Windows) (a n : Nat) : Bool :=
  (List.range n).any (fun k =>
    match dlPlace t (a + k) with
    | some (slot, off) =>
      let r := s.rcu.record slot
      governs s r && decide (r.lastFetch = .undecided) && isMotionByte r off
    | none => false)

/-- Every slot of a list fetched in turn. -/
def fetchAll : List Nat → State → State
  | [], s => s
  | k :: ks, s => fetchAll ks (fetchClassByte k s)

end Sys2Proof.Machine
end

