-- ==== Sys2Proof/Machine/Reefers.lean ====
section
/-! DEFINITION. The Reefer Unit: the table and its collections and admission (04_the_reefer_table.md), supervision and
the silence scan visits (05_reefer_supervision.md), REEFER_ACK and REEFER_FORGET. -/

namespace Sys2Proof.Machine

open Sys2Proof

/-! ### The collections (R72) -/

/-- The ID map: the index that holds a container ID. -/
def findContainer (u : ReeferUnit) (id : List Byte) : Option Nat :=
  (u.table.cells.find? (fun c => c.2.any (fun e => decide (e.container = id)))).map Prod.fst

/-- The plug map: the index of the entry outside DEPARTED on a plug. -/
def findPlug (u : ReeferUnit) (plug : Half) : Option Nat :=
  (u.table.cells.find? (fun c => c.2.any (fun e => decide (e.plug = plug) && decide (e.state ≠ .departed)))).map
    Prod.fst

/-- The lowest free index from `i` on, among `n` indices (R80). -/
def lowestFree (u : ReeferUnit) : Nat → Nat → Option Nat
  | _, 0 => none
  | i, n + 1 => if (u.entry i).isNone then some i else lowestFree u (i + 1) n

/-! ### Segments from plugs (R75) -/

/-- The segment of a plug is clamped onto the last one. -/
def plugClamped (p : Setup) (plug : Half) : Bool := decide (p.coverage.segCount ≤ plug.toNat / p.plugsPerSeg)

/-- The segment of a plug (R75). -/
def plugSegment (p : Setup) (plug : Half) : Nat :=
  if plugClamped p plug then p.coverage.segCount - 1 else plug.toNat / p.plugsPerSeg

/-! ### Supervision (R93 to R104) -/

/-- The starting values of a new entry (R83), its plug, segment and class still to be set by R78. -/
def newReefer (id : List Byte) : Reefer where
  container    := id
  plug         := 0
  segment      := 0
  cls          := 0
  power        := .off
  setpoint     := 0
  supply       := none
  ret          := none
  alarms       := []
  state        := .tracked
  reason       := .none
  excursion    := .normal
  excCount     := 0
  countArea    := .normal
  latchHigh    := false
  latchLow     := false
  sensorAbsent := false
  excusals     := 0
  lastReport   := 0
  reportCount  := 0

/-- Step 1: the power state, with REEFER_POWER_OFF for OFF after ON or DEFROST (R94). -/
def takePower (i : Nat) (power : Power) (now : Qt) (e : Reefer) : Reefer × List Record :=
  ({ e with power := power },
    if power = .off ∧ (e.power = .on ∨ e.power = .defrost) then [recPowerOff i e now] else [])

/-- The setpoint a report gives: absent for 8000H, else clamped to −400..+300 (R95). -/
def takenSetpoint (raw : Int) : Option Int := if raw = -32768 then none else some (max (-400) (min 300 raw))

/-- Step 2: the setpoint, a change of which clears the count (R95). -/
def takeSetpoint (raw : Int) (e : Reefer) : Reefer :=
  match takenSetpoint raw with
  | none => e
  | some v =>
    if v = e.setpoint then e else { e with setpoint := v, excCount := 0, countArea := .normal }

/-- A temperature as taken: present within −500..+700, absent otherwise (R96). -/
def takenTemperature (raw : Int) : Option Int := if -500 ≤ raw ∧ raw ≤ 700 then some raw else none

/-- Step 3: the temperatures (R96). -/
def takeTemperatures (supply ret : Int) (e : Reefer) : Reefer :=
  { e with supply := takenTemperature supply, ret := takenTemperature ret }

/-- The compared value and whether it comes from the return sensor (R96). -/
def comparedValue (e : Reefer) : Option (Int × Bool) :=
  match e.supply, e.ret with
  | some t, _ => some (t, false)
  | none, some t => some (t, true)
  | none, none => none

/-- The area of a compared value against the setpoint and the class's bands (R97). -/
def areaOf (k : ReeferClass) (setpoint t : Int) : Area :=
  if t < setpoint - k.bandLow then .low else if setpoint + k.bandHigh < t then .high else .normal

/-- The excursion count after a LOW or HIGH area (R98). -/
def countArea (area : Area) (e : Reefer) : Reefer :=
  if area = e.countArea then { e with excCount := min 15 (e.excCount + 1) }
  else { e with excCount := 1, countArea := area }

/-- The entry into an excursion (R99). -/
def enterExcursion (k : ReeferClass) (i : Nat) (t : Int) (fromReturn : Bool) (now : Qt) (e : Reefer) :
    Reefer × List Record :=
  if k.excCount ≤ e.excCount ∧ e.excursion ≠ e.countArea then
    ({ e with
        excursion := e.countArea
        latchHigh := e.latchHigh || decide (e.countArea = .high)
        latchLow := e.latchLow || decide (e.countArea = .low) },
      [recExcursion (decide (e.countArea = .low)) i e.container t fromReturn e.excursion e.setpoint e.excCount now])
  else (e, [])

/-- A NORMAL area (R100). -/
def takeNormal (i : Nat) (t : Int) (fromReturn : Bool) (now : Qt) (e : Reefer) : Reefer × List Record :=
  let e1 := { e with excCount := 0, countArea := .normal }
  if e.excursion = .normal then (e1, [])
  else ({ e1 with excursion := .normal },
    [recExcursionClear i e.container t fromReturn e.excursion e.setpoint now])

/-- Step 4: the band comparison, made for power state ON only (R97, R101). -/
def compareBand (k : ReeferClass) (i : Nat) (now : Qt) (e : Reefer) : Reefer × List Record :=
  if e.power ≠ .on then (e, [])
  else match comparedValue e with
    | none => ({ e with sensorAbsent := true }, [])
    | some (t, fromReturn) =>
      let e1 := { e with sensorAbsent := false }
      match areaOf k e1.setpoint t with
      | .normal => takeNormal i t fromReturn now e1
      | area => enterExcursion k i t fromReturn now (countArea area e1)

/-- The REEFER_ALARM records of step 5: a code not stored, at its first position in the report (R104). -/
def alarmRecords (i : Nat) (e : Reefer) (now : Qt) : Nat → List Half → List Half → List Record
  | _, _, [] => []
  | position, seen, a :: as =>
    let rest := alarmRecords i e now (position + 1) (a :: seen) as
    if e.alarms.contains a || seen.contains a then rest else recAlarm i e.container a position e.power now :: rest

/-- Step 5: the alarm codes (R104). -/
def takeAlarms (i : Nat) (codes : List Half) (now : Qt) (e : Reefer) : Reefer × List Record :=
  ({ e with alarms := codes }, alarmRecords i e now 0 [] codes)

/-- The five steps of R93 in order. -/
def supervise (k : ReeferClass) (i : Nat) (r : ReeferReport) (now : Qt) (e : Reefer) : Reefer × List Record :=
  let s1 := takePower i r.power now e
  let e3 := takeTemperatures r.supply r.ret (takeSetpoint r.setpoint s1.1)
  let s4 := compareBand k i now e3
  let s5 := takeAlarms i r.alarms now s4.1
  (s5.1, s1.2 ++ s4.2 ++ s5.2)

/-! ### Admission (R76 to R83) -/

/-- Where a report's container is placed (R76 steps 1 and 3, R80). -/
inductive Placement where
  | known (i : Nat) | free (i : Nat) | reuse (i : Nat) | refused
  deriving DecidableEq, Repr

/-- The placement of a report, judged on the table as dispatched. -/
def placement (u : ReeferUnit) (id : List Byte) : Placement :=
  match findContainer u id with
  | some i => .known i
  | none =>
    match lowestFree u 0 Config.reeferCount with
    | some i => .free i
    | none =>
      match u.departed with
      | i :: _ => .reuse i
      | [] => .refused

/-- The occupant a report claims the plug of (R76 step 2). -/
def occupantOf (u : ReeferUnit) (r : ReeferReport) : Option (Nat × Reefer) :=
  if r.power = .unplug then none
  else match findPlug u r.plug with
    | some y => if findContainer u r.container = some y then none else (u.entry y).map (fun e => (y, e))
    | none => none

/-- The occupant sent to DEPARTED with reason REPLACED (R77). -/
def replaceOccupant (r : ReeferReport) (i : Nat) (now : Qt) (occ : Option (Nat × Reefer)) (u : ReeferUnit) :
    ReeferUnit × List Record :=
  match occ with
  | none => (u, [])
  | some (y, e) =>
    ({ u.setEntry y (some { e with state := .departed, reason := .replaced }) with departed := u.departed ++ [y] },
      [recReeferReplaced y e.container r.container r.plug i e.state now])

/-- The entry after the updates of R78, before its state is settled. -/
def updateEntry (p : Setup) (r : ReeferReport) (now : Qt) (e : Reefer) : Reefer :=
  { e with
    plug := r.plug
    segment := plugSegment p r.plug
    cls := r.cls
    lastReport := now
    reportCount := satInc e.reportCount
    excusals := 0 }

/-- State, departure reason, departed list and records of step 5 for an entry that is not new (R78, R79, R82). `e` is
the entry as it stood before; its plug number, the one its last admitted report gave, is "the one it departed from"
that REEFER_RETURNED compares with (notes/assumptions/38.md). -/
def settleKnown (r : ReeferReport) (i : Nat) (now : Qt) (e : Reefer) (departed : List Nat) :
    ReeferState × DepartReason × List Nat × List Record × List Record :=
  if r.power = .unplug then
    if e.state = .departed then (.departed, .unplugged, departed, [], [])
    else (.departed, .unplugged, departed ++ [i], [],
      [recReeferDeparted i e.container r.plug (some e.plug) e.state now])
  else
    (.tracked, .none, if e.state = .departed then departed.filter (fun j => j != i) else departed,
      if e.state = .tracked then []
      else [recReturned i e.container e.state e.reason r.plug (decide (e.plug ≠ r.plug)) now], [])

/-- The same for a new entry (R80, R82): REEFER_NEW, and REEFER_DEPARTED for an UNPLUG report. -/
def settleNew (r : ReeferReport) (i : Nat) (now : Qt) (old : Option Reefer) (departed : List Nat) :
    ReeferState × DepartReason × List Nat × List Record × List Record :=
  let made := [recReeferNew i r.container r.plug r.cls old now]
  if r.power = .unplug then
    (.departed, .unplugged, departed ++ [i], made, [recReeferDeparted i r.container r.plug none .tracked now])
  else (.tracked, .none, departed, made, [])

/-- The POSITION_CLAMPED record of a placement (R75): `before` is the plug number the entry had, none for a new one. DESIGN
CHOICE: it is made by R75's test of the two plug numbers for an UNPLUG report too, that of an entry already DEPARTED
among them, where R82's row says "No record" (notes/assumptions/40.md). -/
def plugRecords (p : Setup) (r : ReeferReport) (i : Nat) (before : Option Half) (now : Qt) : List Record :=
  if plugClamped p r.plug && decide (before ≠ some r.plug) then
    [recPlugClamped i r.plug (plugSegment p r.plug) now]
  else []

/-- Steps 4 to 6 of an admission at index `i` (R76): `before` is the known entry, or none for a new one with `old` the
entry whose index is reused. -/
def admitAt (p : Setup) (r : ReeferReport) (i : Nat) (before old : Option Reefer) (occ : Option (Nat × Reefer))
    (now : Qt) (u : ReeferUnit) : ReeferUnit × List Record :=
  let u4 := replaceOccupant r i now occ u
  let e := match before with | some b => b | none => newReefer r.container
  let st := match before with
    | some b => settleKnown r i now b u4.1.departed
    | none => settleNew r i now old u4.1.departed
  let e5 := { updateEntry p r now e with state := st.1, reason := st.2.1 }
  let s6 := supervise (classEntry p r.cls) i r now e5
  ({ u4.1.setEntry i (some s6.1) with departed := st.2.2.1 },
    u4.2 ++ st.2.2.2.1 ++ plugRecords p r i (before.map (fun b => b.plug)) now ++ st.2.2.2.2 ++ s6.2)

/-- The admission of a report (R76): the unit after it, its records, and the index admitted into, none when the report
is refused (R81). -/
def admitReport (p : Setup) (r : ReeferReport) (now : Qt) (u : ReeferUnit) : ReeferUnit × List Record × Option Nat :=
  let occ := occupantOf u r
  match placement u r.container with
  | .known i =>
    let a := admitAt p r i (u.entry i) none occ now u
    (a.1, a.2, some i)
  | .free i =>
    let a := admitAt p r i none none occ now u
    (a.1, a.2, some i)
  | .reuse i =>
    let a := admitAt p r i none (u.entry i) occ now { u with departed := u.departed.drop 1 }
    (a.1, a.2, some i)
  | .refused => (u, [recTableFull r.container r.plug r.cls occ now], none)

/-- A dispatched REEFER_REPORT: its admission, its records, and the observation at the entry's segment after admission
(R13, R14, R76). -/
def dispatchReport (p : Setup) (r : ReeferReport) (commitQt : Qt) (s : State) : State :=
  let a := admitReport p r commitQt s.rfu
  let s1 := { s with rfu := a.1 }.report a.2.1
  match a.2.2 with
  | some _ => observeLevel p (plugSegment p r.plug) none r.level commitQt s1
  | none => s1

/-! ### The silence scan (R105 to R108) -/

/-- Milliseconds of a limit in minutes. -/
def minutesMs (n : Nat) : Nat := n * 60000

/-- The loss limit is reached (R106): an entry in TRACKED or SILENT silent for LOSS_MIN or more. -/
def lossReached (p : Setup) (now : Qt) (e : Reefer) : Bool :=
  decide (e.state = .tracked ∨ e.state = .silent) &&
    decide (minutesMs (classEntry p e.cls).lossMin ≤ elapsed now e.lastReport)

/-- The silence limit is reached by a TRACKED entry not lost (R107). -/
def silenceReached (p : Setup) (now : Qt) (e : Reefer) : Bool :=
  decide (e.state = .tracked) && !lossReached p now e &&
    decide (minutesMs (classEntry p e.cls).silenceMin * (1 + e.excusals) ≤ elapsed now e.lastReport)

/-- The entry at index i becomes LOST (R106). -/
def loseReefer (i : Nat) (e : Reefer) (s : State) : State :=
  { s with rfu := s.rfu.setEntry i (some { e with state := .lost }) }.report
    [recReeferLost i e (elapsed s.su.qt e.lastReport) s.su.qt]

/-- The silence of the entry at index i is excused or declared (R107). Either record names the segment's declared class
and whether it is shadowed, as they stand at the visit (R107); below STRETCH_MAX these are the answers of R108, and for
an entry with no excusal left notes/assumptions/10.md. -/
def silenceReefer (p : Setup) (i : Nat) (e : Reefer) (s : State) : State :=
  let now := s.su.qt
  let ms := elapsed now e.lastReport
  let cls := declaredClass s e.segment
  let shadowed := shadowedNow s p e.segment none
  if e.excusals < (classEntry p e.cls).stretchMax ∧ (cls = .hole ∨ shadowed = true) then
    { s with rfu := s.rfu.setEntry i (some { e with excusals := e.excusals + 1 }) }.report
      [recSilence true i e cls.code shadowed (e.excusals + 1) ms now]
  else
    { s with rfu := s.rfu.setEntry i (some { e with state := .silent }) }.report
      [recSilence false i e cls.code shadowed e.excusals ms now]

/-- A silence scan visit to index i (R105 to R107). -/
def visitReefer (p : Setup) (i : Nat) (s : State) : State :=
  match s.rfu.entry i with
  | none => s
  | some e =>
    if lossReached p s.su.qt e then loseReefer i e s
    else if silenceReached p s.su.qt e then silenceReefer p i e s
    else s

/-! ### REEFER_ACK and REEFER_FORGET (R102, R84) -/

/-- The latch of an entry emptied (R102). -/
def ackReefer (i : Nat) (e : Reefer) (u : ReeferUnit) : ReeferUnit :=
  u.setEntry i (some { e with latchHigh := false, latchLow := false })

/-- Index i freed and its entry removed from the three collections (R84). -/
def forgetReefer (i : Nat) (u : ReeferUnit) : ReeferUnit :=
  { u.setEntry i none with departed := u.departed.filter (fun j => j != i) }

end Sys2Proof.Machine
end

