-- ==== Sys2Proof/Machine/Capture.lean ====
section
/-! DEFINITION. The uplink side of the Ring Capture Unit (01_frames_on_the_rings.md): capture, overflow, commit, the
parse queue, the settling of outcomes and the dispatch of accepted frames; what a completed write does in the uplink
and downlink windows; and the meanings of the rows PARSE_START and PARSE_COMPLETE. -/

namespace Sys2Proof.Machine

open Sys2Proof

/-! ### The capture store (R1 to R3) -/

/-- An item of the parse queue is a QUEUED capture entry. -/
def ParseItem.isCaptured : ParseItem → Bool
  | .captured _ _ => true
  | .placeholder _ _ => false

/-- The slot of an item. -/
def ParseItem.slot : ParseItem → Nat
  | .captured e _ => e.slot
  | .placeholder k _ => k

/-- The commit QT of an item. -/
def ParseItem.commitQt : ParseItem → Qt
  | .captured _ t => t
  | .placeholder _ t => t

/-- Capture entries in use: PENDING and QUEUED (R1). -/
def CaptureUnit.inUse (u : CaptureUnit) : Nat := u.filling.length + (u.queue.filter ParseItem.isCaptured).length

/-- A new entry for a slot: every cell UNSEEN, first-write QT now (R2). -/
def newEntry (slot : Nat) (now : Qt) : CaptureEntry := ⟨slot, List.replicate Config.slotBytes none, now⟩

/-- `a` is older than `b`: the larger elapsed time, or the lower slot at the same first-write QT (R3). -/
def olderEntry (now : Qt) (a b : CaptureEntry) : Bool :=
  decide (elapsed now b.firstWrite < elapsed now a.firstWrite) ||
    (decide (elapsed now a.firstWrite = elapsed now b.firstWrite) && decide (a.slot < b.slot))

/-- The oldest PENDING entry (R3). -/
def oldestEntry (now : Qt) : List CaptureEntry → Option CaptureEntry
  | [] => none
  | e :: es =>
    match oldestEntry now es with
    | none => some e
    | some o => if olderEntry now o e then some o else some e

/-- Room made for a new entry of a slot (R2, R3): the PENDING entries after it, with the CAPTURE_OVERFLOW record it may
make; none when the write is not captured for the slot. -/
def makeRoom (slot : Nat) (now : Qt) (u : CaptureUnit) : Option (List CaptureEntry) × List Record :=
  if u.inUse < Config.captureEntries then (some u.filling, [])
  else match oldestEntry now u.filling with
    | some o => (some (u.filling.filter (fun e => decide (e.slot ≠ o.slot))),
        [recCaptureOverflow slot (some o.slot) now])
    | none => (none, [recCaptureOverflow slot none now])

/-- The bytes of a write put into the PENDING entry of a slot; `base` is the address of slot 0 (R2). -/
def fillEntry (w : Write) (base : Nat) (e : CaptureEntry) : CaptureEntry :=
  { e with cells := writeCells w (base + Config.slotBytes * e.slot) e.cells }

/-- The capture of one slot touched by a write (R2, R3). -/
def captureSlot (w : Write) (base : Nat) (now : Qt) (slot : Nat) (u : CaptureUnit) : CaptureUnit × List Record :=
  if u.filling.any (fun e => decide (e.slot = slot)) then
    ({ u with filling := u.filling.map (fun e => if e.slot = slot then fillEntry w base e else e) }, [])
  else
    match makeRoom slot now u with
    | (some rest, rs) => ({ u with filling := rest ++ [fillEntry w base (newEntry slot now)] }, rs)
    | (none, rs) => (u, rs)

/-- The capture of a write slot by slot, in the order of the list (R2). -/
def captureSlots (w : Write) (base : Nat) (now : Qt) : List Nat → CaptureUnit → CaptureUnit × List Record
  | [], u => (u, [])
  | k :: ks, u =>
    let a := captureSlot w base now k u
    let b := captureSlots w base now ks a.1
    (b.1, a.2 ++ b.2)

/-! ### Commit (R5 to R7) -/

/-- COMMITTED counted once. -/
def CaptureUnit.countCommitted (u : CaptureUnit) : CaptureUnit :=
  { u with ul := { u.ul with committed := u.ul.committed + 1 } }

/-- UNCAPTURED counted once. -/
def CaptureUnit.countUncaptured (u : CaptureUnit) : CaptureUnit :=
  { u with ul := { u.ul with uncaptured := u.ul.uncaptured + 1 } }

/-- One uplink slot committed (R5, R7): its PENDING entry is queued, or a placeholder joins while the queue holds fewer
than UL_SLOTS items, or it is settled at once as UNCAPTURED. -/
def commitSlot (ulCount : Nat) (now : Qt) (slot : Nat) (u : CaptureUnit) : CaptureUnit × List Record :=
  match u.filling.find? (fun e => decide (e.slot = slot)) with
  | some e =>
    ({ u.countCommitted with
        filling := u.filling.filter (fun x => decide (x.slot ≠ slot))
        queue := u.queue ++ [.captured e now] }, [])
  | none =>
    if u.queue.length < ulCount then ({ u.countCommitted with queue := u.queue ++ [.placeholder slot now] }, [])
    else (u.countCommitted.countUncaptured, [recSlotUncaptured slot now])

/-- Uplink slots committed in the order of the list (R5). -/
def commitSlots (ulCount : Nat) (now : Qt) : List Nat → CaptureUnit → CaptureUnit × List Record
  | [], u => (u, [])
  | k :: ks, u =>
    let a := commitSlot ulCount now k u
    let b := commitSlots ulCount now ks a.1
    (b.1, a.2 ++ b.2)

/-! ### Settling (R8, R9, R11, R12) -/

/-- The outcome counter of an outcome incremented (R12). -/
def UlCounters.settle (k : UlCounters) : ParseOutcome → UlCounters
  | .uncaptured => { k with uncaptured := k.uncaptured + 1 }
  | .short _ => { k with short := k.short + 1 }
  | .unknownKind _ => { k with unknownKind := k.unknownKind + 1 }
  | .badId _ => { k with fieldBad := k.fieldBad + 1 }
  | .fieldBad _ _ => { k with fieldBad := k.fieldBad + 1 }
  | .ignored => { k with ignored := k.ignored + 1 }
  | .acceptedCrane _ => { k with acceptedCrane := k.acceptedCrane + 1 }
  | .acceptedReefer _ => { k with acceptedReefer := k.acceptedReefer + 1 }
  | .acceptedMeas _ => { k with acceptedMeas := k.acceptedMeas + 1 }

/-- The sum of the eight outcome counters (R12). -/
def UlCounters.outcomeSum (k : UlCounters) : Word :=
  k.uncaptured + k.short + k.unknownKind + k.fieldBad + k.ignored + k.acceptedCrane + k.acceptedReefer + k.acceptedMeas

/-- The records of an outcome (R11). -/
def outcomeRecords (slot : Nat) (now : Qt) : ParseOutcome → List Record
  | .uncaptured => [recSlotUncaptured slot now]
  | .short unseen => [recSlotShort slot unseen now]
  | .unknownKind kind => [recKindUnknown slot kind now]
  | .badId id => [recBadId slot id now]
  | .fieldBad reason kind => [recFieldBad slot reason kind now]
  | .ignored => []
  | .acceptedCrane _ => []
  | .acceptedReefer _ => []
  | .acceptedMeas _ => []

/-- An accepted frame dispatched to the unit of its kind with the commit QT as its now (R13). -/
def dispatch (o : ParseOutcome) (commitQt : Qt) (s : State) : State :=
  match s.su.setup with
  | none => s
  | some p =>
    match o with
    | .acceptedCrane f => dispatchStatus p f commitQt s
    | .acceptedReefer r => dispatchReport p r commitQt s
    | .acceptedMeas es => takeMeasurement p es commitQt s
    | _ => s

/-- The head of the parse queue settled with an outcome, in the order of R8: counted, the item out of the queue (and
its entry out of the store), the records made at the current QT. -/
def settleHead (o : ParseOutcome) (slot : Nat) (rest : List ParseItem) (s : State) : State :=
  { s with rcu := { s.rcu with ul := s.rcu.ul.settle o, queue := rest, parsing := false } }.report
    (outcomeRecords slot s.su.qt o)

/-! ### A completed write in the uplink and downlink windows -/

/-- A completed RADIO write's bytes in the uplink slots captured (R2, R3). -/
def writeUlSlots (p : Setup) (w : Write) (s : State) : State :=
  let r := captureSlots w p.windows.ulSlots s.su.qt
    (touchedSlots w p.windows.ulSlots p.windows.ulCount Config.slotBytes) s.rcu
  { s with rcu := r.1 }.report r.2

/-- The uplink producer index taken or refused (R5, R6). -/
def ulIndexWritten (p : Setup) (w : Write) (s : State) : State :=
  let base := p.windows.ulProducer
  let count := p.windows.ulCount
  let v := indexValue w base
  if !coversWhole w base 4 then s.report [recIndexFault .rcu 0 1 v s.su.qt]
  else if count ≤ v then s.report [recIndexFault .rcu 0 0 v s.su.qt]
  else
    let r := commitSlots count s.su.qt (ringSlots count s.rcu.hUl (ringDistance count s.rcu.hUl v)) s.rcu
    { s with rcu := { r.1 with hUl := v } }.report r.2

/-- A completed RADIO write's bytes in the uplink producer index word, where it covers any (R5, R6). -/
def writeUlIndex (p : Setup) (w : Write) (s : State) : State :=
  if touches w p.windows.ulProducer 4 then ulIndexWritten p w s else s

/-- A completed APP write's header bytes put into the downlink slot records (R15, R16). -/
def writeDlSlots (p : Setup) (w : Write) (s : State) : State :=
  { s with rcu := writeRecords w p.windows.dlSlots s.su.qt (touchedSlots w p.windows.dlSlots p.windows.dlCount 12) s.rcu }

/-- The downlink producer index taken or refused (R17, R18). -/
def dlIndexWritten (p : Setup) (w : Write) (s : State) : State :=
  let base := p.windows.dlProducer
  let count := p.windows.dlCount
  let v := indexValue w base
  if !coversWhole w base 4 then s.report [recIndexFault .rcu 1 1 v s.su.qt]
  else if count ≤ v then s.report [recIndexFault .rcu 1 0 v s.su.qt]
  else { s with rcu :=
    { commitRecords (ringSlots count s.rcu.hDl (ringDistance count s.rcu.hDl v)) s.rcu with hDl := v } }

/-- A completed APP write's bytes in the downlink producer index word, where it covers any (R17, R18). -/
def writeDlIndex (p : Setup) (w : Write) (s : State) : State :=
  if touches w p.windows.dlProducer 4 then dlIndexWritten p w s else s

/-! ### The meanings of the rows -/

/-- PARSE_START (R8): a placeholder at the head is settled at once as UNCAPTURED, an entry comes under parse. The
parser takes no item in LOADING and none while one is under parse. -/
def execParseStart (s : State) : Host.Outcome State Fault Refusal :=
  .next (if s.su.runState ≠ .running ∨ s.rcu.parsing = true then s
    else match s.rcu.queue with
      | [] => s
      | .placeholder slot _ :: rest => settleHead .uncaptured slot rest s
      | .captured _ _ :: _ => { s with rcu := { s.rcu with parsing := true } })

/-- PARSE_COMPLETE (R8 to R14): the outcome fixed, counted, the item and entry freed, the records made, an accepted
frame dispatched. -/
def execParseComplete (s : State) : Host.Outcome State Fault Refusal :=
  .next (if s.su.runState ≠ .running ∨ s.rcu.parsing = false then s
    else match s.rcu.queue with
      | .captured e commitQt :: rest =>
        let o := parseCells s.su.setup e.cells
        dispatch o commitQt (settleHead o e.slot rest s)
      | _ => s)

end Sys2Proof.Machine
end

