-- ==== Sys2Proof/Machine/ViewImages.lean ====
section
/-! DEFINITION. The data of the views as bytes: the record layouts of 10_memory_formats.md, 10.5, each formed from one
state (R144, R150, R175). -/

namespace Sys2Proof.Machine

open Sys2Proof

/-- A byte put together from bit fields given as numbers with their weights. -/
def packByte (n : Nat) : Byte := lowByte n

/-- 1 or 0. -/
def bit (b : Bool) : Nat := if b then 1 else 0

/-! ### Crane view -/

/-- The trace position word: whole metres in bits 0..13, boom in bits 14..15 (10.5). -/
def positionWord (e : TraceEntry) : Half := BitVec.ofNat 16 (e.position / 100 % 16384 + 16384 * e.boom.code)

/-- The level code (10.5). -/
def levelCode (level : Half) : Byte :=
  if level = 0x7FFF then 0xFF
  else if level.toInt < -200 then 0
  else if 54 < level.toInt then 0xFE
  else lowByte (level.toInt + 200).toNat

/-- One trace place: arrival, status sequence, position word, level code. -/
def traceBytes (e : TraceEntry) : List Byte := le32 e.arrival ++ le16 e.seq ++ le16 (positionWord e) ++ [levelCode e.level]

/-- One place of the outstanding list: sequence, departure QT. -/
def outstandingBytes (o : Outstanding) : List Byte := le16 o.seq ++ le32 o.departed

/-- The classes of the outstanding list, two bits an entry, the oldest lowest. -/
def outstandingClasses : List Outstanding → Nat
  | [] => 0
  | o :: os => o.cls.toNat % 4 + 4 * outstandingClasses os

/-- The counters of a crane in the order of R49. -/
def craneCounterBytes (k : CraneCounters) : List Byte :=
  le32 k.duplicate ++ le32 k.behind ++ le32 k.gap ++ le32 k.aged ++ le32 k.claimDiscard ++ le32 k.halted ++ le32 k.stale
    ++ le32 k.unconfirmed

/-- The crane view record of crane n. -/
def craneImage (s : State) (n : Nat) : List Byte :=
  let c := s.clu.crane n
  [packByte (c.link.code + 8 * (holdReason s n).code + 64 * bit (holdLine s n) + 128 * bit (craneEnabled s.su.setup n)),
    packByte (c.boom.code + 4 * bit c.localCtl + 8 * bit c.position.isSome + 16 * bit c.seqValid
      + 32 * bit c.learned.isSome + 64 * bit c.lastArrival.isSome + 128 * bit c.clampReported),
    packByte (c.recovery + 16 * c.traceState.code + 64 * bit c.lastListed.isSome),
    packByte (c.traceState.remaining + 16 * c.outstanding.length),
    packByte c.trace.length, 0]
    ++ le16 c.lastSeq ++ le32 (c.learned.getD 0) ++ le32 (BitVec.ofNat 32 (c.position.getD 0))
    ++ le16 (c.lastListed.getD 0) ++ le16 (BitVec.ofNat 16 (outstandingClasses c.outstanding))
    ++ le32 (c.lastArrival.getD 0) ++ le32 c.rttLast ++ le32 c.rttGreatest ++ craneCounterBytes c.counters
    ++ padTo 48 (c.outstanding.flatMap outstandingBytes) ++ padTo 144 (c.trace.flatMap traceBytes)

/-! ### Coverage view -/

/-- An average in level16, 8000H for EMPTY. -/
def averageBytes (a : Option Int) : List Byte := le16 (match a with | some v => half v | none => 0x8000)

/-- The baseline a coverage record shows: that in force, none beyond the map (notes/assumptions/25.md). -/
def shownBaseline (s : State) (seg : Nat) : Option Int :=
  match s.su.setup with
  | some p => if seg < p.coverage.segCount then (p.baselines[seg]?).join else none
  | none => none

/-- The coverage view record of a segment. -/
def coverageImage (s : State) (seg : Nat) : List Byte :=
  let g := s.cvu.segment seg
  averageBytes g.ul ++ averageBytes g.dl ++ averageBytes g.shadow ++ le16 (BitVec.ofNat 16 g.unshadowed)
    ++ le16 (BitVec.ofNat 16 g.shadowed) ++ le16 (BitVec.ofNat 16 g.rejected) ++ le16 (BitVec.ofNat 16 g.discarded)
    ++ le32 g.lastUnshadowed ++ le32 g.lastShadowed ++ [lowByte g.declared.code, lowByte g.history.length]
    ++ padTo 5 (g.history.map (fun c => lowByte c.code)) ++ [packByte (bit g.drift)] ++ averageBytes (shownBaseline s seg)

/-! ### Reefer view -/

/-- A temperature or setpoint field, 8000H for absent. -/
def temperatureBytes (t : Option Int) : List Byte := le16 (match t with | some v => half v | none => 0x8000)

/-- The reefer view record of a table index; a free index shows FFH and no other field. -/
def reeferImage (s : State) (i : Nat) : List Byte :=
  match s.rfu.entry i with
  | none => padTo 64 [0xFF]
  | some e =>
    padTo 64 ([lowByte e.state.code, lowByte e.reason.code, lowByte e.power.code, lowByte e.cls]
      ++ padTo 11 e.container ++ [lowByte e.segment] ++ le16 e.plug ++ le16 (half e.setpoint)
      ++ temperatureBytes e.supply ++ temperatureBytes e.ret
      ++ [lowByte e.excursion.code, lowByte e.excCount, lowByte e.countArea.code,
        packByte (bit e.latchHigh + 2 * bit e.latchLow + 4 * bit e.sensorAbsent),
        lowByte e.excusals, lowByte e.alarms.length]
      ++ le16 (BitVec.ofNat 16 e.reportCount) ++ padTo 8 (e.alarms.flatMap le16) ++ le32 e.lastReport)

/-! ### Status page -/

/-- The uplink counters in the order of R12. -/
def ulCounterBytes (k : UlCounters) : List Byte :=
  le32 k.committed ++ le32 k.uncaptured ++ le32 k.short ++ le32 k.unknownKind ++ le32 k.fieldBad ++ le32 k.ignored
    ++ le32 k.acceptedCrane ++ le32 k.acceptedReefer ++ le32 k.acceptedMeas

/-- The downlink counters in the order of R64. -/
def dlCounterBytes (k : DlCounters) : List Byte :=
  le32 k.departed ++ le32 k.delivered ++ le32 k.halted ++ le32 k.stale ++ le32 k.unrostered ++ le32 k.uncommitted
    ++ le32 k.unseen ++ le32 k.early ++ le32 k.order

/-- The status page (R150). -/
def statusImage (s : State) : List Byte :=
  padTo 256 ([lowByte s.su.runState.code, s.su.faultCode, flag (s.rpu.ring == .fault),
      packByte (bit (irqCrane s) + 2 * bit (irqEvent s))]
    ++ le32 s.su.qt ++ le16 (holdWord s) ++ le16 (craneSummary s)
    ++ (List.range Config.craneCount).map (fun n => lowByte (holdReason s n).code)
    ++ le32 s.rpu.totalDrops ++ le32 s.vu.writes ++ ulCounterBytes s.rcu.ul ++ dlCounterBytes s.rcu.dl)

/-! ### Records and headers of a view (R142, R145) -/

/-- Header bytes of a view. -/
def headerSize : View → Nat
  | .status => 0
  | .crane => 64
  | .coverage => 64
  | .reefer => 64

/-- Record bytes of a view. -/
def recordSize : View → Nat
  | .status => 256
  | .crane => 256
  | .coverage => 32
  | .reefer => 64

/-- Records of a view's extent. -/
def recordCount : View → Nat
  | .status => 1
  | .crane => 12
  | .coverage => 128
  | .reefer => 2048

/-- The view codes of the header (10.5). -/
def viewCode : View → Nat
  | .status => 0
  | .crane => 1
  | .coverage => 2
  | .reefer => 3

/-- The record count a LIVE header shows (R145). -/
def shownCount (s : State) : View → Nat
  | .status => 1
  | .crane => 12
  | .coverage => match s.su.setup with | some p => p.coverage.segCount | none => 0
  | .reefer => 2048

/-- The image of record i of a view, from the state as it stands. -/
def recordImage (s : State) (v : View) (i : Nat) : List Byte :=
  match v with
  | .status => statusImage s
  | .crane => craneImage s i
  | .coverage => coverageImage s i
  | .reefer => reeferImage s i

/-- The 64 bytes of a view's header. -/
def headerImage (v : View) (mode : ViewMode) (count : Nat) (generation : Word) (qt : Qt) : List Byte :=
  padTo 64 ([lowByte mode.code, lowByte (viewCode v)] ++ le16 (BitVec.ofNat 16 count) ++ le32 generation ++ le32 qt)

/-- The record index of an offset of a view, none in its header. -/
def recordIndex (v : View) (off : Nat) : Option Nat :=
  if off < headerSize v then none else some ((off - headerSize v) / recordSize v)

/-- A snapshot of every record of a view as it stands (R144). -/
def takeSnapshot (s : State) (v : View) (generation : Word) : Snapshot where
  generation := generation
  qt         := s.su.qt
  count      := shownCount s v
  images     := (List.range (recordCount v)).map (recordImage s v)

end Sys2Proof.Machine
end

