-- ==== Sys2Proof/Machine/Views.lean ====
section
/-! DEFINITION. Read beats passing back through the Path Unit: the burst a beat belongs to, the STOP overlay for RADIO,
the view contents for APP (07_views_and_snapshots.md), snapshots and coverage sets, writes in view windows; and the
meanings of the rows DEPARTURE, MOTION_BYTES_READ, VIEW_READ_BEAT and VIEW_BURST_LAST_BEAT. -/

namespace Sys2Proof.Machine

open Sys2Proof

/-! ### Spans -/

/-- The first byte of a beat. -/
def beatAddr (b : ReadBeat) : Nat := match b.spans[b.beat]? with | some x => x.addr | none => 0

/-- The burst carries a byte of an extent. -/
def burstCarries (b : ReadBeat) (base size : Nat) : Bool := b.spans.any (fun x => overlaps x.addr x.len base size)

/-- The beat carries a byte of an extent. -/
def beatCarries (b : ReadBeat) (base size : Nat) : Bool := overlaps (beatAddr b) b.data.length base size

/-- The beat is the last of its burst. -/
def isLastBeat (b : ReadBeat) : Bool := decide (b.spans.length ≤ b.beat + 1)

/-! ### The snapshot state of a view (R146 to R148, R152) -/

/-- The mode of a view under a setup; the reefer view and the status page always run LIVE (R145, R150). -/
def viewMode (p : Setup) : View → ViewMode
  | .crane => p.craneMode
  | .coverage => p.coverageMode
  | .status => .live
  | .reefer => .live

/-- What the View Unit holds for a view. -/
def viewState (u : ViewUnit) : View → ViewState
  | .crane => u.crane
  | .coverage => u.coverage
  | .status => ViewState.blank
  | .reefer => ViewState.blank

/-- The unit with what it holds for a view changed. -/
def setViewState (u : ViewUnit) (v : View) (x : ViewState) : ViewUnit :=
  match v with
  | .crane => { u with crane := x }
  | .coverage => { u with coverage := x }
  | .status => u
  | .reefer => u

/-- The bindings of a view in a burst, no longer to its newest snapshot (R148). -/
def outdate (v : View) (o : OpenRead) : OpenRead :=
  { o with views := o.views.map (fun x => if x.view = v then { x with newest := false } else x) }

/-- A new snapshot of a view: the generation increased by 1, the coverage set emptied, bursts in flight keep theirs
(R146 to R148). -/
def refreshSnapshot (v : View) (s : State) : State :=
  let g := (viewState s.vu v).generation + 1
  { s with
    vu := setViewState s.vu v ⟨some (takeSnapshot s v g), g, []⟩
    pu := { s.pu with openReads := s.pu.openReads.map (outdate v) } }

/-- The coverage set holds every record index of the newest snapshot (R147). -/
def coverageFull (x : ViewState) : Bool :=
  match x.newest with
  | some n => (List.range n.count).all (fun i => x.coverageSet.contains i)
  | none => true

/-- The first data beat of a burst calls for a new snapshot of a view: in HEADER mode when the burst carries a byte of
the header (R146) or, by the model's choice, where there is no snapshot yet (notes/assumptions/26.md), in ALL mode when
the coverage set is full (R147). -/
def callsSnapshot (p : Setup) (b : ReadBeat) (v : View) (x : ViewState) : Bool :=
  match viewMode p v with
  | .live => false
  | .header => burstCarries b (viewBase p.windows v) (headerSize v) || x.newest.isNone
  | .all => coverageFull x

/-- The state with the new snapshot taken, where the burst calls for one. -/
def readySnapshot (p : Setup) (b : ReadBeat) (v : View) (s : State) : State :=
  if callsSnapshot p b v (viewState s.vu v) then refreshSnapshot v s else s

/-- The binding of an APP burst to one view at its first data beat (R143 to R148), with a new snapshot taken first
where the mode calls for one. -/
def bindView (p : Setup) (b : ReadBeat) (v : View) (s : State) : State × List ViewBinding :=
  if !burstCarries b (viewBase p.windows v) (viewExtent v) then (s, [])
  else
    let mode := viewMode p v
    let s1 := readySnapshot p b v s
    let snap := if mode = .live then none else (viewState s1.vu v).newest
    (s1, [⟨v, mode, snap, [], [], [], decide (mode ≠ .live)⟩])

/-- The bindings of an APP burst to the views of a list. -/
def bindViews (p : Setup) (b : ReadBeat) : List View → State → State × List ViewBinding
  | [], s => (s, [])
  | v :: vs, s =>
    let r1 := bindView p b v s
    let r2 := bindViews p b vs r1.1
    (r2.1, r1.2 ++ r2.2)

/-! ### The end of a burst (R147) -/

/-- The records a binding adds to the coverage set: covered, no beat of them spoiled, below the record count (R147). -/
def coveredRecords (x : ViewBinding) : List Nat :=
  match x.snapshot with
  | some n => x.covered.filter (fun i => decide (i < n.count) && !x.spoiled.contains i)
  | none => []

/-- A coverage set with records added, in rising order. -/
def addCovered (v : View) (old new : List Nat) : List Nat :=
  (List.range (recordCount v)).filter (fun i => old.contains i || new.contains i)

/-- The records a passed burst covered joined to the coverage sets of ALL-mode views it is bound to the newest snapshot
of (R147, R148). -/
def takeCoverage : List ViewBinding → ViewUnit → ViewUnit
  | [], u => u
  | x :: xs, u =>
    let u1 :=
      if x.newest = true ∧ x.mode = .all then
        let st := viewState u x.view
        setViewState u x.view { st with coverageSet := addCovered x.view st.coverageSet (coveredRecords x) }
      else u
    takeCoverage xs u1

/-- The burst of an ID whose last beat has passed leaves, its coverage taken (R147). -/
def finishBurst (o : OpenRead) (s : State) : State :=
  { s with
    vu := takeCoverage o.views s.vu
    pu := { s.pu with openReads := s.pu.openReads.filter (fun x => decide (x.id ≠ o.id)) } }

/-- Every burst of a list that has passed leaves: a burst no longer in flight counts before the next one begins
(R147; notes/assumptions/20.md). -/
def finishPassed : List OpenRead → State → State
  | [], s => s
  | o :: os, s => finishPassed os (if o.passed then finishBurst o s else s)

/-! ### The burst a beat belongs to -/

/-- The read burst of an ID in flight. -/
def findOpen (os : List OpenRead) (id : AxiId) : Option OpenRead := os.find? (fun o => decide (o.id = id))

/-- The list of bursts in flight with the burst of an ID put in place of any other of that ID. -/
def putOpen (os : List OpenRead) (o : OpenRead) : List OpenRead := os.filter (fun x => decide (x.id ≠ o.id)) ++ [o]

/-- The first data beat of a burst: the window table in force now is the one the burst is judged against (R143, R163),
and an APP burst is bound to the views it touches. -/
def beginBurst (b : ReadBeat) (role : Role) (s : State) : OpenRead × State :=
  let s0 := finishPassed s.pu.openReads s
  match s0.su.setup with
  | none => (⟨b.id, role, none, [], false, false⟩, s0)
  | some p =>
    if role = .app then
      let r := bindViews p b allViews s0
      (⟨b.id, role, some p.windows, r.2, false, false⟩, r.1)
    else (⟨b.id, role, some p.windows, [], false, false⟩, s0)

/-- The burst in flight a beat continues, none for the first data beat of a burst. -/
def continued (b : ReadBeat) (s : State) : Option OpenRead :=
  if b.beat = 0 then none
  else match findOpen s.pu.openReads b.id with
    | some o => if o.passed then none else some o
    | none => none

/-- The burst a beat belongs to and the state with it begun; none when the beat is not one of a forwarded read (R162,
R165). -/
def burstOf (b : ReadBeat) (s : State) : Option (OpenRead × State) :=
  match continued b s with
  | some o => some (o, s)
  | none =>
    match forwardedRole s .read b.id with
    | some role => some (beginBurst b role s)
    | none => none

/-- The beat is put at the upstream port and the burst kept, or ended with its last beat. -/
def endBeat (b : ReadBeat) (o : OpenRead) (data : List Byte) (s : State) : State :=
  let last := isLastBeat b
  let reads :=
    if last then
      if o.views.isEmpty then s.pu.openReads.filter (fun x => decide (x.id ≠ o.id))
      else putOpen s.pu.openReads { o with passed := true }
    else putOpen s.pu.openReads o
  { s with
    pu := { s.pu with
      openReads := reads
      issuedRead := if last then dropIssued b.id s.pu.issuedRead else s.pu.issuedRead
      up := [⟨b.id, b.resp, data⟩] } }

/-! ### RADIO beats (R19, R20, R56 to R58) -/

/-- A RADIO beat answered OKAY under a window table: departures and classified reads in the order their byte 9 passes,
DL_EARLY counted once for the read, and the data overlaid. -/
def radioBeat (t : Windows) (b : ReadBeat) (o : OpenRead) (s : State) : State :=
  let a := beatAddr b
  let n := b.data.length
  let s1 := fetchAll (classByteSlots t a n) s
  let early := carriesEarly s1 t a n
  let s2 : State :=
    if early && !o.early then { s1 with rcu := { s1.rcu with dl := { s1.rcu.dl with early := s1.rcu.dl.early + 1 } } }
    else s1
  endBeat b { o with early := o.early || early } (overlayBytes s2 t a b.data) s2

/-! ### APP beats in views (R143 to R151) -/

/-- The record indices of a view of which the beat carries a byte. -/
def beatRecords (t : Windows) (v : View) (a n : Nat) : List Nat :=
  (List.range n).filterMap (fun k =>
    if inExtent (viewBase t v) (viewExtent v) (a + k) then recordIndex v (a + k - viewBase t v) else none)

/-- The LIVE images of records taken where they are not yet held (R144). -/
def holdRecords (s : State) (v : View) : List Nat → List (Nat × List Byte) → List (Nat × List Byte)
  | [], held => held
  | i :: is, held =>
    holdRecords s v is (if held.any (fun (h : Nat × List Byte) => decide (h.1 = i)) then held else held ++ [(i, recordImage s v i)])

/-- A number added to a list that does not hold it. -/
def addNew (l : List Nat) (i : Nat) : List Nat := if l.contains i then l else l ++ [i]

/-- A binding after a beat: LIVE records taken at their first beat, the records covered or spoiled noted (R144, R147). -/
def noteBeat (s : State) (t : Windows) (b : ReadBeat) (x : ViewBinding) : ViewBinding :=
  let rs := beatRecords t x.view (beatAddr b) b.data.length
  { x with
    held := if x.mode = .live then holdRecords s x.view rs x.held else x.held
    covered := if isOkay b.resp then rs.foldl addNew x.covered else x.covered
    spoiled := if isOkay b.resp then x.spoiled else rs.foldl addNew x.spoiled }

/-- The byte at an offset of a view as its binding serves it: of the header, formed from the state as the beat passes,
of the snapshot bound, or of the LIVE record held (R144, R145, R148). -/
def boundByte (s : State) (x : ViewBinding) (off : Nat) : Byte :=
  match recordIndex x.view off with
  | none =>
    let h := match x.snapshot with
      | some n => headerImage x.view x.mode n.count n.generation n.qt
      | none => headerImage x.view .live (shownCount s x.view) 0 s.su.qt
    (h[off]?).getD 0
  | some i =>
    let image := match x.snapshot with
      | some n => (n.images[i]?).getD []
      | none => ((x.held.find? (fun (h : Nat × List Byte) => decide (h.1 = i))).map Prod.snd).getD []
    (image[(off - headerSize x.view) % recordSize x.view]?).getD 0

/-- The byte at an address as it is returned to APP: the View Unit's in a view's extent, DRAM's elsewhere (R143). -/
def viewByte (s : State) (t : Windows) (xs : List ViewBinding) (a : Nat) (b : Byte) : Byte :=
  match xs.find? (fun x => inExtent (viewBase t x.view) (viewExtent x.view) a) with
  | some x => boundByte s x (a - viewBase t x.view)
  | none => b

/-- Read data from address `a` on as it is returned to APP. -/
def viewBytes (s : State) (t : Windows) (xs : List ViewBinding) : Nat → List Byte → List Byte
  | _, [] => []
  | a, b :: bs => viewByte s t xs a b :: viewBytes s t xs (a + 1) bs

/-- The beat is the first of its burst to carry a byte of the status page, and the burst carries a byte of the crane
summary word (bytes 10 and 11 of the page): a summary read (R151). -/
def isSummaryRead (t : Windows) (b : ReadBeat) (o : OpenRead) : Bool :=
  beatCarries b t.statusPage 256 && burstCarries b (t.statusPage + 10) 2 &&
    o.views.any (fun x => decide (x.view = .status) && x.held.isEmpty)

/-- The notice of a summary read: IRQ_CRANE's latch is cleared in LATCH_READ mode (R151, R161). -/
def summaryNotice (s : State) : State :=
  match s.su.setup with
  | some p => if p.irqMode = .latchRead then { s with rpu := { s.rpu with craneLatch := false } } else s
  | none => s

/-- An APP beat under a window table with view bindings (R143 to R151). The page's state is taken before the notice
acts (notes/assumptions/19.md). -/
def appBeat (t : Windows) (b : ReadBeat) (o : OpenRead) (s : State) : State :=
  let o1 := { o with views := o.views.map (noteBeat s t b) }
  let data := if isOkay b.resp then viewBytes s t o1.views (beatAddr b) b.data else b.data
  let s1 := if isSummaryRead t b o then summaryNotice s else s
  endBeat b o1 data s1

/-! ### Writes in view windows (R149) -/

/-- A write burst whose response passes back, counted in VIEW_WRITES where it covers a byte of a view (R149). -/
def countViewWrite (w : Write) (s : State) : State :=
  match s.su.setup with
  | some p => if touchesView w p.windows then { s with vu := { s.vu with writes := s.vu.writes + 1 } } else s
  | none => s

/-! ### A beat as a whole -/

/-- A read beat returned upstream as its role and its burst's window table call for (R164). -/
def carryBeat (b : ReadBeat) (o : OpenRead) (s : State) : State :=
  match o.table with
  | none => endBeat b o b.data s
  | some t =>
    match o.role with
    | .radio => if isOkay b.resp then radioBeat t b o s else endBeat b o b.data s
    | .app => appBeat t b o s
    | .other => endBeat b o b.data s

/-- A RADIO beat that carries byte 9 of a downlink slot (R19, R20). -/
def isDepartureBeat (b : ReadBeat) (o : OpenRead) : Bool :=
  match o.table with
  | some t => decide (o.role = .radio) && !(classByteSlots t (beatAddr b) b.data.length).isEmpty
  | none => false

/-- A RADIO beat in the downlink slots that carries no byte 9 (R58). -/
def isMotionBeat (b : ReadBeat) (o : OpenRead) : Bool :=
  match o.table with
  | some t => decide (o.role = .radio) && beatCarries b t.dlSlots (t.dlCount * Config.slotBytes) && !isDepartureBeat b o
  | none => false

/-- A beat in a view's extent (R142). -/
def isViewBeat (b : ReadBeat) (o : OpenRead) : Bool :=
  match o.table with
  | some t => allViews.any (fun v => beatCarries b (viewBase t v) (viewExtent v))
  | none => false

/-- A beat the part does not act on (R164): no RADIO beat in the downlink slots, no APP beat in a view. -/
def isPlainBeat (b : ReadBeat) (o : OpenRead) : Bool :=
  !isDepartureBeat b o && !isMotionBeat b o && !(decide (o.role = .app) && isViewBeat b o)

/-- A beat passed when it is one the row speaks of; a beat of another kind leaves the part unchanged
(notes/assumptions/2.md). -/
def passBeat (accepts : ReadBeat → OpenRead → Bool) (b : ReadBeat) (s : State) : State :=
  match burstOf b s with
  | none => s
  | some (o, s1) => if accepts b o then carryBeat b o s1 else s

/-! ### The meanings of the rows -/

/-- DEPARTURE (R19, R20, R52 to R57). -/
def execDeparture (b : ReadBeat) (s : State) : Host.Outcome State Fault Refusal := .next (passBeat isDepartureBeat b s)

/-- MOTION_BYTES_READ (R58). -/
def execMotionBytesRead (b : ReadBeat) (s : State) : Host.Outcome State Fault Refusal :=
  .next (passBeat isMotionBeat b s)

/-- VIEW_READ_BEAT (R142 to R151); a RADIO or OTHER beat in a view returns DRAM's data (R149). -/
def execViewReadBeat (b : ReadBeat) (s : State) : Host.Outcome State Fault Refusal := .next (passBeat isViewBeat b s)

/-- VIEW_BURST_LAST_BEAT (R147, R148): the coverage of the burst of an ID whose last beat has passed. -/
def execViewBurstLastBeat (id : AxiId) (s : State) : Host.Outcome State Fault Refusal :=
  .next (match findOpen s.pu.openReads id with
    | some o => if o.passed then finishBurst o s else s
    | none => s)

end Sys2Proof.Machine
end

