-- ==== Sys2Proof/Machine/Path.lean ====
section
/-! DEFINITION. The Path Unit's own events (09_path_setup_and_reset.md, 9.1 to 9.4): refusal of the INJ_ID, forwarding
with no effect, the injection queue and the two arbiters; and the meanings of the rows INJ_ID_REFUSED,
TRANSACTION_FORWARD, INJECTION_ENQUEUE and ARBITER_GRANT. -/

namespace Sys2Proof.Machine

open Sys2Proof

/-! ### Writes that take effect (R164) -/

/-- An OKAY write in RUNNING that the Ring Capture Unit or the Report Unit watches for its role (R2, R5, R15, R17,
R157). -/
def isUnitWrite (p : Setup) (role : Role) (w : Write) : Bool :=
  match role with
  | .radio => touches w p.windows.ulSlots (p.windows.ulCount * Config.slotBytes) || touches w p.windows.ulProducer 4
  | .app => !(touchedSlots w p.windows.dlSlots p.windows.dlCount 12).isEmpty || touches w p.windows.dlProducer 4
      || touches w p.windows.reportConsumer 4
  | .other => false

/-- A write of the command word that covers every byte of it with active strobes, by APP, or by any master while no
setup is in force (R162, R171). -/
def isCommandWrite (s : State) (role : Role) (w : Write) : Bool :=
  (decide (role = .app) || s.su.setup.isNone) && coversWhole w (commandWordAddr s) 4

/-- The response passing back makes a watched write take effect in the part (R149, R164). -/
def hasEffect (s : State) (role : Role) (w : Write) : Bool :=
  match s.su.setup with
  | some p =>
    touchesView w p.windows ||
      (isOkay w.resp && ((decide (s.su.runState = .running) && isUnitWrite p role w) || isCommandWrite s role w))
  | none => isOkay w.resp && isCommandWrite s role w

/-! ### Refusal (R162) -/

/-- The answers to a transaction of the INJ_ID: SLVERR for every beat of a read, once for a write (R162;
notes/assumptions/24.md). -/
def refusalBeats (id : AxiId) (beats : Nat) : Channel → List UpBeat
  | .read => List.replicate beats ⟨id, .slverr, []⟩
  | .write => [⟨id, .slverr, []⟩]

/-! ### The injection queue (R165) -/

/-- The channel an injected transaction is issued on. -/
def InjBody.channel : InjBody → Channel
  | .setupRead _ => .read
  | .ulIndexRead => .read
  | .dlIndexRead => .read
  | .repIndexRead => .read
  | .recordWrite _ => .write
  | .indexWrite _ => .write
  | .statusWrite _ => .write

/-- An issued request is an injected one. -/
def Issued.isInjected : Issued → Bool
  | .injected _ => true
  | .forwarded _ _ => false

/-- Transactions in the injection queue: handed in and their responses not yet received (R165). -/
def PathUnit.injectionCount (u : PathUnit) : Nat :=
  u.ready.length + (u.issuedRead.filter Issued.isInjected).length + (u.issuedWrite.filter Issued.isInjected).length

/-- What a source has made and not yet handed in, in the order made. -/
def PathUnit.waiting (u : PathUnit) : Source → List InjRequest
  | .rpu => u.waitRpu
  | .su => u.waitSu

/-- What a source has still to hand in replaced. -/
def PathUnit.setWaiting (u : PathUnit) (src : Source) (l : List InjRequest) : PathUnit :=
  match src with
  | .rpu => { u with waitRpu := l }
  | .su => { u with waitSu := l }

/-- The head of a source's transactions handed in with the INJ_ID in force; a source that finds the queue full waits
(R165). -/
def enqueue (src : Source) (s : State) : State :=
  match s.pu.waiting src with
  | [] => s
  | q :: rest =>
    if s.pu.injectionCount < Config.injectionDepth then
      { s with pu := { s.pu.setWaiting src rest with ready := s.pu.ready ++ [⟨injIdInForce s, q⟩] } }
    else s

/-! ### The arbiters (R166) -/

/-- The oldest waiting injection of a channel, and the queue without it. -/
def firstInjection (ch : Channel) : List Injected → Option (Injected × List Injected)
  | [] => none
  | x :: xs =>
    if x.request.body.channel = ch then some (x, xs)
    else match firstInjection ch xs with
      | some (y, ys) => some (y, x :: ys)
      | none => none

/-- The form of an injected burst: the bytes of R165's table as one INCR burst (notes/assumptions/37.md). -/
def InjBody.burst : InjBody → BurstForm
  | .setupRead _ => ⟨.incr, 16, 16⟩
  | .ulIndexRead => ⟨.incr, 4, 1⟩
  | .dlIndexRead => ⟨.incr, 4, 1⟩
  | .repIndexRead => ⟨.incr, 4, 1⟩
  | .recordWrite _ => ⟨.incr, 16, 2⟩
  | .indexWrite _ => ⟨.incr, 4, 1⟩
  | .statusWrite _ => ⟨.incr, 8, 1⟩

/-- The bytes an injected write carries; a read carries none. -/
def InjBody.bytes : InjBody → List Byte
  | .recordWrite bs => bs
  | .indexWrite bs => bs
  | .statusWrite bs => bs
  | .setupRead _ => []
  | .ulIndexRead => []
  | .dlIndexRead => []
  | .repIndexRead => []

/-- The request an injected transaction puts on the downstream port (R165's table). -/
def injectedRequest (x : Injected) : DownRequest :=
  match x.request.body.channel with
  | .read => .read x.id x.request.addr x.request.body.burst
  | .write => .write x.id x.request.addr x.request.body.burst (x.request.body.bytes.map some)

/-- The through count of a channel. -/
def PathUnit.through (u : PathUnit) : Channel → Nat
  | .read => u.throughRead
  | .write => u.throughWrite

/-- The forwarded requests waiting on a channel. -/
def PathUnit.forwards (u : PathUnit) : Channel → List FwdRequest
  | .read => u.fwdRead
  | .write => u.fwdWrite

/-- A request issued downstream on a channel, the through count after the grant being `t`. -/
def PathUnit.issue (u : PathUnit) (ch : Channel) (i : Issued) (t : Nat) (d : DownRequest) : PathUnit :=
  match ch with
  | .read => { u with issuedRead := u.issuedRead ++ [i], throughRead := t, down := some d }
  | .write => { u with issuedWrite := u.issuedWrite ++ [i], throughWrite := t, down := some d }

/-- The oldest forwarded request granted. -/
def grantForwarded (ch : Channel) (f : FwdRequest) (rest : List FwdRequest) (t : Nat) (u : PathUnit) : PathUnit :=
  match ch with
  | .read => { u with fwdRead := rest }.issue .read (.forwarded f.id f.role) t (.read f.id f.addr f.burst)
  | .write => { u with fwdWrite := rest }.issue .write (.forwarded f.id f.role) t (.write f.id f.addr f.burst f.data)

/-- The oldest waiting injection granted. -/
def grantInjected (ch : Channel) (x : Injected) (rest : List Injected) (u : PathUnit) : PathUnit :=
  { u with ready := rest }.issue ch (.injected x) 0 (injectedRequest x)

/-- One grant on a channel by the table of R166. -/
def grant (ch : Channel) (u : PathUnit) : PathUnit :=
  match firstInjection ch u.ready, u.forwards ch with
  | none, [] => u
  | none, f :: fs => grantForwarded ch f fs 0 u
  | some (x, rest), [] => grantInjected ch x rest u
  | some (x, rest), f :: fs =>
    if u.through ch < Config.throughLimit then grantForwarded ch f fs (u.through ch + 1) u
    else grantInjected ch x rest u

/-! ### The meanings of the rows -/

/-- INJ_ID_REFUSED (R162), in every run state. -/
def execInjIdRefused (id : AxiId) (channel : Channel) (beats : Nat) (s : State) : Host.Outcome State Fault Refusal :=
  .next (if id = injIdInForce s then { s with pu := { s.pu with up := refusalBeats id beats channel } } else s)

/-- A request accepted at the upstream port, its role decided now (R162, R164). -/
def acceptRequest (ch : Channel) (f : FwdRequest) (s : State) : State :=
  if f.id = injIdInForce s then s
  else match ch with
    | .read => { s with pu := { s.pu with fwdRead := s.pu.fwdRead ++ [f] } }
    | .write => { s with pu := { s.pu with fwdWrite := s.pu.fwdWrite ++ [f] } }

/-- A write response returned upstream with no effect in the part (R164); a response that makes a watched write take
effect is the event of another row and leaves the part unchanged (notes/assumptions/2.md). -/
def forwardResponse (w : Write) (s : State) : State :=
  match forwardedRole s .write w.id with
  | none => s
  | some role => if hasEffect s role w then s else returnWrite w s

/-- TRANSACTION_FORWARD (R164). -/
def execTransactionForward (f : Forward) (s : State) : Host.Outcome State Fault Refusal :=
  .next (match f with
    | .readRequest id addr burst => acceptRequest .read ⟨id, roleOf s.su.setup id, addr, burst, []⟩ s
    | .writeRequest id addr burst data => acceptRequest .write ⟨id, roleOf s.su.setup id, addr, burst, data⟩ s
    | .readBeat b => passBeat isPlainBeat b s
    | .writeResponse w => forwardResponse w s)

/-- INJECTION_ENQUEUE (R165). -/
def execInjectionEnqueue (source : Source) (s : State) : Host.Outcome State Fault Refusal := .next (enqueue source s)

/-- ARBITER_GRANT (R166). -/
def execArbiterGrant (channel : Channel) (s : State) : Host.Outcome State Fault Refusal :=
  .next { s with pu := grant channel s.pu }

end Sys2Proof.Machine
end

