-- ==== Sys2Proof/Machine/Reports.lean ====
section
/-! DEFINITION. The Report Unit's own events (08_report_ring_and_interrupt_lines.md): the taking of a head record, the
answers to its two injected writes, the ring FAULT, the consumer index; and the meanings of the rows REPORT_TAKE,
REPORT_RECORD_WRITE_DONE and REPORT_INDEX_WRITE_DONE. -/

namespace Sys2Proof.Machine

open Sys2Proof

/-! ### The taking of a record (R155) -/

/-- A head record is written at this free space: 5 or more for any, 1..4 (the reserve) for the Crane Link Unit's. -/
def isWritten (free : Nat) (r : Record) : Bool := decide (5 ≤ free) || (decide (1 ≤ free) && decide (r.origin = .clu))

/-- Heads judged in turn, each dropped one counted, until one is to be written or the queue is empty (R155): the unit
with what is left of the queue, and the record to be written. -/
def takeHead (free : Nat) : List Record → ReportUnit → ReportUnit × Option Record
  | [], u => ({ u with queue := [] }, none)
  | r :: rs, u =>
    if isWritten free r then ({ u with queue := rs }, some r)
    else takeHead free rs (u.drop 1)

/-- Address of slot P of the report ring (R155). -/
def reportSlotAddr (p : Setup) (producer : Nat) : Nat := p.windows.reportRing + 32 * producer

/-- The value P takes after an index write (R155). -/
def nextProducer (p : Setup) (producer : Nat) : Nat := (producer + 1) % p.windows.repCount

/-- A transaction made by the Report Unit, waiting for the injection queue (R165). -/
def State.injectRpu (s : State) (body : InjBody) (addr : Nat) : State :=
  { s with pu := { s.pu with waitRpu := s.pu.waitRpu ++ [⟨body, addr, true⟩] } }

/-- The head records judged and the one to be written taken: its bytes carry the drops before it (R155, R156). -/
def takeRecord (p : Setup) (s : State) : State :=
  let t := takeHead (s.rpu.freeSlots p.windows.repCount) s.rpu.queue s.rpu
  match t.2 with
  | none => { s with rpu := t.1 }
  | some r =>
    { s with rpu := { t.1 with inFlight := some r, phase := .record, pendingDrops := 0 } }.injectRpu
      (.recordWrite (recordBytes r t.1.pendingDrops)) (reportSlotAddr p s.rpu.producer)

/-! ### The answers (R155, R158) -/

/-- Records lost at entry into FAULT: those queued and the one in flight (R158). -/
def ReportUnit.held (u : ReportUnit) : Nat := u.queue.length + (if u.inFlight.isSome then 1 else 0)

/-- Entry into FAULT: everything held is dropped and counted, P stands (R158). -/
def ReportUnit.fail (u : ReportUnit) : ReportUnit :=
  { u.drop u.held with queue := [], inFlight := none, phase := .idle, ring := .fault }

/-- The record write answered OKAY: the index write is issued (R155). -/
def issueIndexWrite (p : Setup) (s : State) : State :=
  { s with rpu := { s.rpu with phase := .index } }.injectRpu
    (.indexWrite (le32 (BitVec.ofNat 32 (nextProducer p s.rpu.producer)))) p.windows.reportProducer

/-- The index write answered OKAY: P advances and the record in flight becomes none (R155). -/
def advanceProducer (p : Setup) (s : State) : State :=
  { s with rpu := { s.rpu with producer := nextProducer p s.rpu.producer, inFlight := none, phase := .idle } }

/-- An answer to a report write that acts on the unit: `act` for OKAY, FAULT for any other (R158). -/
def reportAnswer (resp : Resp) (act : Setup → State → State) (s : State) : State :=
  match s.su.setup with
  | none => s
  | some p => if injectedOkay resp then act p s else { s with rpu := s.rpu.fail }

/-- The body is that of a record write. -/
def InjBody.isRecordWrite : InjBody → Bool
  | .recordWrite _ => true
  | _ => false

/-- The body is that of a write of the producer index word. -/
def InjBody.isIndexWrite : InjBody → Bool
  | .indexWrite _ => true
  | _ => false

/-! ### The consumer index (R157) -/

/-- A consumer index write taken, or refused with INDEX_FAULT. -/
def consumerWritten (p : Setup) (w : Write) (s : State) : State :=
  let base := p.windows.reportConsumer
  let v := indexValue w base
  if !coversWhole w base 4 then s.report [recIndexFault .rpu 2 1 v s.su.qt]
  else if p.windows.repCount ≤ v then s.report [recIndexFault .rpu 2 0 v s.su.qt]
  else { s with rpu := { s.rpu with consumer := v, dropFlag := false } }

/-- A completed APP write's bytes in the consumer index word, where it covers any (R157). -/
def writeConsumer (p : Setup) (w : Write) (s : State) : State :=
  if touches w p.windows.reportConsumer 4 then consumerWritten p w s else s

/-! ### The meanings of the rows -/

/-- REPORT_TAKE (R155): taken with the write phase IDLE, the ring RUNNING and the queue not empty. -/
def execReportTake (s : State) : Host.Outcome State Fault Refusal :=
  .next (match s.su.setup with
    | none => s
    | some p =>
      if s.rpu.phase = .idle ∧ s.rpu.ring = .running ∧ s.rpu.queue ≠ [] then takeRecord p s else s)

/-- REPORT_RECORD_WRITE_DONE (R155, R158, R165): the answer to the injected record write. An answer to a write made
before a RELOAD completion or an entry into PASS_ONLY does not act (R160). -/
def execReportRecordWriteDone (id : AxiId) (resp : Resp) (s : State) : Host.Outcome State Fault Refusal :=
  .next (match takeInjected s .write id with
    | none => s
    | some (q, s1) =>
      if q.body.isRecordWrite then
        if q.live then reportAnswer resp issueIndexWrite s1 else s1
      else s)

/-- REPORT_INDEX_WRITE_DONE (R155, R158, R165): the answer to the injected producer index write. -/
def execReportIndexWriteDone (id : AxiId) (resp : Resp) (s : State) : Host.Outcome State Fault Refusal :=
  .next (match takeInjected s .write id with
    | none => s
    | some (q, s1) =>
      if q.body.isIndexWrite then
        if q.live then reportAnswer resp advanceProducer s1 else s1
      else s)

end Sys2Proof.Machine
end

