-- ==== Sys2Proof/Machine/SetupBlock.lean ====
section
/-! DEFINITION. The setup block (10_memory_formats.md, 10.1): its validation in the order of R169 with the limits of
R24, R75, R91, R112, R114, R153, R162, R163 and R173, and the setup its copy makes. -/

namespace Sys2Proof.Machine

open Sys2Proof

/-! ### The role table (R162) -/

/-- A range of the role table as it stands in the block. -/
structure RawRange where
  lowest  : Nat
  highest : Nat
  role    : Nat
  deriving DecidableEq, Repr

/-- The four ranges of the copy. -/
def rawRanges (bs : List Byte) : List RawRange :=
  (List.range 4).map (fun k => ⟨field bs (0x20 + 8 * k) 2, field bs (0x22 + 8 * k) 2, field bs (0x24 + 8 * k) 1⟩)

/-- The ranges whose role is not UNUSED. -/
def usedRanges (bs : List Byte) : List RawRange := (rawRanges bs).filter (fun r => decide (r.role ≠ 0))

/-- INJ_ID of the copy. -/
def rawInjId (bs : List Byte) : Nat := field bs 0x40 2

/-- Some two of a list are related, the earlier one named first. -/
def somePair {α : Type} (rel : α → α → Bool) : List α → Bool
  | [] => false
  | x :: xs => xs.any (rel x) || somePair rel xs

/-- Two ranges share an ID. -/
def rangesMeet (a b : RawRange) : Bool := decide (a.lowest ≤ b.highest) && decide (b.lowest ≤ a.highest)

/-- ROLE_TABLE (R162, R173). -/
def roleTableBad (bs : List Byte) : Bool :=
  (rawRanges bs).any (fun r => decide (2 < r.role)) ||
    (usedRanges bs).any (fun r => decide (r.highest < r.lowest)) ||
    somePair rangesMeet (usedRanges bs) ||
    (usedRanges bs).any (fun r => decide (r.lowest ≤ rawInjId bs) && decide (rawInjId bs ≤ r.highest))

/-! ### Windows (R163) -/

/-- Window base number k of 10.1's order, a 64-bit field. -/
def rawBase (bs : List Byte) (k : Nat) : Nat := field bs (0x48 + 8 * k) 8

/-- UL_SLOTS of the copy. -/
def rawUlCount (bs : List Byte) : Nat := field bs 0xA0 2
/-- DL_SLOTS of the copy. -/
def rawDlCount (bs : List Byte) : Nat := field bs 0xA2 2
/-- REP_SLOTS of the copy. -/
def rawRepCount (bs : List Byte) : Nat := field bs 0xA4 2

/-- One window of a table: its base, its extent and its alignment. -/
structure WindowExtent where
  base  : Nat
  size  : Nat
  align : Nat
  deriving DecidableEq, Repr

/-- The eleven windows of the copy, with the extents and alignments of R163. -/
def rawExtents (bs : List Byte) : List WindowExtent :=
  [⟨rawBase bs 0, rawUlCount bs * 256, 256⟩,
   ⟨rawBase bs 1, 4, 4⟩,
   ⟨rawBase bs 2, rawDlCount bs * 256, 256⟩,
   ⟨rawBase bs 3, 4, 4⟩,
   ⟨rawBase bs 4, rawRepCount bs * 32, 32⟩,
   ⟨rawBase bs 5, 4, 4⟩,
   ⟨rawBase bs 6, 4, 4⟩,
   ⟨rawBase bs 7, viewExtent .status, 256⟩,
   ⟨rawBase bs 8, viewExtent .crane, 4096⟩,
   ⟨rawBase bs 9, viewExtent .coverage, 8192⟩,
   ⟨rawBase bs 10, viewExtent .reefer, 262144⟩]

/-- A number outside a range. -/
def outside (n low high : Nat) : Bool := decide (n < low) || decide (high < n)

/-- A signed number outside a range. -/
def outsideInt (n low high : Int) : Bool := decide (n < low) || decide (high < n)

/-- WINDOW_RANGE (R163, R153, R173). -/
def windowRangeBad (bs : List Byte) : Bool :=
  outside (rawUlCount bs) 16 1024 || outside (rawDlCount bs) 16 256 || outside (rawRepCount bs) 64 4096 ||
    (rawExtents bs).any (fun x => decide (2 ^ 40 < x.base + x.size))

/-- WINDOW_ALIGN (R163). -/
def windowAlignBad (bs : List Byte) : Bool := (rawExtents bs).any (fun x => decide (x.base % x.align ≠ 0))

/-- Two extents share a byte. -/
def extentsMeet (a b : WindowExtent) : Bool := overlaps a.base a.size b.base b.size

/-- The setup block's own extent (R163): 16 KiB at SBASE × 16 MiB. -/
def setupExtent (sbase : BitVec 8) : WindowExtent := ⟨sbase.toNat * 16777216, 16384, 16777216⟩

/-- WINDOW_OVERLAP (R163). -/
def windowOverlapBad (sbase : BitVec 8) (bs : List Byte) : Bool :=
  somePair extentsMeet (setupExtent sbase :: rawExtents bs)

/-! ### The other parameters -/

/-- VIEW_MODE (R173). -/
def viewModeBad (bs : List Byte) : Bool := decide (2 < field bs 0xA6 1) || decide (2 < field bs 0xA7 1)

/-- Terminal IDs of the roster of the copy. -/
def rawTerminals (bs : List Byte) : List Nat := (List.range 12).map (fun n => field bs (0xC0 + 8 * n) 4)

/-- ROSTER: two entries, enabled or not, hold the same non-zero terminal ID (R24). -/
def rosterBad (bs : List Byte) : Bool :=
  somePair (fun a b => decide (a ≠ 0) && decide (a = b)) (rawTerminals bs)

/-- The crane timing of the copy. -/
def rawTiming (bs : List Byte) : CraneTiming :=
  ⟨field bs 0x120 2, field bs 0x122 2, field bs 0x124 2, field bs 0x126 1, field bs 0x127 1⟩

/-- CRANE_TIMING (R24). -/
def timingBad (t : CraneTiming) : Bool :=
  outside t.lateMs 10 10000 || outside t.lostMs (t.lateMs + 1) 60000 || outside t.echoMs 10 60000 ||
    outside t.recoverCount 1 15 || decide (15 < t.tracePost)

/-- Entry c of the class table of the copy. -/
def rawClass (bs : List Byte) (c : Nat) : ReeferClass :=
  let o := 0x140 + 8 * c
  ⟨field bs o 1, field bs (o + 1) 1, field bs (o + 2) 1, field bs (o + 3) 1, field bs (o + 4) 1, field bs (o + 6) 2⟩

/-- The class table of the copy. -/
def rawClasses (bs : List Byte) : List ReeferClass := (List.range 16).map (rawClass bs)

/-- A class entry breaks R91. -/
def classBad (k : ReeferClass) : Bool :=
  decide (100 < k.bandLow) || decide (100 < k.bandHigh) || outside k.excCount 1 15 || decide (3 < k.stretchMax) ||
    outside k.silenceMin 1 240 || outside k.lossMin k.silenceMin 720

/-- PLUGS_PER_SEG of the copy. -/
def rawPlugsPerSeg (bs : List Byte) : Nat := field bs 0x1C0 2

/-- The numeric coverage parameters of the copy. -/
def rawCoverage (bs : List Byte) : CoverageParams where
  segCount    := field bs 0x1C2 1
  weightShift := field bs 0x1C3 1
  segLenCm    := field bs 0x1C4 2
  shadowCm    := field bs 0x1C6 2
  accLow      := signed16 bs 0x1C8
  accHigh     := signed16 bs 0x1CA
  goodLevel   := signed16 bs 0x1CC
  holeLevel   := signed16 bs 0x1CE
  goodOfs     := signed16 bs 0x1D0
  holeOfs     := signed16 bs 0x1D2
  hyst16      := field bs 0x1D5 1
  driftDb     := field bs 0x1D6 1
  ageS        := field bs 0x1D8 2

/-- CLASS_MODE byte of the copy. -/
def rawClassMode (bs : List Byte) : Nat := field bs 0x1D4 1

/-- COVERAGE_PARAM (R112, R173). -/
def coverageBad (c : CoverageParams) (mode : Nat) : Bool :=
  outside c.segCount 8 128 || outside c.segLenCm 500 10000 || decide (20000 < c.shadowCm) ||
    outsideInt c.accLow (-160) 19 || outsideInt c.accHigh (c.accLow + 1) 20 || outside c.weightShift 1 6 ||
    decide (1 < mode) || outsideInt c.goodLevel (c.holeLevel + 1) 20 || outsideInt c.holeLevel (-160) (c.goodLevel - 1) ||
    outsideInt c.goodOfs (c.holeOfs + 1) 0 || outsideInt c.holeOfs (-60) (c.goodOfs - 1) ||
    decide (160 < c.hyst16) || outside c.ageS 10 3600 || outside c.driftDb 1 60

/-- Baseline s of the copy: 8000H is none (R173). -/
def rawBaseline (bs : List Byte) (s : Nat) : Option Int :=
  let v := signed16 bs (0x200 + 2 * s)
  if v = -32768 then none else some v

/-- BASELINE: an entry of segment 0..SEG_COUNT−1 other than none lies outside −2560..320 (R114). -/
def baselineBad (bs : List Byte) : Bool :=
  (List.range (rawCoverage bs).segCount).any (fun s => (rawBaseline bs s).any (fun b => outsideInt b (-2560) 320))

/-- REPORT_PARAM (R153, R173). -/
def reportParamBad (bs : List Byte) : Bool :=
  outside (field bs 0x300 2) 1 (rawRepCount bs - 1) || decide (3 < field bs 0x302 1) || outside (field bs 0x303 1) 1 255 ||
    decide (4096 ≤ field bs 0x304 2)

/-! ### The validation (R169) -/

/-- The fault code of the first check of R169's table that fails. -/
def validateSetup (sbase : BitVec 8) (bs : List Byte) : Option Byte :=
  firstFailing
    [(decide (field bs 0 4 ≠ 0x0B5C0212), 0x02),
     (decide (field bs 4 2 ≠ 1), 0x03),
     (roleTableBad bs, 0x04),
     (windowRangeBad bs, 0x05),
     (windowAlignBad bs, 0x06),
     (windowOverlapBad sbase bs, 0x07),
     (viewModeBad bs, 0x08),
     (rosterBad bs, 0x09),
     (timingBad (rawTiming bs), 0x0A),
     ((rawClasses bs).any classBad, 0x0B),
     (outside (rawPlugsPerSeg bs) 1 4096, 0x0C),
     (coverageBad (rawCoverage bs) (rawClassMode bs), 0x0D),
     (baselineBad bs, 0x0E),
     (reportParamBad bs, 0x0F)]

/-! ### The setup of a copy (10.1) -/

/-- Role of a role byte that is not UNUSED. -/
def Role.ofCode (n : Nat) : Role := if n = 1 then .app else .radio

/-- View mode of its byte. -/
def ViewMode.ofCode (n : Nat) : ViewMode := if n = 0 then .live else if n = 1 then .header else .all

/-- CLASS_MODE of its byte. -/
def ClassMode.ofCode (n : Nat) : ClassMode := if n = 0 then .absolute else .relative

/-- CRANE_IRQ_MODE of its byte. -/
def CraneIrqMode.ofCode (n : Nat) : CraneIrqMode :=
  if n = 0 then .level else if n = 1 then .latchRead else if n = 2 then .latchAck else .timed

/-- The window table of a copy. -/
def windowsOf (bs : List Byte) : Windows where
  ulSlots        := rawBase bs 0
  ulProducer     := rawBase bs 1
  dlSlots        := rawBase bs 2
  dlProducer     := rawBase bs 3
  reportRing     := rawBase bs 4
  reportProducer := rawBase bs 5
  reportConsumer := rawBase bs 6
  statusPage     := rawBase bs 7
  craneView      := rawBase bs 8
  coverageView   := rawBase bs 9
  reeferView     := rawBase bs 10
  ulCount        := rawUlCount bs
  dlCount        := rawDlCount bs
  repCount       := rawRepCount bs

/-- Roster entry n of a copy: only bit 0 of byte 4 is judged (R173). -/
def rosterEntryOf (bs : List Byte) (n : Nat) : RosterEntry :=
  ⟨BitVec.ofNat 32 (field bs (0xC0 + 8 * n) 4), decide (field bs (0xC4 + 8 * n) 1 % 2 = 1)⟩

/-- The setup a validated copy makes. -/
def setupOf (bs : List Byte) : Setup where
  roles          := (usedRanges bs).map (fun r => ⟨r.lowest, r.highest, Role.ofCode r.role⟩)
  injId          := BitVec.ofNat 16 (rawInjId bs)
  windows        := windowsOf bs
  craneMode      := ViewMode.ofCode (field bs 0xA6 1)
  coverageMode   := ViewMode.ofCode (field bs 0xA7 1)
  roster         := (List.range 12).map (rosterEntryOf bs)
  timing         := rawTiming bs
  classes        := rawClasses bs
  plugsPerSeg    := rawPlugsPerSeg bs
  coverage       := rawCoverage bs
  classMode      := ClassMode.ofCode (rawClassMode bs)
  baselines      := (List.range 128).map (rawBaseline bs)
  eventThreshold := field bs 0x300 2
  irqMode        := CraneIrqMode.ofCode (field bs 0x302 1)
  pulseMs        := field bs 0x303 1
  irqMask        := BitVec.ofNat 16 (field bs 0x304 2)

end Sys2Proof.Machine
end

