-- ==== Sys2Proof/Machine/StatusWord.lean ====
section
/-! DEFINITION. The command status word (R171, 10.1): its eight bytes, the Setup Unit's transactions, and the final
status of the command in hand. -/

namespace Sys2Proof.Machine

open Sys2Proof

/-- The eight bytes of a command status write (10.1). -/
def statusBytes (status : CmdStatus) (code : Byte) (arg : Half) (fault : Byte) (busy : Bool) : List Byte :=
  [lowByte status.code, code] ++ le16 arg ++ [fault, flag busy, 0, 0]

/-- Transactions made by the Setup Unit, waiting for the injection queue in the order made (R165). -/
def State.injectSu (s : State) (qs : List InjRequest) : State :=
  { s with pu := { s.pu with waitSu := s.pu.waitSu ++ qs } }

/-- A write of the command status word handed in. -/
def State.writeStatus (s : State) (bytes : List Byte) : State :=
  s.injectSu [⟨.statusWrite bytes, statusWordAddr s, true⟩]

/-- A PENDING or REFUSED_BUSY status: the rules give it a code and an argument and no fault code, so its fault byte is
a free value (notes/assumptions/11.md). -/
def State.writeStatusFree (s : State) (status : CmdStatus) (code : Byte) (arg : Half) : State :=
  { s with free := s.free + 1 }.writeStatus (statusBytes status code arg (Config.freeFaultByte s.free) false)

/-- The final status of the command in hand handed in, with the discarded-while-busy flag, which then clears; the
command state becomes CLOSING (R171). DESIGN CHOICE: all this as the write is made, also where the injection queue is
full and the write must wait to join it (R165; notes/assumptions/42.md). -/
def handFinal (v : CmdStatus) (s : State) : State :=
  let c := s.su.command
  { s with su := { s.su with command := { c with phase := .closing, busy := false } } }.writeStatus
    (statusBytes v c.code c.arg s.su.faultCode c.busy)

/-- The final status handed in once it is decided and the PENDING write has been answered (R171). -/
def settleCommand (s : State) : State :=
  match s.su.command.verdict with
  | some v => if s.su.command.phase = .pending ∧ s.su.command.pendingAnswered = true then handFinal v s else s
  | none => s

/-- The final status of the command in hand decided. -/
def decideCommand (v : CmdStatus) (s : State) : State :=
  settleCommand { s with su := { s.su with command := { s.su.command with verdict := some v } } }

end Sys2Proof.Machine
end

