-- ==== Sys2Proof/Machine/Timing.lean ====
section
/-! DEFINITION. Reset and port time (R167, R168): the checks and scans a QT increment arms, their taking one by one or
at the latest before the next increment (notes/assumptions/3.md); and the meanings of the rows POWER_ON_RESET,
QT_INCREMENT, LINK_LATE, LINK_LOST, IRQ_CRANE_PULSE_END, REEFER_LOST, REEFER_SILENT, COVERAGE_SCAN_VISIT, SEGMENT_AGED
and SHADOW_AVERAGE_AGED. -/

namespace Sys2Proof.Machine

open Sys2Proof

/-! ### What is due -/

/-- The state with crane n's deadline check taken for this increment. -/
def State.deadlineDone (s : State) (n : Nat) : State :=
  { s with due := { s.due with deadlines := s.due.deadlines.filter (fun m => decide (m ≠ n)) } }

/-- A list of visits cut after index i: the visits up to and including that to i, and those after it. -/
def cutVisits (i : Nat) : List Nat → List Nat × List Nat
  | [] => ([], [])
  | j :: js => if j = i then ([j], js) else (j :: (cutVisits i js).1, (cutVisits i js).2)

/-- The state with the coverage scan visit taken for this increment. -/
def State.coverageDone (s : State) : State := { s with due := { s.due with coverage := false } }

/-- The state with the pulse test taken for this increment. -/
def State.pulseDone (s : State) : State := { s with due := { s.due with pulse := false } }

/-- PULSE_MS have passed since the start of a pulse in TIMED mode (R161). -/
def pulseOver (p : Setup) (s : State) : Bool :=
  match s.rpu.pulseStart with
  | some t => decide (p.irqMode = .timed) && decide (p.pulseMs ≤ elapsed s.su.qt t)
  | none => false

/-- The end of a pulse: the pulse start becomes none (R161). -/
def endPulse (s : State) : State := { s with rpu := { s.rpu with pulseStart := none } }

/-! ### The checks still due, taken together -/

/-- The deadline checks of a list of cranes (R40, R41). -/
def checkDeadlines (p : Setup) : List Nat → State → State
  | [], s => s
  | n :: ns, s => checkDeadlines p ns (deadlineCheck p n s)

/-- The silence scan visits to a list of indices (R105). -/
def visitReefers (p : Setup) : List Nat → State → State
  | [], s => s
  | i :: is, s => visitReefers p is (visitReefer p i s)

/-- The silence scan visits due up to and including that to index i, taken in their order (R105). -/
def takeVisits (p : Setup) (i : Nat) (s : State) : State :=
  { visitReefers p (cutVisits i s.due.visits).1 s with due := { s.due with visits := (cutVisits i s.due.visits).2 } }

/-- Every check still due taken at the current QT. -/
def finishChecks (p : Setup) (s : State) : State :=
  let s1 := checkDeadlines p s.due.deadlines s
  let s2 := visitReefers p s.due.visits s1
  let s3 := if s.due.coverage then coverageVisit p s2 else s2
  if s.due.pulse && pulseOver p s3 then endPulse s3 else s3

/-- Every check still due taken, and none left due. -/
def finishDue (s : State) : State :=
  match s.su.setup with
  | none => { s with due := DueChecks.none }
  | some p => { finishChecks p s with due := DueChecks.none }

/-! ### The increment (R168) -/

/-- The tick count after an increment, and whether it reached 100 (R129). -/
def nextTick (tick : Nat) : Nat × Bool := if 100 ≤ tick + 1 then (0, true) else (tick + 1, false)

/-- The two indices the silence scan visits from a position (R105). -/
def scanPair (position : Nat) : List Nat := [position % Config.reeferCount, (position + 1) % Config.reeferCount]

/-- What an increment arms: in RUNNING the deadline checks of every crane, two silence scan visits and, every 100 ms,
a coverage scan visit; and the test of a pulse in every run state (R40, R41, R105, R129, R161). -/
def armChecks (s : State) : State :=
  if s.su.runState = .running then
    { s with
      rfu := { s.rfu with scanPos := (s.rfu.scanPos + 2) % Config.reeferCount }
      cvu := { s.cvu with tick := (nextTick s.cvu.tick).1 }
      due := ⟨List.range Config.craneCount, scanPair s.rfu.scanPos, (nextTick s.cvu.tick).2, true⟩ }
  else { s with due := ⟨[], [], false, true⟩ }

/-! ### The meanings of the rows -/

/-- POWER_ON_RESET (R167): every unit at its power-on values, the straps sampled. The queue of waiting commands and
the counter of the free values are the model's own and stand (notes/assumptions/8.md). -/
def execPowerOnReset (sbase : BitVec 8) (s : State) : Host.Outcome State Fault Refusal :=
  .next { State.afterReset sbase with pending := s.pending, free := s.free }

/-- QT_INCREMENT (R168). -/
def execQtIncrement (s : State) : Host.Outcome State Fault Refusal :=
  let s1 := finishDue s
  .next (armChecks { s1 with su := { s1.su with qt := s1.su.qt + 1 } })

/-- LINK_LATE (R40), at a deadline check due. Without its condition the check stays due, so a check that finds nothing
is taken only at the end of its millisecond, after every frame of it that was given (R43; notes/assumptions/3.md). -/
def execLinkLate (crane : Fin 12) (s : State) : Host.Outcome State Fault Refusal :=
  let n := crane.val
  .next (match s.su.setup with
    | none => s
    | some p =>
      if s.su.runState = .running ∧ n ∈ s.due.deadlines ∧ lateCondition p (s.clu.crane n) s.su.qt = true then
        (enterLate n s).deadlineDone n
      else s)

/-- LINK_LOST (R41, R42), at a deadline check due; without its condition the check stays due, as for LINK_LATE (R43;
notes/assumptions/3.md). -/
def execLinkLost (crane : Fin 12) (s : State) : Host.Outcome State Fault Refusal :=
  let n := crane.val
  .next (match s.su.setup with
    | none => s
    | some p =>
      if s.su.runState = .running ∧ n ∈ s.due.deadlines ∧ lostCondition p (s.clu.crane n) s.su.qt = true then
        (enterLost p n s).deadlineDone n
      else s)

/-- IRQ_CRANE_PULSE_END (R161), at a pulse test due. -/
def execIrqCranePulseEnd (s : State) : Host.Outcome State Fault Refusal :=
  .next (match s.su.setup with
    | none => s
    | some p => if s.due.pulse = true ∧ pulseOver p s = true then (endPulse s).pulseDone else s)

/-- REEFER_LOST (R106), at a silence scan visit due to an entry at its loss limit: the visit is taken, after those due
before it (R105). -/
def execReeferLost (index : Fin 2048) (s : State) : Host.Outcome State Fault Refusal :=
  let i := index.val
  .next (match s.su.setup, s.rfu.entry i with
    | some p, some e =>
      if s.su.runState = .running ∧ i ∈ s.due.visits ∧ lossReached p s.su.qt e = true then takeVisits p i s else s
    | _, _ => s)

/-- REEFER_SILENT (R107, R108), at a silence scan visit due to an entry at its silence limit: the visit is taken, after
those due before it (R105), and the silence is excused or declared. -/
def execReeferSilent (index : Fin 2048) (s : State) : Host.Outcome State Fault Refusal :=
  let i := index.val
  .next (match s.su.setup, s.rfu.entry i with
    | some p, some e =>
      if s.su.runState = .running ∧ i ∈ s.due.visits ∧ silenceReached p s.su.qt e = true then takeVisits p i s else s
    | _, _ => s)

/-- The coverage scan visit due taken whole, where the segment at the scan position meets a test (R129, R144). -/
def scanVisit (meets : Setup → Segment → Bool) (s : State) : State :=
  match s.su.setup with
  | none => s
  | some p =>
    if s.su.runState = .running ∧ s.due.coverage = true ∧ meets p (s.cvu.segment s.cvu.scanPos) = true then
      (coverageVisit p s).coverageDone
    else s

/-- COVERAGE_SCAN_VISIT (R129 to R132), when the tick count has reached 100: the steps of the visit in order and the
advance of the position. -/
def execCoverageScanVisit (s : State) : Host.Outcome State Fault Refusal := .next (scanVisit (fun _ _ => true) s)

/-- SEGMENT_AGED (R130): the coverage scan visit due, named by the segment it ages. The visit is taken whole, since no
view record may be formed from part of it (R144; notes/assumptions/3.md). -/
def execSegmentAged (segment : Fin 128) (s : State) : Host.Outcome State Fault Refusal :=
  .next (scanVisit (fun p g => decide (segment.val = s.cvu.scanPos) && averagesAged p s.su.qt g) s)

/-- SHADOW_AVERAGE_AGED (R131): the coverage scan visit due, named by the segment whose shadow average it ages, and
taken whole (R144; notes/assumptions/3.md). -/
def execShadowAverageAged (segment : Fin 128) (s : State) : Host.Outcome State Fault Refusal :=
  .next (scanVisit (fun p g => decide (segment.val = s.cvu.scanPos) && shadowAged p s.su.qt g) s)

end Sys2Proof.Machine
end

