-- ==== Sys2Proof/Machine/Load.lean ====
section
/-! DEFINITION. The load (R169, R170): its start, its reads, the RELOAD completion with every unit's completion values
for KEEP, the failed load and entry into PASS_ONLY; and the meanings of the rows SETUP_READ_DONE and
INDEX_WORD_READ_DONE. -/

namespace Sys2Proof.Machine

open Sys2Proof

/-! ### The start of a load (R169) -/

/-- The 64 reads of the setup block, in ascending address order. -/
def setupReadRequests (base : Nat) : List InjRequest :=
  (List.range Config.setupReads).map (fun k => ⟨.setupRead k, base + 256 * k, true⟩)

/-- A load begun: what is due this millisecond is taken first, the run state becomes LOADING, a parse under way is
abandoned (R8), and the reads are issued. -/
def startLoad (keep : Bool) (s : State) : State :=
  let s1 := finishDue s
  { s1 with
    su := { s1.su with runState := .loading, load := some ⟨keep, [], 0, .block⟩ }
    rcu := { s1.rcu with parsing := false } }.injectSu (setupReadRequests (setupBase s1))

/-! ### Transactions that outlive their cause (R160, R169) -/

/-- A transaction of the Report Unit. -/
def InjBody.isReportWrite (b : InjBody) : Bool := b.isRecordWrite || b.isIndexWrite

/-- A read of a load. -/
def InjBody.isLoadRead : InjBody → Bool
  | .setupRead _ => true
  | .ulIndexRead => true
  | .dlIndexRead => true
  | .repIndexRead => true
  | .recordWrite _ => false
  | .indexWrite _ => false
  | .statusWrite _ => false

/-- A transaction whose response will not act, where `which` names it. -/
def InjRequest.orphan (which : InjBody → Bool) (q : InjRequest) : InjRequest :=
  if which q.body then { q with live := false } else q

/-- The same for a transaction in the injection queue. -/
def Injected.orphan (which : InjBody → Bool) (x : Injected) : Injected := { x with request := x.request.orphan which }

/-- The same for a request issued. -/
def Issued.orphan (which : InjBody → Bool) : Issued → Issued
  | .forwarded i r => .forwarded i r
  | .injected x => .injected (x.orphan which)

/-- Every transaction named, wherever it waits or flies, finishes without acting. -/
def PathUnit.orphan (u : PathUnit) (which : InjBody → Bool) : PathUnit :=
  { u with
    waitRpu := u.waitRpu.map (InjRequest.orphan which)
    waitSu := u.waitSu.map (InjRequest.orphan which)
    ready := u.ready.map (Injected.orphan which)
    issuedRead := u.issuedRead.map (Issued.orphan which)
    issuedWrite := u.issuedWrite.map (Issued.orphan which) }

/-! ### The reefer table at a completion (R89, R90) -/

/-- A kept entry under the new setup: its segment derived anew, LOST made SILENT below the new loss limit (R90). -/
def keepReefer (p : Setup) (now : Qt) (e : Reefer) : Reefer :=
  { e with
    segment := plugSegment p e.plug
    state := if e.state = .lost ∧ elapsed now e.lastReport < minutesMs (classEntry p e.cls).lossMin then .silent
      else e.state }

/-- The entries held. -/
def ReeferUnit.entries (u : ReeferUnit) : List Reefer := u.table.cells.filterMap Prod.snd

/-- The reefer unit at a completion: kept or emptied; the scan position is kept (R105, R111). -/
def reloadReefers (p : Setup) (keep : Bool) (now : Qt) (u : ReeferUnit) : ReeferUnit :=
  if keep then { u with table := Table.modifyAll none (fun e => e.map (keepReefer p now)) u.table.numbers u.table }
  else ⟨⟨[]⟩, [], u.scanPos⟩

/-- Kept entries whose segment is clamped (R90). -/
def clampedEntries (p : Setup) (keep : Bool) (u : ReeferUnit) : Nat :=
  if keep then (u.entries.filter (fun e => plugClamped p e.plug)).length else 0

/-- Kept entries returned from LOST to SILENT (R90). -/
def returnedEntries (p : Setup) (keep : Bool) (now : Qt) (u : ReeferUnit) : Nat :=
  if keep then
    (u.entries.filter (fun e => decide (e.state = .lost) && decide ((keepReefer p now e).state = .silent))).length
  else 0

/-! ### The coverage map at a completion (R140, R141) -/

/-- The map geometry of a setup. -/
def geometryOf (p : Setup) : Geometry := ⟨p.coverage.segCount, p.coverage.segLenCm⟩

/-- The map is kept: KEEP is 1 and the new geometry equals the map's (R141). -/
def mapKept (p : Setup) (keep : Bool) (u : CoverageUnit) : Bool := keep && decide (u.geometry = some (geometryOf p))

/-- An average brought into the new acceptance window (R141). -/
def clampAverage (p : Setup) (a : Option Int) : Option Int :=
  a.map (fun v => max (16 * p.coverage.accLow) (min (16 * p.coverage.accHigh) v))

/-- A kept segment under the new setup (R141). -/
def keepSegment (p : Setup) (n : Nat) (g : Segment) : Segment :=
  { g with
    ul := clampAverage p g.ul
    dl := clampAverage p g.dl
    shadow := clampAverage p g.shadow
    drift := g.drift && (baselineOf p n).isSome }

/-- The kept segments of a list of numbers brought under the new setup. -/
def keepSegments (p : Setup) : List Nat → CoverageUnit → CoverageUnit
  | [], u => u
  | n :: ns, u => keepSegments p ns (u.setSegment n (keepSegment p n (u.segment n)))

/-- An average of the segment lies outside the new acceptance window (R141). -/
def averageClamped (p : Setup) (g : Segment) : Bool :=
  decide (clampAverage p g.ul ≠ g.ul) || decide (clampAverage p g.dl ≠ g.dl) ||
    decide (clampAverage p g.shadow ≠ g.shadow)

/-- Kept segments with a clamped average (R141). -/
def clampedAverages (p : Setup) (keep : Bool) (u : CoverageUnit) : Nat :=
  if mapKept p keep u then (u.segments.cells.filter (fun c => averageClamped p c.2)).length else 0

/-- The coverage unit at a completion: kept under the new setup, or emptied with the new geometry (R140, R141). -/
def reloadCoverage (p : Setup) (keep : Bool) (u : CoverageUnit) : CoverageUnit :=
  if mapKept p keep u then keepSegments p u.segments.numbers u else ⟨⟨[]⟩, some (geometryOf p), 0, 0, false⟩

/-! ### The other units at a completion -/

/-- An index word in range of its ring, else 0 (R22, R160). -/
def positionRead (v : Word) (count : Nat) : Nat := if v.toNat < count then v.toNat else 0

/-- The Ring Capture Unit at a completion (R22, R65). -/
def reloadCapture (p : Setup) (ul dl : Word) : CaptureUnit :=
  { CaptureUnit.reset with
    hUl := positionRead ul p.windows.ulCount
    hDl := positionRead dl p.windows.dlCount }

/-- The Report Unit at a completion: P and C both at the consumer word read (R160). -/
def reloadReports (p : Setup) (rep : Word) : ReportUnit :=
  { ReportUnit.reset with
    producer := positionRead rep p.windows.repCount
    consumer := positionRead rep p.windows.repCount }

/-- What the View Unit holds for a view after a completion, `s` being the state with every other unit reset (R152). -/
def reloadView (p : Setup) (s : State) (v : View) (old : ViewState) : ViewState :=
  if viewMode p v = .live then ViewState.blank
  else ⟨some (takeSnapshot s v (old.generation + 1)), old.generation + 1, []⟩

/-- The bindings of bursts in flight are no longer to a newest snapshot (R148, R152). -/
def OpenRead.outdated (o : OpenRead) : OpenRead :=
  { o with views := o.views.map (fun x => { x with newest := false }) }

/-- The INDEX_FAULT record of an index word out of range, case 2 (R22, R160). -/
def indexReadFault (origin : UnitName) (ring : Byte) (v : Word) (count : Nat) (now : Qt) : List Record :=
  if v.toNat < count then [] else [recIndexFault origin ring 2 v.toNat now]

/-- The records of a completion: SETUP_LOADED first, then the INDEX_FAULTs (R170; notes/assumptions/33.md). -/
def completionRecords (p : Setup) (keep : Bool) (ul dl rep : Word) (s : State) : List Record :=
  let kept := mapKept p keep s.cvu
  [recSetupLoaded keep kept (keep && !kept) (clampedEntries p keep s.rfu) (returnedEntries p keep s.su.qt s.rfu)
      (clampedAverages p keep s.cvu) s.su.qt]
    ++ indexReadFault .rcu 0 ul p.windows.ulCount s.su.qt
    ++ indexReadFault .rcu 1 dl p.windows.dlCount s.su.qt
    ++ indexReadFault .rpu 2 rep p.windows.repCount s.su.qt

/-- Every unit but the View Unit at its completion values, the run state RUNNING (R170). -/
def reloadUnits (p : Setup) (keep : Bool) (ul dl rep : Word) (s : State) : State :=
  { s with
    su := { s.su with runState := .running, setup := some p, faultCode := 0, load := none }
    pu := { s.pu.orphan InjBody.isReportWrite with openReads := s.pu.openReads.map OpenRead.outdated }
    rcu := reloadCapture p ul dl
    clu := CraneUnit.reset
    rfu := reloadReefers p keep s.su.qt s.rfu
    cvu := reloadCoverage p keep s.cvu
    vu := ⟨ViewState.blank, ViewState.blank, 0⟩
    rpu := reloadReports p rep
    due := DueChecks.none }

/-- The RELOAD completion (R170): one event. -/
def completeLoad (p : Setup) (keep : Bool) (ul dl rep : Word) (s : State) : State :=
  let s1 := reloadUnits p keep ul dl rep s
  let s2 := { s1 with
    vu := ⟨reloadView p s1 .crane s.vu.crane, reloadView p s1 .coverage s.vu.coverage, 0⟩ }
  decideCommand .done (s2.report (completionRecords p keep ul dl rep s))

/-! ### The failed load (R169, R170) -/

/-- A read burst in flight at entry into PASS_ONLY: no window is in force for it any more and no view is bound
(notes/assumptions/21.md). -/
def OpenRead.unbound (o : OpenRead) : OpenRead := { o with table := none, views := [] }

/-- The Path Unit at entry into PASS_ONLY: no further load read is issued, what is in the queue finishes without acting
(R160, R165, R169; notes/assumptions/22.md). DESIGN CHOICE: the through counts of both arbiters stand, though R170 gives
the other counters their power-on values (notes/assumptions/41.md). -/
def passOnlyPath (u : PathUnit) : PathUnit :=
  let v := u.orphan (fun b => b.isReportWrite || b.isLoadRead)
  { v with
    waitSu := v.waitSu.filter (fun q => !q.body.isLoadRead)
    openReads := u.openReads.map OpenRead.unbound }

/-- Entry into PASS_ONLY with a fault code (R170): reefer table and coverage map stand, every other unit takes its
power-on values. -/
def enterPassOnly (code : Byte) (s : State) : State :=
  { s with
    su := { s.su with runState := .passOnly, setup := none, faultCode := code, load := none }
    pu := passOnlyPath s.pu
    rcu := CaptureUnit.reset
    clu := CraneUnit.reset
    vu := ViewUnit.reset
    rpu := ReportUnit.reset
    due := DueChecks.none }

/-- A failed load: PASS_ONLY, and DONE as the RELOAD's final status (R170). -/
def failLoad (code : Byte) (s : State) : State := decideCommand .done (enterPassOnly code s)

/-! ### The answers of the load reads -/

/-- READ_ERROR (R169). -/
def readError : Byte := 0x01

/-- The three index word reads of a validated setup (R169). -/
def indexReadRequests (p : Setup) : List InjRequest :=
  [⟨.ulIndexRead, p.windows.ulProducer, true⟩, ⟨.dlIndexRead, p.windows.dlProducer, true⟩,
    ⟨.repIndexRead, p.windows.reportConsumer, true⟩]

/-- A whole copy validated: the load fails with the first failing check's code, or reads the index words (R169). -/
def validated (l : Load) (copy : List Byte) (s : State) : State :=
  match validateSetup s.su.sbase copy with
  | some code => failLoad code s
  | none =>
    { s with su := { s.su with
        load := some { l with copy := copy, answered := Config.setupReads, phase := .words (setupOf copy) none none none }
      } }.injectSu (indexReadRequests (setupOf copy))

/-- A setup read answered, `l` being the load under way (R169). -/
def setupReadAnswered (l : Load) (resp : Resp) (data : List Byte) (s : State) : State :=
  if !injectedOkay resp then failLoad readError s
  else
    let copy := l.copy ++ padTo 256 data
    if l.answered + 1 < Config.setupReads then
      { s with su := { s.su with load := some { l with copy := copy, answered := l.answered + 1 } } }
    else validated l copy s

/-- The three words with the one a read brings put in. -/
def takeWord (body : InjBody) (v : Word) (ul dl rep : Option Word) : Option Word × Option Word × Option Word :=
  match body with
  | .ulIndexRead => (some v, dl, rep)
  | .dlIndexRead => (ul, some v, rep)
  | .repIndexRead => (ul, dl, some v)
  | _ => (ul, dl, rep)

/-- An index word read answered, `l` being the load under way (R169, R170). -/
def indexWordAnswered (l : Load) (body : InjBody) (resp : Resp) (v : Word) (s : State) : State :=
  match l.phase with
  | .block => s
  | .words p ul dl rep =>
    if !injectedOkay resp then failLoad readError s
    else
      let w := takeWord body v ul dl rep
      match w.1, w.2.1, w.2.2 with
      | some a, some b, some c => completeLoad p l.keep a b c s
      | _, _, _ => { s with su := { s.su with load := some { l with phase := .words p w.1 w.2.1 w.2.2 } } }

/-- The body is that of a setup read. -/
def InjBody.isSetupRead : InjBody → Bool
  | .setupRead _ => true
  | _ => false

/-- The body is that of an index word read. -/
def InjBody.isWordRead (b : InjBody) : Bool := b.isLoadRead && !b.isSetupRead

/-! ### The meanings of the rows -/

/-- SETUP_READ_DONE (R169, R165, R173). -/
def execSetupReadDone (id : AxiId) (resp : Resp) (data : List Byte) (s : State) : Host.Outcome State Fault Refusal :=
  .next (match takeInjected s .read id with
    | none => s
    | some (q, s1) =>
      if q.body.isSetupRead then
        match s1.su.load with
        | some l => if q.live then setupReadAnswered l resp data s1 else s1
        | none => s1
      else s)

/-- INDEX_WORD_READ_DONE (R169, R170). -/
def execIndexWordReadDone (id : AxiId) (resp : Resp) (value : Word) (s : State) : Host.Outcome State Fault Refusal :=
  .next (match takeInjected s .read id with
    | none => s
    | some (q, s1) =>
      if q.body.isWordRead then
        match s1.su.load with
        | some l => if q.live then indexWordAnswered l q.body resp value s1 else s1
        | none => s1
      else s)

end Sys2Proof.Machine
end

