-- ==== Sys2Proof/Machine/Commands.lean ====
section
/-! DEFINITION. The commands (R171, R172): the command word and the command state, the judgement and action of each
command, and the meaning of the row COMMAND_STATUS_WRITE_DONE. -/

namespace Sys2Proof.Machine

open Sys2Proof

/-! ### The command word (10.1) -/

/-- The code of a command word write: byte 0. -/
def writtenCode (s : State) (w : Write) : Byte := (activeByte w (commandWordAddr s)).getD 0

/-- The argument of a command word write: bytes 2 and 3; byte 1 is ignored. -/
def writtenArg (s : State) (w : Write) : Half :=
  BitVec.ofNat 16 (ofLe (writtenBytes w (commandWordAddr s + 2) 2))

/-! ### The command state (R171) -/

/-- A command taken in IDLE: the state becomes PENDING and a PENDING status is handed in. -/
def beginCommand (code : Byte) (arg : Half) (s : State) : State :=
  { s with su := { s.su with command := { Command.idle with phase := .pending, code := code, arg := arg } } }.writeStatusFree
    .pending code arg

/-- A command word write by the command state (R171): taken in IDLE and judged by `judge`, flagged in PENDING, noted as
refused in CLOSING unless the REFUSED_BUSY write is out.

DESIGN CHOICE, unsafe (notes/assumptions/43.md): in LOADING the command state is PENDING, so R171 has an ACK_LINES written
there only set the busy flag, while R161 has it refused with REFUSED_STATE (R51, R84, R88, R102, R111, R136, R139 and R172
say the same of the other commands). The model follows R171: REFUSED_STATE is the status of a command that is taken and
judged, and no other write gets it. -/
def takeCommand (code : Byte) (arg : Half) (judge : Half → State → State) (s : State) : State :=
  let c := s.su.command
  match c.phase with
  | .idle => judge arg (beginCommand code arg s)
  | .pending => { s with su := { s.su with command := { c with busy := true } } }
  | .closing =>
    if c.busyWrite then s
    else { s with su := { s.su with command := { c with refused := some (code, arg) } } }

/-! ### Judgement (R172) -/

/-- A command other than RELOAD judged: REFUSED_STATE outside RUNNING, REFUSED_ARG where the action has no answer for
the argument, DONE with the action otherwise. -/
def judgeRunning (action : Half → State → Option State) (arg : Half) (s : State) : State :=
  if s.su.runState ≠ .running then decideCommand .refusedState s
  else match action arg s with
    | some t => decideCommand .done t
    | none => decideCommand .refusedArg s

/-- RELOAD judged: its argument is KEEP, 0 or 1; it is not taken in LOADING (R172; notes/assumptions/26.md). -/
def judgeReload (arg : Half) (s : State) : State :=
  if s.su.runState = .loading then decideCommand .refusedState s
  else if 1 < arg.toNat then decideCommand .refusedArg s
  else startLoad (decide (arg = 1)) s

/-- A code outside 01H..08H, refused with REFUSED_ARG in every run state. -/
def judgeUnknown (_arg : Half) (s : State) : State := decideCommand .refusedArg s

/-! ### Actions -/

/-- ACK_LINES: the crane latch cleared in LATCH_ACK mode (R161). -/
def ackLines (_arg : Half) (s : State) : Option State :=
  match s.su.setup with
  | some p => if p.irqMode = .latchAck then some { s with rpu := { s.rpu with craneLatch := false } } else some s
  | none => some s

/-- CRANE_RESET (R48). -/
def resetCrane (arg : Half) (s : State) : Option State :=
  let n := arg.toNat
  if n < Config.craneCount then some { s with clu := s.clu.setCrane n (s.clu.crane n).afterReset } else none

/-- TRACE_OPEN (R37). -/
def openTrace (arg : Half) (s : State) : Option State :=
  let n := arg.toNat
  if n < Config.craneCount then some { s with clu := s.clu.setCrane n (s.clu.crane n).traceOpened } else none

/-- The entry an index argument names (R84, R102). -/
def namedEntry (arg : Half) (s : State) : Option Reefer :=
  if arg.toNat < Config.reeferCount then s.rfu.entry arg.toNat else none

/-- REEFER_ACK (R102). -/
def ackEntry (arg : Half) (s : State) : Option State :=
  (namedEntry arg s).map (fun e => { s with rfu := ackReefer arg.toNat e s.rfu })

/-- REEFER_FORGET (R84). -/
def forgetEntry (arg : Half) (s : State) : Option State :=
  (namedEntry arg s).map (fun _ => { s with rfu := forgetReefer arg.toNat s.rfu })

/-- COVERAGE_CLEAR (R136). -/
def clearCoverage (arg : Half) (s : State) : Option State :=
  match s.su.setup with
  | some p =>
    if arg.toNat < p.coverage.segCount ∨ arg = 0xFFFF then some { s with cvu := clearSegments p arg s.cvu } else none
  | none => none

/-- A crane record with its counters and round-trip times 0 (R49). -/
def Crane.clearCounters (c : Crane) : Crane := { c with counters := CraneCounters.zero, rttLast := 0, rttGreatest := 0 }

/-- Every crane record with its counters and round-trip times 0 (R49). -/
def CraneUnit.clearCounters (u : CraneUnit) : CraneUnit :=
  ⟨Table.modifyAll Crane.initial Crane.clearCounters u.cranes.numbers u.cranes⟩

/-- The uplink counters cleared: COMMITTED takes the number of items in the parse queue (R12). -/
def clearedUl (u : CaptureUnit) : UlCounters := { UlCounters.zero with committed := BitVec.ofNat 32 u.queue.length }

/-- CLEAR_COUNTERS (R12, R49, R65). -/
def clearCounters (_arg : Half) (s : State) : Option State :=
  some { s with
    rcu := { s.rcu with ul := clearedUl s.rcu, dl := DlCounters.zero }
    clu := s.clu.clearCounters }

/-! ### A completed write of the command word -/

/-- The judgement of a command by its code (R172). -/
def judgeCommand (code : Byte) : Half → State → State :=
  if code = 0x01 then judgeReload
  else if code = 0x02 then judgeRunning ackLines
  else if code = 0x03 then judgeRunning resetCrane
  else if code = 0x04 then judgeRunning openTrace
  else if code = 0x05 then judgeRunning ackEntry
  else if code = 0x06 then judgeRunning forgetEntry
  else if code = 0x07 then judgeRunning clearCoverage
  else if code = 0x08 then judgeRunning clearCounters
  else judgeUnknown

/-- A completed write's bytes in the command word, where it is a command (R162, R171). -/
def writeCommand (role : Role) (w : Write) (s : State) : State :=
  if isCommandWrite s role w then takeCommand (writtenCode s w) (writtenArg s w) (judgeCommand (writtenCode s w)) s else s

/-! ### The answers of status writes (R171) -/

/-- The command state after a status write has been answered, whatever the answer. -/
def statusAnswered (s : State) : State :=
  let c := s.su.command
  match c.phase with
  | .idle => s
  | .pending => settleCommand { s with su := { s.su with command := { c with pendingAnswered := true } } }
  | .closing =>
    match c.busyWrite, c.refused with
    | false, some (code, arg) =>
      { s with su := { s.su with command := { c with refused := none, busyWrite := true } } }.writeStatusFree
        .refusedBusy code arg
    | _, _ => { s with su := { s.su with command := Command.idle } }

/-- The body is that of a status write. -/
def InjBody.isStatusWrite : InjBody → Bool
  | .statusWrite _ => true
  | _ => false

/-! ### The meanings of the rows -/

/-- COMMAND_STATUS_WRITE_DONE (R165, R171): the answer to an injected write of the command status word. -/
def execCommandStatusWriteDone (id : AxiId) (_resp : Resp) (s : State) : Host.Outcome State Fault Refusal :=
  .next (match takeInjected s .write id with
    | none => s
    | some (q, s1) => if q.body.isStatusWrite then statusAnswered s1 else s)

end Sys2Proof.Machine
end

