-- ==== Sys2Proof/Machine/Writes.lean ====
section
/-! DEFINITION. Completed writes (R164): the passing back of a write's response as one event, in which the burst "is
taken by each window's rule for the bytes that fall in it"; and the meanings of the rows that name such a write by the
window or the command it reaches: UL_SLOT_WRITE, UL_PRODUCER_INDEX_WRITE, DL_SLOT_WRITE, DL_PRODUCER_INDEX_WRITE,
CONSUMER_INDEX_WRITE, VIEW_WRITE, RELOAD, ACK_LINES, CRANE_RESET, TRACE_OPEN, REEFER_ACK, REEFER_FORGET,
COVERAGE_CLEAR, CLEAR_COUNTERS, COMMAND_CODE_UNKNOWN and COMMAND_WRITE_WHILE_BUSY. -/

namespace Sys2Proof.Machine

open Sys2Proof

/-! ### One event (R164) -/

/-- The windows a RADIO write reaches, slots before the index word (R2, R5; the order notes/assumptions/1.md). -/
def writeRadio (p : Setup) (w : Write) (s : State) : State := writeUlIndex p w (writeUlSlots p w s)

/-- The windows an APP write reaches besides the command word, slots before the index word (R15, R17, R157). -/
def writeApp (p : Setup) (w : Write) (s : State) : State := writeConsumer p w (writeDlIndex p w (writeDlSlots p w s))

/-- What a completed write does in the windows the Ring Capture Unit and the Report Unit watch, by its role, in RUNNING
under the tables in force (R164). -/
def writeWindows (role : Role) (w : Write) (s : State) : State :=
  match s.su.setup with
  | none => s
  | some p =>
    if s.su.runState = .running then
      match role with
      | .radio => writeRadio p w s
      | .app => writeApp p w s
      | .other => s
    else s

/-- A write whose response passes back upstream, as one event (R164): the response returns once, VIEW_WRITES counts it
whatever the response (R149), and where it counts as OKAY each window's rule takes its bytes, the command word last
(notes/assumptions/1.md). Where the response belongs to no forwarded write nothing happens. -/
def completeWrite (w : Write) (s : State) : State :=
  match forwardedRole s .write w.id with
  | none => s
  | some role =>
    let s1 := countViewWrite w (returnWrite w s)
    if isOkay w.resp then writeCommand role w (writeWindows role w s1) else s1

/-- A row that names a write by a window of the table in force: a write that covers no byte of the window is not the
row's event and leaves the part unchanged (notes/assumptions/2.md). -/
def windowWrite (covers : Windows → Bool) (w : Write) (s : State) : State :=
  match s.su.setup with
  | some p => if covers p.windows then completeWrite w s else s
  | none => s

/-- A row that names a write of the whole command word by its code; a write of another code, or of part of the word, is
not the row's event (R171; notes/assumptions/2.md). -/
def commandWrite (codes : Byte → Bool) (w : Write) (s : State) : State :=
  if coversWhole w (commandWordAddr s) 4 && codes (writtenCode s w) then completeWrite w s else s

/-! ### The meanings of the rows -/

/-- UL_SLOT_WRITE (R2, R3, R4). -/
def execUlSlotWrite (w : Write) (s : State) : Host.Outcome State Fault Refusal :=
  .next (windowWrite (fun t => touches w t.ulSlots (t.ulCount * Config.slotBytes)) w s)

/-- UL_PRODUCER_INDEX_WRITE (R5, R6, R7). -/
def execUlProducerIndexWrite (w : Write) (s : State) : Host.Outcome State Fault Refusal :=
  .next (windowWrite (fun t => touches w t.ulProducer 4) w s)

/-- DL_SLOT_WRITE (R15, R16). -/
def execDlSlotWrite (w : Write) (s : State) : Host.Outcome State Fault Refusal :=
  .next (windowWrite (fun t => touches w t.dlSlots (t.dlCount * Config.slotBytes)) w s)

/-- DL_PRODUCER_INDEX_WRITE (R17, R18). -/
def execDlProducerIndexWrite (w : Write) (s : State) : Host.Outcome State Fault Refusal :=
  .next (windowWrite (fun t => touches w t.dlProducer 4) w s)

/-- CONSUMER_INDEX_WRITE (R157). -/
def execConsumerIndexWrite (w : Write) (s : State) : Host.Outcome State Fault Refusal :=
  .next (windowWrite (fun t => touches w t.reportConsumer 4) w s)

/-- VIEW_WRITE (R149): forwarded and returned unchanged whatever its response and role, and counted once. -/
def execViewWrite (w : Write) (s : State) : Host.Outcome State Fault Refusal :=
  .next (windowWrite (touchesView w) w s)

/-- RELOAD (R169, R171, R172). -/
def execReload (w : Write) (s : State) : Host.Outcome State Fault Refusal :=
  .next (commandWrite (fun c => decide (c = 0x01)) w s)

/-- ACK_LINES (R161, R172). -/
def execAckLines (w : Write) (s : State) : Host.Outcome State Fault Refusal :=
  .next (commandWrite (fun c => decide (c = 0x02)) w s)

/-- CRANE_RESET (R48, R172). -/
def execCraneReset (w : Write) (s : State) : Host.Outcome State Fault Refusal :=
  .next (commandWrite (fun c => decide (c = 0x03)) w s)

/-- TRACE_OPEN (R37, R172). -/
def execTraceOpen (w : Write) (s : State) : Host.Outcome State Fault Refusal :=
  .next (commandWrite (fun c => decide (c = 0x04)) w s)

/-- REEFER_ACK (R102, R172). -/
def execReeferAck (w : Write) (s : State) : Host.Outcome State Fault Refusal :=
  .next (commandWrite (fun c => decide (c = 0x05)) w s)

/-- REEFER_FORGET (R84, R172). -/
def execReeferForget (w : Write) (s : State) : Host.Outcome State Fault Refusal :=
  .next (commandWrite (fun c => decide (c = 0x06)) w s)

/-- COVERAGE_CLEAR (R136, R172). -/
def execCoverageClear (w : Write) (s : State) : Host.Outcome State Fault Refusal :=
  .next (commandWrite (fun c => decide (c = 0x07)) w s)

/-- CLEAR_COUNTERS (R12, R49, R65, R172). -/
def execClearCounters (w : Write) (s : State) : Host.Outcome State Fault Refusal :=
  .next (commandWrite (fun c => decide (c = 0x08)) w s)

/-- COMMAND_CODE_UNKNOWN (R172): a code outside 01H..08H. -/
def execCommandCodeUnknown (w : Write) (s : State) : Host.Outcome State Fault Refusal :=
  .next (commandWrite (fun c => decide (c = 0x00) || decide (8 < c.toNat)) w s)

/-- COMMAND_WRITE_WHILE_BUSY (R171): a command word write of any code in PENDING or CLOSING. -/
def execCommandWriteWhileBusy (w : Write) (s : State) : Host.Outcome State Fault Refusal :=
  .next (if s.su.command.phase = .idle then s else commandWrite (fun _ => true) w s)

end Sys2Proof.Machine
end

