-- ==== Sys2Proof/Machine/Dispatch.lean ====
section
/-! DEFINITION. The one match over the commands: each arm is one direct call of that command's meaning. -/

namespace Sys2Proof.Machine

open Sys2Proof

def exec (i : Instr) (s : State) : Host.Outcome State Fault Refusal :=
  match i with
  | .powerOnReset sbase => Sys2Proof.Machine.execPowerOnReset sbase s
  | .qtIncrement => Sys2Proof.Machine.execQtIncrement s
  | .linkLate crane => Sys2Proof.Machine.execLinkLate crane s
  | .linkLost crane => Sys2Proof.Machine.execLinkLost crane s
  | .irqCranePulseEnd => Sys2Proof.Machine.execIrqCranePulseEnd s
  | .reeferLost index => Sys2Proof.Machine.execReeferLost index s
  | .reeferSilent index => Sys2Proof.Machine.execReeferSilent index s
  | .coverageScanVisit => Sys2Proof.Machine.execCoverageScanVisit s
  | .segmentAged segment => Sys2Proof.Machine.execSegmentAged segment s
  | .shadowAverageAged segment => Sys2Proof.Machine.execShadowAverageAged segment s
  | .ulSlotWrite w => Sys2Proof.Machine.execUlSlotWrite w s
  | .ulProducerIndexWrite w => Sys2Proof.Machine.execUlProducerIndexWrite w s
  | .parseStart => Sys2Proof.Machine.execParseStart s
  | .parseComplete => Sys2Proof.Machine.execParseComplete s
  | .dlSlotWrite w => Sys2Proof.Machine.execDlSlotWrite w s
  | .dlProducerIndexWrite w => Sys2Proof.Machine.execDlProducerIndexWrite w s
  | .departure b => Sys2Proof.Machine.execDeparture b s
  | .motionBytesRead b => Sys2Proof.Machine.execMotionBytesRead b s
  | .viewReadBeat b => Sys2Proof.Machine.execViewReadBeat b s
  | .viewBurstLastBeat id => Sys2Proof.Machine.execViewBurstLastBeat id s
  | .viewWrite w => Sys2Proof.Machine.execViewWrite w s
  | .reportTake => Sys2Proof.Machine.execReportTake s
  | .reportRecordWriteDone id resp => Sys2Proof.Machine.execReportRecordWriteDone id resp s
  | .reportIndexWriteDone id resp => Sys2Proof.Machine.execReportIndexWriteDone id resp s
  | .consumerIndexWrite w => Sys2Proof.Machine.execConsumerIndexWrite w s
  | .injIdRefused id channel beats => Sys2Proof.Machine.execInjIdRefused id channel beats s
  | .transactionForward f => Sys2Proof.Machine.execTransactionForward f s
  | .injectionEnqueue source => Sys2Proof.Machine.execInjectionEnqueue source s
  | .arbiterGrant channel => Sys2Proof.Machine.execArbiterGrant channel s
  | .reload w => Sys2Proof.Machine.execReload w s
  | .setupReadDone id resp data => Sys2Proof.Machine.execSetupReadDone id resp data s
  | .indexWordReadDone id resp value => Sys2Proof.Machine.execIndexWordReadDone id resp value s
  | .ackLines w => Sys2Proof.Machine.execAckLines w s
  | .craneReset w => Sys2Proof.Machine.execCraneReset w s
  | .traceOpen w => Sys2Proof.Machine.execTraceOpen w s
  | .reeferAck w => Sys2Proof.Machine.execReeferAck w s
  | .reeferForget w => Sys2Proof.Machine.execReeferForget w s
  | .coverageClear w => Sys2Proof.Machine.execCoverageClear w s
  | .clearCounters w => Sys2Proof.Machine.execClearCounters w s
  | .commandCodeUnknown w => Sys2Proof.Machine.execCommandCodeUnknown w s
  | .commandWriteWhileBusy w => Sys2Proof.Machine.execCommandWriteWhileBusy w s
  | .commandStatusWriteDone id resp => Sys2Proof.Machine.execCommandStatusWriteDone id resp s

end Sys2Proof.Machine
end

