-- ==== Sys2Proof/Safety.lean ====
section
/-! DEFINITION. What a safe state of the part is: the laws the specification says the part holds to, each a statement
about one state, and the few notions the claims share. -/

namespace Sys2Proof.Machine

open Sys2Proof

/-! ### The laws -/

/-- Placeholders of the parse queue. -/
def CaptureUnit.placeholders (u : CaptureUnit) : Nat := (u.queue.filter (fun i => !i.isCaptured)).length

/-- R1, R7: at most 32 capture entries, each of 256 cells, at most one PENDING entry a slot, at most UL_SLOTS
placeholders. R15: twelve cells in every downlink slot record. -/
def captureLaw (s : State) : Prop :=
  s.rcu.inUse ≤ Config.captureEntries ∧ (s.rcu.filling.map CaptureEntry.slot).Nodup ∧
    (∀ e ∈ s.rcu.filling, e.cells.length = 256) ∧ (∀ k, (s.rcu.record k).cells.length = 12) ∧
    (match s.su.setup with
      | some p => s.rcu.placeholders ≤ p.windows.ulCount
      | none => s.rcu.queue = [])

/-- R12: COMMITTED is the sum of the outcome counters and the parse queue's length. R64: DL_DEPARTED is the sum of the
four decision counters. -/
def counterLaw (s : State) : Prop :=
  s.rcu.ul.committed = s.rcu.ul.outcomeSum + BitVec.ofNat 32 s.rcu.queue.length ∧
    s.rcu.dl.departed = s.rcu.dl.delivered + s.rcu.dl.halted + s.rcu.dl.stale + s.rcu.dl.unrostered

/-- R63: at most 8 entries, each ahead of every earlier one, and none in IDLE, LOST or CLAIM. -/
def Crane.outstandingOk (c : Crane) : Prop :=
  c.outstanding.length ≤ Config.outstandingDepth ∧
    c.outstanding.Pairwise (fun a b => seqAhead b.seq a.seq = true) ∧
    (c.link = .idle ∨ c.link = .lost ∨ c.link = .claim → c.outstanding = [])

/-- R63 for every crane. -/
def outstandingLaw (s : State) : Prop := ∀ n, (s.clu.crane n).outstandingOk

/-- R126: a segment whose UL and DL averages are both EMPTY has declared class UNKNOWN. -/
def emptySegmentLaw (s : State) : Prop :=
  ∀ n, (s.cvu.segment n).ul = none → (s.cvu.segment n).dl = none → (s.cvu.segment n).declared = .unknown

/-- The acceptance window of a setup is not empty and its weight shift is at least 1 (R112). -/
def Setup.windowOk (p : Setup) : Prop := p.coverage.accLow < p.coverage.accHigh ∧ 1 ≤ p.coverage.weightShift

/-- The setup whose index words are being read, if a load has come that far. -/
def State.newSetup (s : State) : Option Setup :=
  match s.su.load with
  | some l => match l.phase with
    | .words p _ _ _ => some p
    | .block => none
  | none => none

/-- An average within the acceptance window of a setup (R122). -/
def averageOk (p : Setup) (a : Option Int) : Prop :=
  ∀ v, a = some v → 16 * p.coverage.accLow ≤ v ∧ v ≤ 16 * p.coverage.accHigh

/-- R122: every average lies in the acceptance window in force; and the window of every setup held is a window. -/
def averageLaw (s : State) : Prop :=
  (∀ p, s.su.setup = some p ∨ s.newSetup = some p → p.windowOk) ∧
    ∀ p, s.su.setup = some p → ∀ n,
      averageOk p (s.cvu.segment n).ul ∧ averageOk p (s.cvu.segment n).dl ∧ averageOk p (s.cvu.segment n).shadow

/-- R72 for two indices: their container IDs differ, and their plugs differ where neither is DEPARTED. -/
def reefersDiffer (a b : Reefer) : Prop :=
  a.container ≠ b.container ∧ (a.state ≠ .departed → b.state ≠ .departed → a.plug ≠ b.plug)

/-- R71, R72: indices below 2048, no container ID or occupied plug twice, the departed list holding exactly the
DEPARTED entries, each once, and a departure reason exactly in DEPARTED. -/
def reeferLaw (s : State) : Prop :=
  (∀ i e, s.rfu.entry i = some e → i < Config.reeferCount ∧ (e.reason = .none ↔ e.state ≠ .departed)) ∧
    (∀ i j a b, s.rfu.entry i = some a → s.rfu.entry j = some b → i ≠ j → reefersDiffer a b) ∧
    s.rfu.departed.Nodup ∧
    ∀ i, i ∈ s.rfu.departed ↔ ∃ e, s.rfu.entry i = some e ∧ e.state = .departed

/-- The roster terminal of crane n, none for 0 (learn mode). -/
def rosterTerminal (p : Setup) (n : Nat) : Option Word :=
  match p.roster[n]? with
  | some r => if r.terminal = 0 then none else some r.terminal
  | none => none

/-- Terminal `t` is bound to crane n, by the roster or by learning (R26). -/
def boundTo (p : Setup) (s : State) (n : Nat) (t : Word) : Prop :=
  rosterTerminal p n = some t ∨ (s.clu.crane n).learned = some t

/-- A roster of twelve in which no two entries hold the same terminal (R24). -/
def Setup.rosterOk (p : Setup) : Prop :=
  p.roster.length = Config.craneCount ∧
    ∀ m n t, rosterTerminal p m = some t → rosterTerminal p n = some t → m = n

/-- R26: no terminal is bound to more than one crane; without a setup none is learned, and none beyond crane 11. -/
def terminalLaw (s : State) : Prop :=
  (∀ p, s.su.setup = some p ∨ s.newSetup = some p → p.rosterOk) ∧
    (match s.su.setup with
      | some p => ∀ m n t, boundTo p s m t → boundTo p s n t → m = n
      | none => ∀ n, (s.clu.crane n).learned = none) ∧
    ∀ n, (s.clu.crane n).learned ≠ some 0 ∧ (Config.craneCount ≤ n → (s.clu.crane n).learned = none)

/-- A window table whose three rings hold at least one slot (R163). -/
def Windows.ringsOk (t : Windows) : Prop := 0 < t.ulCount ∧ 0 < t.dlCount ∧ 0 < t.repCount

/-- R154, R165, R166, R153, R5, R17, R105, R129: the bounds of the queues, counts and positions. P and C lie below
REP_SLOTS, H_UL and H_DL below their ring sizes, while a setup is in force. -/
def boundsLaw (s : State) : Prop :=
  s.rpu.queue.length ≤ Config.reportQueueDepth ∧ s.pu.injectionCount ≤ Config.injectionDepth ∧
    s.pu.throughRead ≤ Config.throughLimit ∧ s.pu.throughWrite ≤ Config.throughLimit ∧
    s.rpu.pendingDrops ≤ 65535 ∧ s.rfu.scanPos < Config.reeferCount ∧ s.cvu.tick < 100 ∧
    (∀ p, s.su.setup = some p ∨ s.newSetup = some p → p.windows.ringsOk) ∧
    ∀ p, s.su.setup = some p →
      s.rpu.producer < p.windows.repCount ∧ s.rpu.consumer < p.windows.repCount ∧
        s.rcu.hUl < p.windows.ulCount ∧ s.rcu.hDl < p.windows.dlCount

/-- A map geometry of at least one segment (R112). -/
def Geometry.ok (g : Geometry) : Prop := 0 < g.segCount ∧ 0 < g.segLenCm

/-- R113, R23, R71: records beyond the map are blank, the scan position lies in the map, a setup in force has the map's
geometry, and every crane position and reefer segment lies on the quay. -/
def mapLaw (s : State) : Prop :=
  (∀ p, s.su.setup = some p ∨ s.newSetup = some p → (geometryOf p).ok) ∧
    (match s.cvu.geometry with
      | some g => s.cvu.scanPos < g.segCount ∧ ∀ n, g.segCount ≤ n → s.cvu.segment n = Segment.blank
      | none => ∀ n, s.cvu.segment n = Segment.blank) ∧
    ∀ p, s.su.setup = some p →
      s.cvu.geometry = some (geometryOf p) ∧
        (∀ n x, (s.clu.crane n).position = some x → x < quayEnd p) ∧
        (∀ i e, s.rfu.entry i = some e → e.segment < p.coverage.segCount)

/-- The canonical form of the four numbered tables. -/
def tableLaw (s : State) : Prop :=
  s.clu.cranes.wf Crane.initial = true ∧ s.rcu.records.wf DlRecord.blank = true ∧
    s.cvu.segments.wf Segment.blank = true ∧ s.rfu.table.wf none = true

/-- R167, R170: a setup is in force exactly in RUNNING and in a LOADING begun there; without one the units that do not
outlive a failed load stand at their power-on values, and no read burst is bound to a window or a view. -/
def runStateLaw (s : State) : Prop :=
  (s.su.load.isSome = true ↔ s.su.runState = .loading) ∧
    (match s.su.setup with
      | some _ => s.su.runState = .running ∨ s.su.runState = .loading
      | none => s.su.runState ≠ .running ∧ s.rcu = CaptureUnit.reset ∧ s.clu = CraneUnit.reset ∧
          s.vu = ViewUnit.reset ∧ s.rpu = ReportUnit.reset ∧
          ∀ o ∈ s.pu.openReads, o.table = none ∧ o.views = []) ∧
    (s.su.runState ≠ .running → s.due.deadlines = [] ∧ s.due.visits = [] ∧ s.due.coverage = false)

/-! ### The checks still due -/

/-- No check still due finds anything to do: no crane due meets a condition of R40 or R41, no entry due a visit a limit
of R106 or R107, no coverage visit is due, and no pulse due its test is over (R161). Without a setup none can. -/
def nothingFound (s : State) : Prop :=
  ∀ p, s.su.setup = some p →
    (∀ n ∈ s.due.deadlines, lostCondition p (s.clu.crane n) s.su.qt = false ∧
      lateCondition p (s.clu.crane n) s.su.qt = false) ∧
    (∀ i ∈ s.due.visits, ∀ e, s.rfu.entry i = some e →
      lossReached p s.su.qt e = false ∧ silenceReached p s.su.qt e = false) ∧
    s.due.coverage = false ∧
    (s.due.pulse = true → p.irqMode = .timed → ∀ x, s.rpu.pulseStart = some x → elapsed s.su.qt x < p.pulseMs)

/-- `u` is the state with the first check still due taken: by its own row where it finds something, without effect where
a deadline check or a visit finds nothing. The order is deadline checks, visits, coverage visit, pulse test; the pulse
test alone is due outside RUNNING too. -/
def dueStep (s u : State) : Prop :=
  ∃ p, s.su.setup = some p ∧
    ((s.su.runState = .running ∧ ∃ (n : Fin 12) (ns : List Nat), s.due.deadlines = n.val :: ns ∧ n.val ∉ ns ∧
        (lostCondition p (s.clu.crane n) s.su.qt = true ∧ exec (.linkLost n) s = .next u ∨
          lateCondition p (s.clu.crane n) s.su.qt = true ∧ exec (.linkLate n) s = .next u ∨
          lostCondition p (s.clu.crane n) s.su.qt = false ∧ lateCondition p (s.clu.crane n) s.su.qt = false ∧
            u = { s with due := { s.due with deadlines := ns } })) ∨
      (s.su.runState = .running ∧ s.due.deadlines = [] ∧
        ∃ (i : Fin 2048) (is : List Nat), s.due.visits = i.val :: is ∧
        ((∃ e, s.rfu.entry i = some e ∧ (lossReached p s.su.qt e = true ∧ exec (.reeferLost i) s = .next u ∨
            silenceReached p s.su.qt e = true ∧ exec (.reeferSilent i) s = .next u)) ∨
          (∀ e, s.rfu.entry i = some e → lossReached p s.su.qt e = false ∧ silenceReached p s.su.qt e = false) ∧
            u = { s with due := { s.due with visits := is } })) ∨
      (s.su.runState = .running ∧ s.due.deadlines = [] ∧ s.due.visits = [] ∧ s.due.coverage = true ∧
        exec .coverageScanVisit s = .next u) ∨
      (s.due.deadlines = [] ∧ s.due.visits = [] ∧ s.due.coverage = false ∧ s.due.pulse = true ∧ p.irqMode = .timed ∧
        (∃ x, s.rpu.pulseStart = some x ∧ p.pulseMs ≤ elapsed s.su.qt x) ∧ exec .irqCranePulseEnd s = .next u))

/-- The checks due are such as QT_INCREMENT makes due: of cranes each once, of table indices, and in other run states
than RUNNING the pulse test alone. -/
def dueInRange (s : State) : Prop :=
  s.due.deadlines.Nodup ∧ (∀ n ∈ s.due.deadlines, n < 12) ∧ (∀ i ∈ s.due.visits, i < 2048) ∧
    (s.su.runState ≠ .running → s.due.deadlines = [] ∧ s.due.visits = [] ∧ s.due.coverage = false)

/-! ### Notions the claims share -/

/-- The PENDING entry of an uplink slot (R1). -/
def CaptureUnit.pendingEntry (u : CaptureUnit) (k : Nat) : Option CaptureEntry :=
  u.filling.find? (fun e => decide (e.slot = k))

/-- What the commit of a list of slots puts into a parse queue of `n` items, in order, and the slots settled at once
(R5, R7): a slot's PENDING entry joins with its cells as captured; a slot without one joins as a placeholder while the
queue holds fewer than UL_SLOTS items, and is settled at once otherwise. -/
def committedItems (ulCount : Nat) (now : Qt) (entryOf : Nat → Option CaptureEntry) :
    Nat → List Nat → List ParseItem × List Nat
  | _, [] => ([], [])
  | n, k :: ks =>
    let joined := fun (i : ParseItem) =>
      (i :: (committedItems ulCount now entryOf (n + 1) ks).1, (committedItems ulCount now entryOf (n + 1) ks).2)
    match entryOf k with
    | some e => joined (.captured e now)
    | none =>
      if n < ulCount then joined (.placeholder k now)
      else ((committedItems ulCount now entryOf n ks).1, k :: (committedItems ulCount now entryOf n ks).2)

/-- The write covers a byte of uplink slot k (R2). -/
def touchesUlSlot (p : Setup) (w : Write) (k : Nat) : Bool :=
  decide (k < p.windows.ulCount) && touches w (p.windows.ulSlots + 256 * k) 256

/-- The write covers one of bytes 0..11 of downlink slot k (R15). -/
def touchesDlHeader (p : Setup) (w : Write) (k : Nat) : Bool :=
  decide (k < p.windows.dlCount) && touches w (p.windows.dlSlots + 256 * k) 12

/-- The windows in which the part watches writes (R2, R5, R15, R17, R149, R157), and the command word (R171). -/
inductive WatchedWindow where
  | ulSlots | ulProducer | dlSlots | dlProducer | consumer | views | command
  deriving DecidableEq, Repr

/-- The write reaches the window: it covers a byte of it, or the whole of the command word. -/
def WatchedWindow.reached (s : State) (t : Windows) (w : Write) : WatchedWindow → Bool
  | .ulSlots => touches w t.ulSlots (t.ulCount * 256)
  | .ulProducer => touches w t.ulProducer 4
  | .dlSlots => touches w t.dlSlots (t.dlCount * 256)
  | .dlProducer => touches w t.dlProducer 4
  | .consumer => touches w t.reportConsumer 4
  | .views => touchesView w t
  | .command => coversWhole w (commandWordAddr s) 4

/-- The write reaches no window of the setup in force but `x`. A write over several windows is `WriteTakenByEachWindow`'s
(R164). -/
def reachesOnly (s : State) (w : Write) (x : WatchedWindow) : Prop :=
  ∀ p, s.su.setup = some p → ∀ y, y ≠ x → y.reached s p.windows w = false

/-- A write of window `x` alone whose response passes back with OKAY in RUNNING under setup `p`, from a master of the
role (R164). -/
def watchedBy (s : State) (p : Setup) (role : Role) (x : WatchedWindow) (w : Write) : Prop :=
  s.su.setup = some p ∧ s.su.runState = .running ∧ isOkay w.resp = true ∧ forwardedRole s .write w.id = some role ∧
    x.reached s p.windows w = true ∧ reachesOnly s w x

/-- The base and size of each window of a table, and the alignment of its base (R163, R142). -/
def Windows.extents (t : Windows) : List WindowExtent :=
  [⟨t.ulSlots, t.ulCount * 256, 256⟩, ⟨t.ulProducer, 4, 4⟩, ⟨t.dlSlots, t.dlCount * 256, 256⟩, ⟨t.dlProducer, 4, 4⟩,
   ⟨t.reportRing, t.repCount * 32, 32⟩, ⟨t.reportProducer, 4, 4⟩, ⟨t.reportConsumer, 4, 4⟩, ⟨t.statusPage, 256, 256⟩,
   ⟨t.craneView, 3136, 4096⟩, ⟨t.coverageView, 4160, 8192⟩, ⟨t.reeferView, 131136, 262144⟩]

/-- No two of the setup block and the windows of a table share a byte (R163). -/
def Windows.apart (t : Windows) (sbase : BitVec 8) : Prop :=
  ((⟨sbase.toNat * 16777216, 16384, 16777216⟩ : WindowExtent) :: t.extents).Pairwise
    (fun a b => a.base + a.size ≤ b.base ∨ b.base + b.size ≤ a.base)

/-- The part of a write that falls in `[base, base + size)`: "the bytes that fall in it" (R164). -/
def writeWithin (w : Write) (base size : Nat) : Write :=
  { w with addr := max w.addr base, data := (w.data.take (base + size - w.addr)).drop (base - w.addr) }

/-- The row that names a write by a window. -/
def windowRows (w : Write) : List (Instr × WatchedWindow) :=
  [(.ulSlotWrite w, .ulSlots), (.ulProducerIndexWrite w, .ulProducer), (.dlSlotWrite w, .dlSlots),
   (.dlProducerIndexWrite w, .dlProducer), (.consumerIndexWrite w, .consumer), (.viewWrite w, .views)]

/-- The row that names a write of the command word by its code (R172). -/
def commandRow (code : Byte) (w : Write) : Instr :=
  if code = 0x01 then .reload w else if code = 0x02 then .ackLines w else if code = 0x03 then .craneReset w
  else if code = 0x04 then .traceOpen w else if code = 0x05 then .reeferAck w else if code = 0x06 then .reeferForget w
  else if code = 0x07 then .coverageClear w else if code = 0x08 then .clearCounters w else .commandCodeUnknown w

/-- The row names the write: by a window the write reaches, or by the code it puts in the command word, or as a command
word write outside IDLE. -/
def namesWrite (s : State) (p : Setup) (w : Write) (c : Instr) : Prop :=
  (∃ x, (c, x) ∈ windowRows w ∧ x.reached s p.windows w = true) ∨
    coversWhole w (commandWordAddr s) 4 = true ∧
      (c = commandRow (writtenCode s w) w ∨ c = .commandWriteWhileBusy w ∧ s.su.command.phase ≠ .idle)

/-- The item under parse is an entry committed at `q` whose outcome is `o` (R8, R9). -/
def parsesTo (s : State) (p : Setup) (e : CaptureEntry) (q : Qt) (rest : List ParseItem) (o : ParseOutcome) : Prop :=
  s.su.setup = some p ∧ s.su.runState = .running ∧ s.rcu.parsing = true ∧ s.rcu.queue = .captured e q :: rest ∧
    parseCells s.su.setup e.cells = o

/-- A parse settled without dispatch (R8, R11, R12): the item out of the queue, the counters as given, the records handed
over, and nothing else changed. -/
def settledAs (s : State) (rest : List ParseItem) (ul : UlCounters) (rs : List Record) : State :=
  { s with rcu := { s.rcu with queue := rest, parsing := false, ul := ul }, rpu := s.rpu.handOverAll rs }

/-- The record of an outcome: its code, origin, slot, the QT of the settling and the first bytes of its detail (R11). -/
def recordNames (r : Record) (code : Byte) (origin : UnitName) (slot : Nat) (qt : Qt) (detail : List Byte) : Prop :=
  r.code = code ∧ r.origin = origin ∧ r.object = BitVec.ofNat 16 slot ∧ r.qt = qt ∧
    r.detail.take detail.length = detail

/-- The terminal of a frame is bound to its crane, by the roster or by learning (R26). -/
def terminalOfCrane (p : Setup) (s : State) (f : StatusFrame) : Prop :=
  rosterTerminal p f.crane = some f.terminal ∨
    (rosterTerminal p f.crane = none ∧ (s.clu.crane f.crane).learned = some f.terminal)

/-- The crane takes a frame of sequence `q`: in sequence or after a gap (R29). -/
def Crane.takes (c : Crane) (q : Half) : Prop :=
  c.seqValid = false ∨ (1 ≤ (q - c.lastSeq).toNat ∧ (q - c.lastSeq).toNat < 32768)

/-- A frame of sequence `q` that the crane takes comes after a gap (R29). -/
def Crane.gapBefore (c : Crane) (q : Half) : Bool := c.seqValid && decide (2 ≤ (q - c.lastSeq).toNat)

/-- The counters of a crane that takes a frame of sequence `q`: a gap and an aged frame are counted (R29, R31). -/
def Crane.takenCounters (c : Crane) (q : Half) (aged : Bool) : CraneCounters :=
  { c.counters with
    gap := if c.gapBefore q = true then c.counters.gap + 1 else c.counters.gap
    aged := if aged = true then c.counters.aged + 1 else c.counters.aged }

/-- `y` is crane `c` as to its list and round-trip times after the echo `e` of a frame that arrived at `a` (R33): the
commands `e` covers leave the list, and an entry of sequence `e` gives the round-trip time, 0 for an arrival before the
departure. -/
def echoTaken (c y : Crane) (e : Half) (a : Qt) : Prop :=
  y.outstanding = c.outstanding.filter (fun o => decide (32768 ≤ (e - o.seq).toNat)) ∧
    ((∀ o ∈ c.outstanding, o.seq ≠ e) → y.rttLast = c.rttLast ∧ y.rttGreatest = c.rttGreatest) ∧
    ∀ o, c.outstanding.find? (fun o => decide (o.seq = e)) = some o →
      y.rttLast = (if 2 ^ 31 ≤ (a - o.departed).toNat then 0 else a - o.departed) ∧
      y.rttGreatest = (if c.rttGreatest.toNat < y.rttLast.toNat then y.rttLast else c.rttGreatest)

/-- The echo `e` claims a command the part did not see depart, judged against sequence `x`: of the newest entry, or the
last listed one where the list is empty (R34). -/
def echoClaims (c : Crane) (e x : Half) : Prop :=
  (∀ o ∈ c.outstanding, o.seq ≠ e) ∧ 1 ≤ (e - x).toNat ∧ (e - x).toNat < 32768 ∧
    ((∃ o, c.outstanding.getLast? = some o ∧ o.seq = x) ∨ (c.outstanding = [] ∧ c.lastListed = some x))

/-- `y` is crane `c` as to its trace after a fresh frame (R36). -/
def traceTaken (c y : Crane) (x : TraceEntry) : Prop :=
  match c.traceState with
  | .frozen => y.trace = c.trace ∧ y.traceState = .frozen
  | .recording => y.trace = (c.trace ++ [x]).drop (c.trace.length + 1 - 16) ∧ y.traceState = .recording
  | .closing n => y.trace = (c.trace ++ [x]).drop (c.trace.length + 1 - 16) ∧
      (1 ≤ n → y.traceState = if n = 1 then .frozen else .closing (n - 1))

/-- The records of a taken frame of crane `c`, whether it was fresh and whether it made the crane LIVE: SEQ_GAP (R30),
ECHO_AHEAD (R34), POSITION_CLAMPED (R35) and LINK_LIVE (R38, R39), each once where its rule calls for it and never else;
TERMINAL_LEARNED and the CLASS_CHANGE of the observation may stand beside them. -/
def takenRecords (p : Setup) (c : Crane) (f : StatusFrame) (fresh live : Bool) (rs : List Record) : Prop :=
  let times := fun (code : Byte) => (rs.map Record.code).count code
  let quay := p.coverage.segCount * p.coverage.segLenCm
  times 0x14 = (if c.gapBefore f.seq = true then 1 else 0) ∧
    times 0x1B ≤ 1 ∧ (times 0x1B = 1 ↔ ∃ x, echoClaims c f.echo x) ∧
    times 0x34 = (if fresh = true ∧ quay ≤ f.gantry ∧ c.clampReported = false then 1 else 0) ∧
    times 0x10 = (if live = true then 1 else 0) ∧
    ∀ r ∈ rs, (r.origin = .cvu ∧ r.code = 0x30) ∨
      (r.origin = .clu ∧ r.object = BitVec.ofNat 16 f.crane ∧
        (r.code = 0x15 ∨
         r.code = 0x14 ∧ r.detail.take 6 = le16 (c.lastSeq + 1) ++ le16 f.seq ++ le16 (f.seq - c.lastSeq - 1) ∨
         r.code = 0x1B ∧ (∃ x, echoClaims c f.echo x ∧
           r.detail.take 5 = le16 f.echo ++ le16 x ++ [if c.outstanding = [] then 1 else 0]) ∨
         r.code = 0x34 ∧ r.detail.take 4 = le32 (BitVec.ofNat 32 f.gantry) ∨
         r.code = 0x10 ∧ r.detail.take 1 = [BitVec.ofNat 8 c.link.code]))

/-- A beat of a forwarded RADIO read, answered OKAY, that carries byte 9 of slot `k` of the downlink ring and of no other
(R19, R20). -/
def fetchesSlot (s s1 : State) (b : ReadBeat) (o : OpenRead) (tb : Windows) (k : Nat) : Prop :=
  burstOf b s = some (o, s1) ∧ o.role = .radio ∧ o.table = some tb ∧ isOkay b.resp = true ∧
    classByteSlots tb (beatAddr b) b.data.length = [k]

/-- What such a beat leaves as it is: every unit but the Path, View, Report and Crane Link Units, and of the Ring Capture
Unit all but the record of slot `k` and the downlink counters. -/
def fetchFrame (s t : State) (k : Nat) : Prop :=
  t.su = s.su ∧ t.rfu = s.rfu ∧ t.cvu = s.cvu ∧ t.due = s.due ∧ t.pending = s.pending ∧ t.free = s.free ∧
    t.rcu = { s.rcu with records := t.rcu.records, dl := t.rcu.dl } ∧ ∀ j, j ≠ k → t.rcu.record j = s.rcu.record j

/-- Check number `code` of R169's table finds no fault: the limits of the rule it names hold of the setup block copy and
of the setup it makes. -/
def setupLimit (sbase : BitVec 8) (copy : List Byte) (code : Nat) : Prop :=
  let p := setupOf copy
  let t := p.timing
  let c := p.coverage
  let x := p.windows
  match code with
  | 0x02 => field copy 0 4 = 0x0B5C0212
  | 0x03 => field copy 4 2 = 1
  | 0x04 => (∀ k, k < 4 → field copy (0x24 + 8 * k) 1 ≤ 2) ∧
      (∀ r ∈ p.roles, r.lowest ≤ r.highest ∧ (r.role = .app ∨ r.role = .radio) ∧
        (p.injId.toNat < r.lowest ∨ r.highest < p.injId.toNat)) ∧
      p.roles.Pairwise (fun a b => a.highest < b.lowest ∨ b.highest < a.lowest)
  | 0x05 => 16 ≤ x.ulCount ∧ x.ulCount ≤ 1024 ∧ 16 ≤ x.dlCount ∧ x.dlCount ≤ 256 ∧
      64 ≤ x.repCount ∧ x.repCount ≤ 4096 ∧ ∀ e ∈ x.extents, e.base + e.size ≤ 2 ^ 40
  | 0x06 => ∀ e ∈ x.extents, e.base % e.align = 0
  | 0x07 => x.apart sbase
  | 0x08 => p.craneMode.code = field copy 0xA6 1 ∧ p.coverageMode.code = field copy 0xA7 1
  | 0x09 => p.rosterOk
  | 0x0A => 10 ≤ t.lateMs ∧ t.lateMs ≤ 10000 ∧ t.lateMs < t.lostMs ∧ t.lostMs ≤ 60000 ∧
      10 ≤ t.echoMs ∧ t.echoMs ≤ 60000 ∧ 1 ≤ t.recoverCount ∧ t.recoverCount ≤ 15 ∧ t.tracePost ≤ 15
  | 0x0B => p.classes.length = 16 ∧ ∀ k ∈ p.classes, k.bandLow ≤ 100 ∧ k.bandHigh ≤ 100 ∧ 1 ≤ k.excCount ∧
      k.excCount ≤ 15 ∧ k.stretchMax ≤ 3 ∧ 1 ≤ k.silenceMin ∧ k.silenceMin ≤ 240 ∧ k.silenceMin ≤ k.lossMin ∧
      k.lossMin ≤ 720
  | 0x0C => 1 ≤ p.plugsPerSeg ∧ p.plugsPerSeg ≤ 4096
  | 0x0D => p.windowOk ∧ (geometryOf p).ok ∧
      8 ≤ c.segCount ∧ c.segCount ≤ 128 ∧ 500 ≤ c.segLenCm ∧ c.segLenCm ≤ 10000 ∧ c.shadowCm ≤ 20000 ∧
      (field copy 0x1D4 1, p.classMode) ∈ [(0, ClassMode.absolute), (1, .relative)] ∧
      -160 ≤ c.holeLevel ∧ c.holeLevel < c.goodLevel ∧ c.goodLevel ≤ 20 ∧
      -60 ≤ c.holeOfs ∧ c.holeOfs < c.goodOfs ∧ c.goodOfs ≤ 0 ∧
      1 ≤ c.weightShift ∧ c.weightShift ≤ 6 ∧ -160 ≤ c.accLow ∧ c.accLow < c.accHigh ∧ c.accHigh ≤ 20 ∧
      c.hyst16 ≤ 160 ∧ 10 ≤ c.ageS ∧ c.ageS ≤ 3600 ∧ 1 ≤ c.driftDb ∧ c.driftDb ≤ 60
  | 0x0E => ∀ g b, g < c.segCount → baselineOf p g = some b → -2560 ≤ b ∧ b ≤ 320
  | 0x0F => 1 ≤ p.eventThreshold ∧ p.eventThreshold < x.repCount ∧
      (field copy 0x302 1, p.irqMode) ∈
        [(0, CraneIrqMode.level), (1, .latchRead), (2, .latchAck), (3, .timed)] ∧
      1 ≤ p.pulseMs ∧ p.pulseMs ≤ 255 ∧ p.irqMask.toNat < 4096
  | _ => True

/-- A write of the command word alone, by APP, or by any master without a setup, carrying a code and an argument in every
byte, OKAY, in command state IDLE (R162, R171). -/
def commandGiven (s : State) (w : Write) (code : Byte) (arg : Half) : Prop :=
  (∃ role, forwardedRole s .write w.id = some role ∧ (role = .app ∨ s.su.setup = none)) ∧ isOkay w.resp = true ∧
    s.su.command.phase = .idle ∧ coversWhole w (commandWordAddr s) 4 = true ∧
    activeByte w (commandWordAddr s) = some code ∧
    activeByte w (commandWordAddr s + 2) = some (arg.setWidth 8) ∧
    activeByte w (commandWordAddr s + 3) = some ((arg >>> 8).setWidth 8) ∧ reachesOnly s w .command

/-- What the taking of a command does in the Setup Unit and the Path Unit (R171): the response returned, the command in
hand PENDING with its final status decided, the rest of the Setup Unit standing, a PENDING status write handed in, whose
fault byte is not stated and whose busy byte is 0 (notes/assumptions/11.md). -/
def commandTaken (s t : State) (w : Write) (code : Byte) (arg : Half) (v : CmdStatus) : Prop :=
  t.su = { s.su with command := ⟨.pending, code, arg, some v, false, false, none, false⟩ } ∧ t.pending = s.pending ∧
    ∃ f : Byte, t.pu = { (returnWrite w s).pu with
      waitSu := s.pu.waitSu ++ [⟨.statusWrite [1, code, arg.setWidth 8, (arg >>> 8).setWidth 8, f, 0, 0, 0],
        statusWordAddr s, true⟩] }

/-- The final status `v` of the command in hand decided (R171): handed in at once, with the code, argument, fault code
and busy flag, where the PENDING write has been answered, and held for that answer otherwise. -/
def finalDecided (s t : State) (v : CmdStatus) : Prop :=
  let c := s.su.command
  if c.phase = .pending ∧ c.pendingAnswered = true then
    t.su.command = { c with verdict := some v, phase := .closing, busy := false } ∧
      t.pu.waitSu.getLast? = some ⟨.statusWrite [lowByte v.code, c.code, c.arg.setWidth 8, (c.arg >>> 8).setWidth 8,
        t.su.faultCode, if c.busy then 1 else 0, 0, 0], s.su.sbase.toNat * 2 ^ 24 + 16, true⟩
  else t.su.command = { c with verdict := some v }

/-- Every report write made before now, waiting, queued or issued, finishes without acting (R160). -/
def reportsOrphaned (u : PathUnit) : Prop :=
  (∀ q ∈ u.waitRpu, q.body.isReportWrite = true → q.live = false) ∧
    (∀ x ∈ u.ready, x.request.body.isReportWrite = true → x.request.live = false) ∧
    ∀ x, Issued.injected x ∈ u.issuedWrite → x.request.body.isReportWrite = true → x.request.live = false

/-- Every unit but the Setup Unit's command and the Path Unit stands. -/
def unitsStand (s t : State) : Prop :=
  t.rcu = s.rcu ∧ t.clu = s.clu ∧ t.rfu = s.rfu ∧ t.cvu = s.cvu ∧ t.vu = s.vu ∧ t.rpu = s.rpu ∧ t.due = s.due

/-- The class a history declares over `old` (R125): the one that 3 or more of its entries equal, or `old` where none
does. -/
def declares (history : List SegClass) (old new : SegClass) : Prop :=
  (∀ c, c ≠ .unknown → 3 ≤ history.count c → new = c) ∧
    ((∀ c, c ≠ .unknown → history.count c < 3) → new = old)

/-- The history with a class appended, the oldest of five removed (R125). -/
def appended (history : List SegClass) (c : SegClass) : List SegClass := (history ++ [c]).drop (history.length + 1 - 5)

/-- The thresholds G and H of a segment (R123): 16 times the levels, or the baseline with the offsets in RELATIVE mode
where there is one. -/
def gAndH (p : Setup) (seg : Nat) (g h : Int) : Prop :=
  match p.classMode, baselineOf p seg with
  | .relative, some b => g = b + 16 * p.coverage.goodOfs ∧ h = b + 16 * p.coverage.holeOfs
  | _, _ => g = 16 * p.coverage.goodLevel ∧ h = 16 * p.coverage.holeLevel

/-- A segment after a frame's level has reached the Coverage Unit as an observation, `seg` being its segment; a level of
7FFFH gives none (R14, R115). -/
def observed (p : Setup) (s : State) (seg : Nat) (dir : Direction) (excluded : Option Nat) (level : Half) (now : Qt)
    (g : Nat) : Segment :=
  if g = seg ∧ level ≠ 0x7FFF then
    (observeSegment p (shadowedNow s p seg excluded) seg dir level.toInt now (s.cvu.segment seg)).1
  else s.cvu.segment g

/-- An entry with a report's power, setpoint and temperatures taken (R94 to R96): an absent setpoint stands, another is
clamped to −400..+300, and a change of it clears the count; a temperature outside −500..+700 is absent. -/
def Reefer.read (r : ReeferReport) (e : Reefer) : Reefer :=
  let sp := if r.setpoint = -32768 then e.setpoint else max (-400) (min 300 r.setpoint)
  { e with
    power := r.power
    setpoint := sp
    excCount := if sp = e.setpoint then e.excCount else 0
    countArea := if sp = e.setpoint then e.countArea else .normal
    supply := if -500 ≤ r.supply ∧ r.supply ≤ 700 then some r.supply else none
    ret := if -500 ≤ r.ret ∧ r.ret ≤ 700 then some r.ret else none }

/-- An entry after the five steps of R93: the readings taken, the band compared, the alarm codes stored. -/
def Reefer.judged (p : Setup) (r : ReeferReport) (i : Nat) (now : Qt) (e : Reefer) : Reefer :=
  { (compareBand (classEntry p r.cls) i now (e.read r)).1 with alarms := r.alarms }

/-- The segment of a plug (R75). -/
def segmentOfPlug (p : Setup) (plug : Half) : Nat := min (plug.toNat / p.plugsPerSeg) (p.coverage.segCount - 1)

/-- A byte of a view as LIVE contents give it now: of the header, or of the record held for the burst, or of the record
as it stands where none is held (R144, R145). -/
def liveByte (s : State) (v : View) (held : List (Nat × List Byte)) (off : Nat) : Byte :=
  if off < headerSize v then ((headerImage v .live (shownCount s v) 0 s.su.qt)[off]?).getD 0
  else
    let i := (off - headerSize v) / recordSize v
    let image := match held.find? (fun h => decide (h.1 = i)) with
      | some h => h.2
      | none => recordImage s v i
    (image[(off - headerSize v) % recordSize v]?).getD 0

/-- A byte of a view as a snapshot gives it (R145, R148). -/
def snapshotByte (v : View) (mode : ViewMode) (n : Snapshot) (off : Nat) : Byte :=
  if off < headerSize v then ((headerImage v mode n.count n.generation n.qt)[off]?).getD 0
  else ((((n.images[(off - headerSize v) / recordSize v]?).getD [])[(off - headerSize v) % recordSize v]?).getD 0)

/-- A byte address lies in the extent of view `v` and of no other view of a table (R142, R163). -/
def inViewOnly (t : Windows) (v : View) (a : Nat) : Prop :=
  inExtent (viewBase t v) (viewExtent v) a = true ∧ ∀ u, u ≠ v → inExtent (viewBase t u) (viewExtent u) a = false

/-- The beat carries a motion byte of a slot that governs and whose last fetch decision is UNDECIDED (R58). -/
def undecidedMotion (s : State) (t : Windows) (b : ReadBeat) : Prop :=
  ∃ j k off, j < b.data.length ∧ dlPlace t (beatAddr b + j) = some (k, off) ∧
    (let r := s.rcu.record k
     r.committed = true ∧ r.complete = true ∧ r.kind = 2 ∧ r.crane ≤ 11 ∧ craneEnabled s.su.setup r.crane = true ∧
       r.lastFetch = .undecided ∧ 12 ≤ off ∧ off ≤ 7 + r.len ∧ off ≤ 255)

/-- Requests issued on a channel and not yet answered. -/
def PathUnit.issuedOn (u : PathUnit) : Channel → List Issued
  | .read => u.issuedRead
  | .write => u.issuedWrite

/-- A number of grants on a channel, forwarded requests arriving before each (R166). -/
def grantRun (ch : Channel) : List (List FwdRequest) → PathUnit → PathUnit
  | [], u => u
  | fs :: rest, u =>
    grantRun ch rest (grant ch (match ch with
      | .read => { u with fwdRead := u.fwdRead ++ fs }
      | .write => { u with fwdWrite := u.fwdWrite ++ fs }))

end Sys2Proof.Machine
end

