-- ==== Sys2Proof/WellFormed.lean ====
section
/-! DEFINITION. Well-formed commands: operands an AXI4 port of 40-bit addresses and 128-bit data can carry
(00_scope.md, parameter table and pin summary). Numbers of cranes, table indices and segments are bounded by their
types. -/

namespace Sys2Proof

/-- Bytes that lie below 2^40. -/
def Region.ok (addr len : Nat) : Bool := decide (0 < len) && decide (addr + len ≤ 2 ^ 40)

/-- A burst of the port: beats of 1 to 16 bytes, 1 to 256 of them for INCR, 1 to 16 for FIXED, and for WRAP 2, 4, 8 or
16 from an address aligned to the beat (AXI4, as 00_scope.md names it). -/
def BurstForm.ok (f : BurstForm) (addr : Nat) : Bool :=
  [1, 2, 4, 8, 16].contains f.size &&
    match f.kind with
    | .fixed => decide (1 ≤ f.beats) && decide (f.beats ≤ 16)
    | .incr => decide (1 ≤ f.beats) && decide (f.beats ≤ 256)
    | .wrap => [2, 4, 8, 16].contains f.beats && decide (addr % f.size = 0)

/-- The bytes a burst can reach: a beat for FIXED, its aligned container for WRAP, the beats in a row for INCR. -/
def BurstForm.reach (f : BurstForm) (addr : Nat) : Nat :=
  match f.kind with
  | .fixed => addr / f.size * f.size + f.size
  | .incr => addr / f.size * f.size + f.size * f.beats
  | .wrap => addr / (f.size * f.beats) * (f.size * f.beats) + f.size * f.beats

/-- A write covers at least one byte, all below 2^40. -/
def Write.ok (w : Write) : Bool := Region.ok w.addr w.data.length

/-- The bytes of one beat lie in one 16-byte word of the port. -/
def Span.ok (x : Span) : Bool := Region.ok x.addr x.len && decide (x.addr / 16 = (x.addr + x.len - 1) / 16)

/-- A read beat is one of its burst and carries as many bytes of data as its span. -/
def ReadBeat.ok (b : ReadBeat) : Bool :=
  b.spans.all Span.ok && (match b.spans[b.beat]? with | some x => decide (b.data.length = x.len) | none => false)

/-- What a TRANSACTION_FORWARD passes on is well-formed. -/
def Forward.ok : Forward → Bool
  | .readRequest _ addr burst => burst.ok addr && decide (burst.reach addr ≤ 2 ^ 40)
  | .writeRequest _ addr burst data =>
    burst.ok addr && decide (burst.reach addr ≤ 2 ^ 40) && Region.ok addr data.length &&
      decide (data.length ≤ burst.size * burst.beats)
  | .readBeat b => b.ok
  | .writeResponse w => w.ok

/-- A command is well-formed. -/
def Instr.wellFormed : Instr → Bool
  | .powerOnReset _ => true
  | .qtIncrement => true
  | .linkLate _ => true
  | .linkLost _ => true
  | .irqCranePulseEnd => true
  | .reeferLost _ => true
  | .reeferSilent _ => true
  | .coverageScanVisit => true
  | .segmentAged _ => true
  | .shadowAverageAged _ => true
  | .ulSlotWrite w => w.ok
  | .ulProducerIndexWrite w => w.ok
  | .parseStart => true
  | .parseComplete => true
  | .dlSlotWrite w => w.ok
  | .dlProducerIndexWrite w => w.ok
  | .departure b => b.ok
  | .motionBytesRead b => b.ok
  | .viewReadBeat b => b.ok
  | .viewBurstLastBeat _ => true
  | .viewWrite w => w.ok
  | .reportTake => true
  | .reportRecordWriteDone _ _ => true
  | .reportIndexWriteDone _ _ => true
  | .consumerIndexWrite w => w.ok
  | .injIdRefused _ _ beats => decide (0 < beats)
  | .transactionForward f => f.ok
  | .injectionEnqueue _ => true
  | .arbiterGrant _ => true
  | .reload w => w.ok
  | .setupReadDone _ _ data => decide (data.length = 256)
  | .indexWordReadDone _ _ _ => true
  | .ackLines w => w.ok
  | .craneReset w => w.ok
  | .traceOpen w => w.ok
  | .reeferAck w => w.ok
  | .reeferForget w => w.ok
  | .coverageClear w => w.ok
  | .clearCounters w => w.ok
  | .commandCodeUnknown w => w.ok
  | .commandWriteWhileBusy w => w.ok
  | .commandStatusWriteDone _ _ => true

end Sys2Proof
end

