-- ==== Sys2Proof/Certificates/Slice0/Obligations.lean ====
section
/-! DEFINITION. The statements for the provers: what each command does to the state, in the units it changes, and the
laws every step keeps. A statement names in its docstring the rule of spec/ it formalises; where it rests on a choice of
the model, the docstring names the log entry. -/

open Sys2Proof Sys2Proof.Machine

/-! ### The step -/

/-- One step takes the command at the front of the queue and executes it on the state with the queue's rest (95: each
step whole and indivisible; the queue itself is the model's, notes/assumptions/8.md). -/
def Obligations.StepTakesFrontCommand : Prop :=
  ∀ (s : State) (c : Instr) (rest : List Instr), s.pending = c :: rest →
    step s = exec c { s with pending := rest }

/-! ### Reset and port time -/

/-- POWER_ON_RESET (R167, R21, R50, R65, R87, R138, R152, R153): every unit at its power-on values, from every state: no
setup and no load, no command in hand, no record queued or in flight, no latch and no pulse, every HOLD line asserted,
and both interrupt lines deasserted, as no parameters are in force. The values of the command in hand are
notes/assumptions/9.md's; that the queue of waiting commands stands, and that no check is due and both ports are empty,
is the model's own (notes/assumptions/8.md). -/
def Obligations.PowerOnResetValues : Prop :=
  ∀ (s : State) (b : BitVec 8), ∃ t, exec (.powerOnReset b) s = .next t ∧
    t.su = ⟨0, b, .unloaded, none, 0, ⟨.idle, 0, 0, none, false, false, none, false⟩, none⟩ ∧ injIdInForce t = 0 ∧
    t.pu = ⟨[], [], [], [], [], [], [], 0, 0, [], [], none⟩ ∧ t.pu.injectionCount = 0 ∧
    t.rcu.filling = [] ∧ t.rcu.queue = [] ∧ t.rcu.parsing = false ∧ t.rcu.hUl = 0 ∧ t.rcu.hDl = 0 ∧
    t.rcu.ul = UlCounters.zero ∧ t.rcu.dl = DlCounters.zero ∧ (∀ k, t.rcu.record k = DlRecord.blank) ∧
    (∀ n, t.clu.crane n = Crane.initial ∧ holdLine t n = true ∧ holdReason t n = .notRunning) ∧
    (∀ i, t.rfu.entry i = none) ∧ t.rfu.departed = [] ∧ t.rfu.scanPos = 0 ∧
    (∀ g, t.cvu.segment g = Segment.blank) ∧ t.cvu.geometry = none ∧ t.cvu.scanPos = 0 ∧ t.cvu.tick = 0 ∧
    t.cvu.clampReported = false ∧ t.vu = ⟨⟨none, 0, []⟩, ⟨none, 0, []⟩, 0⟩ ∧
    t.rpu = ⟨[], 0, 0, .idle, none, 0, 0, .running, false, false, none⟩ ∧
    irqCrane t = false ∧ irqEvent t = false ∧ t.due = DueChecks.none ∧ t.pending = s.pending

/-- QT_INCREMENT (R168, with R40, R41, R105, R129, R161): in every state it answers a next state, in which QT has risen by
1; in RUNNING the silence scan moves on by 2, the tick count by 1, and the deadline checks, the two visits and, at 100,
the coverage visit fall due; in other run states the scans hold. Where no check still due finds anything, in any run
state, nothing else changes, and the checks due do not matter. Where one does, or the first finds nothing, the first is
taken before QT rises, as its own row takes it or without effect, in the order deadline checks, visits, coverage visit,
pulse test; and of checks as an increment makes them due one or the other always holds. Holding the checks as due, and
that order, are the model's choice (notes/assumptions/3.md). -/
def Obligations.QtIncrementCounts : Prop :=
  (∀ s : State, ∃ t, exec .qtIncrement s = .next t ∧
    t.su = { s.su with qt := s.su.qt + 1 } ∧
    (s.su.runState = .running →
      t.rfu.scanPos = (s.rfu.scanPos + 2) % 2048 ∧
      t.cvu.tick = (if s.cvu.tick + 1 < 100 then s.cvu.tick + 1 else 0) ∧
      t.due = ⟨List.range 12, [s.rfu.scanPos % 2048, (s.rfu.scanPos + 1) % 2048], decide (100 ≤ s.cvu.tick + 1), true⟩) ∧
    (s.su.runState ≠ .running →
      t.rfu.scanPos = s.rfu.scanPos ∧ t.cvu.tick = s.cvu.tick ∧ t.due = ⟨[], [], false, true⟩) ∧
    t.pu = s.pu ∧ t.rcu = s.rcu ∧ t.vu = s.vu ∧ t.pending = s.pending ∧ t.free = s.free ∧
    t.rfu.departed = s.rfu.departed ∧ t.cvu.geometry = s.cvu.geometry ∧ t.cvu.clampReported = s.cvu.clampReported ∧
    (nothingFound s →
      t.clu = s.clu ∧ t.rpu = s.rpu ∧ t.rfu = { s.rfu with scanPos := t.rfu.scanPos } ∧
      t.cvu = { s.cvu with tick := t.cvu.tick })) ∧
  (∀ s : State, nothingFound s → exec .qtIncrement s = exec .qtIncrement { s with due := DueChecks.none }) ∧
  (∀ s u : State, dueStep s u → exec .qtIncrement s = exec .qtIncrement u) ∧
  (∀ s : State, dueInRange s → nothingFound s ∨ ∃ u, dueStep s u)

/-- LINK_LATE (R40): a LIVE crane silent for LATE_MS, with no LOST condition, becomes LATE; its HOLD line, list and trace
stand, and a LINK_LATE record is handed to the Report Unit. (The check is one that is due: notes/assumptions/3.md.) -/
def Obligations.LinkLateEntry : Prop :=
  ∀ (s : State) (p : Setup) (n : Fin 12) (a : Qt), s.su.setup = some p → s.su.runState = .running →
    n.val ∈ s.due.deadlines → (s.clu.crane n).link = .live → (s.clu.crane n).lastArrival = some a →
    p.timing.lateMs ≤ elapsed s.su.qt a → elapsed s.su.qt a < p.timing.lostMs →
    (∀ o rest, (s.clu.crane n).outstanding = o :: rest → elapsed s.su.qt o.departed < p.timing.echoMs) →
    ∃ t r, exec (.linkLate n) s = .next t ∧
      t = { s with clu := t.clu, rpu := s.rpu.handOver r, due := t.due } ∧
      t.clu.crane n = { s.clu.crane n with link := .late } ∧ (∀ m, m ≠ n.val → t.clu.crane m = s.clu.crane m) ∧
      holdLine t n = holdLine s n ∧
      t.due = { s.due with deadlines := s.due.deadlines.filter (fun m => decide (m ≠ n.val)) } ∧
      r.code = 0x11 ∧ r.origin = .clu ∧ r.object = BitVec.ofNat 16 n.val ∧ r.qt = s.su.qt

/-- LINK_LOST (R41, R42, R47, R161): a LIVE or LATE crane silent for LOST_MS, or with an unechoed command of ECHO_MS,
becomes LOST: its list is emptied and counted, its trace closes, its recovery count is 0, HOLD is asserted, LINK_LOST is
made. For a crane in the mask the latch is set in the latch modes and a pulse starts in TIMED mode. Where its position is
known and LOCAL is clear, the segment under it takes its vote: discarded and counted where both averages are EMPTY, else
HOLE joins the history and is declared by 3 of 5, with CLASS_CHANGE after LINK_LOST. (The check is one that is due:
notes/assumptions/3.md; the pulse starts at the current QT: 12.md.) -/
def Obligations.LinkLostEntry : Prop :=
  ∀ (s : State) (p : Setup) (n : Fin 12), s.su.setup = some p → s.su.runState = .running →
    n.val ∈ s.due.deadlines → ((s.clu.crane n).link = .live ∨ (s.clu.crane n).link = .late) →
    ((∃ a, (s.clu.crane n).lastArrival = some a ∧ p.timing.lostMs ≤ elapsed s.su.qt a) ∨
      (∃ o rest, (s.clu.crane n).outstanding = o :: rest ∧ p.timing.echoMs ≤ elapsed s.su.qt o.departed)) →
    ∃ t, exec (.linkLost n) s = .next t ∧
      t = { s with clu := t.clu, cvu := { s.cvu with segments := t.cvu.segments }, rpu := t.rpu, due := t.due } ∧
      t.clu.crane n = { s.clu.crane n with
        link := .lost, recovery := 0, outstanding := [],
        counters := { (s.clu.crane n).counters with
          unconfirmed := (s.clu.crane n).counters.unconfirmed + BitVec.ofNat 32 (s.clu.crane n).outstanding.length },
        traceState := (match (s.clu.crane n).traceState with
          | .recording => if p.timing.tracePost = 0 then .frozen else .closing p.timing.tracePost
          | x => x) } ∧
      (∀ m, m ≠ n.val → t.clu.crane m = s.clu.crane m) ∧ holdLine t n = true ∧
      t.due = { s.due with deadlines := s.due.deadlines.filter (fun m => decide (m ≠ n.val)) } ∧
      ((s.clu.crane n).position = none ∨ (s.clu.crane n).localCtl = true → ∀ g, t.cvu.segment g = s.cvu.segment g) ∧
      (∀ x, (s.clu.crane n).position = some x → (s.clu.crane n).localCtl = false →
        (∀ g, g ≠ x / p.coverage.segLenCm → t.cvu.segment g = s.cvu.segment g) ∧
        (let y := s.cvu.segment (x / p.coverage.segLenCm)
         let z := t.cvu.segment (x / p.coverage.segLenCm)
         if y.ul = none ∧ y.dl = none then z = { y with discarded := min 65535 (y.discarded + 1) }
         else z = { y with history := appended y.history .hole, declared := z.declared } ∧
           declares z.history y.declared z.declared)) ∧
      (∃ r rest, t.rpu = { s.rpu.handOverAll (r :: rest) with
          craneLatch := (if p.irqMask.getLsbD n = true ∧ (p.irqMode = .latchRead ∨ p.irqMode = .latchAck) then true
            else s.rpu.craneLatch),
          pulseStart := (if p.irqMask.getLsbD n = true ∧ p.irqMode = .timed then some s.su.qt
            else s.rpu.pulseStart) } ∧
        r.code = 0x12 ∧ r.origin = .clu ∧ r.object = BitVec.ofNat 16 n.val ∧ r.qt = s.su.qt ∧
        rest.length ≤ 1 ∧ (∀ x ∈ rest, x.code = 0x30) ∧
        (rest = [] ↔ ∀ g, (t.cvu.segment g).declared = (s.cvu.segment g).declared))

/-- IRQ_CRANE_PULSE_END (R161, TIMED): PULSE_MS after the pulse start the line falls and the pulse start is none. (The test
is one that is due: notes/assumptions/3.md.) -/
def Obligations.PulseEnds : Prop :=
  ∀ (s : State) (p : Setup) (x : Qt), s.su.setup = some p → p.irqMode = .timed → s.due.pulse = true →
    s.rpu.pulseStart = some x → p.pulseMs ≤ elapsed s.su.qt x →
    ∃ t, exec .irqCranePulseEnd s = .next t ∧
      t = { s with rpu := { s.rpu with pulseStart := none }, due := { s.due with pulse := false } } ∧
      irqCrane t = false

/-- REEFER_LOST (R106): a TRACKED or SILENT entry of LOSS_MIN minutes without a report becomes LOST at its visit; only its
state changes, and REEFER_LOST is made. REEFER_SILENT (R107, R108): at the silence limit a TRACKED entry not yet lost is
excused once more, when its class leaves an excusal and its segment is HOLE or shadowed, and becomes SILENT otherwise;
either record names the segment's class and shadow (with no excusal left: notes/assumptions/10.md). A visit due to an
earlier index is taken first, as its own row takes it or with nothing found (R105; the rows take visits that are due:
3.md). -/
def Obligations.ReeferSilenceVisits : Prop :=
  (∀ (s : State) (p : Setup) (i : Fin 2048) (rest : List Nat) (e : Reefer), s.su.setup = some p →
     s.su.runState = .running → s.due.visits = i.val :: rest → s.rfu.entry i = some e →
     (e.state = .tracked ∨ e.state = .silent) →
     (classEntry p e.cls).lossMin * 60000 ≤ elapsed s.su.qt e.lastReport →
     ∃ t r, exec (.reeferLost i) s = .next t ∧
       t = { s with rfu := { s.rfu with table := t.rfu.table }, rpu := s.rpu.handOver r,
                    due := { s.due with visits := rest } } ∧
       t.rfu.entry i = some { e with state := .lost } ∧ (∀ j, j ≠ i.val → t.rfu.entry j = s.rfu.entry j) ∧
       r.code = 0x2D ∧ r.origin = .rfu ∧ r.object = BitVec.ofNat 16 i.val ∧ r.qt = s.su.qt) ∧
  (∀ (s : State) (p : Setup) (i : Fin 2048) (rest : List Nat) (e : Reefer), s.su.setup = some p →
     s.su.runState = .running → s.due.visits = i.val :: rest → s.rfu.entry i = some e → e.state = .tracked →
     elapsed s.su.qt e.lastReport < (classEntry p e.cls).lossMin * 60000 →
     (classEntry p e.cls).silenceMin * 60000 * (1 + e.excusals) ≤ elapsed s.su.qt e.lastReport →
     ∃ t r, exec (.reeferSilent i) s = .next t ∧
       t = { s with rfu := { s.rfu with table := t.rfu.table }, rpu := s.rpu.handOver r,
                    due := { s.due with visits := rest } } ∧
       (∀ j, j ≠ i.val → t.rfu.entry j = s.rfu.entry j) ∧
       r.origin = .rfu ∧ r.object = BitVec.ofNat 16 i.val ∧ r.qt = s.su.qt ∧
       r.detail[7]? = some (BitVec.ofNat 8 (s.cvu.segment e.segment).declared.code) ∧
       r.detail[8]? = some (if shadowedNow s p e.segment none = true then 1 else 0) ∧
       (if e.excusals < (classEntry p e.cls).stretchMax ∧
           ((s.cvu.segment e.segment).declared = .hole ∨ shadowedNow s p e.segment none = true) then
         t.rfu.entry i = some { e with excusals := e.excusals + 1 } ∧ r.code = 0x2E
       else t.rfu.entry i = some { e with state := .silent } ∧ r.code = 0x2C)) ∧
  (∀ (s : State) (p : Setup) (i j : Fin 2048) (rest : List Nat) (e : Reefer) (c : Instr), s.su.setup = some p →
     s.su.runState = .running → s.due.visits = j.val :: rest → i ≠ j → i.val ∈ rest → s.rfu.entry i = some e →
     (c = .reeferLost i ∧ lossReached p s.su.qt e = true ∨ c = .reeferSilent i ∧ silenceReached p s.su.qt e = true) →
     (∀ x u, s.rfu.entry j = some x →
       (lossReached p s.su.qt x = true → exec (.reeferLost j) s = .next u → exec c s = exec c u) ∧
       (silenceReached p s.su.qt x = true → exec (.reeferSilent j) s = .next u → exec c s = exec c u)) ∧
     ((∀ x, s.rfu.entry j = some x → lossReached p s.su.qt x = false ∧ silenceReached p s.su.qt x = false) →
       exec c s = exec c { s with due := { s.due with visits := rest } }))

/-- COVERAGE_SCAN_VISIT (R129 to R132): the segment at the scan position has its UL and DL averages aged together, with
SEGMENT_AGED, its shadow average aged apart, without a record, and its drift tested on what is left, with DRIFT_SET or
DRIFT_CLEAR on a change; and the position moves on, to 0 after the last. SEGMENT_AGED and SHADOW_AVERAGE_AGED (R130,
R131): where the segment of the scan position meets the aging test they take that same visit, whole (R144). That the two
rows name the visit due, and take it whole, is the model's choice, notes/assumptions/3.md. -/
def Obligations.CoverageVisitAndAging : Prop :=
  (∀ (s : State) (p : Setup), s.su.setup = some p → s.su.runState = .running → s.due.coverage = true →
     ∃ t rs, exec .coverageScanVisit s = .next t ∧
       t = { s with cvu := { s.cvu with segments := t.cvu.segments, scanPos := t.cvu.scanPos },
                    rpu := s.rpu.handOverAll rs, due := { s.due with coverage := false } } ∧
       t.cvu.scanPos = (if s.cvu.scanPos + 1 < p.coverage.segCount then s.cvu.scanPos + 1 else 0) ∧
       (∀ g, g ≠ s.cvu.scanPos → t.cvu.segment g = s.cvu.segment g) ∧
       (∀ r ∈ rs, r.origin = .cvu ∧ r.object = BitVec.ofNat 16 s.cvu.scanPos ∧ r.qt = s.su.qt) ∧
       (let x := s.cvu.segment s.cvu.scanPos
        let y := t.cvu.segment s.cvu.scanPos
        let b := baselineOf p s.cvu.scanPos
        y.unshadowed = x.unshadowed ∧ y.shadowed = x.shadowed ∧ y.rejected = x.rejected ∧ y.discarded = x.discarded ∧
        y.lastUnshadowed = x.lastUnshadowed ∧ y.lastShadowed = x.lastShadowed ∧
        y.shadow = (if p.coverage.ageS * 1000 ≤ elapsed s.su.qt x.lastShadowed then none else x.shadow) ∧
        (if (x.ul ≠ none ∨ x.dl ≠ none) ∧ p.coverage.ageS * 1000 ≤ elapsed s.su.qt x.lastUnshadowed then
          y.ul = none ∧ y.dl = none ∧ y.history = [] ∧ y.declared = .unknown ∧ y.drift = false ∧
          rs.map Record.code = [0x31]
        else
          y.ul = x.ul ∧ y.dl = x.dl ∧ y.history = x.history ∧ y.declared = x.declared ∧
          rs.map Record.code = (if y.drift = x.drift then [] else if y.drift = true then [0x32] else [0x33]) ∧
          (b = none ∨ x.dl = none → y.drift = x.drift) ∧
          ∀ bv dv, b = some bv → x.dl = some dv →
            y.drift = (if 16 * p.coverage.driftDb < (dv - bv).natAbs then true
              else if (dv - bv).natAbs ≤ 16 * (p.coverage.driftDb - 1) then false else x.drift)))) ∧
  (∀ (s : State) (p : Setup) (n : Fin 128), s.su.setup = some p → s.su.runState = .running → s.due.coverage = true →
     n.val = s.cvu.scanPos →
     (let x := s.cvu.segment n
      ((x.ul ≠ none ∨ x.dl ≠ none) → p.coverage.ageS * 1000 ≤ elapsed s.su.qt x.lastUnshadowed →
        ∃ t, exec (.segmentAged n) s = .next t ∧ exec .coverageScanVisit s = .next t ∧
          (t.cvu.segment n).ul = none ∧ (t.cvu.segment n).dl = none) ∧
      (x.shadow ≠ none → p.coverage.ageS * 1000 ≤ elapsed s.su.qt x.lastShadowed →
        ∃ t, exec (.shadowAverageAged n) s = .next t ∧ exec .coverageScanVisit s = .next t ∧
          (t.cvu.segment n).shadow = none)))

/-! ### Frames on the rings -/

/-- UL_SLOT_WRITE (R2): a completed RADIO write of the uplink slots alone in RUNNING, with room for the entries it needs,
leaves a PENDING entry for every slot it touches: created now or kept, its cells SEEN with the bytes written under active
strobes and as they were elsewhere; every other slot's entry stands, and the response passes back. (A write over several
windows is WriteTakenByEachWindow's.) -/
def Obligations.UplinkWriteCaptured : Prop :=
  ∀ (s : State) (p : Setup) (w : Write), watchedBy s p .radio .ulSlots w → (∀ e ∈ s.rcu.filling, e.cells.length = 256) →
    s.rcu.inUse + ((List.range p.windows.ulCount).filter
      (fun k => touchesUlSlot p w k && (s.rcu.pendingEntry k).isNone)).length ≤ 32 →
    ∃ t, exec (.ulSlotWrite w) s = .next t ∧
      t = { returnWrite w s with rcu := { s.rcu with filling := t.rcu.filling } } ∧
      (∀ k, touchesUlSlot p w k = false → t.rcu.pendingEntry k = s.rcu.pendingEntry k) ∧
      (∀ k, touchesUlSlot p w k = true → ∃ e, t.rcu.pendingEntry k = some e ∧ e.slot = k ∧ e.cells.length = 256 ∧
        match s.rcu.pendingEntry k with
        | some old => e.firstWrite = old.firstWrite ∧ ∀ j, j < 256 → cellAt e.cells j =
            (activeByte w (p.windows.ulSlots + 256 * k + j)).or (cellAt old.cells j)
        | none => e.firstWrite = s.su.qt ∧ ∀ j, j < 256 → cellAt e.cells j =
            activeByte w (p.windows.ulSlots + 256 * k + j))

/-- UL_SLOT_WRITE with the store full (R3), for a write that touches one slot without a PENDING entry: the oldest PENDING
entry makes room, or with all entries QUEUED the write is not captured; CAPTURE_OVERFLOW is made either way. (That the
record's object index is the slot of the write is the model's choice, notes/assumptions/13.md, and not stated.) -/
def Obligations.CaptureOverflow : Prop :=
  ∀ (s : State) (p : Setup) (w : Write) (k : Nat), watchedBy s p .radio .ulSlots w → 32 ≤ s.rcu.inUse →
    (∀ j, touchesUlSlot p w j = true ↔ j = k) → s.rcu.pendingEntry k = none →
    (s.rcu.filling = [] → ∃ r, exec (.ulSlotWrite w) s = .next { returnWrite w s with rpu := s.rpu.handOver r } ∧
      r.code = 0x06 ∧ r.qt = s.su.qt ∧ r.detail.take 5 = le16 (BitVec.ofNat 16 k) ++ [0, 0, 0]) ∧
    (∀ o ∈ s.rcu.filling, (∀ e ∈ s.rcu.filling, e ≠ o → olderEntry s.su.qt o e = true) →
      ∃ t r, exec (.ulSlotWrite w) s = .next t ∧
        t = { returnWrite w s with rcu := { s.rcu with filling := t.rcu.filling }, rpu := s.rpu.handOver r } ∧
        t.rcu.pendingEntry o.slot = none ∧
        (∀ j, j ≠ o.slot → j ≠ k → t.rcu.pendingEntry j = s.rcu.pendingEntry j) ∧
        (∃ e, t.rcu.pendingEntry k = some e ∧ e.firstWrite = s.su.qt) ∧
        r.code = 0x06 ∧ r.qt = s.su.qt ∧
        r.detail.take 5 = le16 (BitVec.ofNat 16 k) ++ le16 (BitVec.ofNat 16 o.slot) ++ [1])

/-- UL_PRODUCER_INDEX_WRITE taken (R5, R7): the slots from H_UL up to the value are committed in ring order, each counted
once in COMMITTED and without a PENDING entry after it. A slot's PENDING entry joins the tail of the parse queue with its
cells as captured; a slot without one joins as a placeholder while the queue holds fewer than UL_SLOTS items, and is
settled at once otherwise, counted in UNCAPTURED with one SLOT_UNCAPTURED that names it; every item carries the QT of the
write. So while the queue has room for a placeholder for each, one item a slot joins. -/
def Obligations.UplinkCommit : Prop :=
  ∀ (s : State) (p : Setup) (w : Write) (v d : Nat), watchedBy s p .radio .ulProducer w →
    coversWhole w p.windows.ulProducer 4 = true → indexValue w p.windows.ulProducer = v → v < p.windows.ulCount →
    s.rcu.hUl < p.windows.ulCount → d = (v + p.windows.ulCount - s.rcu.hUl) % p.windows.ulCount →
    (let slots := (List.range d).map (fun i => (s.rcu.hUl + i) % p.windows.ulCount)
     let items := (committedItems p.windows.ulCount s.su.qt s.rcu.pendingEntry s.rcu.queue.length slots).1
     let lost := (committedItems p.windows.ulCount s.su.qt s.rcu.pendingEntry s.rcu.queue.length slots).2
     ∃ t rs, exec (.ulProducerIndexWrite w) s = .next t ∧
      t = { returnWrite w s with
        rcu := { s.rcu with filling := t.rcu.filling, queue := s.rcu.queue ++ items, hUl := v,
                            ul := { s.rcu.ul with
                              committed := s.rcu.ul.committed + BitVec.ofNat 32 d,
                              uncaptured := s.rcu.ul.uncaptured + BitVec.ofNat 32 lost.length } },
        rpu := s.rpu.handOverAll rs } ∧
      (∀ k, k ∈ slots → t.rcu.pendingEntry k = none) ∧
      (∀ k, k ∉ slots → t.rcu.pendingEntry k = s.rcu.pendingEntry k) ∧
      rs.map Record.object = lost.map (BitVec.ofNat 16) ∧
      (∀ r ∈ rs, r.code = 0x02 ∧ r.origin = .rcu ∧ r.qt = s.su.qt) ∧
      (s.rcu.queue.length + d ≤ p.windows.ulCount → lost = [] ∧
        items = slots.map (fun k => match s.rcu.pendingEntry k with
          | some e => .captured e s.su.qt
          | none => .placeholder k s.su.qt)))

/-- The three watched index words refused (R6, R18, R157): a write that does not cover the word with active strobes, or
carries a value out of range, changes no position and makes INDEX_FAULT with the ring, the case and the value written.
(Case 1 for a partial write whatever its value: notes/assumptions/14.md; object index FFFFH: 13.md.) -/
def Obligations.IndexWriteRefused : Prop :=
  ∀ (s : State) (p : Setup) (w : Write),
    (watchedBy s p .radio .ulProducer w →
      (coversWhole w p.windows.ulProducer 4 = false ∨ p.windows.ulCount ≤ indexValue w p.windows.ulProducer) →
      ∃ r, exec (.ulProducerIndexWrite w) s = .next { returnWrite w s with rpu := s.rpu.handOver r } ∧
        r.code = 0x05 ∧ r.origin = .rcu ∧ r.qt = s.su.qt ∧ r.detail.take 8 =
          [0, if coversWhole w p.windows.ulProducer 4 then 0 else 1, 0, 0] ++
            le32 (BitVec.ofNat 32 (indexValue w p.windows.ulProducer))) ∧
    (watchedBy s p .app .dlProducer w →
      (coversWhole w p.windows.dlProducer 4 = false ∨ p.windows.dlCount ≤ indexValue w p.windows.dlProducer) →
      ∃ r, exec (.dlProducerIndexWrite w) s = .next { returnWrite w s with rpu := s.rpu.handOver r } ∧
        r.code = 0x05 ∧ r.origin = .rcu ∧ r.qt = s.su.qt ∧ r.detail.take 8 =
          [1, if coversWhole w p.windows.dlProducer 4 then 0 else 1, 0, 0] ++
            le32 (BitVec.ofNat 32 (indexValue w p.windows.dlProducer))) ∧
    (watchedBy s p .app .consumer w →
      (coversWhole w p.windows.reportConsumer 4 = false ∨ p.windows.repCount ≤ indexValue w p.windows.reportConsumer) →
      ∃ r, exec (.consumerIndexWrite w) s = .next { returnWrite w s with rpu := s.rpu.handOver r } ∧
        r.code = 0x05 ∧ r.origin = .rpu ∧ r.qt = s.su.qt ∧ r.detail.take 8 =
          [2, if coversWhole w p.windows.reportConsumer 4 then 0 else 1, 0, 0] ++
            le32 (BitVec.ofNat 32 (indexValue w p.windows.reportConsumer)))

/-- PARSE_START and PARSE_COMPLETE (R8 to R13): a placeholder is settled UNCAPTURED, an entry comes under parse; a parse
completing takes its item out of the queue, adds one to the sum of the outcome counters and none to COMMITTED, and
changes no other field of the Ring Capture Unit, and no unit but those frames are dispatched to. SHORT, UNKNOWN_KIND,
FIELD_BAD and IGNORED each add one to their own counter, change no other unit but the Report Unit, and make the record
of R11's table, at the QT of the completion: SLOT_SHORT, KIND_UNKNOWN with the kind, FIELD_BAD with reason and kind or
REEFER_BAD_ID with the eleven characters, and none for IGNORED. When each applies (R9, R10): SHORT when a header byte is
UNSEEN, or the length byte is 240 or less and a payload byte within it is UNSEEN; then UNKNOWN_KIND for a kind other than
01H, 03H, 04H; then the first check of R10 that fails; then IGNORED for a crane not enabled. (That one PARSE_START settles
one placeholder is notes/assumptions/23.md; what SLOT_SHORT counts is 15.md, not stated; the entry count of a MEAS_REPORT
is judged where it is SEEN, 16.md.) -/
def Obligations.ParserRows : Prop :=
  (∀ (s : State), s.su.runState = .running →
    (∀ slot q rest, s.rcu.parsing = false → s.rcu.queue = .placeholder slot q :: rest →
      ∃ r, exec .parseStart s = .next { s with
          rcu := { s.rcu with queue := rest, ul := { s.rcu.ul with uncaptured := s.rcu.ul.uncaptured + 1 } },
          rpu := s.rpu.handOver r } ∧
        r.code = 0x02 ∧ r.origin = .rcu ∧ r.object = BitVec.ofNat 16 slot ∧ r.qt = s.su.qt) ∧
    (∀ e q rest, s.rcu.parsing = false → s.rcu.queue = .captured e q :: rest →
      exec .parseStart s = .next { s with rcu := { s.rcu with parsing := true } }) ∧
    (∀ e q rest, s.rcu.parsing = true → s.rcu.queue = .captured e q :: rest →
      (∃ t, exec .parseComplete s = .next t ∧
        t.rcu = { s.rcu with queue := rest, parsing := false, ul := t.rcu.ul } ∧
        t.rcu.ul.committed = s.rcu.ul.committed ∧ t.rcu.ul.outcomeSum = s.rcu.ul.outcomeSum + 1 ∧
        t.su = s.su ∧ t.pu = s.pu ∧ t.vu = s.vu ∧ t.due = s.due ∧ t.pending = s.pending ∧ t.free = s.free) ∧
      (let ul := s.rcu.ul
       let o := parseCells s.su.setup e.cells
       (∀ n, o = .short n → ∃ r,
         exec .parseComplete s = .next (settledAs s rest { ul with short := ul.short + 1 } [r]) ∧
         recordNames r 0x01 .rcu e.slot s.su.qt []) ∧
       (∀ kind, o = .unknownKind kind → ∃ r,
         exec .parseComplete s = .next (settledAs s rest { ul with unknownKind := ul.unknownKind + 1 } [r]) ∧
         recordNames r 0x03 .rcu e.slot s.su.qt [kind]) ∧
       (∀ reason kind, o = .fieldBad reason kind → ∃ r,
         exec .parseComplete s = .next (settledAs s rest { ul with fieldBad := ul.fieldBad + 1 } [r]) ∧
         recordNames r 0x04 .rcu e.slot s.su.qt [reason, kind]) ∧
       (∀ id, o = .badId id → ∃ r,
         exec .parseComplete s = .next (settledAs s rest { ul with fieldBad := ul.fieldBad + 1 } [r]) ∧
         recordNames r 0x24 .rfu e.slot s.su.qt id) ∧
       (o = .ignored →
         exec .parseComplete s = .next (settledAs s rest { ul with ignored := ul.ignored + 1 } []))))) ∧
  ∀ (setup : Option Setup) (cells : List (Option Byte)),
    (let o := parseCells setup cells
     let at_ := fun i => ((cellAt cells i).getD 0).toNat
     let short := (∃ i, i < 12 ∧ cellAt cells i = none) ∨
       ∃ l, cellAt cells 5 = some l ∧ l.toNat ≤ 240 ∧ ∃ i, i < l.toNat ∧ cellAt cells (12 + i) = none
     let id := (List.range 11).map (fun i => (cellAt cells (12 + i)).getD 0)
     let zero := at_ 8 = 0 ∧ at_ 9 = 0 ∧ at_ 10 = 0 ∧ at_ 11 = 0
     let l := at_ 5
     ((∃ u, o = .short u) ↔ short) ∧
     (¬ short → (at_ 4 ≠ 1 ∧ at_ 4 ≠ 3 ∧ at_ 4 ≠ 4 → o = .unknownKind (BitVec.ofNat 8 (at_ 4))) ∧
       (at_ 4 = 1 → o = (if zero then .fieldBad 0x01 0x01 else if l ≠ 9 then .fieldBad 0x02 0x01
         else if 11 < at_ 12 then .fieldBad 0x03 0x01 else if 2 < at_ 13 then .fieldBad 0x04 0x01
         else if craneEnabled setup (at_ 12) = true then .acceptedCrane (statusFrame cells) else .ignored)) ∧
       (at_ 4 = 3 → o = (if zero then .fieldBad 0x01 0x03 else if l < 22 then .fieldBad 0x02 0x03
         else if 4 < at_ 25 then .fieldBad 0x05 0x03 else if l ≠ 22 + 2 * at_ 25 then .fieldBad 0x02 0x03
         else if idFormatOk id = false then .fieldBad 0x06 0x03 else if checkDigitOk id = false then .badId id
         else if 15 < at_ 23 then .fieldBad 0x08 0x03 else if 3 < at_ 24 then .fieldBad 0x09 0x03
         else .acceptedReefer (reeferReport cells))) ∧
       (at_ 4 = 4 → o = (if zero then .fieldBad 0x01 0x04 else if l = 0 then .fieldBad 0x02 0x04
         else if cellAt cells 12 ≠ none ∧ (at_ 12 = 0 ∨ 8 < at_ 12) then .fieldBad 0x0A 0x04
         else if l ≠ 1 + 6 * at_ 12 then .fieldBad 0x02 0x04 else .acceptedMeas (measEntries cells)))))

/-- PARSE_COMPLETE with a MEAS_REPORT (R13, R116): each entry in list order, its position brought onto the quay, is a DL
observation of its segment with no crane excluded, an unknown level giving none; an entry beyond the quay sets the clamp
reported flag, with one POSITION_CLAMPED where it was clear, and a report without one clears it; no crane and no reefer
changes. -/
def Obligations.MeasurementReportTaken : Prop :=
  ∀ (s : State) (p : Setup) (e : CaptureEntry) (q : Qt) (rest : List ParseItem) (es : List MeasEntry),
    parsesTo s p e q rest (.acceptedMeas es) →
    (let quay := p.coverage.segCount * p.coverage.segLenCm
     let beyond := es.any (fun x => decide (quay ≤ x.position))
     ∃ t rs, exec .parseComplete s = .next t ∧
      t = { s with
        cvu := { s.cvu with segments := t.cvu.segments, clampReported := beyond }, rpu := s.rpu.handOverAll rs,
        rcu := { s.rcu with
          queue := rest, parsing := false, ul := { s.rcu.ul with acceptedMeas := s.rcu.ul.acceptedMeas + 1 } } } ∧
      (∀ g, t.cvu.segment g = es.foldl (fun y x =>
        if g = min x.position (quay - 1) / p.coverage.segLenCm ∧ x.level ≠ 0x7FFF then
          (observeSegment p (shadowedNow s p g none) g .dl x.level.toInt q y).1
        else y) (s.cvu.segment g)) ∧
      (∀ r ∈ rs, r.origin = .cvu ∧ (r.code = 0x34 ∨ r.code = 0x30)) ∧
      (rs.map Record.code).count 0x34 = (if beyond = true ∧ s.cvu.clampReported = false then 1 else 0))

/-! ### Crane status frames -/

/-- PARSE_COMPLETE with a CRANE_STATUS frame that ends at the claim or the sequence step (R26 to R29, R161). A frame for a
crane in CLAIM, a duplicate and a frame behind add 1 to their own counter and change nothing else of any crane, and make
no record and no observation. A frame whose terminal is not the crane's (MISMATCH), or that a crane without one would
learn from another (BOUND_ELSEWHERE), takes it from any other link state to CLAIM: its list is emptied and counted, its
trace frozen, its recovery count 0, HOLD asserted, LINK_CLAIM made with the reason; for a crane in the mask the latch of
the latch modes is set and a TIMED pulse starts, at the current QT (notes/assumptions/12.md); every other field, crane
and unit stands. -/
def Obligations.StatusFrameNotTaken : Prop :=
  (∀ (s : State) (p : Setup) (e : CaptureEntry) (q : Qt) (rest : List ParseItem) (f : StatusFrame) (k : CraneCounters),
     parsesTo s p e q rest (.acceptedCrane f) →
     (let c := s.clu.crane f.crane
      let d := (f.seq - c.lastSeq).toNat
      let bound := rosterTerminal p f.crane = some f.terminal ∨
        (rosterTerminal p f.crane = none ∧ c.learned = some f.terminal)
      (c.link = .claim ∧ k = { c.counters with claimDiscard := c.counters.claimDiscard + 1 }) ∨
      (c.link ≠ .claim ∧ bound ∧ c.seqValid = true ∧ d = 0 ∧
        k = { c.counters with duplicate := c.counters.duplicate + 1 }) ∨
      (c.link ≠ .claim ∧ bound ∧ c.seqValid = true ∧ 32768 ≤ d ∧
        k = { c.counters with behind := c.counters.behind + 1 })) →
     ∃ t, exec .parseComplete s = .next t ∧
       t = { s with clu := t.clu, rcu := { s.rcu with
         queue := rest, parsing := false, ul := { s.rcu.ul with acceptedCrane := s.rcu.ul.acceptedCrane + 1 } } } ∧
       t.clu.crane f.crane = { s.clu.crane f.crane with counters := k } ∧
       ∀ m, m ≠ f.crane → t.clu.crane m = s.clu.crane m) ∧
  (∀ (s : State) (p : Setup) (e : CaptureEntry) (q : Qt) (rest : List ParseItem) (f : StatusFrame) (why : Byte),
     parsesTo s p e q rest (.acceptedCrane f) → (s.clu.crane f.crane).link ≠ .claim →
     ((∃ x, x ≠ f.terminal ∧ why = 0 ∧ (rosterTerminal p f.crane = some x ∨
         (rosterTerminal p f.crane = none ∧ (s.clu.crane f.crane).learned = some x))) ∨
       (rosterTerminal p f.crane = none ∧ (s.clu.crane f.crane).learned = none ∧ why = 1 ∧
         ∃ m, m ≠ f.crane ∧ m < 12 ∧ boundTo p s m f.terminal)) →
     ∃ t r, exec .parseComplete s = .next t ∧
       t = { s with
         clu := t.clu
         rpu := { s.rpu.handOver r with
           craneLatch := (if p.irqMask.getLsbD f.crane = true ∧ (p.irqMode = .latchRead ∨ p.irqMode = .latchAck) then true
             else s.rpu.craneLatch)
           pulseStart := (if p.irqMask.getLsbD f.crane = true ∧ p.irqMode = .timed then some s.su.qt
             else s.rpu.pulseStart) }
         rcu := { s.rcu with
           queue := rest, parsing := false, ul := { s.rcu.ul with acceptedCrane := s.rcu.ul.acceptedCrane + 1 } } } ∧
       (let c := s.clu.crane f.crane
        t.clu.crane f.crane = { c with
          link := .claim, recovery := 0, outstanding := [], traceState := .frozen,
          counters := { c.counters with
            unconfirmed := c.counters.unconfirmed + BitVec.ofNat 32 c.outstanding.length } }) ∧
       (∀ m, m ≠ f.crane → t.clu.crane m = s.clu.crane m) ∧ holdLine t f.crane = true ∧
       r.code = 0x13 ∧ r.origin = .clu ∧ r.object = BitVec.ofNat 16 f.crane ∧ r.detail[0]? = some why)

/-- PARSE_COMPLETE with a CRANE_STATUS frame that a LIVE or LATE crane takes, in sequence or after a gap (R14, R29 to R36,
R39). Fresh: the crane is LIVE, its HOLD deasserted; sequence, position, boom and LOCAL are stored, the last arrival moves
forward or stands, an OPEN or CLOSING trace takes the frame; its level is an UL observation of the segment under the
crane, with that crane excluded, and of no other. Aged: only the aged counter and what every taken frame changes. Either:
the gap counted, the echoed commands off the list with the round-trip time of an exact match, and SEQ_GAP, ECHO_AHEAD,
POSITION_CLAMPED and LINK_LIVE each where its rule calls for it; recovery count and the other cranes stand. -/
def Obligations.StatusFrameInLive : Prop :=
  ∀ (s : State) (p : Setup) (e : CaptureEntry) (q : Qt) (rest : List ParseItem) (f : StatusFrame),
    parsesTo s p e q rest (.acceptedCrane f) →
    ((s.clu.crane f.crane).link = .live ∨ (s.clu.crane f.crane).link = .late) →
    terminalOfCrane p s f → (s.clu.crane f.crane).takes f.seq →
    ∃ t rs, exec .parseComplete s = .next t ∧
      t = { s with
        clu := t.clu, cvu := { s.cvu with segments := t.cvu.segments }, rpu := s.rpu.handOverAll rs,
        rcu := { s.rcu with
          queue := rest, parsing := false, ul := { s.rcu.ul with acceptedCrane := s.rcu.ul.acceptedCrane + 1 } } } ∧
      (∀ m, m ≠ f.crane → t.clu.crane m = s.clu.crane m) ∧ holdLine t f.crane = false ∧
      (let c := s.clu.crane f.crane
       let a : Qt := q - f.age.setWidth 32
       let quay := p.coverage.segCount * p.coverage.segLenCm
       let x := min f.gantry (quay - 1)
       let y := t.clu.crane f.crane
       echoTaken c y f.echo a ∧
       takenRecords p c f (decide (f.age.toNat < p.timing.lateMs))
         (decide (c.link = .late ∧ f.age.toNat < p.timing.lateMs)) rs ∧
       0x15 ∉ rs.map Record.code ∧
       (f.age.toNat < p.timing.lateMs →
         y = { c with
           link := .live, lastSeq := f.seq, seqValid := true, lastArrival := y.lastArrival, position := some x,
           boom := f.boom, localCtl := f.localCtl, clampReported := decide (quay ≤ f.gantry),
           counters := c.takenCounters f.seq false, outstanding := y.outstanding, rttLast := y.rttLast,
           rttGreatest := y.rttGreatest, trace := y.trace, traceState := y.traceState } ∧
         traceTaken c y ⟨f.seq, a, f.level, x, f.boom⟩ ∧
         (c.lastArrival = none → y.lastArrival = some a) ∧
         (∀ l, c.lastArrival = some l →
           y.lastArrival = if 1 ≤ (a - l).toNat ∧ (a - l).toNat < 2 ^ 31 then some a else some l) ∧
         (∀ g, t.cvu.segment g = observed p s (x / p.coverage.segLenCm) .ul (some f.crane) f.level q g) ∧
         (f.level = 0x7FFF → t.cvu = s.cvu)) ∧
       (p.timing.lateMs ≤ f.age.toNat →
         y = { c with
           lastSeq := f.seq, seqValid := true, counters := c.takenCounters f.seq true, outstanding := y.outstanding,
           rttLast := y.rttLast, rttGreatest := y.rttGreatest } ∧ t.cvu = s.cvu))

/-- PARSE_COMPLETE with a CRANE_STATUS frame that a crane in IDLE or LOST takes, in sequence or after a gap (R14, R26, R29
to R36, R38, R44). Fresh: the count becomes 1 after a gap, or where the last arrival lies LATE_MS or more behind, and
rises by 1 otherwise; where it is RECOVER_COUNT the crane becomes LIVE, its count 0 and HOLD deasserted, with LINK_LIVE;
the frame is stored and observed as in LIVE, its arrival always the last one. Aged: the count is 0 and the aged counter
rises. Either: gap, echo and their records as in LIVE. A crane without a terminal learns that of the frame, where it is
bound to no other, with TERMINAL_LEARNED first. -/
def Obligations.StatusFrameRecovers : Prop :=
  ∀ (s : State) (p : Setup) (e : CaptureEntry) (q : Qt) (rest : List ParseItem) (f : StatusFrame),
    parsesTo s p e q rest (.acceptedCrane f) →
    ((s.clu.crane f.crane).link = .idle ∨ (s.clu.crane f.crane).link = .lost) →
    (terminalOfCrane p s f ∨
      (rosterTerminal p f.crane = none ∧ (s.clu.crane f.crane).learned = none ∧
        ∀ m, m ≠ f.crane → m < 12 → ¬ boundTo p s m f.terminal)) →
    (s.clu.crane f.crane).takes f.seq →
    ∃ t rs, exec .parseComplete s = .next t ∧
      t = { s with
        clu := t.clu, cvu := { s.cvu with segments := t.cvu.segments }, rpu := s.rpu.handOverAll rs,
        rcu := { s.rcu with
          queue := rest, parsing := false, ul := { s.rcu.ul with acceptedCrane := s.rcu.ul.acceptedCrane + 1 } } } ∧
      (∀ m, m ≠ f.crane → t.clu.crane m = s.clu.crane m) ∧
      (let c := s.clu.crane f.crane
       let a : Qt := q - f.age.setWidth 32
       let quay := p.coverage.segCount * p.coverage.segLenCm
       let x := min f.gantry (quay - 1)
       let y := t.clu.crane f.crane
       let fresh := decide (f.age.toNat < p.timing.lateMs)
       let broken := match c.lastArrival with
         | some l => decide (p.timing.lateMs ≤ (a - l).toNat ∧ (a - l).toNat < 2 ^ 31)
         | none => false
       let n := if c.gapBefore f.seq = true ∨ broken = true then 1 else c.recovery + 1
       let live := fresh && decide (n = p.timing.recoverCount)
       echoTaken c y f.echo a ∧ takenRecords p c f fresh live rs ∧
       (if live = true then y.link = .live ∧ y.recovery = 0 ∧ holdLine t f.crane = false
        else y.link = c.link ∧ y.recovery = (if fresh = true then n else 0) ∧ holdLine t f.crane = true) ∧
       (if rosterTerminal p f.crane = none ∧ c.learned = none then
          y.learned = some f.terminal ∧
            ∃ r more, rs = r :: more ∧ r.code = 0x15 ∧ r.origin = .clu ∧ r.object = BitVec.ofNat 16 f.crane ∧
              r.detail = [0, 0, 0, 0] ++ le32 f.terminal ++ List.replicate 12 0
        else y.learned = c.learned ∧ 0x15 ∉ rs.map Record.code) ∧
       (fresh = true →
         y = { c with
           link := y.link, recovery := y.recovery, learned := y.learned, lastSeq := f.seq, seqValid := true,
           lastArrival := some a, position := some x, boom := f.boom, localCtl := f.localCtl,
           clampReported := decide (quay ≤ f.gantry), counters := c.takenCounters f.seq false,
           outstanding := y.outstanding, rttLast := y.rttLast, rttGreatest := y.rttGreatest, trace := y.trace,
           traceState := y.traceState } ∧
         traceTaken c y ⟨f.seq, a, f.level, x, f.boom⟩ ∧
         ∀ g, t.cvu.segment g = observed p s (x / p.coverage.segLenCm) .ul (some f.crane) f.level q g) ∧
       (fresh = false →
         y = { c with
           recovery := 0, learned := y.learned, lastSeq := f.seq, seqValid := true,
           counters := c.takenCounters f.seq true, outstanding := y.outstanding, rttLast := y.rttLast,
           rttGreatest := y.rttGreatest } ∧ t.cvu = s.cvu))

/-! ### Reefers -/

/-- PARSE_COMPLETE with a report of an unknown container under power (R14, R77, R78, R80, R83, R93): it enters the lowest
free index, or with none free the index at the head of the departed list, which leaves that list, as a TRACKED entry of
the report's values from R83's start, judged by the five steps of R93, with REEFER_NEW; an occupant of its plug becomes
DEPARTED with reason REPLACED and joins the departed list, with REEFER_REPLACED; every other entry and every crane
stands; and the level is an UL observation of the plug's segment. -/
def Obligations.ReeferAdmitted : Prop :=
  ∀ (s : State) (p : Setup) (e : CaptureEntry) (q : Qt) (rest : List ParseItem) (r : ReeferReport) (i : Nat)
    (ds : List Nat),
    parsesTo s p e q rest (.acceptedReefer r) → tableLaw s → reeferLaw s → r.power ≠ .unplug →
    (∀ j x, s.rfu.entry j = some x → x.container ≠ r.container) →
    (i < 2048 ∧ s.rfu.entry i = none ∧ (∀ j, j < i → s.rfu.entry j ≠ none) ∧ ds = s.rfu.departed ∨
      (∀ j, j < 2048 → s.rfu.entry j ≠ none) ∧ s.rfu.departed = i :: ds) →
    ∃ t rs, exec .parseComplete s = .next t ∧
      t = { s with
        rfu := t.rfu, cvu := { s.cvu with segments := t.cvu.segments }, rpu := s.rpu.handOverAll rs,
        rcu := { s.rcu with
          queue := rest, parsing := false, ul := { s.rcu.ul with acceptedReefer := s.rcu.ul.acceptedReefer + 1 } } } ∧
      t.rfu.scanPos = s.rfu.scanPos ∧
      t.rfu.entry i = some (Reefer.judged p r i q ⟨r.container, r.plug, segmentOfPlug p r.plug, r.cls, .off, 0, none, none,
        [], .tracked, .none, .normal, 0, .normal, false, false, false, 0, q, 1⟩) ∧
      (∃ z ∈ rs, z.code = 0x20 ∧ z.origin = .rfu ∧ z.object = BitVec.ofNat 16 i ∧
        z.detail[15]? = some (if s.rfu.entry i = none then 0 else 1)) ∧
      (∀ j y, j ≠ i → s.rfu.entry j = some y → y.state ≠ .departed → y.plug = r.plug →
        t.rfu.entry j = some { y with state := .departed, reason := .replaced } ∧ t.rfu.departed = ds ++ [j] ∧
        0x21 ∈ rs.map Record.code) ∧
      (∀ j y, j ≠ i → s.rfu.entry j = some y → (y.state = .departed ∨ y.plug ≠ r.plug) → t.rfu.entry j = some y) ∧
      (∀ j, j ≠ i → s.rfu.entry j = none → t.rfu.entry j = none) ∧
      ((∀ j y, s.rfu.entry j = some y → y.state ≠ .departed → y.plug ≠ r.plug) →
        t.rfu.departed = ds ∧ 0x21 ∉ rs.map Record.code) ∧
      ∀ g, t.cvu.segment g = observed p s (segmentOfPlug p r.plug) .ul none r.level q g

/-- PARSE_COMPLETE with a report of a known container (R14, R76 to R79, R82, R93): its entry takes plug, class, segment and
QT, is counted, has its excusals cleared and is judged by the five steps of R93. UNPLUG: it becomes DEPARTED with reason
UNPLUGGED and joins the departed list unless it stood in it, with REEFER_DEPARTED then. Under power: it becomes TRACKED,
leaves the departed list, and an occupant of its plug is REPLACED; REEFER_RETURNED is made unless it stood in TRACKED,
with the state and reason left, the plug, and whether that is not the plug stored (that this is the plug departed from:
notes/assumptions/38.md). No other entry changes. -/
def Obligations.KnownContainerReported : Prop :=
  ∀ (s : State) (p : Setup) (e : CaptureEntry) (q : Qt) (rest : List ParseItem) (r : ReeferReport) (i : Nat) (x : Reefer),
    parsesTo s p e q rest (.acceptedReefer r) → tableLaw s → reeferLaw s →
    s.rfu.entry i = some x → x.container = r.container →
    ∃ t rs, exec .parseComplete s = .next t ∧
      t = { s with
        rfu := t.rfu, cvu := { s.cvu with segments := t.cvu.segments }, rpu := s.rpu.handOverAll rs,
        rcu := { s.rcu with
          queue := rest, parsing := false, ul := { s.rcu.ul with acceptedReefer := s.rcu.ul.acceptedReefer + 1 } } } ∧
      t.rfu.scanPos = s.rfu.scanPos ∧
      (let y : Reefer := { x with
         plug := r.plug, segment := segmentOfPlug p r.plug, cls := r.cls, lastReport := q,
         reportCount := min 65535 (x.reportCount + 1), excusals := 0 }
       (r.power = .unplug →
         t.rfu.entry i = some (Reefer.judged p r i q { y with state := .departed, reason := .unplugged }) ∧
         (∀ j, j ≠ i → t.rfu.entry j = s.rfu.entry j) ∧
         t.rfu.departed = (if x.state = .departed then s.rfu.departed else s.rfu.departed ++ [i]) ∧
         (rs.map Record.code).count 0x22 = (if x.state = .departed then 0 else 1) ∧ 0x2F ∉ rs.map Record.code) ∧
       (r.power ≠ .unplug →
         t.rfu.entry i = some (Reefer.judged p r i q { y with state := .tracked, reason := .none }) ∧
         (let left := s.rfu.departed.filter (fun j => decide (j ≠ i))
          (∀ j z, j ≠ i → s.rfu.entry j = some z → z.state ≠ .departed → z.plug = r.plug →
            t.rfu.entry j = some { z with state := .departed, reason := .replaced } ∧ t.rfu.departed = left ++ [j]) ∧
          (∀ j z, j ≠ i → s.rfu.entry j = some z → (z.state = .departed ∨ z.plug ≠ r.plug) → t.rfu.entry j = some z) ∧
          (∀ j, j ≠ i → s.rfu.entry j = none → t.rfu.entry j = none) ∧
          ((∀ j z, j ≠ i → s.rfu.entry j = some z → z.state ≠ .departed → z.plug ≠ r.plug) → t.rfu.departed = left)) ∧
         (x.state = .tracked → 0x2F ∉ rs.map Record.code) ∧
         (x.state ≠ .tracked → ∃ z ∈ rs, z.code = 0x2F ∧ z.origin = .rfu ∧ z.object = BitVec.ofNat 16 i ∧
           (z.detail.drop 6).take 5 = [BitVec.ofNat 8 x.state.code, BitVec.ofNat 8 x.reason.code] ++ le16 r.plug ++
             [if x.plug = r.plug then 0 else 1]))) ∧
      ∀ g, t.cvu.segment g = observed p s (segmentOfPlug p r.plug) .ul none r.level q g

/-- The band comparison of a report (R97 to R101): made under power ON only; NORMAL in the closed band ends an excursion
and the count; an area outside it counts, to 15, and from EXC_COUNT on is the excursion state and, newly entered, joins
the latch; without a compared value only SENSOR_ABSENT is set. -/
def Obligations.BandComparison : Prop :=
  ∀ (k : ReeferClass) (i : Nat) (now : Qt) (e : Reefer),
    (e.power ≠ .on → compareBand k i now e = (e, [])) ∧
    (e.power = .on → e.supply = none → e.ret = none → compareBand k i now e = ({ e with sensorAbsent := true }, [])) ∧
    ∀ v, e.power = .on → (e.supply = some v ∨ (e.supply = none ∧ e.ret = some v)) →
      (e.setpoint - k.bandLow ≤ v → v ≤ e.setpoint + k.bandHigh →
        (compareBand k i now e).1 =
          { e with sensorAbsent := false, excCount := 0, countArea := .normal, excursion := .normal } ∧
        (compareBand k i now e).2.map Record.code = if e.excursion = .normal then [] else [0x2A]) ∧
      ∀ a, (a = .low ∧ v < e.setpoint - k.bandLow ∨
          a = .high ∧ e.setpoint + k.bandHigh < v) →
        (let n := if a = e.countArea then min 15 (e.excCount + 1) else 1
         let y := { e with sensorAbsent := false, excCount := n, countArea := a }
         if k.excCount ≤ n ∧ e.excursion ≠ a then
           (compareBand k i now e).1 = { y with
             excursion := a, latchHigh := e.latchHigh || decide (a = .high),
             latchLow := e.latchLow || decide (a = .low) } ∧
           (compareBand k i now e).2.map Record.code = [if a = .low then 0x29 else 0x28]
         else compareBand k i now e = (y, []))

/-! ### Observations -/

/-- An observation (R117, R119, R121, with R120, R123 to R125): outside the acceptance window it counts as rejected and
nothing else; shadowed it feeds the shadow average alone; otherwise it feeds the average of its direction, and the
history takes the class that the weaker average has by the thresholds, with the hysteresis of the declared class; the
class that 3 of its 5 entries equal is declared, with CLASS_CHANGE on a change. The averaging step (R121): EMPTY becomes
L16; another average moves by the difference over 2^k rounded to the nearest integer, halves upward, and never past
L16. -/
def Obligations.ObservationStored : Prop :=
  (∀ (p : Setup) (seg : Nat) (dir : Direction) (level : Int) (now : Qt) (g : Segment) (shadow : Bool),
    (let y := (observeSegment p shadow seg dir level now g).1
     let rs := (observeSegment p shadow seg dir level now g).2
     let k := p.coverage.weightShift
     ((level < p.coverage.accLow ∨ p.coverage.accHigh < level) →
       y = { g with rejected := min 65535 (g.rejected + 1) } ∧ rs = []) ∧
     (p.coverage.accLow ≤ level → level ≤ p.coverage.accHigh → shadow = true →
       y = { g with shadow := average k g.shadow (16 * level), lastShadowed := now,
                    shadowed := min 65535 (g.shadowed + 1) } ∧ rs = []) ∧
     (p.coverage.accLow ≤ level → level ≤ p.coverage.accHigh → shadow = false →
       y = { g with ul := (if dir = .ul then average k g.ul (16 * level) else g.ul),
                    dl := (if dir = .dl then average k g.dl (16 * level) else g.dl),
                    lastUnshadowed := now, unshadowed := min 65535 (g.unshadowed + 1),
                    history := y.history, declared := y.declared } ∧
       (∀ v gg h : Int, gAndH p seg gg h →
         (y.ul = some v ∧ (∀ u, y.dl = some u → v ≤ u) ∨ y.dl = some v ∧ (∀ u, y.ul = some u → v ≤ u)) →
         y.history = appended g.history
           (if g.declared = .hole ∧ v < h + p.coverage.hyst16 then .hole
            else if g.declared = .good ∧ gg - p.coverage.hyst16 ≤ v then .good
            else if gg ≤ v then .good else if v < h then .hole else .marginal)) ∧
       declares y.history g.declared y.declared ∧
       rs.map Record.code = if y.declared = g.declared then [] else [0x30]))) ∧
  ∀ (k : Nat) (a : Option Int) (l16 : Int), 1 ≤ k →
    (a = none → average k a l16 = some l16) ∧
    ∀ v, a = some v → ∃ w, average k a l16 = some w ∧
      2 ^ k * (w - v) ≤ (l16 - v) + 2 ^ (k - 1) ∧ (l16 - v) + 2 ^ (k - 1) < 2 ^ k * (w - v + 1) ∧
      (v ≤ l16 → v ≤ w ∧ w ≤ l16) ∧ (l16 ≤ v → l16 ≤ w ∧ w ≤ v)

/-- PARSE_COMPLETE with a report of an unknown container, the cases ReeferAdmitted leaves (R14, R80 to R83, R93). UNPLUG: it
enters the lowest free index, or the reused one, as an entry that is DEPARTED at once with reason UNPLUGGED and joins the
departed list, with REEFER_NEW and REEFER_DEPARTED; no other entry changes. With no index free and no DEPARTED entry, the
report is refused: REEFER_TABLE_FULL, whose object is the occupant of the plug it claims, or FFFFH, and nothing else but
its count as accepted. -/
def Obligations.NewContainerUnpluggedOrRefused : Prop :=
  ∀ (s : State) (p : Setup) (e : CaptureEntry) (q : Qt) (rest : List ParseItem) (r : ReeferReport),
    parsesTo s p e q rest (.acceptedReefer r) → tableLaw s → reeferLaw s →
    (∀ j x, s.rfu.entry j = some x → x.container ≠ r.container) →
    (∀ (i : Nat) (ds : List Nat), r.power = .unplug →
      (i < 2048 ∧ s.rfu.entry i = none ∧ (∀ j, j < i → s.rfu.entry j ≠ none) ∧ ds = s.rfu.departed ∨
        (∀ j, j < 2048 → s.rfu.entry j ≠ none) ∧ s.rfu.departed = i :: ds) →
      ∃ t rs, exec .parseComplete s = .next t ∧
        t = { s with
          rfu := t.rfu, cvu := { s.cvu with segments := t.cvu.segments }, rpu := s.rpu.handOverAll rs,
          rcu := { s.rcu with
            queue := rest, parsing := false, ul := { s.rcu.ul with acceptedReefer := s.rcu.ul.acceptedReefer + 1 } } } ∧
        t.rfu.scanPos = s.rfu.scanPos ∧ t.rfu.departed = ds ++ [i] ∧
        t.rfu.entry i = some (Reefer.judged p r i q ⟨r.container, r.plug, segmentOfPlug p r.plug, r.cls, .off, 0, none,
          none, [], .departed, .unplugged, .normal, 0, .normal, false, false, false, 0, q, 1⟩) ∧
        (∀ j, j ≠ i → t.rfu.entry j = s.rfu.entry j) ∧
        0x20 ∈ rs.map Record.code ∧ 0x22 ∈ rs.map Record.code ∧ 0x21 ∉ rs.map Record.code ∧
        ∀ g, t.cvu.segment g = observed p s (segmentOfPlug p r.plug) .ul none r.level q g) ∧
    ((∀ j, j < 2048 → s.rfu.entry j ≠ none) → s.rfu.departed = [] →
      ∃ z, exec .parseComplete s = .next { s with rpu := s.rpu.handOver z, rcu := { s.rcu with
          queue := rest, parsing := false, ul := { s.rcu.ul with acceptedReefer := s.rcu.ul.acceptedReefer + 1 } } } ∧
        z.code = 0x23 ∧ z.origin = .rfu ∧
        (∀ j y, r.power ≠ .unplug → s.rfu.entry j = some y → y.plug = r.plug → z.object = BitVec.ofNat 16 j) ∧
        ((r.power = .unplug ∨ ∀ j y, s.rfu.entry j = some y → y.plug ≠ r.plug) → z.object = 0xFFFF))

/-! ### The downlink -/

/-- DL_SLOT_WRITE (R15, R16): an OKAY write by APP in RUNNING that covers header bytes of a slot puts the bytes written
under active strobes into its cells and moves its write QT; a committed record is first made ready for a new frame;
every other record stands. -/
def Obligations.DownlinkHeaderWritten : Prop :=
  ∀ (s : State) (p : Setup) (w : Write), watchedBy s p .app .dlSlots w → (∀ k, (s.rcu.record k).cells.length = 12) →
    ∃ t, exec (.dlSlotWrite w) s = .next t ∧
      t = { returnWrite w s with rcu := { s.rcu with records := t.rcu.records } } ∧
      (∀ k, touchesDlHeader p w k = false → t.rcu.record k = s.rcu.record k) ∧
      ∀ k, touchesDlHeader p w k = true →
        (let r := s.rcu.record k
         let y := t.rcu.record k
         y.cells.length = 12 ∧ y.writeQt = s.su.qt ∧
         (∀ j, j < 12 → cellAt y.cells j =
           (activeByte w (p.windows.dlSlots + 256 * k + j)).or (if r.committed then none else cellAt r.cells j)) ∧
         (r.committed = true → y.committed = false ∧ y.departed = false ∧ y.overlay = .none ∧ y.lastFetch = .undecided) ∧
         (r.committed = false → y.committed = false ∧ y.departed = r.departed ∧ y.overlay = r.overlay ∧
           y.lastFetch = r.lastFetch))

/-- DL_PRODUCER_INDEX_WRITE taken (R17, R57): the slots from H_DL up to the value are committed, their flags ready for a
first departure and their cells and write QT standing; H_DL takes the value; every other record stands. -/
def Obligations.DownlinkCommit : Prop :=
  ∀ (s : State) (p : Setup) (w : Write) (v : Nat), watchedBy s p .app .dlProducer w →
    coversWhole w p.windows.dlProducer 4 = true → indexValue w p.windows.dlProducer = v → v < p.windows.dlCount →
    s.rcu.hDl < p.windows.dlCount →
    ∃ t, exec (.dlProducerIndexWrite w) s = .next t ∧
      t = { returnWrite w s with rcu := { s.rcu with records := t.rcu.records, hDl := v } } ∧
      ∀ k, t.rcu.record k =
        (let r := s.rcu.record k
         if k < p.windows.dlCount ∧
            (k + p.windows.dlCount - s.rcu.hDl) % p.windows.dlCount < (v + p.windows.dlCount - s.rcu.hDl) % p.windows.dlCount
         then { r with committed := true, departed := false, overlay := .none, lastFetch := .undecided } else r)

/-- DEPARTURE, a RADIO beat with byte 9 of one slot (R19, R20, R52 to R55, R57, R64). A first departure: PASS for a crane
out of range or disabled, HALT while held, for a class above 2 or a length outside 4..248, STALE past a non-zero
validity, DELIVERED otherwise; stored in the slot's record, and CMD_HALTED made with its reason. A later one: PASS and
HALT by the same first two tests, and else the stored decision again, HALT with its reason and CMD_HALTED, STALE with
CMD_STALE, or DELIVERED; the stored decision stands and no list changes. Each is counted in DL_DEPARTED and its own
counter, and changes no other slot and no crane but the command's. A slot not committed counts in DL_UNCOMMITTED, one
committed and not header-complete in DL_UNSEEN, and another kind in neither; no record and no crane changes then, and
the slot's bytes pass as they are. (That a read whose beats pass the byte 9
of such a slot again counts it again is the model's choice, notes/assumptions/39.md. A beat with byte 9 of several slots
is not stated here, nor is DL_EARLY of a beat that carries bytes of several.) -/
def Obligations.FirstDepartureDecided : Prop :=
  ∀ (s s1 : State) (b : ReadBeat) (o : OpenRead) (tb : Windows) (k : Nat), fetchesSlot s s1 b o tb k →
    ∃ t, exec (.departure b) s = .next t ∧ fetchFrame s t k ∧
      (let r := s.rcu.record k
       let x := t.rcu.record k
       let d := s.rcu.dl
       let y := { t.rcu.dl with early := d.early }
       let c := s.clu.crane r.crane
       let c' := t.clu.crane r.crane
       let command := r.committed = true ∧ r.complete = true ∧ r.kind = 2
       let passes := 11 < r.crane ∨ craneEnabled s.su.setup r.crane = false
       let named := le16 (BitVec.ofNat 16 k) ++ le16 r.seq ++ [r.cls]
       let halts := fun (why : HaltReason) (first : Byte) =>
         c' = { c with counters := { c.counters with halted := c.counters.halted + 1 } } ∧
         y = { d with departed := d.departed + 1, halted := d.halted + 1 } ∧
         ∃ z, t.rpu = s.rpu.handOver z ∧ z.code = 0x18 ∧ z.origin = .clu ∧ z.object = BitVec.ofNat 16 r.crane ∧
           z.qt = s.su.qt ∧ z.detail.take 10 = named ++ [BitVec.ofNat 8 why.code,
             if why = .hold then BitVec.ofNat 8 (holdReason s r.crane).code else 0, first] ++ le16 r.validity
       (command → ∀ m, m ≠ r.crane → t.clu.crane m = s.clu.crane m) ∧
       (command → r.departed = false →
         (if passes then
            x = { r with departed := true, overlay := .none, lastFetch := .none } ∧ c' = c ∧ t.rpu = s.rpu ∧
            y = { d with departed := d.departed + 1, unrostered := d.unrostered + 1 }
          else if holdLine s r.crane = true ∨ 2 < r.cls.toNat ∨ r.len < 4 ∨ 248 < r.len then
            (let why : HaltReason := if holdLine s r.crane = true then .hold
               else if 2 < r.cls.toNat then .classRange else .length
             x = { r with departed := true, overlay := .halt why, lastFetch := .halt } ∧ halts why 1)
          else if r.validity ≠ 0 ∧ r.validity.toNat < (s.su.qt - r.writeQt).toNat then
            x = { r with departed := true, overlay := .stale, lastFetch := .stale } ∧
            c'.counters.stale = c.counters.stale + 1 ∧
            y = { d with departed := d.departed + 1, stale := d.stale + 1, order := y.order }
          else
            x = { r with departed := true, overlay := .none, lastFetch := .none } ∧
            y = { d with departed := d.departed + 1, delivered := d.delivered + 1, order := y.order })) ∧
       (command → r.departed = true →
         (if passes then
            x = { r with lastFetch := .none } ∧ c' = c ∧ t.rpu = s.rpu ∧
            y = { d with departed := d.departed + 1, unrostered := d.unrostered + 1 }
          else if holdLine s r.crane = true then x = { r with lastFetch := .halt } ∧ halts .hold 0
          else match r.overlay with
            | .halt why => x = { r with lastFetch := .halt } ∧ halts why 0
            | .stale =>
              x = { r with lastFetch := .stale } ∧
              c' = { c with counters := { c.counters with stale := c.counters.stale + 1 } } ∧
              y = { d with departed := d.departed + 1, stale := d.stale + 1 } ∧
              ∃ z, t.rpu = s.rpu.handOver z ∧ z.code = 0x19 ∧ z.origin = .clu ∧ z.object = BitVec.ofNat 16 r.crane ∧
                z.qt = s.su.qt ∧
                z.detail.take 16 = named ++ [0, 0, 0] ++ le16 r.validity ++ [0, 0] ++ le32 (s.su.qt - r.writeQt)
            | .none =>
              x = { r with lastFetch := .none } ∧ c' = c ∧ t.rpu = s.rpu ∧
              y = { d with departed := d.departed + 1, delivered := d.delivered + 1 })) ∧
       ((∀ j k' off, j < b.data.length → dlPlace tb (beatAddr b + j) = some (k', off) → k' = k) →
         t.rcu.dl.early = d.early) ∧
       (¬ command →
         x = r ∧ t.clu = s.clu ∧ t.rpu = s.rpu ∧
         y = (if r.committed = false then { d with uncommitted := d.uncommitted + 1 }
           else if r.complete = false then { d with unseen := d.unseen + 1 } else d) ∧
         ∃ data, t.pu.up = [⟨b.id, b.resp, data⟩] ∧ data.length = b.data.length ∧
           ∀ j off, j < b.data.length → dlPlace tb (beatAddr b + j) = some (k, off) → data[j]? = b.data[j]?))

/-- DEPARTURE, the list and the records of a first departure decided DELIVERED or STALE (R55, R61, R62): a sequence ahead
of the newest and of the oldest entry, or any sequence for an empty list, is appended with its class, STOP for STALE,
and the departure QT, displacing and counting the oldest of eight with CMD_UNCONFIRMED; any other is refused with
CMD_ORDER and DL_ORDER and leaves the list. STALE adds to the crane's STALE counter and makes CMD_STALE, which says
whether the command was listed. No other record is made, and nothing else of the crane changes. -/
def Obligations.DeliveredCommandListed : Prop :=
  ∀ (s s1 : State) (b : ReadBeat) (o : OpenRead) (tb : Windows) (k : Nat), fetchesSlot s s1 b o tb k →
    (s.rcu.record k).committed = true → (s.rcu.record k).complete = true → (s.rcu.record k).kind = 2 →
    (s.rcu.record k).departed = false → (s.rcu.record k).crane ≤ 11 → holdLine s (s.rcu.record k).crane = false →
    (s.rcu.record k).cls.toNat ≤ 2 → 4 ≤ (s.rcu.record k).len → (s.rcu.record k).len ≤ 248 →
    (s.clu.crane (s.rcu.record k).crane).outstanding.length ≤ 8 →
    ∃ t rs, exec (.departure b) s = .next t ∧ t.rpu = s.rpu.handOverAll rs ∧
      (let r := s.rcu.record k
       let c := s.clu.crane r.crane
       let c' := t.clu.crane r.crane
       let l := c.outstanding
       let stale := decide (r.validity ≠ 0 ∧ r.validity.toNat < (s.su.qt - r.writeQt).toNat)
       let enters := match l.head?, l.getLast? with
         | some oldest, some newest => seqAhead r.seq newest.seq && seqAhead r.seq oldest.seq
         | _, _ => true
       let counted := if stale = true then c.counters.stale + 1 else c.counters.stale
       let times := fun (code : Byte) => (rs.map Record.code).count code
       let slotAndSeq := le16 (BitVec.ofNat 16 k) ++ le16 r.seq
       (if enters = true then
          c' = { c with
            outstanding := (if l.length = 8 then l.drop 1 else l) ++ [⟨r.seq, if stale = true then 2 else r.cls, s.su.qt⟩],
            lastListed := some r.seq,
            counters := { c.counters with
              stale := counted
              unconfirmed := if l.length = 8 then c.counters.unconfirmed + 1 else c.counters.unconfirmed } } ∧
          t.rcu.dl.order = s.rcu.dl.order
        else
          c' = { c with counters := { c.counters with stale := counted } } ∧ t.rcu.dl.order = s.rcu.dl.order + 1) ∧
       times 0x19 = (if stale = true then 1 else 0) ∧
       times 0x1A = (if enters = true ∧ l.length = 8 then 1 else 0) ∧ times 0x1C = (if enters = true then 0 else 1) ∧
       ∀ q ∈ rs, q.origin = .clu ∧ q.object = BitVec.ofNat 16 r.crane ∧ q.qt = s.su.qt ∧
         (q.code = 0x19 ∧ q.detail.take 16 = slotAndSeq ++ [r.cls, 1, if enters = true then 1 else 0, 0] ++ le16 r.validity ++
             [0, 0] ++ le32 (s.su.qt - r.writeQt) ∨
          q.code = 0x1A ∧ (∃ y, l.head? = some y ∧
            q.detail.take 12 = le16 y.seq ++ [y.cls, 0] ++ le16 r.seq ++ [0, 0] ++ le32 y.departed) ∨
          q.code = 0x1C ∧ ∃ oldest newest, l.head? = some oldest ∧ l.getLast? = some newest ∧
            q.detail.take 9 = slotAndSeq ++ le16 newest.seq ++ le16 oldest.seq ++ [if stale = true then 1 else 0] ∧
            (seqAhead r.seq oldest.seq = true → q.detail[9]? = some 0) ∧
            (seqAhead r.seq newest.seq = true → q.detail[9]? = some 1)))

/-- The data of a DEPARTURE beat (R52 to R54, R56, R59). By its decision: HALT, for any reason, and STALE, at a first
departure or from the stored overlay at a later one, return class STOP and zero motion bytes for that slot; DELIVERED and
PASS return its bytes as DRAM gave them. A beat of an enabled crane's command read while its HOLD line is asserted returns
class STOP and zero motion bytes for that slot, first departure or later, also where the beat carries byte 9 of others.
Every byte outside the downlink ring is as DRAM gave it, and the ID and response stand. -/
def Obligations.HeldFetchCarriesStop : Prop :=
  (∀ (s s1 : State) (b : ReadBeat) (o : OpenRead) (tb : Windows) (k : Nat), burstOf b s = some (o, s1) →
    o.role = .radio → o.table = some tb → isOkay b.resp = true →
    k ∈ classByteSlots tb (beatAddr b) b.data.length →
    (s.rcu.record k).committed = true → (s.rcu.record k).complete = true → (s.rcu.record k).kind = 2 →
    (s.rcu.record k).crane ≤ 11 → craneEnabled s.su.setup (s.rcu.record k).crane = true →
    holdLine s (s.rcu.record k).crane = true →
    ∃ t data, exec (.departure b) s = .next t ∧ t.pu.up = [⟨b.id, b.resp, data⟩] ∧ data.length = b.data.length ∧
      (t.rcu.record k).lastFetch = .halt ∧
      ∀ j, j < b.data.length →
        (∀ off, dlPlace tb (beatAddr b + j) = some (k, off) →
          data[j]? = (if off = 9 then some 2
            else if 12 ≤ off ∧ off ≤ 7 + (s.rcu.record k).len ∧ off ≤ 255 then some 0 else b.data[j]?)) ∧
        (dlPlace tb (beatAddr b + j) = none → data[j]? = b.data[j]?)) ∧
  (∀ (s s1 : State) (b : ReadBeat) (o : OpenRead) (tb : Windows) (k : Nat), fetchesSlot s s1 b o tb k →
    (s.rcu.record k).committed = true → (s.rcu.record k).complete = true → (s.rcu.record k).kind = 2 →
    ∃ t data, exec (.departure b) s = .next t ∧ t.pu.up = [⟨b.id, b.resp, data⟩] ∧ data.length = b.data.length ∧
      (let r := s.rcu.record k
       let passes := 11 < r.crane ∨ craneEnabled s.su.setup r.crane = false
       let stops := ¬ passes ∧ (holdLine s r.crane = true ∨
         r.departed = false ∧ (2 < r.cls.toNat ∨ r.len < 4 ∨ 248 < r.len ∨
           r.validity ≠ 0 ∧ r.validity.toNat < (s.su.qt - r.writeQt).toNat) ∨
         r.departed = true ∧ r.overlay ≠ .none)
       ∀ j, j < b.data.length →
         (∀ off, dlPlace tb (beatAddr b + j) = some (k, off) →
           data[j]? = (if stops then
             (if off = 9 then some 2 else if 12 ≤ off ∧ off ≤ 7 + r.len ∧ off ≤ 255 then some 0 else b.data[j]?)
             else b.data[j]?)) ∧
         (dlPlace tb (beatAddr b + j) = none → data[j]? = b.data[j]?)))

/-- MOTION_BYTES_READ (R58): of a slot whose record governs (a committed, header-complete crane command of an enabled
crane), motion bytes are returned as 00H unless the last fetch decision is NONE; a byte of a slot that does not govern
passes as it is; no record and no crane changes. DL_EARLY rises by 1 if and only if the beat carries a motion byte of a
governing slot whose decision is UNDECIDED and the burst has not been counted, and the burst is then marked counted. (That
DL_EARLY counts a burst once is the model's reading, notes/assumptions/28.md.) -/
def Obligations.MotionBytesOverlaid : Prop :=
  ∀ (s s1 : State) (b : ReadBeat) (o : OpenRead) (tb : Windows), burstOf b s = some (o, s1) →
    o.role = .radio → o.table = some tb → isOkay b.resp = true →
    classByteSlots tb (beatAddr b) b.data.length = [] →
    beatCarries b tb.dlSlots (tb.dlCount * 256) = true →
    ∃ t data, exec (.motionBytesRead b) s = .next t ∧ t.pu.up = [⟨b.id, b.resp, data⟩] ∧
      data.length = b.data.length ∧
      t = { s1 with pu := t.pu, rcu := { s.rcu with dl := { s.rcu.dl with early := t.rcu.dl.early } } } ∧
      (∀ j, j < b.data.length → ∀ k off, dlPlace tb (beatAddr b + j) = some (k, off) →
        (let r := s.rcu.record k
         let governed := r.committed = true ∧ r.complete = true ∧ r.kind = 2 ∧ r.crane ≤ 11 ∧
           craneEnabled s.su.setup r.crane = true
         data[j]? = if governed ∧ r.lastFetch ≠ .none ∧ 12 ≤ off ∧ off ≤ 7 + r.len ∧ off ≤ 255 then some 0
           else b.data[j]?)) ∧
      (o.early = false → undecidedMotion s tb b → t.rcu.dl.early = s.rcu.dl.early + 1) ∧
      (o.early = true ∨ ¬ undecidedMotion s tb b → t.rcu.dl.early = s.rcu.dl.early) ∧
      (b.beat + 1 < b.spans.length → ∃ x, findOpen t.pu.openReads b.id = some x ∧
        (x.early = true ↔ o.early = true ∨ undecidedMotion s tb b))

/-! ### Views -/

/-- VIEW_READ_BEAT of an APP burst in a LIVE view. First beat (R143 to R145, R150): each byte of a record, or of the status
page, is the record's as it stands at this beat, each byte of the header is the LIVE header's of this beat, a byte in no
view is DRAM's; and a beat with an error carries DRAM's data alone. Later beats (R144, R145): a record already given
comes from the image taken at its first beat, another as it stands now, and the header with this beat's count and QT. The
images taken are kept with the burst. (The page stands as before a summary read clears the latch: notes/assumptions/19.md,
the model's reading.) -/
def Obligations.LiveViewRead : Prop :=
  (∀ (s : State) (p : Setup) (b : ReadBeat) (v : View), s.su.setup = some p → forwardedRole s .read b.id = some .app →
    b.beat = 0 → b.ok = true → beatCarries b (viewBase p.windows v) (viewExtent v) = true → viewMode p v = .live →
    ∃ t data, exec (.viewReadBeat b) s = .next t ∧ t.pu.up = [⟨b.id, b.resp, data⟩] ∧ data.length = b.data.length ∧
      t.su = s.su ∧ t.rcu = s.rcu ∧ t.clu = s.clu ∧ t.rfu = s.rfu ∧ t.cvu = s.cvu ∧
      (isOkay b.resp = false → data = b.data) ∧
      (isOkay b.resp = true → ∀ j, j < b.data.length →
        ((∀ u, inExtent (viewBase p.windows u) (viewExtent u) (beatAddr b + j) = false) → data[j]? = b.data[j]?) ∧
        (inViewOnly p.windows v (beatAddr b + j) →
          data[j]? = some (liveByte s v [] (beatAddr b + j - viewBase p.windows v)))) ∧
      (1 < b.spans.length → ∃ o x, findOpen t.pu.openReads b.id = some o ∧ o.role = .app ∧ o.table = some p.windows ∧
        x ∈ o.views ∧ x.view = v ∧ x.mode = .live ∧ x.snapshot = none ∧
        ∀ j, j < b.data.length → inExtent (viewBase p.windows v) (viewExtent v) (beatAddr b + j) = true →
          (let off := beatAddr b + j - viewBase p.windows v
           let i := (off - headerSize v) / recordSize v
           headerSize v ≤ off → (i, recordImage s v i) ∈ x.held))) ∧
  (∀ (s : State) (b : ReadBeat) (o : OpenRead) (tb : Windows) (x : ViewBinding), continued b s = some o →
    o.role = .app → o.table = some tb → (o.views.map ViewBinding.view).Nodup → x ∈ o.views → x.mode = .live →
    x.snapshot = none → isOkay b.resp = true → beatCarries b (viewBase tb x.view) (viewExtent x.view) = true →
    ∃ t data, exec (.viewReadBeat b) s = .next t ∧ t.pu.up = [⟨b.id, b.resp, data⟩] ∧ data.length = b.data.length ∧
      t.su = s.su ∧ t.rcu = s.rcu ∧ t.clu = s.clu ∧ t.rfu = s.rfu ∧ t.cvu = s.cvu ∧ t.vu = s.vu ∧
      (∀ j, j < b.data.length → inViewOnly tb x.view (beatAddr b + j) →
        data[j]? = some (liveByte s x.view x.held (beatAddr b + j - viewBase tb x.view))) ∧
      (b.beat + 1 < b.spans.length → ∃ o' x', findOpen t.pu.openReads b.id = some o' ∧ x' ∈ o'.views ∧
        x'.view = x.view ∧ x'.mode = .live ∧ x'.snapshot = none ∧ x.held <+: x'.held ∧
        ∀ j, j < b.data.length → inExtent (viewBase tb x.view) (viewExtent x.view) (beatAddr b + j) = true →
          (let off := beatAddr b + j - viewBase tb x.view
           let i := (off - headerSize x.view) / recordSize x.view
           headerSize x.view ≤ off → (∀ h ∈ x.held, h.1 ≠ i) → (i, recordImage s x.view i) ∈ x'.held)))

/-- VIEW_READ_BEAT, the first beat of an APP burst in the crane view or coverage view. In HEADER mode (R146), with a byte of
the header in the burst, a snapshot of every record as it stands becomes the newest under the next generation; without
one the newest snapshot and the generation stand. In ALL mode (R147), with no burst waiting for its coverage to be taken,
that happens exactly when the coverage set holds every record of the newest snapshot. That a HEADER-mode view without
any snapshot, which no run reaches (each completion takes one), takes one at any first beat is the model's choice,
notes/assumptions/26.md, and no rule of the spec. -/
def Obligations.ViewSnapshotsTaken : Prop :=
  (∀ (s : State) (p : Setup) (b : ReadBeat) (v : View), s.su.setup = some p → forwardedRole s .read b.id = some .app →
     b.beat = 0 → b.ok = true → beatCarries b (viewBase p.windows v) (viewExtent v) = true → viewMode p v = .header →
     ∃ t, exec (.viewReadBeat b) s = .next t ∧ t.rcu = s.rcu ∧ t.clu = s.clu ∧ t.rfu = s.rfu ∧ t.cvu = s.cvu ∧
       t.vu.writes = s.vu.writes ∧
       (let x := viewState s.vu v
        let y := viewState t.vu v
        if burstCarries b (viewBase p.windows v) 64 = true ∨ x.newest = none then
          y.generation = x.generation + 1 ∧ y.coverageSet = [] ∧
          ∃ n, y.newest = some n ∧ n.generation = x.generation + 1 ∧ n.qt = s.su.qt ∧
            ∀ i, i < recordCount v → n.images[i]? = some (recordImage s v i)
        else y.generation = x.generation ∧ y.newest = x.newest)) ∧
  (∀ (s : State) (p : Setup) (b : ReadBeat) (v : View) (n : Snapshot), s.su.setup = some p →
     forwardedRole s .read b.id = some .app → b.beat = 0 → b.ok = true →
     beatCarries b (viewBase p.windows v) (viewExtent v) = true → viewMode p v = .all →
     (viewState s.vu v).newest = some n → (∀ o ∈ s.pu.openReads, o.passed = false) →
     ∃ t, exec (.viewReadBeat b) s = .next t ∧
       (if ∀ i, i < n.count → i ∈ (viewState s.vu v).coverageSet then
          (viewState t.vu v).generation = (viewState s.vu v).generation + 1 ∧ (viewState t.vu v).coverageSet = [] ∧
          (viewState t.vu v).newest = some (takeSnapshot s v ((viewState s.vu v).generation + 1))
        else viewState t.vu v = viewState s.vu v))

/-- VIEW_READ_BEAT of an APP burst in a HEADER-mode or ALL-mode view (R145, R146, R148): the first beat's header and record
bytes come from the newest snapshot of the view, taken at this beat where the mode calls for one, and the burst is bound
to it; every later beat's come from the snapshot bound, whatever has been taken since, and leave the View Unit as it
was. -/
def Obligations.SnapshotServesBurst : Prop :=
  (∀ (s : State) (p : Setup) (b : ReadBeat) (v : View), s.su.setup = some p → forwardedRole s .read b.id = some .app →
    b.beat = 0 → b.ok = true → isOkay b.resp = true → beatCarries b (viewBase p.windows v) (viewExtent v) = true →
    viewMode p v ≠ .live →
    ∃ t data n, exec (.viewReadBeat b) s = .next t ∧ t.pu.up = [⟨b.id, b.resp, data⟩] ∧ data.length = b.data.length ∧
      (viewState t.vu v).newest = some n ∧
      (∀ j, j < b.data.length → inViewOnly p.windows v (beatAddr b + j) →
        data[j]? = some (snapshotByte v (viewMode p v) n (beatAddr b + j - viewBase p.windows v))) ∧
      (1 < b.spans.length → ∃ o x, findOpen t.pu.openReads b.id = some o ∧ o.role = .app ∧ o.table = some p.windows ∧
        (o.views.map ViewBinding.view).Nodup ∧ x ∈ o.views ∧ x.view = v ∧ x.mode = viewMode p v ∧
        x.snapshot = some n ∧ x.newest = true)) ∧
  (∀ (s : State) (b : ReadBeat) (o : OpenRead) (tb : Windows) (x : ViewBinding) (n : Snapshot), continued b s = some o →
    o.role = .app → o.table = some tb → (o.views.map ViewBinding.view).Nodup → x ∈ o.views → x.snapshot = some n →
    isOkay b.resp = true → beatCarries b (viewBase tb x.view) (viewExtent x.view) = true →
    ∃ t data, exec (.viewReadBeat b) s = .next t ∧ t.pu.up = [⟨b.id, b.resp, data⟩] ∧ data.length = b.data.length ∧
      t.vu = s.vu ∧
      (∀ j, j < b.data.length → inViewOnly tb x.view (beatAddr b + j) →
        data[j]? = some (snapshotByte x.view x.mode n (beatAddr b + j - viewBase tb x.view))) ∧
      (b.beat + 1 < b.spans.length → ∃ o' x', findOpen t.pu.openReads b.id = some o' ∧ x' ∈ o'.views ∧
        x'.view = x.view ∧ x'.mode = x.mode ∧ x'.snapshot = some n ∧ x'.newest = x.newest))

/-- VIEW_READ_BEAT, a summary read (R151): the first beat of an APP burst that carries a byte of the status page, the
burst carrying a byte of the crane summary word, clears the crane latch in LATCH_READ mode only; nothing else of the
Report Unit changes, and without a byte of the word nothing of it does. -/
def Obligations.SummaryReadClearsLatch : Prop :=
  ∀ (s : State) (p : Setup) (b : ReadBeat), s.su.setup = some p → forwardedRole s .read b.id = some .app →
    b.beat = 0 → b.ok = true → beatCarries b p.windows.statusPage 256 = true →
    ∃ t, exec (.viewReadBeat b) s = .next t ∧
      t.rpu = (if burstCarries b (p.windows.statusPage + 10) 2 = true ∧ p.irqMode = .latchRead then
        { s.rpu with craneLatch := false } else s.rpu) ∧
      (burstCarries b (p.windows.statusPage + 10) 2 = true → p.irqMode = .latchRead → irqCrane t = false)

/-- VIEW_BURST_LAST_BEAT (R147, R148): a passed burst leaves; for an ALL-mode view it is still bound to the newest snapshot
of, its covered and not spoiled records below the snapshot's count join the coverage set; no snapshot and no generation
changes. VIEW_WRITE (R149): a write burst that covers a byte of any view, by any role and with any response, is returned
unchanged and adds 1 to VIEW_WRITES; no view's contents change, where it is answered with an error or reaches no other
window (WriteTakenByEachWindow is of several). (That the row takes a burst's coverage is notes/assumptions/20.md.) -/
def Obligations.ViewBurstsAndWrites : Prop :=
  (∀ (s : State) (id : AxiId) (o : OpenRead), findOpen s.pu.openReads id = some o → o.passed = true →
     (o.views.map ViewBinding.view).Nodup →
     ∃ t, exec (.viewBurstLastBeat id) s = .next t ∧
       t = { s with vu := t.vu, pu := { s.pu with openReads := s.pu.openReads.filter (fun x => decide (x.id ≠ id)) } } ∧
       t.vu.writes = s.vu.writes ∧
       ∀ v, (viewState t.vu v).newest = (viewState s.vu v).newest ∧
         (viewState t.vu v).generation = (viewState s.vu v).generation ∧
         ((∀ x ∈ o.views, x.view = v → x.newest = false ∨ x.mode ≠ .all) → viewState t.vu v = viewState s.vu v) ∧
         ∀ x ∈ o.views, x.view = v → x.newest = true → x.mode = .all → ∀ n, x.snapshot = some n → (v = .crane ∨ v = .coverage) →
           ∀ i, i ∈ (viewState t.vu v).coverageSet ↔
             i < recordCount v ∧ (i ∈ (viewState s.vu v).coverageSet ∨ (i ∈ x.covered ∧ i ∉ x.spoiled ∧ i < n.count))) ∧
  (∀ (s : State) (p : Setup) (w : Write) (role : Role) (v : View), s.su.setup = some p →
     forwardedRole s .write w.id = some role → touches w (viewBase p.windows v) (viewExtent v) = true →
     (isOkay w.resp = false ∨ reachesOnly s w .views) →
     exec (.viewWrite w) s = .next { returnWrite w s with vu := { s.vu with writes := s.vu.writes + 1 } })

/-! ### The report ring -/

/-- Records handed to the Report Unit (R154, R156): in ring state RUNNING they join the tail in order while the queue
holds fewer than 32; each of the others, and every one in FAULT, is dropped, counted twice over, and sets the drop
flag. -/
def Obligations.RecordsHandedOver : Prop :=
  ∀ (u : ReportUnit) (rs : List Record), u.queue.length ≤ 32 → u.pendingDrops ≤ 65535 →
    (let room := if u.ring = .running then min (32 - u.queue.length) rs.length else 0
     let lost := rs.length - room
     u.handOverAll rs = { u with
       queue := u.queue ++ rs.take room, pendingDrops := min 65535 (u.pendingDrops + lost),
       totalDrops := u.totalDrops + BitVec.ofNat 32 lost, dropFlag := u.dropFlag || decide (lost ≠ 0) })

/-- REPORT_TAKE (R155, R156): with free space F of the ring, heads that may not be written at F (5 for any record, 1 for
one of the Crane Link Unit) are dropped and counted; the first that may is taken, its bytes carrying the drops before
it, into slot P; where none may, the queue empties and every head is counted in both drop counts; nothing of the
ring's positions changes. -/
def Obligations.ReportTaken : Prop :=
  ∀ (s : State) (p : Setup) (ds rest : List Record) (r : Record), s.su.setup = some p → s.rpu.phase = .idle →
    s.rpu.ring = .running → s.rpu.queue = ds ++ r :: rest → s.rpu.pendingDrops ≤ 65535 →
    (let free := p.windows.repCount - 1 - s.rpu.unconsumed p.windows.repCount
     (∀ d ∈ ds, free = 0 ∨ (free ≤ 4 ∧ d.origin ≠ .clu)) → (5 ≤ free ∨ (1 ≤ free ∧ r.origin = .clu)) →
     exec .reportTake s = .next { s with
       rpu := { s.rpu with
         queue := rest, phase := .record, inFlight := some r, pendingDrops := 0,
         totalDrops := s.rpu.totalDrops + BitVec.ofNat 32 ds.length,
         dropFlag := s.rpu.dropFlag || decide (ds ≠ []) },
       pu := { s.pu with waitRpu := s.pu.waitRpu ++
         [⟨.recordWrite (recordBytes r (min 65535 (s.rpu.pendingDrops + ds.length))),
           p.windows.reportRing + 32 * s.rpu.producer, true⟩] } }) ∧
    ((let free := p.windows.repCount - 1 - s.rpu.unconsumed p.windows.repCount
      ∀ d ∈ s.rpu.queue, free = 0 ∨ (free ≤ 4 ∧ d.origin ≠ .clu)) →
     exec .reportTake s = .next { s with rpu := { s.rpu with
       queue := [], pendingDrops := min 65535 (s.rpu.pendingDrops + s.rpu.queue.length),
       totalDrops := s.rpu.totalDrops + BitVec.ofNat 32 s.rpu.queue.length, dropFlag := true } })

/-- REPORT_RECORD_WRITE_DONE and REPORT_INDEX_WRITE_DONE (R155, R158, R160): OKAY to the record write issues the index
write of P + 1; OKAY to the index write advances P; any other answer, EXOKAY too, drops and counts all that is held and
leaves the ring in FAULT with P standing; an answer to a write made before a completion or an entry into PASS_ONLY does not act. -/
def Obligations.ReportWriteAnswered : Prop :=
  ∀ (s s1 : State) (p : Setup) (id : AxiId) (resp : Resp) (q : InjRequest), s.su.setup = some p →
    takeInjected s .write id = some (q, s1) →
    (q.body.isRecordWrite = true →
      (q.live = false → exec (.reportRecordWriteDone id resp) s = .next s1) ∧
      (q.live = true → resp = .okay → exec (.reportRecordWriteDone id resp) s = .next { s1 with
        rpu := { s.rpu with phase := .index },
        pu := { s1.pu with waitRpu := s.pu.waitRpu ++
          [⟨.indexWrite (le32 (BitVec.ofNat 32 ((s.rpu.producer + 1) % p.windows.repCount))),
            p.windows.reportProducer, true⟩] } })) ∧
    (q.body.isIndexWrite = true →
      (q.live = false → exec (.reportIndexWriteDone id resp) s = .next s1) ∧
      (q.live = true → resp = .okay → exec (.reportIndexWriteDone id resp) s = .next { s1 with
        rpu := { s.rpu with
          phase := .idle, inFlight := none, producer := (s.rpu.producer + 1) % p.windows.repCount } })) ∧
    (q.live = true → resp ≠ .okay → ∀ c,
      (c = .reportRecordWriteDone id resp ∧ q.body.isRecordWrite = true ∨
        c = .reportIndexWriteDone id resp ∧ q.body.isIndexWrite = true) →
      ∃ t, exec c s = .next t ∧ t = { s1 with rpu := t.rpu } ∧ t.rpu.ring = .fault ∧ t.rpu.queue = [] ∧
        t.rpu.inFlight = none ∧ t.rpu.phase = .idle ∧ t.rpu.producer = s.rpu.producer ∧
        t.rpu.consumer = s.rpu.consumer ∧
        t.rpu.totalDrops = s.rpu.totalDrops +
          BitVec.ofNat 32 (s.rpu.queue.length + if s.rpu.inFlight = none then 0 else 1) ∧
        irqEvent t = true)

/-- CONSUMER_INDEX_WRITE taken (R157, R159): C takes the value and the drop flag clears, in both ring states; nothing
else changes, and IRQ_EVENT then stands exactly for the unconsumed records and the ring state. -/
def Obligations.ConsumerIndexTaken : Prop :=
  ∀ (s : State) (p : Setup) (w : Write) (v : Nat), watchedBy s p .app .consumer w →
    coversWhole w p.windows.reportConsumer 4 = true → indexValue w p.windows.reportConsumer = v →
    v < p.windows.repCount → s.rpu.producer < p.windows.repCount →
    ∃ t, exec (.consumerIndexWrite w) s = .next t ∧
      t = { returnWrite w s with rpu := { s.rpu with consumer := v, dropFlag := false } } ∧
      (irqEvent t = true ↔
        p.eventThreshold ≤ (s.rpu.producer + p.windows.repCount - v) % p.windows.repCount ∨ s.rpu.ring = .fault)

/-! ### The path -/

/-- INJ_ID_REFUSED (R162): a transaction of the INJ_ID in force is answered upstream with SLVERR, once for a write and once
a beat for a read, in every run state, and nothing is forwarded. TRANSACTION_FORWARD (R162, R164, R165): a request of
another ID waits for its arbiter with its address, burst, ID and data and the role of its ID; a response without effect passes
unchanged and takes the oldest issued request of its ID out; an OTHER beat passes with DRAM's data. -/
def Obligations.RequestsRefusedOrForwarded : Prop :=
  (∀ (s : State) (id : AxiId) (ch : Channel) (n : Nat), id = injIdInForce s →
     ∃ t, exec (.injIdRefused id ch n) s = .next t ∧ t = { s with pu := { s.pu with up := t.pu.up } } ∧
       (∀ u ∈ t.pu.up, u.id = id ∧ u.resp = .slverr) ∧
       t.pu.up.length = (match ch with | .read => n | .write => 1)) ∧
  (∀ (s : State),
     (∀ id addr burst, id ≠ injIdInForce s →
       exec (.transactionForward (.readRequest id addr burst)) s = .next { s with pu := { s.pu with
         fwdRead := s.pu.fwdRead ++ [⟨id, roleOf s.su.setup id, addr, burst, []⟩] } }) ∧
     (∀ id addr burst data, id ≠ injIdInForce s →
       exec (.transactionForward (.writeRequest id addr burst data)) s = .next { s with pu := { s.pu with
         fwdWrite := s.pu.fwdWrite ++ [⟨id, roleOf s.su.setup id, addr, burst, data⟩] } }) ∧
     (∀ w role, forwardedRole s .write w.id = some role → hasEffect s role w = false →
       ∃ t, exec (.transactionForward (.writeResponse w)) s = .next t ∧
         t = { s with pu := { s.pu with up := [⟨w.id, w.resp, []⟩], issuedWrite := t.pu.issuedWrite } } ∧
         (takeIssued w.id s.pu.issuedWrite = none → t.pu.issuedWrite = s.pu.issuedWrite) ∧
         ∀ i rest, takeIssued w.id s.pu.issuedWrite = some (i, rest) → t.pu.issuedWrite = rest) ∧
     (∀ b o s1, burstOf b s = some (o, s1) → o.role = .other → ∃ t,
       exec (.transactionForward (.readBeat b)) s = .next t ∧ t.pu.up = [⟨b.id, b.resp, b.data⟩] ∧
         t.rcu = s.rcu ∧ t.clu = s.clu ∧ t.rfu = s.rfu ∧ t.cvu = s.cvu ∧ t.rpu = s.rpu ∧ t.su = s.su))

/-- A write over one or several windows, under any row that names it (R164), the windows sharing no byte: one event, in
which the response returns once and VIEW_WRITES counts once, and each window takes the bytes that fall in it as its own
row takes a write of those bytes alone: uplink slots, uplink index, downlink slots, downlink index, consumer index, and
then the command word where the write covers the whole of it. (The order of the windows, and that any such row names the
write, are the model's choice, notes/assumptions/1.md.) -/
def Obligations.WriteTakenByEachWindow : Prop :=
  ∀ (s t1 t2 t3 t4 t5 t6 : State) (p : Setup) (w : Write) (role : Role) (c : Instr), s.su.setup = some p →
    forwardedRole s .write w.id = some role → p.windows.apart s.su.sbase → namesWrite s p w c →
    exec (.ulSlotWrite (writeWithin w p.windows.ulSlots (p.windows.ulCount * 256))) s = .next t1 →
    exec (.ulProducerIndexWrite (writeWithin w p.windows.ulProducer 4)) { t1 with pu := s.pu } = .next t2 →
    exec (.dlSlotWrite (writeWithin w p.windows.dlSlots (p.windows.dlCount * 256))) { t2 with pu := s.pu } = .next t3 →
    exec (.dlProducerIndexWrite (writeWithin w p.windows.dlProducer 4)) { t3 with pu := s.pu } = .next t4 →
    exec (.consumerIndexWrite (writeWithin w p.windows.reportConsumer 4)) { t4 with pu := s.pu } = .next t5 →
    (if coversWhole w (commandWordAddr s) 4 = true then
      exec (commandRow (writtenCode s w) (writeWithin w (commandWordAddr s) 4)) { t5 with pu := s.pu } = .next t6
     else t6 = { t5 with pu := s.pu }) →
    exec c s = .next { t6 with
      pu := { t6.pu with up := [⟨w.id, w.resp, []⟩], issuedWrite := dropIssued w.id s.pu.issuedWrite }
      vu := { t6.vu with writes := s.vu.writes + (if touchesView w p.windows = true then 1 else 0) } }

/-- R165: a response is matched with the oldest request of its ID issued and not yet answered, forwarded or injected, and
every other issued request keeps its place. INJECTION_ENQUEUE (R165): the first transaction a source has made joins the
injection queue while that holds fewer than 8, carrying the INJ_ID in force; the other source's order stands; a full
queue changes nothing. -/
def Obligations.InjectionsQueuedAndMatched : Prop :=
  (∀ (id : AxiId) (is : List Issued), (∀ i ∈ is, i.id ≠ id) ∧ takeIssued id is = none ∨
    ∃ as i bs, is = as ++ i :: bs ∧ (∀ a ∈ as, a.id ≠ id) ∧ i.id = id ∧ takeIssued id is = some (i, as ++ bs)) ∧
  ∀ (s : State) (src : Source) (q : InjRequest) (rest : List InjRequest), s.pu.waiting src = q :: rest →
    (s.pu.injectionCount < 8 → ∃ t, exec (.injectionEnqueue src) s = .next t ∧
      t = { s with pu := { s.pu with waitRpu := t.pu.waitRpu, waitSu := t.pu.waitSu,
                                     ready := s.pu.ready ++ [⟨injIdInForce s, q⟩] } } ∧
      t.pu.waiting src = rest ∧ (∀ x, x ≠ src → t.pu.waiting x = s.pu.waiting x) ∧
      t.pu.injectionCount = s.pu.injectionCount + 1) ∧
    (8 ≤ s.pu.injectionCount → exec (.injectionEnqueue src) s = .next s)

/-- ARBITER_GRANT, the table of R166: with both kinds waiting the oldest forwarded request is granted while the through
count is below 16 and the oldest waiting injection otherwise; with one kind waiting, that kind, and the count is 0; the
requests left keep their order, the other channel's forwarded requests and injections stand, and the request put
downstream is the one granted, with its address, burst, ID and data (R164; R165's table). (The beats an injected burst
is cut into are the model's choice, notes/assumptions/37.md.) -/
def Obligations.GrantTable : Prop :=
  ∀ (s : State) (ch : Channel), ∃ t, exec (.arbiterGrant ch) s = .next t ∧ t = { s with pu := t.pu } ∧
    (∀ c, c ≠ ch → t.pu.forwards c = s.pu.forwards c ∧ t.pu.through c = s.pu.through c ∧
      t.pu.issuedOn c = s.pu.issuedOn c ∧
      t.pu.ready.filter (fun x => decide (x.request.body.channel = c)) =
        s.pu.ready.filter (fun x => decide (x.request.body.channel = c))) ∧
    (let mine := s.pu.ready.filter (fun x => decide (x.request.body.channel = ch))
     let left := fun (u : PathUnit) => u.ready.filter (fun x => decide (x.request.body.channel = ch))
     (mine = [] → s.pu.forwards ch = [] → t = s) ∧
     (∀ f fs, s.pu.forwards ch = f :: fs → (mine = [] ∨ s.pu.through ch < 16) →
       t.pu.forwards ch = fs ∧ t.pu.ready = s.pu.ready ∧
       t.pu.through ch = (if mine = [] then 0 else s.pu.through ch + 1) ∧
       t.pu.issuedOn ch = s.pu.issuedOn ch ++ [.forwarded f.id f.role] ∧
       t.pu.down = some (match ch with
         | .read => .read f.id f.addr f.burst
         | .write => .write f.id f.addr f.burst f.data)) ∧
     (∀ x xs, mine = x :: xs → (s.pu.forwards ch = [] ∨ 16 ≤ s.pu.through ch) →
       t.pu.forwards ch = s.pu.forwards ch ∧ left t.pu = xs ∧ t.pu.through ch = 0 ∧
       t.pu.ready.length + 1 = s.pu.ready.length ∧
       t.pu.issuedOn ch = s.pu.issuedOn ch ++ [.injected x] ∧
       t.pu.down = some (match x.request.body with
         | .setupRead _ => .read x.id x.request.addr ⟨.incr, 16, 16⟩
         | .ulIndexRead => .read x.id x.request.addr ⟨.incr, 4, 1⟩
         | .dlIndexRead => .read x.id x.request.addr ⟨.incr, 4, 1⟩
         | .repIndexRead => .read x.id x.request.addr ⟨.incr, 4, 1⟩
         | .recordWrite bs => .write x.id x.request.addr ⟨.incr, 16, 2⟩ (bs.map some)
         | .indexWrite bs => .write x.id x.request.addr ⟨.incr, 4, 1⟩ (bs.map some)
         | .statusWrite bs => .write x.id x.request.addr ⟨.incr, 8, 1⟩ (bs.map some))))

/-- R166: the oldest waiting injection of a channel waits for at most 16 forwarded requests: whatever forwarded requests
arrive before each of them, it is among what 17 grants issue. -/
def Obligations.InjectionWaitsAtMostSixteen : Prop :=
  ∀ (ch : Channel) (u : PathUnit) (x : Injected) (xs : List Injected) (arrivals : List (List FwdRequest)),
    u.ready.filter (fun y => decide (y.request.body.channel = ch)) = x :: xs → arrivals.length = 17 →
    ∃ n, n ≤ 17 ∧ ∃ before, before.length ≤ 16 ∧ (∀ i ∈ before, i.isInjected = false) ∧
      (grantRun ch (arrivals.take n) u).issuedOn ch = u.issuedOn ch ++ before ++ [.injected x]

/-! ### Loads and commands -/

/-- RELOAD taken with KEEP 0 or 1 (R169, R171, R172) outside LOADING, whatever checks are due: where none of them finds
anything, the run state becomes LOADING with no check due, a parse under way is abandoned, the command is PENDING
undecided, and the PENDING write and then 64 reads of the setup block in ascending order are made; the setup in force,
the tables and the counters stand. Otherwise the checks still due are taken first, one by one, as QT_INCREMENT takes
them (the model's choice, notes/assumptions/3.md). The fault byte of that write is free and its busy byte 0 is the
model's reading (notes/assumptions/11.md). -/
def Obligations.ReloadBegins : Prop :=
  ∀ (s : State) (w : Write) (keep : Bool), commandGiven s w 0x01 (if keep then 1 else 0) →
    s.su.runState ≠ .loading →
    (nothingFound s → ∃ t f, exec (.reload w) s = .next t ∧
      t = { s with
        su := { s.su with
          runState := .loading, load := some ⟨keep, [], 0, .block⟩,
          command := ⟨.pending, 0x01, if keep then 1 else 0, none, false, false, none, false⟩ },
        rcu := { s.rcu with parsing := false }, free := t.free, due := DueChecks.none,
        pu := { (returnWrite w s).pu with
          waitSu := s.pu.waitSu ++
            ⟨.statusWrite [1, 1, if keep then 1 else 0, 0, f, 0, 0, 0], s.su.sbase.toNat * 2 ^ 24 + 16, true⟩ ::
            (List.range 64).map (fun k => ⟨.setupRead k, s.su.sbase.toNat * 2 ^ 24 + 256 * k, true⟩) } } ∧
      ∀ n, holdLine t n = true) ∧
    ((∃ t, exec (.reload w) s = .next t ∧ t.su.runState = .loading ∧ t.due = DueChecks.none) ∧
      ∀ u, dueStep s u → exec (.reload w) s = exec (.reload w) u)

/-- SETUP_READ_DONE (R169, R170): OKAY before the 64th read joins the copy; OKAY to the 64th with a copy that passes
issues the three index word reads; a failing check's code, or READ_ERROR for any other response (EXOKAY too), puts the
part in PASS_ONLY without a setup, its reefer table and coverage map standing and every other unit at its power-on
values, and decides DONE as the RELOAD's final status (R171). (That the scan positions, tick and clamp flag stand with the
map and table: notes/assumptions/35.md; that load reads still waiting are dropped and report writes no longer act: 22.md;
that the command is CLOSING once its final status is made: 42.md.) -/
def Obligations.SetupReadAnswered : Prop :=
  ∀ (s s1 : State) (id : AxiId) (resp : Resp) (data : List Byte) (q : InjRequest) (l : Load),
    takeInjected s .read id = some (q, s1) → q.body.isSetupRead = true → q.live = true → s.su.load = some l →
    data.length = 256 →
    (resp = .okay → l.answered < 63 → exec (.setupReadDone id resp data) s = .next { s1 with
      su := { s.su with load := some { l with copy := l.copy ++ data, answered := l.answered + 1 } } }) ∧
    (resp = .okay → l.answered = 63 → validateSetup s.su.sbase (l.copy ++ data) = none →
      ∃ t, exec (.setupReadDone id resp data) s = .next t ∧
        t = { s1 with
          su := { s.su with load := some ⟨l.keep, l.copy ++ data, 64, .words (setupOf (l.copy ++ data)) none none none⟩ },
          pu := { s1.pu with waitSu := t.pu.waitSu } } ∧
        (let x := (setupOf (l.copy ++ data)).windows
         t.pu.waitSu = s.pu.waitSu ++ [⟨.ulIndexRead, x.ulProducer, true⟩, ⟨.dlIndexRead, x.dlProducer, true⟩,
           ⟨.repIndexRead, x.reportConsumer, true⟩])) ∧
    (∀ code, (resp ≠ .okay ∧ code = 0x01 ∨
        resp = .okay ∧ l.answered = 63 ∧ validateSetup s.su.sbase (l.copy ++ data) = some code) →
      ∃ t, exec (.setupReadDone id resp data) s = .next t ∧
        t.su.runState = .passOnly ∧ t.su.setup = none ∧ t.su.faultCode = code ∧ t.su.load = none ∧
        t.su.qt = s.su.qt ∧ t.su.sbase = s.su.sbase ∧ t.rfu = s.rfu ∧ t.cvu = s.cvu ∧ t.pending = s.pending ∧
        t.rcu = CaptureUnit.reset ∧ t.clu = CraneUnit.reset ∧ t.vu = ViewUnit.reset ∧ t.rpu = ReportUnit.reset ∧
        t.pu.waitSu.filter (fun x => x.body.isLoadRead) = [] ∧ reportsOrphaned t.pu ∧ finalDecided s t .done ∧
        (∀ n, holdLine t n = true) ∧ irqEvent t = false ∧ irqCrane t = false)

/-- R169: the validation gives the fault code of the first check of R169's table that fails, and a copy passes exactly
where none does: magic word and layout version; roles (R162); ring sizes, address range, window alignment and overlap
with each other and with the setup block (R163); view modes (R173); a roster of twelve without a terminal twice and the
crane timing (R24); the class table (R91); PLUGS_PER_SEG (R75); every coverage parameter (R112); the baselines (R114); the
report parameters (R153). Each limit is judged of the copy and of the setup it makes. -/
def Obligations.ValidatedSetupInRange : Prop :=
  ∀ (sbase : BitVec 8) (copy : List Byte),
    (validateSetup sbase copy = none ↔ ∀ c, 0x02 ≤ c → c ≤ 0x0F → setupLimit sbase copy c) ∧
    ∀ code : Byte, validateSetup sbase copy = some code ↔
      0x02 ≤ code.toNat ∧ code.toNat ≤ 0x0F ∧ ¬ setupLimit sbase copy code.toNat ∧
        ∀ c, 0x02 ≤ c → c < code.toNat → setupLimit sbase copy c

/-- INDEX_WORD_READ_DONE (R169, R170, with R22, R51, R65, R89, R90, R138, R140, R141, R152, R160): a word before the last
is kept with the others. The last one completes the RELOAD: the new setup is in force, RUNNING, ring and report units
empty with the positions from the words in range and 0 otherwise, cranes reset, SETUP_LOADED the first record and an
INDEX_FAULT for each word out of range, each view blank in LIVE mode or with a new snapshot of the tables as they then
stand, and DONE decided (R171). KEEP 0, or a map of another geometry, empties the map; KEEP 0 empties the reefer table;
KEEP 1 keeps them under the new setup. Any other response (EXOKAY too) fails the load with READ_ERROR. (What stands with
the table and the map at the failure: notes/assumptions/35.md; writes that no longer act: 22.md; CLOSING once the final
status is made: 42.md.) -/
def Obligations.IndexWordAnswered : Prop :=
  ∀ (s s1 : State) (id : AxiId) (resp : Resp) (v : Word) (q : InjRequest) (l : Load) (p : Setup)
    (wu wd wr nu nd nr : Option Word),
    takeInjected s .read id = some (q, s1) → q.live = true → s.su.load = some l → l.phase = .words p wu wd wr →
    (q.body = .ulIndexRead ∧ nu = some v ∧ nd = wd ∧ nr = wr ∨ q.body = .dlIndexRead ∧ nu = wu ∧ nd = some v ∧ nr = wr ∨
      q.body = .repIndexRead ∧ nu = wu ∧ nd = wd ∧ nr = some v) →
    (resp = .okay → (nu = none ∨ nd = none ∨ nr = none) →
      exec (.indexWordReadDone id resp v) s = .next { s1 with
        su := { s.su with load := some { l with phase := .words p nu nd nr } } }) ∧
    (∀ a b c : Word, resp = .okay → nu = some a → nd = some b → nr = some c →
      ∃ t, exec (.indexWordReadDone id resp v) s = .next t ∧
        t.su = { s.su with
          runState := .running, setup := some p, faultCode := 0, load := none, command := t.su.command } ∧
        finalDecided s t .done ∧ t.pending = s.pending ∧ t.due = DueChecks.none ∧ t.clu = CraneUnit.reset ∧
        t.rcu = { CaptureUnit.reset with
          hUl := if a.toNat < p.windows.ulCount then a.toNat else 0,
          hDl := if b.toNat < p.windows.dlCount then b.toNat else 0 } ∧
        (let at_ := if c.toNat < p.windows.repCount then c.toNat else 0
         ∃ r rest, t.rpu = ⟨r :: rest, at_, at_, .idle, none, 0, 0, .running, false, false, none⟩ ∧
           r.code = 0x40 ∧ r.origin = .su ∧ (∀ x ∈ rest, x.code = 0x05) ∧
           rest.length = (if a.toNat < p.windows.ulCount then 0 else 1) + (if b.toNat < p.windows.dlCount then 0 else 1) +
             (if c.toNat < p.windows.repCount then 0 else 1)) ∧
        (∀ n, holdLine t n = true) ∧ irqCrane t = false ∧ reportsOrphaned t.pu ∧
        (∀ o ∈ t.pu.openReads, ∀ x ∈ o.views, x.newest = false) ∧ t.vu.writes = 0 ∧
        (∀ w : View, (w = .crane ∨ w = .coverage) →
          (let x := viewState s.vu w
           let y := viewState t.vu w
           if viewMode p w = .live then y = ⟨none, 0, []⟩
           else y.generation = x.generation + 1 ∧ y.coverageSet = [] ∧
             ∃ n, y.newest = some n ∧ n.generation = y.generation ∧ n.qt = s.su.qt ∧ n.count = shownCount t w ∧
               ∀ i, i < recordCount w → n.images[i]? = some (recordImage t w i))) ∧
        t.rfu.scanPos = s.rfu.scanPos ∧
        (l.keep = false → (∀ i, t.rfu.entry i = none) ∧ t.rfu.departed = []) ∧
        (l.keep = true → t.rfu.departed = s.rfu.departed ∧ ∀ i, t.rfu.entry i = (s.rfu.entry i).map (fun e =>
          { e with
            segment := segmentOfPlug p e.plug
            state := if e.state = .lost ∧
                elapsed s.su.qt e.lastReport < (classEntry p e.cls).lossMin * 60000 then .silent else e.state })) ∧
        (if l.keep = true ∧ s.cvu.geometry = some ⟨p.coverage.segCount, p.coverage.segLenCm⟩ then
          t.cvu = { s.cvu with segments := t.cvu.segments } ∧
          ∀ g, t.cvu.segment g =
            (let y := s.cvu.segment g
             let inside := fun a : Option Int =>
               a.map (fun z => max (16 * p.coverage.accLow) (min (16 * p.coverage.accHigh) z))
             { y with ul := inside y.ul, dl := inside y.dl, shadow := inside y.shadow,
                      drift := y.drift && (baselineOf p g).isSome })
        else t.cvu.geometry = some ⟨p.coverage.segCount, p.coverage.segLenCm⟩ ∧ t.cvu.scanPos = 0 ∧ t.cvu.tick = 0 ∧
          t.cvu.clampReported = false ∧ ∀ g, t.cvu.segment g = Segment.blank)) ∧
    (resp ≠ .okay →
      ∃ t, exec (.indexWordReadDone id resp v) s = .next t ∧ t.su.runState = .passOnly ∧ t.su.setup = none ∧
        t.su.faultCode = 0x01 ∧ t.su.load = none ∧ t.rfu = s.rfu ∧ t.cvu = s.cvu ∧ t.rcu = CaptureUnit.reset ∧
        t.clu = CraneUnit.reset ∧ t.vu = ViewUnit.reset ∧ t.rpu = ReportUnit.reset ∧
        t.pu.waitSu.filter (fun x => x.body.isLoadRead) = [] ∧ reportsOrphaned t.pu ∧ finalDecided s t .done)

/-- CRANE_RESET and TRACE_OPEN taken in RUNNING with a crane 0..11 (R48, R37, R172): the crane returns to IDLE with its
list dropped and counted, its counters, round-trip times and last status sequence kept (the last of these by
notes/assumptions/31.md) and HOLD asserted; TRACE_OPEN changes its trace state alone. REEFER_ACK and REEFER_FORGET with
an index in use (R102, R84, R172): the latch alone is emptied; or the index is freed and leaves the departed list. DONE
is decided, no record is made, and the rest of the Setup Unit stands. (The PENDING write's busy byte 0 is the model's
reading, notes/assumptions/11.md.) -/
def Obligations.CraneAndReeferCommandsDone : Prop :=
  (∀ (s : State) (w : Write) (arg : Half), s.su.runState = .running → arg.toNat < 12 →
     (commandGiven s w 0x03 arg → ∃ t, exec (.craneReset w) s = .next t ∧ commandTaken s t w 0x03 arg .done ∧
       t.rcu = s.rcu ∧ t.rfu = s.rfu ∧ t.cvu = s.cvu ∧ t.vu = s.vu ∧ t.rpu = s.rpu ∧ t.due = s.due ∧
       (∀ m, m ≠ arg.toNat → t.clu.crane m = s.clu.crane m) ∧ holdLine t arg.toNat = true ∧
       (let c := s.clu.crane arg.toNat
        t.clu.crane arg.toNat = { Crane.initial with
          lastSeq := c.lastSeq, rttLast := c.rttLast, rttGreatest := c.rttGreatest,
          counters := { c.counters with
            unconfirmed := c.counters.unconfirmed + BitVec.ofNat 32 c.outstanding.length } })) ∧
     (commandGiven s w 0x04 arg → ∃ t, exec (.traceOpen w) s = .next t ∧ commandTaken s t w 0x04 arg .done ∧
       t.rcu = s.rcu ∧ t.rfu = s.rfu ∧ t.cvu = s.cvu ∧ t.vu = s.vu ∧ t.rpu = s.rpu ∧ t.due = s.due ∧
       (∀ m, m ≠ arg.toNat → t.clu.crane m = s.clu.crane m) ∧
       t.clu.crane arg.toNat = { s.clu.crane arg.toNat with traceState := .recording })) ∧
  (∀ (s : State) (w : Write) (arg : Half) (e : Reefer), s.su.runState = .running → arg.toNat < 2048 →
     s.rfu.entry arg.toNat = some e →
     (commandGiven s w 0x05 arg → ∃ t, exec (.reeferAck w) s = .next t ∧ commandTaken s t w 0x05 arg .done ∧
       t.rcu = s.rcu ∧ t.clu = s.clu ∧ t.cvu = s.cvu ∧ t.vu = s.vu ∧ t.rpu = s.rpu ∧ t.due = s.due ∧
       t.rfu = { s.rfu with table := t.rfu.table } ∧ (∀ j, j ≠ arg.toNat → t.rfu.entry j = s.rfu.entry j) ∧
       t.rfu.entry arg.toNat = some { e with latchHigh := false, latchLow := false }) ∧
     (commandGiven s w 0x06 arg → ∃ t, exec (.reeferForget w) s = .next t ∧ commandTaken s t w 0x06 arg .done ∧
       t.rcu = s.rcu ∧ t.clu = s.clu ∧ t.cvu = s.cvu ∧ t.vu = s.vu ∧ t.rpu = s.rpu ∧ t.due = s.due ∧
       t.rfu.scanPos = s.rfu.scanPos ∧ (∀ j, j ≠ arg.toNat → t.rfu.entry j = s.rfu.entry j) ∧
       t.rfu.entry arg.toNat = none ∧ (∀ i, i ∈ t.rfu.departed ↔ i ∈ s.rfu.departed ∧ i ≠ arg.toNat)))

/-- COVERAGE_CLEAR, CLEAR_COUNTERS and ACK_LINES taken in RUNNING (R136, R12, R49, R65, R161, R172): the named segment, or
every segment of the map for FFFFH, is emptied; the uplink, downlink and crane counters and the round-trip times are
cleared, COMMITTED taking the length of the parse queue; the crane latch is cleared in LATCH_ACK mode alone. DONE is
decided, and the rest of the Setup Unit stands. (The PENDING write's busy byte 0 is the model's reading,
notes/assumptions/11.md.) -/
def Obligations.ClearingCommandsDone : Prop :=
  ∀ (s : State) (p : Setup) (w : Write) (arg : Half), s.su.runState = .running → s.su.setup = some p →
    (commandGiven s w 0x07 arg → (arg.toNat < p.coverage.segCount ∨ arg = 0xFFFF) →
      ∃ t, exec (.coverageClear w) s = .next t ∧ commandTaken s t w 0x07 arg .done ∧
        t.rcu = s.rcu ∧ t.clu = s.clu ∧ t.rfu = s.rfu ∧ t.vu = s.vu ∧ t.rpu = s.rpu ∧ t.due = s.due ∧
        t.cvu = { s.cvu with segments := t.cvu.segments } ∧
        ∀ g, t.cvu.segment g = if g = arg.toNat ∧ arg ≠ 0xFFFF ∨ arg = 0xFFFF ∧ g < p.coverage.segCount
          then Segment.blank else s.cvu.segment g) ∧
    (commandGiven s w 0x08 arg →
      ∃ t, exec (.clearCounters w) s = .next t ∧ commandTaken s t w 0x08 arg .done ∧
        t.rfu = s.rfu ∧ t.cvu = s.cvu ∧ t.vu = s.vu ∧ t.rpu = s.rpu ∧ t.due = s.due ∧
        t.rcu = { s.rcu with
          ul := { UlCounters.zero with committed := BitVec.ofNat 32 s.rcu.queue.length }, dl := DlCounters.zero } ∧
        ∀ n, t.clu.crane n = { s.clu.crane n with counters := CraneCounters.zero, rttLast := 0, rttGreatest := 0 }) ∧
    (commandGiven s w 0x02 arg →
      ∃ t, exec (.ackLines w) s = .next t ∧ commandTaken s t w 0x02 arg .done ∧
        t.rcu = s.rcu ∧ t.clu = s.clu ∧ t.rfu = s.rfu ∧ t.cvu = s.cvu ∧ t.vu = s.vu ∧ t.due = s.due ∧
        t.rpu = { s.rpu with craneLatch := if p.irqMode = .latchAck then false else s.rpu.craneLatch } ∧
        (p.irqMode = .latchAck → irqCrane t = false))

/-- Commands refused (R172): outside RUNNING every command but RELOAD with REFUSED_STATE; in RUNNING an argument out of
range with REFUSED_ARG; a RELOAD argument above 1 and a code outside 01H..08H with REFUSED_ARG; and no unit but the
Setup Unit's command state and the injection queue changes. A RELOAD in LOADING with the command state IDLE, which no run
meets, is refused with REFUSED_STATE by the model's choice (notes/assumptions/26.md). So is REFUSED_STATE for a taken
command alone: a write in PENDING, as every write in LOADING is, gets none (43.md). (The PENDING write's busy byte 0 is the
model's reading, 11.md.) -/
def Obligations.CommandsRefused : Prop :=
  ∀ (s : State) (w : Write) (code : Byte) (arg : Half), commandGiven s w code arg →
    (∀ c, s.su.runState ≠ .running →
      (c, code) ∈ [(Instr.ackLines w, 0x02), (.craneReset w, 0x03), (.traceOpen w, 0x04), (.reeferAck w, 0x05),
        (.reeferForget w, 0x06), (.coverageClear w, 0x07), (.clearCounters w, 0x08)] →
      ∃ t, exec c s = .next t ∧ commandTaken s t w code arg .refusedState ∧ unitsStand s t) ∧
    (∀ c, s.su.runState = .running →
      ((c, code) ∈ [(Instr.craneReset w, 0x03), (.traceOpen w, 0x04)] ∧ 12 ≤ arg.toNat ∨
       (c, code) ∈ [(Instr.reeferAck w, 0x05), (.reeferForget w, 0x06)] ∧
         (2048 ≤ arg.toNat ∨ s.rfu.entry arg.toNat = none) ∨
       (c, code) = (Instr.coverageClear w, 0x07) ∧ arg ≠ 0xFFFF ∧
         (∀ p, s.su.setup = some p → p.coverage.segCount ≤ arg.toNat)) →
      ∃ t, exec c s = .next t ∧ commandTaken s t w code arg .refusedArg ∧ unitsStand s t) ∧
    (∀ c, ((c, code) = (Instr.reload w, 0x01) ∧ s.su.runState ≠ .loading ∧ 1 < arg.toNat ∨
        c = .commandCodeUnknown w ∧ (code = 0 ∨ 8 < code.toNat)) →
      ∃ t, exec c s = .next t ∧ commandTaken s t w code arg .refusedArg ∧ unitsStand s t) ∧
    (code = 0x01 → s.su.runState = .loading →
      ∃ t, exec (.reload w) s = .next t ∧ commandTaken s t w code arg .refusedState ∧ unitsStand s t)

/-- COMMAND_WRITE_WHILE_BUSY (R171), of the command word alone: in PENDING it sets the busy flag; in CLOSING it is noted as
refused, the last one written standing, unless the REFUSED_BUSY write is out; nothing else changes but its response
passing back. COMMAND_STATUS_WRITE_DONE (R171), whatever the response: the PENDING write answered hands in the final
status once it is decided, with the code, argument, fault code and busy flag, and the state becomes CLOSING; the final
write answered ends in IDLE, or in a REFUSED_BUSY write for the last command refused, whose answer ends in IDLE. (That
write's busy byte 0 is the model's reading, notes/assumptions/11.md; that the state moves and the busy flag clears as a
status write is made, and not as it joins the injection queue, is its choice, 42.md; that a write in LOADING only sets the
busy flag, where other rules have REFUSED_STATE, is its choice too, 43.md.) -/
def Obligations.CommandStateMoves : Prop :=
  (∀ (s : State) (w : Write) (role : Role) (code : Byte) (arg : Half), forwardedRole s .write w.id = some role →
     (role = .app ∨ s.su.setup = none) → isOkay w.resp = true → coversWhole w (commandWordAddr s) 4 = true →
     reachesOnly s w .command →
     activeByte w (commandWordAddr s) = some code → activeByte w (commandWordAddr s + 2) = some (arg.setWidth 8) →
     activeByte w (commandWordAddr s + 3) = some ((arg >>> 8).setWidth 8) →
     (s.su.command.phase = .pending → exec (.commandWriteWhileBusy w) s = .next { returnWrite w s with
       su := { s.su with command := { s.su.command with busy := true } } }) ∧
     (s.su.command.phase = .closing → exec (.commandWriteWhileBusy w) s = .next { returnWrite w s with
       su := { s.su with command := { s.su.command with
         refused := if s.su.command.busyWrite = true then s.su.command.refused else some (code, arg) } } })) ∧
  (∀ (s s1 : State) (id : AxiId) (resp : Resp) (q : InjRequest), takeInjected s .write id = some (q, s1) →
     q.body.isStatusWrite = true →
     (let c := s.su.command
      let at_ := s.su.sbase.toNat * 2 ^ 24 + 16
      (c.phase = .pending → c.verdict = none → exec (.commandStatusWriteDone id resp) s = .next { s1 with
        su := { s.su with command := { c with pendingAnswered := true } } }) ∧
      (∀ v, c.phase = .pending → c.verdict = some v → exec (.commandStatusWriteDone id resp) s = .next { s1 with
        su := { s.su with command := { c with phase := .closing, busy := false, pendingAnswered := true } },
        pu := { s1.pu with waitSu := s1.pu.waitSu ++ [⟨.statusWrite
          [lowByte v.code, c.code, c.arg.setWidth 8, (c.arg >>> 8).setWidth 8, s.su.faultCode, if c.busy then 1 else 0, 0, 0],
          at_, true⟩] } }) ∧
      (c.phase = .closing → c.busyWrite = true ∨ c.refused = none →
        exec (.commandStatusWriteDone id resp) s = .next { s1 with su := { s.su with command := Command.idle } }) ∧
      (∀ code arg, c.phase = .closing → c.busyWrite = false → c.refused = some (code, arg) →
        ∃ t f, exec (.commandStatusWriteDone id resp) s = .next t ∧ t = { s1 with
          su := { s.su with command := { c with refused := none, busyWrite := true } }, free := t.free,
          pu := { s1.pu with waitSu := s1.pu.waitSu ++ [⟨.statusWrite
            [5, code, arg.setWidth 8, (arg >>> 8).setWidth 8, f, 0, 0, 0], at_, true⟩] } })))

/-! ### The laws of the part, kept by every step -/

/-- Every law holds of the machine right after reset (R167). -/
def Obligations.LawsHoldAtReset : Prop :=
  captureLaw State.reset ∧ counterLaw State.reset ∧ outstandingLaw State.reset ∧ emptySegmentLaw State.reset ∧
    averageLaw State.reset ∧ reeferLaw State.reset ∧ terminalLaw State.reset ∧ boundsLaw State.reset ∧
    mapLaw State.reset ∧ tableLaw State.reset ∧ runStateLaw State.reset

/-- R1, R2, R7, R15: every step keeps the capture store within its 32 entries of 256 cells with one PENDING entry a slot,
the placeholders within the ring, and twelve cells in every downlink record. R12 and R64: every step keeps the two
counter equalities: COMMITTED is the sum of the outcome counters and the parse queue's length, DL_DEPARTED the sum of the
four decision counters. -/
def Obligations.CaptureAndCounterLawsKept : Prop :=
  ∀ s t : State, step s = .next t → (captureLaw s → captureLaw t) ∧ (counterLaw s → counterLaw t)

/-- R63: every step keeps the outstanding lists at 8 entries or fewer, strictly ascending in sequence, and empty in IDLE,
LOST and CLAIM. -/
def Obligations.OutstandingLawKept : Prop := ∀ s t : State, outstandingLaw s → step s = .next t → outstandingLaw t

/-- R126: the law on empty segments: a segment whose UL and DL averages are both EMPTY has declared class UNKNOWN, after
reset and, by every step, between events. -/
def Obligations.EmptySegmentLawKept : Prop :=
  emptySegmentLaw State.reset ∧ ∀ s t : State, emptySegmentLaw s → step s = .next t → emptySegmentLaw t

/-- R122: the law on averages: every non-empty average of a segment lies within the acceptance window of the setup in
force, after reset and, by every step, between events. -/
def Obligations.AverageLawKept : Prop :=
  averageLaw State.reset ∧ ∀ s t : State, averageLaw s → step s = .next t → averageLaw t

/-- R71, R72: every step keeps the law on the reefer table, over tables in their canonical form: no container ID twice, no
plug twice outside DEPARTED, and the departed list holding exactly the DEPARTED entries, each once. -/
def Obligations.ReeferLawKept : Prop :=
  ∀ s t : State, tableLaw s → reeferLaw s → step s = .next t → reeferLaw t

/-- R26: every step keeps the law on terminals: none is bound, by roster or by learning, to more than one crane. -/
def Obligations.TerminalLawKept : Prop := ∀ s t : State, terminalLaw s → step s = .next t → terminalLaw t

/-- R5, R17, R105, R129, R153, R154, R157, R163, R165, R166: every step keeps the bounds of the queues, counts and
positions: P and C below REP_SLOTS, H_UL and H_DL below their ring sizes, the scan positions in their tables; and it keeps
the canonical form of the numbered tables (the model's own, INVENTORY.md, Memory and ordering). -/
def Obligations.BoundsKept : Prop :=
  ∀ s t : State, step s = .next t → (boundsLaw s → boundsLaw t) ∧ (tableLaw s → tableLaw t)

/-- R112, R113, R138, R141: every step keeps this: the map has the geometry of the setup in force, blank beyond its segments, and every crane
position and reefer segment lies on it. -/
def Obligations.MapLawKept : Prop := ∀ s t : State, mapLaw s → step s = .next t → mapLaw t

/-- R167, R170: every step keeps this: a load is under way exactly in LOADING; a setup is in force only in RUNNING and
LOADING; without one the units that do not outlive a failed load stand at their power-on values and no read burst is
bound to a window table or a view; and checks are due in RUNNING only. That no burst is bound is no rule of the spec but
the model's reading of what entry into PASS_ONLY leaves of a burst in flight (notes/assumptions/21.md); the due checks
are the model's (notes/assumptions/3.md). -/
def Obligations.RunStateLawKept : Prop := ∀ s t : State, runStateLaw s → step s = .next t → runStateLaw t
end

