-- ==== Sys2Proof/Laws/State.lean ====
section
/-! SUPPORT. What each named update of the state leaves in each field: one lemma a field, true by unfolding, so that no
proof about a command unfolds a record update. -/

namespace Sys2Proof.Machine

open Sys2Proof

/-! ### `State.report` -/

@[simp] theorem State.report_pending (s : State) (rs : List Record) : (s.report rs).pending = s.pending := rfl
@[simp] theorem State.report_su (s : State) (rs : List Record) : (s.report rs).su = s.su := rfl
@[simp] theorem State.report_pu (s : State) (rs : List Record) : (s.report rs).pu = s.pu := rfl
@[simp] theorem State.report_rcu (s : State) (rs : List Record) : (s.report rs).rcu = s.rcu := rfl
@[simp] theorem State.report_clu (s : State) (rs : List Record) : (s.report rs).clu = s.clu := rfl
@[simp] theorem State.report_rfu (s : State) (rs : List Record) : (s.report rs).rfu = s.rfu := rfl
@[simp] theorem State.report_cvu (s : State) (rs : List Record) : (s.report rs).cvu = s.cvu := rfl
@[simp] theorem State.report_vu (s : State) (rs : List Record) : (s.report rs).vu = s.vu := rfl
@[simp] theorem State.report_rpu (s : State) (rs : List Record) : (s.report rs).rpu = s.rpu.handOverAll rs := rfl
@[simp] theorem State.report_due (s : State) (rs : List Record) : (s.report rs).due = s.due := rfl
@[simp] theorem State.report_free (s : State) (rs : List Record) : (s.report rs).free = s.free := rfl

/-! ### `returnWrite` -/

@[simp] theorem returnWrite_pending (w : Write) (s : State) : (returnWrite w s).pending = s.pending := rfl
@[simp] theorem returnWrite_su (w : Write) (s : State) : (returnWrite w s).su = s.su := rfl
@[simp] theorem returnWrite_pu (w : Write) (s : State) :
    (returnWrite w s).pu =
      { s.pu with issuedWrite := dropIssued w.id s.pu.issuedWrite, up := [⟨w.id, w.resp, []⟩] } := rfl
@[simp] theorem returnWrite_rcu (w : Write) (s : State) : (returnWrite w s).rcu = s.rcu := rfl
@[simp] theorem returnWrite_clu (w : Write) (s : State) : (returnWrite w s).clu = s.clu := rfl
@[simp] theorem returnWrite_rfu (w : Write) (s : State) : (returnWrite w s).rfu = s.rfu := rfl
@[simp] theorem returnWrite_cvu (w : Write) (s : State) : (returnWrite w s).cvu = s.cvu := rfl
@[simp] theorem returnWrite_vu (w : Write) (s : State) : (returnWrite w s).vu = s.vu := rfl
@[simp] theorem returnWrite_rpu (w : Write) (s : State) : (returnWrite w s).rpu = s.rpu := rfl
@[simp] theorem returnWrite_due (w : Write) (s : State) : (returnWrite w s).due = s.due := rfl
@[simp] theorem returnWrite_free (w : Write) (s : State) : (returnWrite w s).free = s.free := rfl

/-! ### `State.injectSu` -/

@[simp] theorem State.injectSu_pending (s : State) (qs : List InjRequest) : (s.injectSu qs).pending = s.pending := rfl
@[simp] theorem State.injectSu_su (s : State) (qs : List InjRequest) : (s.injectSu qs).su = s.su := rfl
@[simp] theorem State.injectSu_pu (s : State) (qs : List InjRequest) :
    (s.injectSu qs).pu = { s.pu with waitSu := s.pu.waitSu ++ qs } := rfl
@[simp] theorem State.injectSu_rcu (s : State) (qs : List InjRequest) : (s.injectSu qs).rcu = s.rcu := rfl
@[simp] theorem State.injectSu_clu (s : State) (qs : List InjRequest) : (s.injectSu qs).clu = s.clu := rfl
@[simp] theorem State.injectSu_rfu (s : State) (qs : List InjRequest) : (s.injectSu qs).rfu = s.rfu := rfl
@[simp] theorem State.injectSu_cvu (s : State) (qs : List InjRequest) : (s.injectSu qs).cvu = s.cvu := rfl
@[simp] theorem State.injectSu_vu (s : State) (qs : List InjRequest) : (s.injectSu qs).vu = s.vu := rfl
@[simp] theorem State.injectSu_rpu (s : State) (qs : List InjRequest) : (s.injectSu qs).rpu = s.rpu := rfl
@[simp] theorem State.injectSu_due (s : State) (qs : List InjRequest) : (s.injectSu qs).due = s.due := rfl
@[simp] theorem State.injectSu_free (s : State) (qs : List InjRequest) : (s.injectSu qs).free = s.free := rfl

/-! ### `State.injectRpu` -/

@[simp] theorem State.injectRpu_pending (s : State) (b : InjBody) (a : Nat) :
    (s.injectRpu b a).pending = s.pending := rfl
@[simp] theorem State.injectRpu_su (s : State) (b : InjBody) (a : Nat) : (s.injectRpu b a).su = s.su := rfl
@[simp] theorem State.injectRpu_pu (s : State) (b : InjBody) (a : Nat) :
    (s.injectRpu b a).pu = { s.pu with waitRpu := s.pu.waitRpu ++ [⟨b, a, true⟩] } := rfl
@[simp] theorem State.injectRpu_rcu (s : State) (b : InjBody) (a : Nat) : (s.injectRpu b a).rcu = s.rcu := rfl
@[simp] theorem State.injectRpu_clu (s : State) (b : InjBody) (a : Nat) : (s.injectRpu b a).clu = s.clu := rfl
@[simp] theorem State.injectRpu_rfu (s : State) (b : InjBody) (a : Nat) : (s.injectRpu b a).rfu = s.rfu := rfl
@[simp] theorem State.injectRpu_cvu (s : State) (b : InjBody) (a : Nat) : (s.injectRpu b a).cvu = s.cvu := rfl
@[simp] theorem State.injectRpu_vu (s : State) (b : InjBody) (a : Nat) : (s.injectRpu b a).vu = s.vu := rfl
@[simp] theorem State.injectRpu_rpu (s : State) (b : InjBody) (a : Nat) : (s.injectRpu b a).rpu = s.rpu := rfl
@[simp] theorem State.injectRpu_due (s : State) (b : InjBody) (a : Nat) : (s.injectRpu b a).due = s.due := rfl
@[simp] theorem State.injectRpu_free (s : State) (b : InjBody) (a : Nat) : (s.injectRpu b a).free = s.free := rfl

/-! ### `State.deadlineDone` -/

@[simp] theorem State.deadlineDone_pending (s : State) (n : Nat) : (s.deadlineDone n).pending = s.pending := rfl
@[simp] theorem State.deadlineDone_su (s : State) (n : Nat) : (s.deadlineDone n).su = s.su := rfl
@[simp] theorem State.deadlineDone_pu (s : State) (n : Nat) : (s.deadlineDone n).pu = s.pu := rfl
@[simp] theorem State.deadlineDone_rcu (s : State) (n : Nat) : (s.deadlineDone n).rcu = s.rcu := rfl
@[simp] theorem State.deadlineDone_clu (s : State) (n : Nat) : (s.deadlineDone n).clu = s.clu := rfl
@[simp] theorem State.deadlineDone_rfu (s : State) (n : Nat) : (s.deadlineDone n).rfu = s.rfu := rfl
@[simp] theorem State.deadlineDone_cvu (s : State) (n : Nat) : (s.deadlineDone n).cvu = s.cvu := rfl
@[simp] theorem State.deadlineDone_vu (s : State) (n : Nat) : (s.deadlineDone n).vu = s.vu := rfl
@[simp] theorem State.deadlineDone_rpu (s : State) (n : Nat) : (s.deadlineDone n).rpu = s.rpu := rfl
@[simp] theorem State.deadlineDone_free (s : State) (n : Nat) : (s.deadlineDone n).free = s.free := rfl

/-! ### `countViewWrite` -/

/-- Counting a write in view windows changes VIEW_WRITES alone, by 1 or not at all (R149). -/
theorem countViewWrite_cases (w : Write) (s : State) :
    countViewWrite w s = s ∨ countViewWrite w s = { s with vu := { s.vu with writes := s.vu.writes + 1 } } := by
  unfold countViewWrite
  split
  · split
    · exact .inr rfl
    · exact .inl rfl
  · exact .inl rfl

@[simp] theorem countViewWrite_pending (w : Write) (s : State) : (countViewWrite w s).pending = s.pending := by
  rcases countViewWrite_cases w s with h | h <;> rw [h]
@[simp] theorem countViewWrite_su (w : Write) (s : State) : (countViewWrite w s).su = s.su := by
  rcases countViewWrite_cases w s with h | h <;> rw [h]
@[simp] theorem countViewWrite_pu (w : Write) (s : State) : (countViewWrite w s).pu = s.pu := by
  rcases countViewWrite_cases w s with h | h <;> rw [h]
@[simp] theorem countViewWrite_rcu (w : Write) (s : State) : (countViewWrite w s).rcu = s.rcu := by
  rcases countViewWrite_cases w s with h | h <;> rw [h]
@[simp] theorem countViewWrite_clu (w : Write) (s : State) : (countViewWrite w s).clu = s.clu := by
  rcases countViewWrite_cases w s with h | h <;> rw [h]
@[simp] theorem countViewWrite_rfu (w : Write) (s : State) : (countViewWrite w s).rfu = s.rfu := by
  rcases countViewWrite_cases w s with h | h <;> rw [h]
@[simp] theorem countViewWrite_cvu (w : Write) (s : State) : (countViewWrite w s).cvu = s.cvu := by
  rcases countViewWrite_cases w s with h | h <;> rw [h]
@[simp] theorem countViewWrite_rpu (w : Write) (s : State) : (countViewWrite w s).rpu = s.rpu := by
  rcases countViewWrite_cases w s with h | h <;> rw [h]
@[simp] theorem countViewWrite_due (w : Write) (s : State) : (countViewWrite w s).due = s.due := by
  rcases countViewWrite_cases w s with h | h <;> rw [h]
@[simp] theorem countViewWrite_free (w : Write) (s : State) : (countViewWrite w s).free = s.free := by
  rcases countViewWrite_cases w s with h | h <;> rw [h]

/-! ### `State.coverageDone` -/

@[simp] theorem State.coverageDone_pending (s : State) : (s.coverageDone).pending = s.pending := rfl
@[simp] theorem State.coverageDone_su (s : State) : (s.coverageDone).su = s.su := rfl
@[simp] theorem State.coverageDone_pu (s : State) : (s.coverageDone).pu = s.pu := rfl
@[simp] theorem State.coverageDone_rcu (s : State) : (s.coverageDone).rcu = s.rcu := rfl
@[simp] theorem State.coverageDone_clu (s : State) : (s.coverageDone).clu = s.clu := rfl
@[simp] theorem State.coverageDone_rfu (s : State) : (s.coverageDone).rfu = s.rfu := rfl
@[simp] theorem State.coverageDone_cvu (s : State) : (s.coverageDone).cvu = s.cvu := rfl
@[simp] theorem State.coverageDone_vu (s : State) : (s.coverageDone).vu = s.vu := rfl
@[simp] theorem State.coverageDone_rpu (s : State) : (s.coverageDone).rpu = s.rpu := rfl
@[simp] theorem State.coverageDone_free (s : State) : (s.coverageDone).free = s.free := rfl

/-! ### `State.pulseDone` -/

@[simp] theorem State.pulseDone_pending (s : State) : (s.pulseDone).pending = s.pending := rfl
@[simp] theorem State.pulseDone_su (s : State) : (s.pulseDone).su = s.su := rfl
@[simp] theorem State.pulseDone_pu (s : State) : (s.pulseDone).pu = s.pu := rfl
@[simp] theorem State.pulseDone_rcu (s : State) : (s.pulseDone).rcu = s.rcu := rfl
@[simp] theorem State.pulseDone_clu (s : State) : (s.pulseDone).clu = s.clu := rfl
@[simp] theorem State.pulseDone_rfu (s : State) : (s.pulseDone).rfu = s.rfu := rfl
@[simp] theorem State.pulseDone_cvu (s : State) : (s.pulseDone).cvu = s.cvu := rfl
@[simp] theorem State.pulseDone_vu (s : State) : (s.pulseDone).vu = s.vu := rfl
@[simp] theorem State.pulseDone_rpu (s : State) : (s.pulseDone).rpu = s.rpu := rfl
@[simp] theorem State.pulseDone_free (s : State) : (s.pulseDone).free = s.free := rfl

/-! ### `endPulse` -/

@[simp] theorem endPulse_pending (s : State) : (endPulse s).pending = s.pending := rfl
@[simp] theorem endPulse_su (s : State) : (endPulse s).su = s.su := rfl
@[simp] theorem endPulse_pu (s : State) : (endPulse s).pu = s.pu := rfl
@[simp] theorem endPulse_rcu (s : State) : (endPulse s).rcu = s.rcu := rfl
@[simp] theorem endPulse_clu (s : State) : (endPulse s).clu = s.clu := rfl
@[simp] theorem endPulse_rfu (s : State) : (endPulse s).rfu = s.rfu := rfl
@[simp] theorem endPulse_cvu (s : State) : (endPulse s).cvu = s.cvu := rfl
@[simp] theorem endPulse_vu (s : State) : (endPulse s).vu = s.vu := rfl
@[simp] theorem endPulse_rpu (s : State) : (endPulse s).rpu = { s.rpu with pulseStart := none } := rfl
@[simp] theorem endPulse_due (s : State) : (endPulse s).due = s.due := rfl
@[simp] theorem endPulse_free (s : State) : (endPulse s).free = s.free := rfl

/-! ### `finishBurst` -/

@[simp] theorem finishBurst_pending (o : OpenRead) (s : State) : (finishBurst o s).pending = s.pending := rfl
@[simp] theorem finishBurst_su (o : OpenRead) (s : State) : (finishBurst o s).su = s.su := rfl
@[simp] theorem finishBurst_rcu (o : OpenRead) (s : State) : (finishBurst o s).rcu = s.rcu := rfl
@[simp] theorem finishBurst_clu (o : OpenRead) (s : State) : (finishBurst o s).clu = s.clu := rfl
@[simp] theorem finishBurst_rfu (o : OpenRead) (s : State) : (finishBurst o s).rfu = s.rfu := rfl
@[simp] theorem finishBurst_cvu (o : OpenRead) (s : State) : (finishBurst o s).cvu = s.cvu := rfl
@[simp] theorem finishBurst_vu (o : OpenRead) (s : State) : (finishBurst o s).vu = takeCoverage o.views s.vu := rfl
@[simp] theorem finishBurst_rpu (o : OpenRead) (s : State) : (finishBurst o s).rpu = s.rpu := rfl
@[simp] theorem finishBurst_due (o : OpenRead) (s : State) : (finishBurst o s).due = s.due := rfl
@[simp] theorem finishBurst_free (o : OpenRead) (s : State) : (finishBurst o s).free = s.free := rfl

/-! ### `endBeat` -/

@[simp] theorem endBeat_pending (b : ReadBeat) (o : OpenRead) (d : List Byte) (s : State) :
    (endBeat b o d s).pending = s.pending := rfl
@[simp] theorem endBeat_su (b : ReadBeat) (o : OpenRead) (d : List Byte) (s : State) :
    (endBeat b o d s).su = s.su := rfl
@[simp] theorem endBeat_rcu (b : ReadBeat) (o : OpenRead) (d : List Byte) (s : State) :
    (endBeat b o d s).rcu = s.rcu := rfl
@[simp] theorem endBeat_clu (b : ReadBeat) (o : OpenRead) (d : List Byte) (s : State) :
    (endBeat b o d s).clu = s.clu := rfl
@[simp] theorem endBeat_rfu (b : ReadBeat) (o : OpenRead) (d : List Byte) (s : State) :
    (endBeat b o d s).rfu = s.rfu := rfl
@[simp] theorem endBeat_cvu (b : ReadBeat) (o : OpenRead) (d : List Byte) (s : State) :
    (endBeat b o d s).cvu = s.cvu := rfl
@[simp] theorem endBeat_vu (b : ReadBeat) (o : OpenRead) (d : List Byte) (s : State) :
    (endBeat b o d s).vu = s.vu := rfl
@[simp] theorem endBeat_rpu (b : ReadBeat) (o : OpenRead) (d : List Byte) (s : State) :
    (endBeat b o d s).rpu = s.rpu := rfl
@[simp] theorem endBeat_due (b : ReadBeat) (o : OpenRead) (d : List Byte) (s : State) :
    (endBeat b o d s).due = s.due := rfl
@[simp] theorem endBeat_free (b : ReadBeat) (o : OpenRead) (d : List Byte) (s : State) :
    (endBeat b o d s).free = s.free := rfl

@[simp] theorem endBeat_up (b : ReadBeat) (o : OpenRead) (d : List Byte) (s : State) :
    (endBeat b o d s).pu.up = [⟨b.id, b.resp, d⟩] := rfl

/-! ### `refreshSnapshot` -/

@[simp] theorem refreshSnapshot_pending (v : View) (s : State) : (refreshSnapshot v s).pending = s.pending := rfl
@[simp] theorem refreshSnapshot_su (v : View) (s : State) : (refreshSnapshot v s).su = s.su := rfl
@[simp] theorem refreshSnapshot_rcu (v : View) (s : State) : (refreshSnapshot v s).rcu = s.rcu := rfl
@[simp] theorem refreshSnapshot_clu (v : View) (s : State) : (refreshSnapshot v s).clu = s.clu := rfl
@[simp] theorem refreshSnapshot_rfu (v : View) (s : State) : (refreshSnapshot v s).rfu = s.rfu := rfl
@[simp] theorem refreshSnapshot_cvu (v : View) (s : State) : (refreshSnapshot v s).cvu = s.cvu := rfl
@[simp] theorem refreshSnapshot_rpu (v : View) (s : State) : (refreshSnapshot v s).rpu = s.rpu := rfl
@[simp] theorem refreshSnapshot_due (v : View) (s : State) : (refreshSnapshot v s).due = s.due := rfl
@[simp] theorem refreshSnapshot_free (v : View) (s : State) : (refreshSnapshot v s).free = s.free := rfl

/-! ### `loseReefer` -/

@[simp] theorem loseReefer_pending (i : Nat) (e : Reefer) (s : State) : (loseReefer i e s).pending = s.pending := rfl
@[simp] theorem loseReefer_su (i : Nat) (e : Reefer) (s : State) : (loseReefer i e s).su = s.su := rfl
@[simp] theorem loseReefer_pu (i : Nat) (e : Reefer) (s : State) : (loseReefer i e s).pu = s.pu := rfl
@[simp] theorem loseReefer_rcu (i : Nat) (e : Reefer) (s : State) : (loseReefer i e s).rcu = s.rcu := rfl
@[simp] theorem loseReefer_clu (i : Nat) (e : Reefer) (s : State) : (loseReefer i e s).clu = s.clu := rfl
@[simp] theorem loseReefer_cvu (i : Nat) (e : Reefer) (s : State) : (loseReefer i e s).cvu = s.cvu := rfl
@[simp] theorem loseReefer_vu (i : Nat) (e : Reefer) (s : State) : (loseReefer i e s).vu = s.vu := rfl
@[simp] theorem loseReefer_due (i : Nat) (e : Reefer) (s : State) : (loseReefer i e s).due = s.due := rfl
@[simp] theorem loseReefer_free (i : Nat) (e : Reefer) (s : State) : (loseReefer i e s).free = s.free := rfl

/-! ### `changeSegment` -/

@[simp] theorem changeSegment_pending (g : Nat) (f : Segment → Segment × List Record) (s : State) :
    (changeSegment g f s).pending = s.pending := rfl
@[simp] theorem changeSegment_su (g : Nat) (f : Segment → Segment × List Record) (s : State) :
    (changeSegment g f s).su = s.su := rfl
@[simp] theorem changeSegment_pu (g : Nat) (f : Segment → Segment × List Record) (s : State) :
    (changeSegment g f s).pu = s.pu := rfl
@[simp] theorem changeSegment_rcu (g : Nat) (f : Segment → Segment × List Record) (s : State) :
    (changeSegment g f s).rcu = s.rcu := rfl
@[simp] theorem changeSegment_clu (g : Nat) (f : Segment → Segment × List Record) (s : State) :
    (changeSegment g f s).clu = s.clu := rfl
@[simp] theorem changeSegment_rfu (g : Nat) (f : Segment → Segment × List Record) (s : State) :
    (changeSegment g f s).rfu = s.rfu := rfl
@[simp] theorem changeSegment_cvu (g : Nat) (f : Segment → Segment × List Record) (s : State) :
    (changeSegment g f s).cvu = s.cvu.setSegment g (f (s.cvu.segment g)).1 := rfl
@[simp] theorem changeSegment_vu (g : Nat) (f : Segment → Segment × List Record) (s : State) :
    (changeSegment g f s).vu = s.vu := rfl
@[simp] theorem changeSegment_due (g : Nat) (f : Segment → Segment × List Record) (s : State) :
    (changeSegment g f s).due = s.due := rfl
@[simp] theorem changeSegment_free (g : Nat) (f : Segment → Segment × List Record) (s : State) :
    (changeSegment g f s).free = s.free := rfl

/-! ### `depart` -/

@[simp] theorem depart_pending (k : Nat) (s : State) : (depart k s).pending = s.pending := rfl
@[simp] theorem depart_su (k : Nat) (s : State) : (depart k s).su = s.su := rfl
@[simp] theorem depart_pu (k : Nat) (s : State) : (depart k s).pu = s.pu := rfl
@[simp] theorem depart_rfu (k : Nat) (s : State) : (depart k s).rfu = s.rfu := rfl
@[simp] theorem depart_cvu (k : Nat) (s : State) : (depart k s).cvu = s.cvu := rfl
@[simp] theorem depart_vu (k : Nat) (s : State) : (depart k s).vu = s.vu := rfl
@[simp] theorem depart_due (k : Nat) (s : State) : (depart k s).due = s.due := rfl
@[simp] theorem depart_free (k : Nat) (s : State) : (depart k s).free = s.free := rfl

/-! ### `enterPassOnly` -/

@[simp] theorem enterPassOnly_pending (c : Byte) (s : State) : (enterPassOnly c s).pending = s.pending := rfl
@[simp] theorem enterPassOnly_rcu (c : Byte) (s : State) : (enterPassOnly c s).rcu = CaptureUnit.reset := rfl
@[simp] theorem enterPassOnly_clu (c : Byte) (s : State) : (enterPassOnly c s).clu = CraneUnit.reset := rfl
@[simp] theorem enterPassOnly_rfu (c : Byte) (s : State) : (enterPassOnly c s).rfu = s.rfu := rfl
@[simp] theorem enterPassOnly_cvu (c : Byte) (s : State) : (enterPassOnly c s).cvu = s.cvu := rfl
@[simp] theorem enterPassOnly_vu (c : Byte) (s : State) : (enterPassOnly c s).vu = ViewUnit.reset := rfl
@[simp] theorem enterPassOnly_rpu (c : Byte) (s : State) : (enterPassOnly c s).rpu = ReportUnit.reset := rfl
@[simp] theorem enterPassOnly_due (c : Byte) (s : State) : (enterPassOnly c s).due = DueChecks.none := rfl
@[simp] theorem enterPassOnly_free (c : Byte) (s : State) : (enterPassOnly c s).free = s.free := rfl

/-! ### `reloadUnits` -/

@[simp] theorem reloadUnits_pending (p : Setup) (k : Bool) (a b c : Word) (s : State) :
    (reloadUnits p k a b c s).pending = s.pending := rfl
@[simp] theorem reloadUnits_rcu (p : Setup) (k : Bool) (a b c : Word) (s : State) :
    (reloadUnits p k a b c s).rcu = reloadCapture p a b := rfl
@[simp] theorem reloadUnits_clu (p : Setup) (k : Bool) (a b c : Word) (s : State) :
    (reloadUnits p k a b c s).clu = CraneUnit.reset := rfl
@[simp] theorem reloadUnits_rfu (p : Setup) (k : Bool) (a b c : Word) (s : State) :
    (reloadUnits p k a b c s).rfu = reloadReefers p k s.su.qt s.rfu := rfl
@[simp] theorem reloadUnits_cvu (p : Setup) (k : Bool) (a b c : Word) (s : State) :
    (reloadUnits p k a b c s).cvu = reloadCoverage p k s.cvu := rfl
@[simp] theorem reloadUnits_rpu (p : Setup) (k : Bool) (a b c : Word) (s : State) :
    (reloadUnits p k a b c s).rpu = reloadReports p c := rfl
@[simp] theorem reloadUnits_due (p : Setup) (k : Bool) (a b c : Word) (s : State) :
    (reloadUnits p k a b c s).due = DueChecks.none := rfl
@[simp] theorem reloadUnits_free (p : Setup) (k : Bool) (a b c : Word) (s : State) :
    (reloadUnits p k a b c s).free = s.free := rfl

/-! ### The numbered tables' other fields -/

@[simp] theorem CaptureUnit.setRecord_filling (u : CaptureUnit) (k : Nat) (r : DlRecord) :
    (u.setRecord k r).filling = u.filling := rfl
@[simp] theorem CaptureUnit.setRecord_queue (u : CaptureUnit) (k : Nat) (r : DlRecord) :
    (u.setRecord k r).queue = u.queue := rfl
@[simp] theorem CaptureUnit.setRecord_parsing (u : CaptureUnit) (k : Nat) (r : DlRecord) :
    (u.setRecord k r).parsing = u.parsing := rfl
@[simp] theorem CaptureUnit.setRecord_hUl (u : CaptureUnit) (k : Nat) (r : DlRecord) :
    (u.setRecord k r).hUl = u.hUl := rfl
@[simp] theorem CaptureUnit.setRecord_hDl (u : CaptureUnit) (k : Nat) (r : DlRecord) :
    (u.setRecord k r).hDl = u.hDl := rfl
@[simp] theorem CaptureUnit.setRecord_ul (u : CaptureUnit) (k : Nat) (r : DlRecord) : (u.setRecord k r).ul = u.ul := rfl
@[simp] theorem CaptureUnit.setRecord_dl (u : CaptureUnit) (k : Nat) (r : DlRecord) : (u.setRecord k r).dl = u.dl := rfl
@[simp] theorem CoverageUnit.setSegment_geometry (u : CoverageUnit) (n : Nat) (g : Segment) :
    (u.setSegment n g).geometry = u.geometry := rfl
@[simp] theorem CoverageUnit.setSegment_scanPos (u : CoverageUnit) (n : Nat) (g : Segment) :
    (u.setSegment n g).scanPos = u.scanPos := rfl
@[simp] theorem CoverageUnit.setSegment_tick (u : CoverageUnit) (n : Nat) (g : Segment) :
    (u.setSegment n g).tick = u.tick := rfl
@[simp] theorem CoverageUnit.setSegment_clampReported (u : CoverageUnit) (n : Nat) (g : Segment) :
    (u.setSegment n g).clampReported = u.clampReported := rfl
@[simp] theorem ReeferUnit.setEntry_departed (u : ReeferUnit) (i : Nat) (e : Option Reefer) :
    (u.setEntry i e).departed = u.departed := rfl
@[simp] theorem ReeferUnit.setEntry_scanPos (u : ReeferUnit) (i : Nat) (e : Option Reefer) :
    (u.setEntry i e).scanPos = u.scanPos := rfl

end Sys2Proof.Machine
end

