-- ==== Sys2Proof/Laws/Operands.lean ====
section
/-! SUPPORT. The shared forms of the completed writes, the command word and the injected transactions: for each, once, all
that it can do, so that no proof about a command unfolds it. -/

namespace Sys2Proof.Machine

open Sys2Proof

/-- A write's response finds no forwarded role and changes nothing, passes back with an error, or passes back and is
taken by each window's rule (R164). -/
theorem completeWrite_cases (w : Write) (s : State) :
    (forwardedRole s .write w.id = none ∧ completeWrite w s = s) ∨
    ∃ role, forwardedRole s .write w.id = some role ∧
      ((isOkay w.resp = false ∧ completeWrite w s = countViewWrite w (returnWrite w s)) ∨
        (isOkay w.resp = true ∧ completeWrite w s =
          writeCommand role w (writeWindows role w (countViewWrite w (returnWrite w s))))) := by
  unfold completeWrite
  cases h : forwardedRole s .write w.id with
  | none => exact .inl ⟨rfl, rfl⟩
  | some role =>
    refine .inr ⟨role, rfl, ?_⟩
    cases hr : isOkay w.resp
    · exact .inl ⟨rfl, rfl⟩
    · exact .inr ⟨rfl, rfl⟩

/-- A row that names a write by a window: not its event, or the write completes. -/
theorem windowWrite_cases (covers : Windows → Bool) (w : Write) (s : State) :
    (windowWrite covers w s = s ∧ ∀ p, s.su.setup = some p → covers p.windows = false) ∨
      ∃ p, s.su.setup = some p ∧ covers p.windows = true ∧ windowWrite covers w s = completeWrite w s := by
  unfold windowWrite
  cases h : s.su.setup with
  | none => exact .inl ⟨rfl, fun p hp => by cases hp⟩
  | some p =>
    cases hc : covers p.windows with
    | false => exact .inl ⟨by simp [hc], fun q hq => by cases hq; exact hc⟩
    | true => exact .inr ⟨p, rfl, hc, by simp [hc]⟩

/-- A row that names a write by a command code: not its event, or the write completes. -/
theorem commandWrite_cases (codes : Byte → Bool) (w : Write) (s : State) :
    (commandWrite codes w s = s ∧
      ¬(coversWhole w (commandWordAddr s) 4 = true ∧ codes (writtenCode s w) = true)) ∨
      (coversWhole w (commandWordAddr s) 4 = true ∧ codes (writtenCode s w) = true ∧
        commandWrite codes w s = completeWrite w s) := by
  unfold commandWrite
  by_cases h : coversWhole w (commandWordAddr s) 4 = true ∧ codes (writtenCode s w) = true
  · exact .inr ⟨h.1, h.2, by simp [h.1, h.2]⟩
  · exact .inl ⟨if_neg (by simpa using h), h⟩

/-- A write that reaches no byte of a ring of slots touches none of them. -/
theorem touchedSlots_nil (w : Write) (base count part : Nat) (hp : part ≤ 256)
    (h : touches w base (count * 256) = false) : touchedSlots w base count part = [] := by
  rw [touchedSlots, List.filter_eq_nil_iff]
  intro k hk
  rw [List.mem_range] at hk
  intro ht
  simp only [touches, overlaps, Bool.and_eq_true, decide_eq_true_eq, Bool.and_eq_false_iff, decide_eq_false_iff_not]
    at h ht
  simp only [Config.slotBytes] at ht
  omega

/-- A write outside the uplink slots captures nothing. -/
theorem writeUlSlots_outside (p : Setup) (w : Write) (s : State)
    (h : touches w p.windows.ulSlots (p.windows.ulCount * 256) = false) : writeUlSlots p w s = s := by
  simp only [writeUlSlots, Config.slotBytes, touchedSlots_nil w _ _ 256 (Nat.le_refl _) h, captureSlots, State.report]
  rfl

/-- A write outside the downlink slots writes no record. -/
theorem writeDlSlots_outside (p : Setup) (w : Write) (s : State)
    (h : touches w p.windows.dlSlots (p.windows.dlCount * 256) = false) : writeDlSlots p w s = s := by
  simp only [writeDlSlots, touchedSlots_nil w _ _ 12 (by omega) h, writeRecords]

/-- A write that reaches no window watched for RADIO changes nothing there. -/
theorem writeRadio_outside (p : Setup) (w : Write) (s : State)
    (h1 : touches w p.windows.ulSlots (p.windows.ulCount * 256) = false)
    (h2 : touches w p.windows.ulProducer 4 = false) : writeRadio p w s = s := by
  simp only [writeRadio, writeUlSlots_outside p w s h1, writeUlIndex, h2, Bool.false_eq_true, if_false]

/-- A write that reaches no window watched for APP changes nothing there. -/
theorem writeApp_outside (p : Setup) (w : Write) (s : State)
    (h1 : touches w p.windows.dlSlots (p.windows.dlCount * 256) = false)
    (h2 : touches w p.windows.dlProducer 4 = false) (h3 : touches w p.windows.reportConsumer 4 = false) :
    writeApp p w s = s := by
  simp only [writeApp, writeDlSlots_outside p w s h1, writeDlIndex, writeConsumer, h2, h3, Bool.false_eq_true, if_false]

/-- A write of no whole command word is no command. -/
theorem writeCommand_outside (role : Role) (w : Write) (s : State)
    (h : coversWhole w (commandWordAddr s) 4 = false) : writeCommand role w s = s := by
  simp only [writeCommand, isCommandWrite, h, Bool.and_false, Bool.false_eq_true, if_false]

/-- Returning a write's response changes the Path Unit alone. -/
theorem returnWrite_frame (w : Write) (s : State) :
    returnWrite w s = { s with pu := (returnWrite w s).pu } ∧ (returnWrite w s).pu.up = [⟨w.id, w.resp, []⟩] ∧
      (returnWrite w s).pu.waitSu = s.pu.waitSu ∧ (returnWrite w s).pu.waitRpu = s.pu.waitRpu :=
  ⟨rfl, rfl, rfl, rfl⟩

/-- A response matched with an injected transaction frees its place on its channel alone. -/
theorem takeInjected_cases (s s1 : State) (ch : Channel) (id : AxiId) (q : InjRequest)
    (h : takeInjected s ch id = some (q, s1)) :
    ∃ tx rest, tx.request = q ∧ (match ch with
      | .read => takeIssued id s.pu.issuedRead = some (.injected tx, rest) ∧
          s1 = { s with pu := { s.pu with issuedRead := rest } }
      | .write => takeIssued id s.pu.issuedWrite = some (.injected tx, rest) ∧
          s1 = { s with pu := { s.pu with issuedWrite := rest } }) := by
  cases ch <;> simp only [takeInjected] at h <;> split at h <;>
    first
    | (rename_i tx rest e
       injection h with h
       injection h with h1 h2
       exact ⟨tx, rest, h1, e, h2.symm⟩)
    | contradiction

/-- What the command state does with a command word write (R171). -/
theorem takeCommand_cases (code : Byte) (arg : Half) (judge : Half → State → State) (s : State) :
    (s.su.command.phase = .idle ∧ takeCommand code arg judge s = judge arg (beginCommand code arg s)) ∨
    (s.su.command.phase = .pending ∧ takeCommand code arg judge s =
      { s with su := { s.su with command := { s.su.command with busy := true } } }) ∨
    (s.su.command.phase = .closing ∧ takeCommand code arg judge s =
      if s.su.command.busyWrite then s
      else { s with su := { s.su with command := { s.su.command with refused := some (code, arg) } } }) := by
  cases h : s.su.command.phase
  · refine .inl ⟨rfl, ?_⟩
    simp only [takeCommand, h]
  · refine .inr (.inl ⟨rfl, ?_⟩)
    simp only [takeCommand, h]
  · refine .inr (.inr ⟨rfl, ?_⟩)
    simp only [takeCommand, h]

/-- The final status decided while the PENDING write is unanswered waits for its answer (R171). -/
theorem decideCommand_waits (v : CmdStatus) (s : State) (h : s.su.command.pendingAnswered = false) :
    decideCommand v s = { s with su := { s.su with command := { s.su.command with verdict := some v } } } := by
  simp only [decideCommand, settleCommand, h, Bool.false_eq_true, and_false, if_false]

/-- The final status decided in CLOSING or IDLE is noted and nothing is handed in. -/
theorem decideCommand_not_pending (v : CmdStatus) (s : State) (h : s.su.command.phase ≠ .pending) :
    decideCommand v s = { s with su := { s.su with command := { s.su.command with verdict := some v } } } := by
  simp only [decideCommand, settleCommand, h, false_and, if_false]

/-- A write leaves the number of cells. -/
theorem writeCells_length (w : Write) (a : Nat) (cs : List (Option Byte)) : (writeCells w a cs).length = cs.length := by
  induction cs generalizing a with
  | nil => rfl
  | cons c cs ih => simp only [writeCells, List.length_cons, ih]

/-- A cell after a write: the byte written with its strobe active, else what it held (R2, R15). -/
theorem cellAt_writeCells (w : Write) (a : Nat) (cs : List (Option Byte)) (i : Nat) (h : i < cs.length) :
    cellAt (writeCells w a cs) i = (activeByte w (a + i)).or (cellAt cs i) := by
  induction cs generalizing a i with
  | nil => cases h
  | cons c cs ih =>
    cases i with
    | zero =>
      simp only [writeCells, cellAt, List.getElem?_cons_zero, Nat.add_zero, Option.join_some]
      cases activeByte w a <;> rfl
    | succ i =>
      have := ih (a + 1) i (Nat.lt_of_succ_lt_succ h)
      simp only [cellAt, writeCells, List.getElem?_cons_succ] at this ⊢
      rw [this, Nat.add_right_comm, Nat.add_assoc]

/-- The capture of one slot: its PENDING entry is filled; a new one joins, with room or after the oldest is dropped; or
nothing is captured (R2, R3). -/
theorem captureSlot_cases (w : Write) (base : Nat) (now : Qt) (k : Nat) (u : CaptureUnit) :
    ((u.filling.any (fun e => decide (e.slot = k)) = true) ∧ captureSlot w base now k u =
      ({ u with filling := u.filling.map (fun e => if e.slot = k then fillEntry w base e else e) }, [])) ∨
    (u.filling.any (fun e => decide (e.slot = k)) = false ∧
      ((u.inUse < 32 ∧ captureSlot w base now k u =
          ({ u with filling := u.filling ++ [fillEntry w base (newEntry k now)] }, [])) ∨
        (32 ≤ u.inUse ∧ oldestEntry now u.filling = none ∧
          captureSlot w base now k u = (u, [recCaptureOverflow k none now])) ∨
        ∃ o, 32 ≤ u.inUse ∧ oldestEntry now u.filling = some o ∧ captureSlot w base now k u =
          ({ u with filling := u.filling.filter (fun e => decide (e.slot ≠ o.slot)) ++
              [fillEntry w base (newEntry k now)] }, [recCaptureOverflow k (some o.slot) now]))) := by
  cases h : u.filling.any (fun e => decide (e.slot = k)) with
  | true =>
    refine .inl ⟨rfl, ?_⟩
    rw [captureSlot, if_pos h]
  | false =>
    refine .inr ⟨rfl, ?_⟩
    have hn : ¬ (u.filling.any (fun e => decide (e.slot = k)) = true) := by
      rw [h]
      exact Bool.false_ne_true
    by_cases hu : u.inUse < 32
    · refine .inl ⟨hu, ?_⟩
      have hm : makeRoom k now u = (some u.filling, []) := if_pos hu
      rw [captureSlot, if_neg hn, hm]
    · have hu' : 32 ≤ u.inUse := Nat.le_of_not_lt hu
      cases ho : oldestEntry now u.filling with
      | none =>
        refine .inr (.inl ⟨hu', rfl, ?_⟩)
        have hm : makeRoom k now u = (none, [recCaptureOverflow k none now]) := by
          rw [makeRoom, if_neg (show ¬ u.inUse < Config.captureEntries from hu), ho]
        rw [captureSlot, if_neg hn, hm]
      | some o =>
        refine .inr (.inr ⟨o, hu', rfl, ?_⟩)
        have hm : makeRoom k now u = (some (u.filling.filter (fun e => decide (e.slot ≠ o.slot))),
            [recCaptureOverflow k (some o.slot) now]) := by
          rw [makeRoom, if_neg (show ¬ u.inUse < Config.captureEntries from hu), ho]
        rw [captureSlot, if_neg hn, hm]

/-- The commit of one slot: its PENDING entry is queued, a placeholder joins, or it is settled at once (R7). -/
theorem commitSlot_cases (count : Nat) (now : Qt) (k : Nat) (u : CaptureUnit) :
    (∃ e, u.filling.find? (fun e => decide (e.slot = k)) = some e ∧ commitSlot count now k u =
      ({ u.countCommitted with
          filling := u.filling.filter (fun x => decide (x.slot ≠ k))
          queue := u.queue ++ [.captured e now] }, [])) ∨
    (u.filling.find? (fun e => decide (e.slot = k)) = none ∧
      ((u.queue.length < count ∧ commitSlot count now k u =
          ({ u.countCommitted with queue := u.queue ++ [.placeholder k now] }, [])) ∨
        (count ≤ u.queue.length ∧
          commitSlot count now k u = (u.countCommitted.countUncaptured, [recSlotUncaptured k now])))) := by
  unfold commitSlot
  cases h : u.filling.find? (fun e => decide (e.slot = k)) with
  | some e => exact .inl ⟨e, rfl, rfl⟩
  | none =>
    refine .inr ⟨rfl, ?_⟩
    by_cases hq : u.queue.length < count
    · exact .inl ⟨hq, if_pos hq⟩
    · exact .inr ⟨Nat.le_of_not_lt hq, if_neg hq⟩

end Sys2Proof.Machine
end

