-- ==== Sys2Proof/Laws/Outcome.lean ====
section
/-! SUPPORT. No command stops the part: every command answers a next state in every state. -/

namespace Sys2Proof.Machine

open Sys2Proof

/-- `exec` answers a next state for every command and every state. -/
theorem exec_next (c : Instr) (s : State) : ∃ t, exec c s = .next t := by
  cases c <;> exact ⟨_, rfl⟩

/-- `step` answers a next state for every state. -/
theorem step_next (s : State) : ∃ t, step s = .next t := by
  cases h : s.pending with
  | nil => exact ⟨s, by simp only [step, h]⟩
  | cons c rest =>
    obtain ⟨t, ht⟩ := exec_next c { s with pending := rest }
    exact ⟨t, by simp only [step, h, ht]⟩

end Sys2Proof.Machine
end

