-- ==== Sys2Proof/Laws/Reports.lean ====
section
/-! SUPPORT. Handing records over: the fields of the Report Unit it leaves alone, and the bounds it keeps; what the judging
of heads leaves. -/

namespace Sys2Proof.Machine

open Sys2Proof

/-- What handing one record over can do: join the tail, or one drop. -/
theorem ReportUnit.handOver_cases (u : ReportUnit) (r : Record) :
    (u.ring = .running ∧ u.queue.length < 32 ∧ u.handOver r = { u with queue := u.queue ++ [r] }) ∨
      (¬(u.ring = .running ∧ u.queue.length < 32) ∧ u.handOver r =
        { u with pendingDrops := min 65535 (u.pendingDrops + 1), totalDrops := u.totalDrops + 1, dropFlag := true }) := by
  by_cases h : u.ring = .running ∧ u.queue.length < 32
  · exact .inl ⟨h.1, h.2, by simp [ReportUnit.handOver, Config.reportQueueDepth, h]⟩
  · exact .inr ⟨h, by simp only [ReportUnit.handOver, Config.reportQueueDepth, h, if_false]; rfl⟩

/-- The fields that no record handed over changes. -/
theorem ReportUnit.handOver_frame (u : ReportUnit) (r : Record) :
    u.handOver r = { u with
      queue := (u.handOver r).queue, pendingDrops := (u.handOver r).pendingDrops,
      totalDrops := (u.handOver r).totalDrops, dropFlag := (u.handOver r).dropFlag } := by
  rcases u.handOver_cases r with ⟨-, -, h⟩ | ⟨-, h⟩ <;> rw [h]

/-- The fields that no records handed over change. -/
theorem ReportUnit.handOverAll_frame (u : ReportUnit) (rs : List Record) :
    u.handOverAll rs = { u with
      queue := (u.handOverAll rs).queue, pendingDrops := (u.handOverAll rs).pendingDrops,
      totalDrops := (u.handOverAll rs).totalDrops, dropFlag := (u.handOverAll rs).dropFlag } := by
  induction rs generalizing u with
  | nil => rfl
  | cons r rs ih =>
    have h1 := ih (u.handOver r)
    have h2 := u.handOver_frame r
    simp only [ReportUnit.handOverAll]
    generalize (u.handOver r).handOverAll rs = w at h1 ⊢
    generalize u.handOver r = v at h1 h2
    cases w
    cases v
    cases u
    simp_all

@[simp] theorem ReportUnit.handOverAll_nil (u : ReportUnit) : u.handOverAll [] = u := rfl

@[simp] theorem ReportUnit.handOverAll_one (u : ReportUnit) (r : Record) : u.handOverAll [r] = u.handOver r := rfl

@[simp] theorem ReportUnit.handOverAll_ring (u : ReportUnit) (rs : List Record) : (u.handOverAll rs).ring = u.ring := by
  rw [u.handOverAll_frame rs]

@[simp] theorem ReportUnit.handOverAll_producer (u : ReportUnit) (rs : List Record) :
    (u.handOverAll rs).producer = u.producer := by
  rw [u.handOverAll_frame rs]

@[simp] theorem ReportUnit.handOverAll_consumer (u : ReportUnit) (rs : List Record) :
    (u.handOverAll rs).consumer = u.consumer := by
  rw [u.handOverAll_frame rs]

@[simp] theorem ReportUnit.handOverAll_phase (u : ReportUnit) (rs : List Record) :
    (u.handOverAll rs).phase = u.phase := by
  rw [u.handOverAll_frame rs]

@[simp] theorem ReportUnit.handOverAll_inFlight (u : ReportUnit) (rs : List Record) :
    (u.handOverAll rs).inFlight = u.inFlight := by
  rw [u.handOverAll_frame rs]

@[simp] theorem ReportUnit.handOverAll_craneLatch (u : ReportUnit) (rs : List Record) :
    (u.handOverAll rs).craneLatch = u.craneLatch := by
  rw [u.handOverAll_frame rs]

@[simp] theorem ReportUnit.handOverAll_pulseStart (u : ReportUnit) (rs : List Record) :
    (u.handOverAll rs).pulseStart = u.pulseStart := by
  rw [u.handOverAll_frame rs]

/-- No record handed over takes the queue past 32, nor the pending drop count past 65535. -/
theorem ReportUnit.handOverAll_bounds (u : ReportUnit) (rs : List Record) (h : u.queue.length ≤ 32)
    (hd : u.pendingDrops ≤ 65535) :
    (u.handOverAll rs).queue.length ≤ 32 ∧ (u.handOverAll rs).pendingDrops ≤ 65535 := by
  induction rs generalizing u with
  | nil => exact ⟨h, hd⟩
  | cons r rs ih =>
    refine ih (u.handOver r) ?_ ?_ <;> rcases u.handOver_cases r with ⟨-, hl, hu⟩ | ⟨-, hu⟩ <;> rw [hu]
    · simp only [List.length_append, List.length_singleton]
      omega
    · exact h
    · exact hd
    · simp only
      omega

/-- The judging of heads leaves no longer a queue and changes neither the ring's positions nor its state. -/
theorem takeHead_frame (free : Nat) (rs : List Record) (u : ReportUnit) :
    (takeHead free rs u).1 = { u with
      queue := (takeHead free rs u).1.queue, pendingDrops := (takeHead free rs u).1.pendingDrops,
      totalDrops := (takeHead free rs u).1.totalDrops, dropFlag := (takeHead free rs u).1.dropFlag } ∧
      (takeHead free rs u).1.queue.length ≤ rs.length := by
  induction rs generalizing u with
  | nil => exact ⟨rfl, Nat.le_refl _⟩
  | cons r rs ih =>
    simp only [takeHead]
    split
    · exact ⟨rfl, Nat.le_succ _⟩
    · obtain ⟨h1, h2⟩ := ih (u.drop 1)
      refine ⟨?_, Nat.le_succ_of_le h2⟩
      conv_lhs => rw [h1]
      rfl

end Sys2Proof.Machine
end

