-- ==== Sys2Proof/Laws/Table.lean ====
section
/-! SUPPORT. The sparse tables: a read after a write of the same number gives the value written, a write leaves every
other number alone, and every table operation keeps the canonical form. -/

namespace Sys2Proof.Machine

open Sys2Proof

variable {α : Type}

/-! ### Reading back -/

theorem Table.find_filter_ne (i j : Nat) (cs : List (Nat × α)) (h : j ≠ i) :
    (cs.filter (fun c => c.1 != i)).find? (fun c => c.1 == j) = cs.find? (fun c => c.1 == j) := by
  induction cs with
  | nil => rfl
  | cons c cs ih =>
    by_cases hc : c.1 = i
    · have h1 : (c.1 != i) = false := by simp [hc]
      have h2 : (c.1 == j) = false := by
        simp only [beq_eq_false_iff_ne, ne_eq]
        omega
      simp only [List.filter_cons, h1, List.find?_cons, h2]
      exact ih
    · have h1 : (c.1 != i) = true := by simp [hc]
      simp only [List.filter_cons, h1, if_true, List.find?_cons, ih]

theorem Table.find_filter_same (i : Nat) (cs : List (Nat × α)) :
    (cs.filter (fun c => c.1 != i)).find? (fun c => c.1 == i) = none := by
  simp only [List.find?_eq_none, List.mem_filter]
  rintro c ⟨-, h⟩
  simpa using h

theorem Table.find_insertCell_same (i : Nat) (v : α) (cs : List (Nat × α)) (h : cs.find? (fun c => c.1 == i) = none) :
    (Table.insertCell i v cs).find? (fun c => c.1 == i) = some (i, v) := by
  induction cs with
  | nil => simp [Table.insertCell]
  | cons c cs ih =>
    simp only [List.find?_cons] at h
    by_cases hc : c.1 = i
    · simp [hc] at h
    · have h1 : (c.1 == i) = false := by simp [hc]
      simp only [h1] at h
      simp only [Table.insertCell]
      split
      · simp only [List.find?_cons, h1]
        exact ih h
      · simp

theorem Table.find_insertCell_other (i j : Nat) (v : α) (cs : List (Nat × α)) (h : j ≠ i) :
    (Table.insertCell i v cs).find? (fun c => c.1 == j) = cs.find? (fun c => c.1 == j) := by
  have h1 : (i == j) = false := by
    simp only [beq_eq_false_iff_ne, ne_eq]
    omega
  induction cs with
  | nil => simp [Table.insertCell, h1]
  | cons c cs ih =>
    simp only [Table.insertCell]
    split
    · simp only [List.find?_cons, ih]
    · simp only [List.find?_cons, h1]

/-- A number reads back what was last written there. -/
@[simp] theorem Table.get_set_same [DecidableEq α] (t : Table α) (d : α) (i : Nat) (v : α) :
    (t.set d i v).get d i = v := by
  simp only [Table.set]
  split
  · rename_i h
    simp only [Table.get, Table.find_filter_same]
    exact h.symm
  · simp only [Table.get, Table.find_insertCell_same i v _ (Table.find_filter_same i _)]

/-- A write leaves every other number as it was. -/
theorem Table.get_set_other [DecidableEq α] (t : Table α) (d : α) (i j : Nat) (v : α) (h : j ≠ i) :
    (t.set d i v).get d j = t.get d j := by
  simp only [Table.set]
  split
  · simp only [Table.get, Table.find_filter_ne i j _ h]
  · simp only [Table.get, Table.find_insertCell_other i j v _ h, Table.find_filter_ne i j _ h]

/-- What a table reads after a write. -/
theorem Table.get_set [DecidableEq α] (t : Table α) (d : α) (i j : Nat) (v : α) :
    (t.set d i v).get d j = if j = i then v else t.get d j := by
  split
  · rename_i h
    rw [h, Table.get_set_same]
  · rename_i h
    exact Table.get_set_other t d i j v h

@[simp] theorem Table.get_empty (d : α) (i : Nat) : (⟨[]⟩ : Table α).get d i = d := rfl

/-- A number not listed reads the default. -/
theorem Table.get_of_not_listed (t : Table α) (d : α) (i : Nat) (h : i ∉ t.numbers) : t.get d i = d := by
  have : t.cells.find? (fun c => c.1 == i) = none := by
    simp only [List.find?_eq_none]
    intro c hc he
    exact h (List.mem_map.mpr ⟨c, hc, by simpa using he⟩)
  simp only [Table.get, this]

/-- What a table reads after each of a list of numbers has been changed, where changing twice is changing once. -/
theorem Table.get_modifyAll [DecidableEq α] (d : α) (f : α → α) (hf : ∀ x, f (f x) = f x) (is : List Nat) (t : Table α)
    (j : Nat) : (Table.modifyAll d f is t).get d j = if j ∈ is then f (t.get d j) else t.get d j := by
  induction is generalizing t with
  | nil => simp [Table.modifyAll]
  | cons i is ih =>
    simp only [Table.modifyAll, ih, Table.modify, Table.get_set, List.mem_cons]
    by_cases h1 : j ∈ is <;> by_cases h2 : j = i <;> simp [h1, h2, hf]

/-! ### The canonical form -/

/-- The numbers of a list of cells rise strictly, and none of them holds the default. -/
def Table.Canonical (d : α) (cs : List (Nat × α)) : Prop :=
  cs.Pairwise (fun a b => a.1 < b.1) ∧ ∀ c ∈ cs, c.2 ≠ d

theorem zip_drop_rising (l : List Nat) :
    (l.zip (l.drop 1)).all (fun p => decide (p.1 < p.2)) = true ↔ l.Pairwise (· < ·) := by
  induction l with
  | nil => simp
  | cons a l ih =>
    cases l with
    | nil => simp
    | cons b l =>
      simp only [List.drop_succ_cons, List.drop_zero] at ih ⊢
      simp only [List.zip_cons_cons, List.all_cons, Bool.and_eq_true, decide_eq_true_eq, List.pairwise_cons (a := a)]
      rw [ih]
      constructor
      · rintro ⟨h1, h2⟩
        refine ⟨?_, h2⟩
        intro c hc
        rcases List.mem_cons.mp hc with rfl | hc
        · exact h1
        · exact Nat.lt_trans h1 ((List.pairwise_cons.mp h2).1 c hc)
      · rintro ⟨h1, h2⟩
        exact ⟨h1 b (List.mem_cons_self ..), h2⟩

/-- `Table.wf` says that the cells are canonical. -/
theorem Table.wf_iff [DecidableEq α] (t : Table α) (d : α) : t.wf d = true ↔ Table.Canonical d t.cells := by
  rw [Table.wf, Bool.and_eq_true, zip_drop_rising]
  simp only [Table.numbers, List.pairwise_map, Table.Canonical, List.all_eq_true, decide_eq_true_eq]

theorem Table.insertCell_canonical (d : α) (i : Nat) (v : α) (cs : List (Nat × α)) (h : Table.Canonical d cs)
    (hi : ∀ c ∈ cs, c.1 ≠ i) (hv : v ≠ d) :
    Table.Canonical d (Table.insertCell i v cs) ∧ ∀ c ∈ Table.insertCell i v cs, c = (i, v) ∨ c ∈ cs := by
  induction cs with
  | nil => exact ⟨⟨by simp [Table.insertCell], by simpa [Table.insertCell] using hv⟩, by simp [Table.insertCell]⟩
  | cons c cs ih =>
    obtain ⟨hp, hd⟩ := h
    rw [List.pairwise_cons] at hp
    simp only [Table.insertCell]
    split
    · rename_i hlt
      obtain ⟨⟨ip, id'⟩, im⟩ := ih ⟨hp.2, fun x hx => hd x (List.mem_cons_of_mem _ hx)⟩
        (fun x hx => hi x (List.mem_cons_of_mem _ hx))
      refine ⟨⟨List.pairwise_cons.mpr ⟨?_, ip⟩, ?_⟩, ?_⟩
      · intro x hx
        rcases im x hx with rfl | hx
        · exact hlt
        · exact hp.1 x hx
      · intro x hx
        rcases List.mem_cons.mp hx with rfl | hx
        · exact hd _ (List.mem_cons_self ..)
        · exact id' x hx
      · intro x hx
        rcases List.mem_cons.mp hx with rfl | hx
        · exact .inr (List.mem_cons_self ..)
        · rcases im x hx with rfl | hx
          · exact .inl rfl
          · exact .inr (List.mem_cons_of_mem _ hx)
    · rename_i hge
      have hc := hi c (List.mem_cons_self ..)
      refine ⟨⟨List.pairwise_cons.mpr ⟨?_, List.pairwise_cons.mpr hp⟩, ?_⟩, ?_⟩
      · intro x hx
        rcases List.mem_cons.mp hx with rfl | hx
        · simp only; omega
        · have := hp.1 x hx
          simp only; omega
      · intro x hx
        rcases List.mem_cons.mp hx with rfl | hx
        · exact hv
        · exact hd x hx
      · intro x hx
        exact List.mem_cons.mp hx

/-- A write keeps the canonical form. -/
theorem Table.set_wf [DecidableEq α] (t : Table α) (d : α) (i : Nat) (v : α) (h : t.wf d = true) :
    (t.set d i v).wf d = true := by
  rw [Table.wf_iff] at h ⊢
  have hf : Table.Canonical d (t.cells.filter (fun c => c.1 != i)) :=
    ⟨h.1.sublist List.filter_sublist, fun c hc => h.2 c (List.mem_filter.mp hc).1⟩
  simp only [Table.set]
  split
  · exact hf
  · rename_i hv
    refine (Table.insertCell_canonical d i v _ hf ?_ hv).1
    intro c hc
    simpa using (List.mem_filter.mp hc).2

/-- Changes of one number and of several keep the canonical form. -/
theorem Table.modifyAll_wf [DecidableEq α] (d : α) (f : α → α) (is : List Nat) (t : Table α) (h : t.wf d = true) :
    (Table.modifyAll d f is t).wf d = true := by
  induction is generalizing t with
  | nil => exact h
  | cons i is ih => exact ih _ (Table.set_wf t d i _ h)

theorem Table.empty_wf [DecidableEq α] (d : α) : (⟨[]⟩ : Table α).wf d = true := rfl

/-- In the canonical form every listed cell is what its number reads. -/
theorem Table.get_of_mem [DecidableEq α] (t : Table α) (d : α) (h : t.wf d = true) (c : Nat × α) (hc : c ∈ t.cells) :
    t.get d c.1 = c.2 := by
  rw [Table.wf_iff] at h
  obtain ⟨hp, -⟩ := h
  have : t.cells.find? (fun x => x.1 == c.1) = some c := by
    generalize t.cells = cs at hp hc
    induction cs with
    | nil => cases hc
    | cons a cs ih =>
      rw [List.pairwise_cons] at hp
      rcases List.mem_cons.mp hc with rfl | hc
      · simp
      · have := hp.1 c hc
        have ha : (a.1 == c.1) = false := by
          simp only [beq_eq_false_iff_ne, ne_eq]
          omega
        simp only [List.find?_cons, ha]
        exact ih hp.2 hc
  simp only [Table.get, this]

/-! ### The four tables of the part -/

@[simp] theorem CraneUnit.crane_setCrane (u : CraneUnit) (n m : Nat) (c : Crane) :
    (u.setCrane n c).crane m = if m = n then c else u.crane m := Table.get_set u.cranes Crane.initial n m c

@[simp] theorem CaptureUnit.record_setRecord (u : CaptureUnit) (k j : Nat) (r : DlRecord) :
    (u.setRecord k r).record j = if j = k then r else u.record j := Table.get_set u.records DlRecord.blank k j r

@[simp] theorem CoverageUnit.segment_setSegment (u : CoverageUnit) (n m : Nat) (g : Segment) :
    (u.setSegment n g).segment m = if m = n then g else u.segment m := Table.get_set u.segments Segment.blank n m g

@[simp] theorem ReeferUnit.entry_setEntry (u : ReeferUnit) (i j : Nat) (e : Option Reefer) :
    (u.setEntry i e).entry j = if j = i then e else u.entry j := Table.get_set u.table none i j e

theorem CraneUnit.setCrane_wf (u : CraneUnit) (n : Nat) (c : Crane) (h : u.cranes.wf Crane.initial = true) :
    (u.setCrane n c).cranes.wf Crane.initial = true := Table.set_wf _ _ _ _ h

theorem CaptureUnit.setRecord_wf (u : CaptureUnit) (k : Nat) (r : DlRecord) (h : u.records.wf DlRecord.blank = true) :
    (u.setRecord k r).records.wf DlRecord.blank = true := Table.set_wf _ _ _ _ h

theorem CoverageUnit.setSegment_wf (u : CoverageUnit) (n : Nat) (g : Segment) (h : u.segments.wf Segment.blank = true) :
    (u.setSegment n g).segments.wf Segment.blank = true := Table.set_wf _ _ _ _ h

theorem ReeferUnit.setEntry_wf (u : ReeferUnit) (i : Nat) (e : Option Reefer) (h : u.table.wf none = true) :
    (u.setEntry i e).table.wf none = true := Table.set_wf _ _ _ _ h

end Sys2Proof.Machine
end

