-- ==== Sys2Proof/Laws/Timing.lean ====
section
/-! SUPPORT. The silence scan visits: what one visit and the visits due up to an index can change. -/

namespace Sys2Proof.Machine

open Sys2Proof

/-- What one silence scan visit can do: pass over, make the entry LOST, or excuse or declare its silence (R105 to
R107). -/
theorem visitReefer_cases (p : Setup) (i : Nat) (s : State) :
    visitReefer p i s = s ∨ ∃ e, s.rfu.entry i = some e ∧
      ((lossReached p s.su.qt e = true ∧ visitReefer p i s = loseReefer i e s) ∨
        (lossReached p s.su.qt e = false ∧ silenceReached p s.su.qt e = true ∧
          visitReefer p i s = silenceReefer p i e s)) := by
  unfold visitReefer
  cases h : s.rfu.entry i with
  | none => exact .inl rfl
  | some e =>
    cases hl : lossReached p s.su.qt e with
    | true => exact .inr ⟨e, rfl, .inl ⟨hl, by simp [hl]⟩⟩
    | false =>
      cases hs : silenceReached p s.su.qt e with
      | true => exact .inr ⟨e, rfl, .inr ⟨hl, hs, by simp [hl, hs]⟩⟩
      | false => exact .inl (by simp [hl, hs])

/-- A visit changes the reefer table and the Report Unit alone. -/
theorem visitReefer_frame (p : Setup) (i : Nat) (s : State) :
    visitReefer p i s = { s with
      rfu := { s.rfu with table := (visitReefer p i s).rfu.table }, rpu := (visitReefer p i s).rpu } := by
  rcases visitReefer_cases p i s with h | ⟨e, -, ⟨-, h⟩ | ⟨-, -, h⟩⟩ <;> rw [h]
  · rfl
  · simp only [silenceReefer]
    split <;> rfl

/-- Visits change the reefer table and the Report Unit alone. -/
theorem visitReefers_frame (p : Setup) (is : List Nat) (s : State) :
    visitReefers p is s = { s with
      rfu := { s.rfu with table := (visitReefers p is s).rfu.table }, rpu := (visitReefers p is s).rpu } := by
  induction is generalizing s with
  | nil => rfl
  | cons i is ih =>
    have h1 := ih (visitReefer p i s)
    have h2 := visitReefer_frame p i s
    simp only [visitReefers]
    generalize visitReefers p is (visitReefer p i s) = w at h1 ⊢
    generalize visitReefer p i s = v at h1 h2
    rw [h1, h2]

/-- The visits due up to the first of the list are that visit alone. -/
@[simp] theorem cutVisits_head (i : Nat) (rest : List Nat) : cutVisits i (i :: rest) = ([i], rest) := if_pos rfl

/-- The visits due up to a later one begin with the first. -/
theorem cutVisits_later (i j : Nat) (rest : List Nat) (h : j ≠ i) :
    cutVisits i (j :: rest) = (j :: (cutVisits i rest).1, (cutVisits i rest).2) := if_neg h

/-- The first visit due taken by its row (R105). -/
theorem takeVisits_head (p : Setup) (i : Nat) (rest : List Nat) (s : State) (h : s.due.visits = i :: rest) :
    takeVisits p i s = { visitReefer p i s with due := { s.due with visits := rest } } := by
  simp only [takeVisits, h, cutVisits_head, visitReefers]

end Sys2Proof.Machine
end

