-- ==== Sys2Proof/Laws/Views.lean ====
section
/-! SUPPORT. The burst a read beat belongs to: what beginning one leaves alone, and what a beat passed leaves of the units
that no beat changes. -/

namespace Sys2Proof.Machine

open Sys2Proof

/-- Nothing but the View Unit and the Path Unit's bursts in flight differs between the two states. -/
def onlyViewsDiffer (s t : State) : Prop :=
  t = { s with vu := t.vu, pu := { s.pu with openReads := t.pu.openReads } } ∧ t.vu.writes = s.vu.writes

theorem onlyViewsDiffer.refl (s : State) : onlyViewsDiffer s s := ⟨rfl, rfl⟩

theorem onlyViewsDiffer.trans {s t u : State} (h : onlyViewsDiffer s t) (k : onlyViewsDiffer t u) :
    onlyViewsDiffer s u := by
  obtain ⟨h1, h2⟩ := h
  obtain ⟨k1, k2⟩ := k
  refine ⟨?_, k2.trans h2⟩
  rw [k1, h1]

theorem setViewState_writes (u : ViewUnit) (v : View) (x : ViewState) : (setViewState u v x).writes = u.writes := by
  cases v <;> rfl

theorem takeCoverage_writes (xs : List ViewBinding) (u : ViewUnit) : (takeCoverage xs u).writes = u.writes := by
  induction xs generalizing u with
  | nil => rfl
  | cons x xs ih =>
    simp only [takeCoverage, ih]
    split
    · exact setViewState_writes ..
    · rfl

theorem finishBurst_only (o : OpenRead) (s : State) : onlyViewsDiffer s (finishBurst o s) :=
  ⟨rfl, takeCoverage_writes ..⟩

theorem finishPassed_only (os : List OpenRead) (s : State) : onlyViewsDiffer s (finishPassed os s) := by
  induction os generalizing s with
  | nil => exact .refl s
  | cons o os ih =>
    simp only [finishPassed]
    split
    · exact (finishBurst_only o s).trans (ih _)
    · exact ih s

theorem refreshSnapshot_only (v : View) (s : State) : onlyViewsDiffer s (refreshSnapshot v s) :=
  ⟨rfl, setViewState_writes ..⟩

theorem bindView_only (p : Setup) (b : ReadBeat) (v : View) (s : State) : onlyViewsDiffer s (bindView p b v s).1 := by
  simp only [bindView]
  split
  · exact .refl s
  · simp only [readySnapshot]
    split
    · exact refreshSnapshot_only v s
    · exact .refl s

theorem bindViews_only (p : Setup) (b : ReadBeat) (vs : List View) (s : State) :
    onlyViewsDiffer s (bindViews p b vs s).1 := by
  induction vs generalizing s with
  | nil => exact .refl s
  | cons v vs ih => exact (bindView_only p b v s).trans (ih _)

theorem beginBurst_only (b : ReadBeat) (role : Role) (s : State) : onlyViewsDiffer s (beginBurst b role s).2 := by
  have h := finishPassed_only s.pu.openReads s
  simp only [beginBurst]
  split
  · exact h
  · split
    · exact h.trans (bindViews_only ..)
    · exact h

/-- The state a beat's burst is begun in differs in the View Unit and the bursts in flight alone. -/
theorem burstOf_only (b : ReadBeat) (s s1 : State) (o : OpenRead) (h : burstOf b s = some (o, s1)) :
    onlyViewsDiffer s s1 := by
  simp only [burstOf] at h
  split at h
  · simp only [Option.some.injEq, Prod.mk.injEq] at h
    rw [← h.2]
    exact .refl s
  · split at h
    · rename_i role _
      simp only [Option.some.injEq] at h
      have := beginBurst_only b role s
      rw [h] at this
      exact this
    · cases h

theorem overlayBytes_length (s : State) (t : Windows) (a : Nat) (bs : List Byte) :
    (overlayBytes s t a bs).length = bs.length := by
  induction bs generalizing a with
  | nil => rfl
  | cons b bs ih => simp only [overlayBytes, List.length_cons, ih]

theorem overlayBytes_get (s : State) (t : Windows) (a : Nat) (bs : List Byte) (j : Nat) :
    (overlayBytes s t a bs)[j]? = (bs[j]?).map (overlayByte s t (a + j)) := by
  induction bs generalizing a j with
  | nil => rfl
  | cons b bs ih =>
    cases j with
    | zero => rfl
    | succ j =>
      simp only [overlayBytes, List.getElem?_cons_succ, ih]
      rw [Nat.add_right_comm, Nat.add_assoc]

theorem viewBytes_length (s : State) (t : Windows) (xs : List ViewBinding) (a : Nat) (bs : List Byte) :
    (viewBytes s t xs a bs).length = bs.length := by
  induction bs generalizing a with
  | nil => rfl
  | cons b bs ih => simp only [viewBytes, List.length_cons, ih]

theorem viewBytes_get (s : State) (t : Windows) (xs : List ViewBinding) (a : Nat) (bs : List Byte) (j : Nat) :
    (viewBytes s t xs a bs)[j]? = (bs[j]?).map (viewByte s t xs (a + j)) := by
  induction bs generalizing a j with
  | nil => rfl
  | cons b bs ih =>
    cases j with
    | zero => rfl
    | succ j =>
      simp only [viewBytes, List.getElem?_cons_succ, ih]
      rw [Nat.add_right_comm, Nat.add_assoc]

/-- A fetch of a class byte, departure or not, changes the Ring Capture Unit, one crane and the Report Unit alone. -/
theorem fetchClassByte_frame (k : Nat) (s : State) :
    fetchClassByte k s = { s with
      rcu := (fetchClassByte k s).rcu, clu := (fetchClassByte k s).clu, rpu := (fetchClassByte k s).rpu } := by
  simp only [fetchClassByte]
  split
  · rfl
  · split
    · rfl
    · split <;> rfl

theorem fetchAll_frame (ks : List Nat) (s : State) :
    fetchAll ks s = { s with rcu := (fetchAll ks s).rcu, clu := (fetchAll ks s).clu, rpu := (fetchAll ks s).rpu } := by
  induction ks generalizing s with
  | nil => rfl
  | cons k ks ih =>
    have h1 := ih (fetchClassByte k s)
    have h2 := fetchClassByte_frame k s
    simp only [fetchAll]
    generalize fetchAll ks (fetchClassByte k s) = w at h1 ⊢
    generalize fetchClassByte k s = v at h1 h2
    cases w
    cases v
    cases s
    simp_all

end Sys2Proof.Machine
end

