-- ==== Sys2Proof/Tests/Slice0.lean ====
section
/-! SUPPORT. Tests of the model, each a named theorem about one step or one operation on a small state, with expected
values from the specification's worked cases and rules; the refusal of ill-formed operands; and, for every obligation
with hypotheses, a witness that meets them. -/

namespace Sys2Proof.Tests

open Sys2Proof Sys2Proof.Machine

set_option Elab.async false

/-! ### A small running part -/

/-- Windows of a part with rings of 16, 16 and 64 slots. -/
def demoWindows : Windows where
  ulSlots        := 0x10000000
  ulProducer     := 0x10100000
  dlSlots        := 0x10200000
  dlProducer     := 0x10300000
  reportRing     := 0x10400000
  reportProducer := 0x10500000
  reportConsumer := 0x10500004
  statusPage     := 0x10600000
  craneView      := 0x10700000
  coverageView   := 0x10800000
  reeferView     := 0x10900000
  ulCount        := 16
  dlCount        := 16
  repCount       := 64

/-- A setup: AXI ID 16 is APP, 32 is RADIO, 9 the INJ_ID; crane 2 has a roster terminal, crane 7 learns its own, crane 5
has one and is enabled, the others are disabled; the coverage parameters are those of section 6.11. -/
def demoSetup : Setup where
  roles          := [⟨16, 16, .app⟩, ⟨32, 32, .radio⟩]
  injId          := 9
  windows        := demoWindows
  craneMode      := .live
  coverageMode   := .header
  roster         := [⟨1, false⟩, ⟨0, false⟩, ⟨0x0A100002, true⟩, ⟨0, false⟩, ⟨0x0B200004, true⟩, ⟨0x0A100005, true⟩,
                     ⟨0, false⟩, ⟨0, true⟩, ⟨0, false⟩, ⟨0, false⟩, ⟨0, false⟩, ⟨0, false⟩]
  timing         := ⟨300, 1000, 800, 3, 4⟩
  classes        := List.replicate 16 ⟨20, 15, 3, 2, 10, 30⟩
  plugsPerSeg    := 8
  coverage       := ⟨40, 2, 2000, 3000, -140, -40, -95, -110, -6, -18, 32, 6, 60⟩
  classMode      := .absolute
  baselines      := List.replicate 128 none
  eventThreshold := 48
  irqMode        := .latchRead
  pulseMs        := 100
  irqMask        := 0x0FFF

/-- A part RUNNING under a setup at a QT, every unit otherwise as after reset. -/
def runningAt (p : Setup) (qt : Qt) : State :=
  { State.reset with
    su := { State.reset.su with qt := qt, runState := .running, setup := some p }
    cvu := { State.reset.cvu with geometry := some (geometryOf p) } }

/-- The demo setup RUNNING at QT 1000. -/
def demo : State := runningAt demoSetup 1000

/-- A state with crane n's record changed. -/
def withCrane (n : Nat) (f : Crane → Crane) (s : State) : State := { s with clu := s.clu.setCrane n (f (s.clu.crane n)) }

/-- A state with segment g's record made `x`. -/
def withSegment (g : Nat) (x : Segment) (s : State) : State := { s with cvu := s.cvu.setSegment g x }

/-- A state with table index i made `e`. -/
def withReefer (i : Nat) (e : Reefer) (s : State) : State := { s with rfu := s.rfu.setEntry i (some e) }

/-- A state with downlink slot record k made `r`. -/
def withRecord (k : Nat) (r : DlRecord) (s : State) : State := { s with rcu := s.rcu.setRecord k r }

/-- A command's next state has the property. -/
def leads (c : Instr) (s : State) (good : State → Bool) : Bool :=
  match exec c s with
  | .next t => good t
  | _ => false

/-- The numbers as bytes. -/
def bytes (ns : List Nat) : List Byte := ns.map (BitVec.ofNat 8)

/-- An OKAY write of bytes, all strobes active. -/
def wrote (id : Nat) (addr : Nat) (bs : List Byte) : Write := ⟨BitVec.ofNat 16 id, addr, bs.map some, .okay⟩

/-- An OKAY read of one beat. -/
def readOf (id addr len : Nat) : ReadBeat := ⟨BitVec.ofNat 16 id, [⟨addr, len⟩], 0, List.replicate len 0x55, .okay⟩

/-- A CRANE_STATUS frame by the layout of 10.2: level, age, kind 1, length 9, sequence, terminal, crane, boom, echo,
position, flags. -/
def statusCells (crane terminal seq echo position age : Nat) (level : Half) : List (Option Byte) :=
  ((le16 level ++ le16 (BitVec.ofNat 16 age) ++ bytes [1, 9] ++ le16 (BitVec.ofNat 16 seq) ++
    le32 (BitVec.ofNat 32 terminal) ++ bytes [crane, 0] ++ le16 (BitVec.ofNat 16 echo) ++
    le32 (BitVec.ofNat 32 position) ++ [0]).map some)

/-- A REEFER_REPORT frame by the layout of 10.2, with no alarms. -/
def reportCells (container : List Byte) (cls power plug : Nat) (setpoint supply ret : Int) (level : Half) :
    List (Option Byte) :=
  (le16 level ++ bytes [0, 0, 3, 22, 0, 0, 7, 0, 0, 0] ++ container ++ bytes [cls, power, 0] ++
    le16 (BitVec.ofNat 16 plug) ++ le16 (half setpoint) ++ le16 (half supply) ++ le16 (half ret)).map some

/-- The state with a frame at the head of the parse queue, under parse. -/
def parsing (cells : List (Option Byte)) (commit : Qt) (s : State) : State :=
  { s with rcu := { s.rcu with queue := [.captured ⟨3, cells, commit⟩ commit], parsing := true } }

/-- Container IDs worked in section 4.2. -/
def qnsu : List Byte := bytes [0x51, 0x4E, 0x53, 0x55, 0x33, 0x30, 0x35, 0x34, 0x33, 0x38, 0x35]
def bslu : List Byte := bytes [0x42, 0x53, 0x4C, 0x55, 0x34, 0x38, 0x32, 0x31, 0x39, 0x30, 0x30]
def kxtu : List Byte := bytes [0x4B, 0x58, 0x54, 0x55, 0x32, 0x30, 0x30, 0x30, 0x30, 0x30, 0x30]

/-! ### Operands a port cannot carry are refused by `Instr.wellFormed` -/

/-- A write covers at least one byte. -/
theorem test_wf_refuses_empty_write : (Instr.ulSlotWrite ⟨32, 0x10000000, [], .okay⟩).wellFormed = false := by decide

/-- No byte lies at or above 2^40. -/
theorem test_wf_refuses_write_beyond_40_bits :
    (Instr.viewWrite ⟨16, 2 ^ 40 - 1, [none, none], .okay⟩).wellFormed = false := by decide

/-- A beat's bytes lie in one word of the 128-bit port. -/
theorem test_wf_refuses_beat_across_words :
    (Instr.viewReadBeat ⟨16, [⟨15, 2⟩], 0, [0, 0], .okay⟩).wellFormed = false := by decide

/-- A beat is one of its burst. -/
theorem test_wf_refuses_beat_beyond_burst :
    (Instr.departure ⟨32, [⟨16, 1⟩], 1, [0], .okay⟩).wellFormed = false := by decide

/-- A beat carries as many bytes of data as its span. -/
theorem test_wf_refuses_wrong_beat_data :
    (Instr.motionBytesRead ⟨32, [⟨16, 2⟩], 0, [0], .okay⟩).wellFormed = false := by decide

/-- Each form of TRANSACTION_FORWARD is checked. -/
theorem test_wf_refuses_forwards :
    (Instr.transactionForward (.readRequest 5 0 ⟨.incr, 4, 0⟩)).wellFormed = false ∧
    (Instr.transactionForward (.writeRequest 5 0 ⟨.incr, 1, 1⟩ [])).wellFormed = false ∧
    (Instr.transactionForward (.readBeat ⟨5, [], 0, [], .okay⟩)).wellFormed = false ∧
    (Instr.transactionForward (.writeResponse ⟨5, 2 ^ 40, [none], .okay⟩)).wellFormed = false := by decide

/-- A burst is one the port carries: beats of a power of two bytes up to 16, at most 256 of them, 16 for FIXED, a WRAP
burst aligned to its beat and of 2, 4, 8 or 16, every byte below 2^40, and data no longer than the burst. -/
theorem test_wf_refuses_bursts :
    BurstForm.ok ⟨.incr, 3, 1⟩ 0 = false ∧ BurstForm.ok ⟨.incr, 16, 257⟩ 0 = false ∧
    BurstForm.ok ⟨.fixed, 4, 17⟩ 0 = false ∧ BurstForm.ok ⟨.wrap, 4, 3⟩ 0 = false ∧
    BurstForm.ok ⟨.wrap, 4, 4⟩ 2 = false ∧
    (Instr.transactionForward (.readRequest 5 (2 ^ 40 - 4) ⟨.incr, 4, 2⟩)).wellFormed = false ∧
    (Instr.transactionForward (.writeRequest 5 0 ⟨.incr, 1, 1⟩ [some 1, some 2])).wellFormed = false := by
  decide +kernel

/-- A refused transaction has at least one beat. -/
theorem test_wf_refuses_no_beats : (Instr.injIdRefused 0 .read 0).wellFormed = false := by decide

/-- A setup read returns 256 bytes (R169). -/
theorem test_wf_refuses_short_setup_read : (Instr.setupReadDone 0 .okay [0]).wellFormed = false := by decide

/-- Well-formed operands pass. -/
theorem test_wf_accepts :
    (Instr.ulSlotWrite ⟨32, 0x10000000, [some 1], .okay⟩).wellFormed = true ∧
    (Instr.departure ⟨32, [⟨0x10200000, 16⟩], 0, List.replicate 16 0, .okay⟩).wellFormed = true ∧
    (Instr.injIdRefused 0 .read 1).wellFormed = true ∧
    (Instr.setupReadDone 0 .okay (List.replicate 256 0)).wellFormed = true := by decide +kernel

/-! ### The decoder and the step -/

/-- No row of the table has bits, so no word spells a command and none is put in front of the queue. -/
theorem test_no_word_spells_a_command (nbits w : Nat) :
    decodeTableWord nbits w = none ∧ demo.withFetchWord nbits w = demo := ⟨rfl, rfl⟩

/-- On an empty queue the part idles. -/
theorem test_empty_queue_idles : step demo = .next demo := rfl

/-! ### Numbers of the specification -/

/-- The check digits worked in section 4.2. -/
theorem test_check_digits :
    checkDigitOk qnsu = true ∧ checkDigitOk bslu = true ∧ checkDigitOk kxtu = true ∧
    idFormatOk qnsu = true ∧ checkDigitOk (qnsu.take 10 ++ [0x36]) = false := by decide +kernel

/-- The averaging worked in section 6.3, WEIGHT_SHIFT 3. -/
theorem test_average_worked :
    average 3 (some (-1520)) (-1760) = some (-1550) ∧ average 3 (some (-1550)) (-1280) = some (-1516) := by decide

/-- The averaging at the window's edges in section 6.3, WEIGHT_SHIFT 1. -/
theorem test_average_at_edges :
    average 1 (some (-490)) (-480) = some (-485) ∧ average 1 (some (-481)) (-480) = some (-480) ∧
    average 1 (some (-1905)) (-1920) = some (-1912) ∧ average 1 (some (-1919)) (-1920) = some (-1919) := by decide

/-- The shadow stretch worked in section 6.2: position 41000, SEG_LEN_CM 2000, SHADOW_CM 3000 covers 19 to 22. -/
theorem test_shadow_stretch :
    (List.range 40).filter (stretchCovers demoSetup.coverage 41000) = [19, 20, 21, 22] := by decide +kernel

/-- Steps 8 and 10 of section 6.11: three HOLE among five declare it, and the hysteresis holds it at −1759. -/
theorem test_declaration_worked :
    (observeSegment demoSetup false 9 .ul (-128) 5 { Segment.blank with
      ul := some (-1832), declared := .marginal, history := [.marginal, .marginal, .hole, .marginal, .hole] }).1.declared =
        .hole ∧
    (observeSegment demoSetup false 9 .ul (-96) 5 { Segment.blank with
      ul := some (-1834), declared := .hole, history := [.hole, .marginal, .hole, .hole, .hole] }).1.history =
        [.marginal, .hole, .hole, .hole, .hole] := by decide +kernel

/-- Elapsed time and sequence differences wrap (00_scope.md, Conventions). -/
theorem test_differences_wrap :
    elapsed 5 0xFFFFFFFE = 7 ∧ seqAhead 0 0xFFFF = true ∧ seqAhead 0x8000 0 = false ∧ seqAhead 7 7 = false := by decide

/-- Little-endian fields (00_scope.md, Conventions). -/
theorem test_little_endian : le32 0x0A100002 = [0x02, 0x00, 0x10, 0x0A] ∧ field [0x34, 0x12, 0xFF] 0 2 = 0x1234 := by decide

/-! ### One step of each command -/

/-- R167: a reset from RUNNING leaves UNLOADED, SBASE as sampled, QT 0 and every HOLD line asserted. -/
theorem test_power_on_reset :
    leads (.powerOnReset 0x12) demo (fun t => decide (t.su.runState = .unloaded ∧ t.su.sbase = 0x12 ∧ t.su.qt = 0 ∧
      holdWord t = 0x0FFF ∧ setupBase t = 0x12000000)) = true := by decide +kernel

/-- R168: QT wraps from FFFFFFFFH to 0. -/
theorem test_qt_increment_wraps :
    leads .qtIncrement (runningAt demoSetup 0xFFFFFFFF) (fun t => decide (t.su.qt = 0)) = true := by decide +kernel

/-- Crane 2 LIVE with command 501 outstanding, as at 10900 and 11350 in section 2.9. -/
def timeline (now arrival : Qt) : State :=
  { withCrane 2 (fun c => { c with
      link := .live, lastArrival := some arrival, seqValid := true, lastSeq := 105, position := some 41000,
      outstanding := [⟨501, 1, 10550⟩], lastListed := some 501 })
      (withSegment 20 { Segment.blank with ul := some (-1600), declared := .marginal } (runningAt demoSetup now)) with
    due := ⟨[2], [], false, false⟩ }

/-- Section 2.9 at 10900: 300 ms of silence, LATE, HOLD[2] still deasserted. -/
theorem test_link_late_worked :
    leads (.linkLate 2) (timeline 10900 10600) (fun t => decide ((t.clu.crane 2).link = .late ∧ holdLine t 2 = false ∧
      (t.rpu.queue.map Record.code) = [0x11])) = true := by decide +kernel

/-- Section 2.9 at 11350: LOST by NO_ECHO, one command dropped, CLOSING with 4 remaining, a vote for segment 20, and
LINK_LOST with reason 1, 1 dropped, left LIVE, segment 20, class MARGINAL, last arrival 11190. -/
theorem test_link_lost_worked :
    leads (.linkLost 2) (timeline 11350 11190) (fun t => decide ((t.clu.crane 2).link = .lost ∧
      (t.clu.crane 2).counters.unconfirmed = 1 ∧ (t.clu.crane 2).traceState = .closing 4 ∧
      (t.cvu.segment 20).history = [.hole] ∧ t.rpu.queue.map (fun r => r.detail.take 12) =
        [bytes [1, 1, 1, 20, 2, 0, 0, 0, 0xB6, 0x2B, 0, 0]])) = true := by decide +kernel

/-- A part in TIMED mode with a pulse begun at 1000. -/
def pulsing (now : Qt) : State :=
  let s := runningAt { demoSetup with irqMode := .timed } now
  { s with rpu := { s.rpu with pulseStart := some 1000 }, due := ⟨[], [], false, true⟩ }

/-- Section 8.6: the pulse of 100 ms begun at 1000 ends at 1100, not at 1099. -/
theorem test_pulse_ends_worked :
    leads .irqCranePulseEnd (pulsing 1100) (fun t => !irqCrane t) = true ∧
    leads .irqCranePulseEnd (pulsing 1099) irqCrane = true := by decide +kernel

/-- A TRACKED entry of a class, last reported at `since`. -/
def tracked (cls : Nat) (since : Qt) : Reefer where
  container    := bslu
  plug         := 96
  segment      := 12
  cls          := cls
  power        := .on
  setpoint     := -180
  supply       := none
  ret          := none
  alarms       := []
  state        := .tracked
  reason       := .none
  excursion    := .normal
  excCount     := 0
  countArea    := .normal
  latchHigh    := false
  latchLow     := false
  sensorAbsent := false
  excusals     := 0
  lastReport   := since
  reportCount  := 12

/-- A part whose silence scan visits index 40, which holds `e`; segment 12 is MARGINAL. -/
def visiting (now : Qt) (e : Reefer) : State :=
  { withReefer 40 e (withSegment 12 { Segment.blank with ul := some (-1600), declared := .marginal }
      (runningAt demoSetup now)) with due := ⟨[], [40], false, false⟩ }

/-- Section 5.10 at 2800428: a SILENT entry of 1800428 ms becomes LOST. -/
theorem test_reefer_lost_worked :
    leads (.reeferLost 40) (visiting 2800428 { tracked 0 1000000 with state := .silent, excusals := 1 })
      (fun t => decide ((t.rfu.entry 40).map Reefer.state = some .lost ∧ t.rpu.queue.map Record.code = [0x2D])) =
        true := by decide +kernel

/-- Section 5.10 at 1600300: crane 2's lowered boom at 25000 shadows segment 12, so the silence is excused. -/
theorem test_reefer_silence_excused_worked :
    leads (.reeferSilent 40) (withCrane 2 (fun c => { c with link := .live, boom := .down, position := some 25000 })
        (visiting 1600300 (tracked 0 1000000)))
      (fun t => decide ((t.rfu.entry 40).map (fun e => (e.state, e.excusals)) = some (.tracked, 1) ∧
        t.rpu.queue.map (fun r => (r.code, r.detail.drop 6)) =
          [(0x2E, bytes [12, 2, 1, 1, 0, 0, 0xEC, 0x28, 9, 0, 0, 0, 0, 0])])) = true := by decide +kernel

/-- Section 5.10 at 2200364: not shadowed, so SILENT. -/
theorem test_reefer_silent_worked :
    leads (.reeferSilent 40) (visiting 2200364 { tracked 0 1000000 with excusals := 1 })
      (fun t => decide ((t.rfu.entry 40).map (fun e => (e.state, e.excusals)) = some (.silent, 1) ∧
        t.rpu.queue.map Record.code = [0x2C])) = true := by decide +kernel

/-- R105: the visit to index 39 is taken before that to 40, and so REEFER_SILENT of 39 is made first. -/
theorem test_visits_in_order :
    leads (.reeferSilent 40)
        (let s := withReefer 39 { tracked 0 1000000 with container := qnsu } (visiting 2200364 (tracked 0 1000000))
         { s with due := ⟨[], [39, 40, 41], false, false⟩ })
      (fun t => decide (t.rpu.queue.map Record.object = [39, 40] ∧ t.due.visits = [41])) = true := by decide +kernel

/-- The setup of section 6.12. -/
def driftSetup : Setup :=
  { demoSetup with
    coverage := { demoSetup.coverage with segCount := 24, weightShift := 3 }
    baselines := (List.replicate 128 none).set 14 (some (-1440)) }

/-- Section 6.12: a scan visit due at segment 14. -/
def scanning (now : Qt) (g : Segment) : State :=
  let s := withSegment 14 g (runningAt driftSetup now)
  { s with cvu := { s.cvu with scanPos := 14 }, due := ⟨[], [], true, false⟩ }

/-- Segment 14 as section 6.12 begins. -/
def driftSegment : Segment :=
  { Segment.blank with
    ul := some (-1500), dl := some (-1550), shadow := some (-1700), lastUnshadowed := 700000, lastShadowed := 650000
    declared := .marginal, history := List.replicate 5 .marginal }

/-- Section 6.12 at 701200: DRIFT is set, DRIFT_SET with D −1550, B −1440 and D − B −110. -/
theorem test_coverage_visit_drift_worked :
    leads .coverageScanVisit (scanning 701200 driftSegment) (fun t => decide ((t.cvu.segment 14).drift = true ∧
      t.cvu.scanPos = 15 ∧ t.rpu.queue.map (fun r => (r.code, r.detail.take 6)) =
        [(0x32, bytes [0xF2, 0xF9, 0x60, 0xFA, 0x92, 0xFF])])) = true := by decide +kernel

/-- Section 6.12 at 703600: D exactly 96 from the baseline leaves DRIFT set. -/
theorem test_coverage_visit_drift_stays :
    leads .coverageScanVisit (scanning 703600 { driftSegment with dl := some (-1536), drift := true })
      (fun t => decide ((t.cvu.segment 14).drift = true ∧ t.rpu.queue = [])) = true := by decide +kernel

/-- Section 6.12 at 766000: aged after 62000 ms, left MARGINAL, DRIFT not set. -/
theorem test_segment_aged_worked :
    leads (.segmentAged 14) (scanning 766000 { driftSegment with lastUnshadowed := 704000 })
      (fun t => decide ((t.cvu.segment 14).ul = none ∧ (t.cvu.segment 14).declared = .unknown ∧
        t.rpu.queue.map (fun r => (r.code, r.detail.take 8)) = [(0x31, bytes [2, 0, 0, 0, 0x30, 0xF2, 0, 0])])) =
          true := by decide +kernel

/-- Section 6.12 at 708400 and 710800: the shadow average ages at 60800 ms, not at 58400. -/
theorem test_shadow_average_aged_worked :
    leads (.shadowAverageAged 14) (scanning 710800 driftSegment) (fun t => decide ((t.cvu.segment 14).shadow = none)) =
      true ∧
    leads (.shadowAverageAged 14) (scanning 708400 driftSegment)
      (fun t => decide ((t.cvu.segment 14).shadow = some (-1700))) = true := by decide +kernel

/-- R144: both averages aged together are one visit, which moves the position on; nothing of it is left to take. -/
theorem test_scan_visit_whole :
    leads (.segmentAged 14) (scanning 766000 driftSegment)
      (fun t => decide ((t.cvu.segment 14).ul = none ∧ (t.cvu.segment 14).shadow = none ∧ t.cvu.scanPos = 15 ∧
        t.due.coverage = false)) = true := by decide +kernel

/-- Section 1.9 at 1005: slot 6 has a QUEUED entry only, so a new PENDING entry holds bytes 40 and 41 alone. -/
theorem test_ul_slot_write_worked :
    leads (.ulSlotWrite (wrote 32 0x10000628 [1, 2])) { runningAt demoSetup 1005 with rcu := { CaptureUnit.reset with
        queue := [.captured ⟨6, List.replicate 256 none, 1001⟩ 1003] } }
      (fun t => decide (t.rcu.filling.map (fun e => (e.slot, e.firstWrite, cellAt e.cells 40, cellAt e.cells 42)) =
        [(6, 1005, some 1, none)] ∧ t.rcu.queue.length = 1)) = true := by decide +kernel

/-- R2: bytes written with inactive strobes stay UNSEEN. -/
theorem test_ul_slot_write_inactive_strobe :
    leads (.ulSlotWrite ⟨32, 0x100001FF, [some 7, none, some 9], .okay⟩) demo
      (fun t => decide (t.rcu.filling.map (fun e => (e.slot, cellAt e.cells 255, cellAt e.cells 0, cellAt e.cells 1)) =
        [(1, some 7, none, none), (2, none, none, some 9)])) = true := by decide +kernel

/-- R5, R7: a commit from 15 to 1 settles slots 15 and 0 in ring order; without entries they are placeholders. -/
theorem test_ul_producer_index_wraps :
    leads (.ulProducerIndexWrite (wrote 32 0x10100000 (bytes [1, 0, 0, 0])))
        { demo with rcu := { CaptureUnit.reset with hUl := 15 } }
      (fun t => decide (t.rcu.queue.map ParseItem.slot = [15, 0] ∧ t.rcu.hUl = 1 ∧ t.rcu.ul.committed = 2)) =
        true := by decide +kernel

/-- R8: a parse does not begin on an empty queue; a captured head comes under parse and keeps its place. -/
theorem test_parse_start :
    leads .parseStart demo (fun t => decide (t = demo)) = true ∧
    leads .parseStart { demo with rcu := { CaptureUnit.reset with queue := [.captured ⟨3, [], 0⟩ 0] } }
      (fun t => t.rcu.parsing && decide (t.rcu.queue.length = 1)) = true := by decide +kernel

/-- Section 2.9 at 10620: arrival 10600, the echo of 500 gives a round-trip time of 100 and leaves 501. -/
theorem test_parse_complete_status_worked :
    leads .parseComplete (parsing (statusCells 2 0x0A100002 103 500 41000 20 0x7FFF) 10620
        (withCrane 2 (fun c => { c with
          link := .live, seqValid := true, lastSeq := 102, lastArrival := some 10394,
          outstanding := [⟨500, 1, 10500⟩, ⟨501, 1, 10550⟩], lastListed := some 501 }) (runningAt demoSetup 10620)))
      (fun t => decide ((t.clu.crane 2).lastArrival = some 10600 ∧ (t.clu.crane 2).rttLast = 100 ∧
        (t.clu.crane 2).outstanding = [⟨501, 1, 10550⟩] ∧ t.rpu.queue = [])) = true := by decide +kernel

/-- Section 4.10 at 600000: the newcomer takes index 1 and plug 17, and the occupant departs by REPLACED; the records
are REEFER_REPLACED, then REEFER_NEW. -/
theorem test_parse_complete_report_worked :
    leads .parseComplete (parsing (reportCells qnsu 3 1 17 0 0 0 0x7FFF) 600000
        (withReefer 0 { tracked 3 0 with plug := 17, segment := 2 } (runningAt demoSetup 600000)))
      (fun t => decide ((t.rfu.entry 0).map (fun e => (e.state, e.reason)) = some (.departed, .replaced) ∧
        (t.rfu.entry 1).map (fun e => (e.state, e.plug, e.segment, e.reportCount)) = some (.tracked, 17, 2, 1) ∧
        t.rfu.departed = [0] ∧ t.rpu.queue.map Record.code = [0x21, 0x20])) = true := by decide +kernel

/-- A header of section 3.6 as it stands in a downlink slot record. -/
def headerCells (l seq cls validity : Nat) : List (Option Byte) :=
  (bytes [2, l] ++ le16 (BitVec.ofNat 16 seq) ++ bytes [1, 0, 0, 0, 5, cls] ++ le16 (BitVec.ofNat 16 validity)).map some

/-- A committed record of section 3.6. -/
def committedRecord (l seq cls validity : Nat) (written : Qt) : DlRecord :=
  { DlRecord.blank with cells := headerCells l seq cls validity, writeQt := written, committed := true }

/-- Section 3.6 at 21500: the rewrite of a departed, committed slot leaves it uncommitted with decision none. -/
theorem test_dl_slot_rewrite_worked :
    leads (.dlSlotWrite (wrote 16 0x10200D00 (bytes [2, 36])))
        (withRecord 13 { committedRecord 36 702 1 0 20040 with departed := true, overlay := .halt .hold, lastFetch := .halt }
          (runningAt demoSetup 21500))
      (fun t => decide ((t.rcu.record 13).committed = false ∧ (t.rcu.record 13).overlay = .none ∧
        (t.rcu.record 13).lastFetch = .undecided ∧ (t.rcu.record 13).writeQt = 21500 ∧
        cellAt (t.rcu.record 13).cells 1 = some 36 ∧ cellAt (t.rcu.record 13).cells 2 = none)) = true := by decide +kernel

/-- R17: slots 14, 15 and 0 are committed, slot 1 is not. -/
theorem test_dl_producer_index_wraps :
    leads (.dlProducerIndexWrite (wrote 16 0x10300000 (bytes [1, 0, 0, 0])))
        { demo with rcu := { CaptureUnit.reset with hDl := 14 } }
      (fun t => decide ([13, 14, 15, 0, 1].map (fun k => (t.rcu.record k).committed) =
        [false, true, true, true, false] ∧ t.rcu.hDl = 1)) = true := by decide +kernel

/-- Crane 5 LIVE with command 700 listed, as in section 3.6. -/
def commanded (now : Qt) (r : DlRecord) : State :=
  withRecord 11 r (withCrane 5 (fun c => { c with
    link := .live, lastArrival := some 20000, outstanding := [⟨700, 1, 20100⟩], lastListed := some 700 })
    (runningAt demoSetup now))

/-- Section 3.6 at 20180: 160 ms past a validity of 100 is STALE; byte 9 goes out as STOP, bytes 12 to 27 as zero, and
701 is listed as STOP. -/
theorem test_departure_stale_worked :
    leads (.departure (readOf 32 0x10200B00 32)) (commanded 20180 (committedRecord 20 701 1 100 20020))
      (fun t => decide (t.rcu.dl.stale = 1 ∧ (t.clu.crane 5).outstanding = [⟨700, 1, 20100⟩, ⟨701, 2, 20180⟩] ∧
        t.pu.up.map UpBeat.data =
          [List.replicate 9 0x55 ++ [0x02, 0x55, 0x55] ++ List.replicate 16 0 ++ List.replicate 4 0x55])) =
            true := by decide +kernel

/-- Section 3.6 at 20200: DELIVERED unchanged, but 699 is behind 701 and not listed. -/
theorem test_departure_order_worked :
    leads (.departure (readOf 32 0x10200B00 32)) (commanded 20200 (committedRecord 4 699 0 0 20030))
      (fun t => decide (t.rcu.dl.delivered = 1 ∧ t.rcu.dl.order = 1 ∧ t.rpu.queue.map Record.code = [0x1C] ∧
        t.pu.up.map UpBeat.data = [List.replicate 32 0x55])) = true := by decide +kernel

/-- Section 3.6 at 21001: after a HALT the motion bytes 16 to 43 of L = 36 are zero, bytes 44 to 47 unchanged. -/
theorem test_motion_bytes_halted_worked :
    leads (.motionBytesRead (readOf 32 0x10200B10 32))
        (commanded 21001 { committedRecord 36 702 1 0 20040 with departed := true, overlay := .halt .hold, lastFetch := .halt })
      (fun t => decide (t.pu.up.map UpBeat.data = [List.replicate 28 0 ++ List.replicate 4 0x55] ∧ t.rcu.dl.early = 0)) =
        true := by decide +kernel

/-- R58: a motion byte of an UNDECIDED record goes out as zero and counts in DL_EARLY. -/
theorem test_motion_bytes_early :
    leads (.motionBytesRead (readOf 32 0x10200B10 16)) (commanded 21001 (committedRecord 36 702 1 0 20040))
      (fun t => decide (t.pu.up.map UpBeat.data = [List.replicate 16 0] ∧ t.rcu.dl.early = 1)) = true := by decide +kernel

/-- A coverage view in HEADER mode at generation 5. -/
def headerMode : State := { demo with vu := { ViewUnit.reset with coverage := ⟨some ⟨5, 50, 40, []⟩, 5, []⟩ } }

/-- R146: a header read takes generation 6; the header shows mode 1, view 2, 40 records, generation 6 and QT 1000. -/
theorem test_view_header_read :
    leads (.viewReadBeat (readOf 16 0x10800000 16)) headerMode
      (fun t => decide (t.vu.coverage.generation = 6 ∧
        t.pu.up.map UpBeat.data = [bytes [1, 2, 40, 0, 6, 0, 0, 0, 0xE8, 3, 0, 0, 0, 0, 0, 0]])) = true := by decide +kernel

/-- R143, R150: the status page shows RUNNING, all cranes held, and zero in the crane summary word; past the page's
256 bytes the data is DRAM's. -/
theorem test_view_status_page :
    leads (.viewReadBeat (readOf 16 0x10600000 12)) demo (fun t => decide (t.pu.up.map UpBeat.data =
      [bytes [2, 0, 0, 0, 0xE8, 3, 0, 0, 0xFF, 0x0F, 0, 0]])) = true ∧
    leads (.viewReadBeat (readOf 16 0x106000FF 2)) demo (fun t => decide (t.pu.up.map UpBeat.data =
      [bytes [0, 0x55]])) = true := by decide +kernel

/-- A burst of the coverage view in ALL mode, passed, with records 0 to 3 covered and 2 spoiled. -/
def passedBurst : State :=
  let s := runningAt { demoSetup with coverageMode := .all } 1000
  { s with
    vu := { s.vu with coverage := ⟨some ⟨5, 50, 40, []⟩, 5, [7]⟩ }
    pu := { s.pu with openReads := [⟨16, .app, some demoWindows,
      [⟨.coverage, .all, some ⟨5, 50, 40, []⟩, [], [0, 1, 2, 3], [2], true⟩], false, true⟩] } }

/-- R147: covered records join the coverage set, a spoiled one does not. -/
theorem test_view_burst_last_beat :
    leads (.viewBurstLastBeat 16) passedBurst (fun t => decide (t.pu.openReads = [] ∧
      [0, 1, 2, 3, 7, 8].map t.vu.coverage.coverageSet.contains = [true, true, false, true, true, false])) =
        true := by decide +kernel

/-- R149: a write into a view counts once, whatever its role and response; one past the views does not. -/
theorem test_view_write :
    leads (.viewWrite ⟨77, 0x10700C3F, [none], .decerr⟩) demo (fun t => decide (t.vu.writes = 1)) = true ∧
    leads (.viewWrite ⟨77, 0x10700C40, [none], .okay⟩) demo (fun t => decide (t.vu.writes = 0)) = true := by decide +kernel

/-- The demo setup with the downlink index word and the consumer word side by side behind the downlink slots. -/
def closeSetup : Setup :=
  { demoSetup with windows := { demoWindows with dlProducer := 0x10201000, reportConsumer := 0x10201004 } }

/-- A write of the last bytes of downlink slot 15, the index word 1 and the consumer word 2. -/
def broadWrite : Write := wrote 16 0x10200FFE (bytes [7, 8, 1, 0, 0, 0, 2, 0, 0, 0])

/-- R164: under any of its rows that write is one event: both index words are taken and one response returns, taking
one issued write of the ID with it. -/
theorem test_broad_write_is_one_event :
    (∀ c ∈ [Instr.dlSlotWrite broadWrite, .dlProducerIndexWrite broadWrite, .consumerIndexWrite broadWrite],
      leads c { runningAt closeSetup 1000 with pu := { PathUnit.reset with
          issuedWrite := [.forwarded 16 .app, .forwarded 16 .app] } }
        (fun t => decide (t.rcu.hDl = 1 ∧ t.rpu.consumer = 2 ∧ t.pu.up.length = 1 ∧
          t.pu.issuedWrite = [.forwarded 16 .app])) = true) := by decide +kernel

/-- A report unit at P and C with a queue. -/
def ringAt (producer consumer : Nat) (queue : List Record) : State :=
  { demo with rpu := { ReportUnit.reset with producer := producer, consumer := consumer, queue := queue } }

/-- A record of a code and a unit. -/
def note (code : Byte) (u : UnitName) : Record := ⟨code, u, 1, 1000, List.replicate 20 0⟩

/-- Section 8.7, steps 2 and 4: at 6 free the alarm is taken into slot 57; at 4 free the class change is dropped. -/
theorem test_report_take_worked :
    leads .reportTake (ringAt 57 0 [note 0x2B .rfu]) (fun t => decide (t.rpu.phase = .record ∧ t.rpu.totalDrops = 0 ∧
      t.pu.waitRpu.map InjRequest.addr = [0x10400720])) = true ∧
    leads .reportTake (ringAt 59 0 [note 0x30 .cvu]) (fun t => decide (t.rpu.phase = .idle ∧ t.rpu.pendingDrops = 1 ∧
      t.rpu.totalDrops = 1 ∧ t.rpu.dropFlag = true ∧ t.pu.waitRpu = [])) = true := by decide +kernel

/-- Section 8.7, step 5: at 4 free a LINK_LOST of the Crane Link Unit is written with dropped_before 1. -/
theorem test_report_take_reserve_worked :
    leads .reportTake (let s := ringAt 59 0 [note 0x12 .clu]; { s with rpu := { s.rpu with pendingDrops := 1 } })
      (fun t => decide (t.rpu.pendingDrops = 0 ∧ t.pu.waitRpu.map (fun q => match q.body with
        | .recordWrite bs => bs.take 12
        | _ => []) = [bytes [0x12, 2, 1, 0, 0xE8, 3, 0, 0, 1, 0, 0, 0]])) = true := by decide +kernel

/-- A report write issued and unanswered. -/
def reportWritten (body : InjBody) (phase : WritePhase) : State :=
  let s := ringAt 63 0 []
  { s with
    rpu := { s.rpu with phase := phase, inFlight := some (note 0x12 .clu) }
    pu := { s.pu with issuedWrite := [.injected ⟨9, ⟨body, 0, true⟩⟩] } }

/-- R155: OKAY to the record write issues the index write, of 0 after slot 63. -/
theorem test_report_record_write_done :
    leads (.reportRecordWriteDone 9 .okay) (reportWritten (.recordWrite []) .record)
      (fun t => decide (t.rpu.phase = .index ∧ t.pu.waitRpu = [⟨.indexWrite [0, 0, 0, 0], 0x10500000, true⟩])) =
        true := by decide +kernel

/-- R155, R158: OKAY to the index write moves P; any other response, EXOKAY among them, leaves the ring in FAULT with
the record counted. -/
theorem test_report_index_write_done :
    leads (.reportIndexWriteDone 9 .okay) (reportWritten (.indexWrite []) .index)
      (fun t => decide (t.rpu.producer = 0 ∧ t.rpu.inFlight = none)) = true ∧
    leads (.reportIndexWriteDone 9 .exokay) (reportWritten (.indexWrite []) .index)
      (fun t => decide (t.rpu.ring = .fault ∧ t.rpu.producer = 63 ∧ t.rpu.totalDrops = 1 ∧ irqEvent t = true)) =
        true := by decide +kernel

/-- Section 8.7, step 6: C 40 against P 60 leaves 20 unconsumed and IRQ_EVENT deasserted. -/
theorem test_consumer_index_worked :
    leads (.consumerIndexWrite (wrote 16 0x10500004 (bytes [40, 0, 0, 0])))
        (let s := ringAt 60 0 []; { s with rpu := { s.rpu with dropFlag := true } })
      (fun t => decide (t.rpu.consumer = 40 ∧ t.rpu.unconsumed 64 = 20 ∧ irqEvent t = false)) = true := by decide +kernel

/-- R162: a read of the INJ_ID is answered with SLVERR for each beat. -/
theorem test_inj_id_refused :
    leads (.injIdRefused 9 .read 2) demo (fun t => decide (t.pu.up.map (fun u => (u.id, u.resp)) =
      [(9, .slverr), (9, .slverr)])) = true := by decide +kernel

/-- R162, R164: a request waits under the role of its ID, OTHER outside the role table, with its burst unchanged. -/
theorem test_transaction_forward_request :
    leads (.transactionForward (.readRequest 17 4 ⟨.wrap, 4, 4⟩)) demo
      (fun t => decide (t.pu.fwdRead = [⟨17, .other, 4, ⟨.wrap, 4, 4⟩, []⟩])) = true ∧
    leads (.transactionForward (.writeRequest 32 5 ⟨.fixed, 1, 1⟩ [some 1])) demo
      (fun t => decide (t.pu.fwdWrite = [⟨32, .radio, 5, ⟨.fixed, 1, 1⟩, [some 1]⟩])) = true := by decide +kernel

/-- R165: a handed-in transaction takes the INJ_ID in force, 0 when no setup is in force. -/
theorem test_injection_enqueue :
    leads (.injectionEnqueue .su) { State.reset with pu := { PathUnit.reset with waitSu := [⟨.setupRead 0, 0, true⟩] } }
      (fun t => decide (t.pu.ready.map Injected.id = [0] ∧ t.pu.waitSu = [] ∧ t.pu.injectionCount = 1)) =
        true := by decide +kernel

/-- A read channel with a forwarded request and an injection waiting, at a through count. -/
def contended (through : Nat) : State :=
  { demo with pu := { PathUnit.reset with
      ready := [⟨9, ⟨.setupRead 0, 0, true⟩⟩], fwdRead := [⟨16, .app, 5, ⟨.incr, 4, 1⟩, []⟩], throughRead := through } }

/-- R166: at 15 the forwarded request is granted and the count becomes 16; at 16 the injection is, and it becomes 0. -/
theorem test_arbiter_grant :
    leads (.arbiterGrant .read) (contended 15) (fun t => decide (t.pu.throughRead = 16 ∧
      t.pu.issuedRead = [.forwarded 16 .app])) = true ∧
    leads (.arbiterGrant .read) (contended 16) (fun t => decide (t.pu.throughRead = 0 ∧ t.pu.ready = [] ∧
      t.pu.down = some (.read 9 0 ⟨.incr, 16, 16⟩))) = true := by decide +kernel

/-- A write of the command word: its code and argument. -/
def command (code arg : Nat) : Write := wrote 16 8 (bytes [code, 0] ++ le16 (BitVec.ofNat 16 arg))

/-- What the taking of a command left: its state, its final status and the fault byte aside. -/
def verdictOf (t : State) : CmdPhase × Byte × Option CmdStatus :=
  (t.su.command.phase, t.su.command.code, t.su.command.verdict)

/-- R169: a RELOAD begins a load of 64 reads behind the PENDING write, the last at SBASE × 16 MiB + 63 × 256. -/
theorem test_reload_begins :
    leads (.reload (command 1 0)) demo (fun t => decide (t.su.runState = .loading ∧ t.pu.waitSu.length = 65 ∧
      (t.pu.waitSu.getLast?.map InjRequest.addr) = some 16128 ∧ holdWord t = 0x0FFF)) = true := by decide +kernel

/-- R172: a RELOAD argument above 1 is refused with REFUSED_ARG; R171: a write of three of the four bytes is not taken. -/
theorem test_reload_refused :
    leads (.reload (command 1 2)) demo (fun t => decide (verdictOf t = (.pending, 1, some .refusedArg) ∧
      t.su.runState = .running)) = true ∧
    leads (.reload (wrote 16 8 (bytes [1, 0, 0]))) demo (fun t => decide (t.su.command = Command.idle)) =
      true := by decide +kernel

/-- A load with its 64th read issued and unanswered. -/
def lastSetupRead : State :=
  { demo with
    su := { demo.su with runState := .loading, load := some ⟨false, List.replicate 256 0, 63, .block⟩ }
    pu := { PathUnit.reset with issuedRead := [.injected ⟨9, ⟨.setupRead 63, 16128, true⟩⟩] } }

/-- R169: a block of zeros fails its first check, the magic word (fault code 02H); an error answer is READ_ERROR (01H). -/
theorem test_setup_read_fails :
    leads (.setupReadDone 9 .okay (List.replicate 256 0)) lastSetupRead (fun t => decide (t.su.runState = .passOnly ∧
      t.su.faultCode = 0x02 ∧ t.su.setup = none)) = true ∧
    leads (.setupReadDone 9 .decerr (List.replicate 256 0)) lastSetupRead (fun t => decide (t.su.runState = .passOnly ∧
      t.su.faultCode = 0x01)) = true := by decide +kernel

/-- A load whose last index word is issued and unanswered. -/
def lastWord : State :=
  { demo with
    su := { demo.su with runState := .loading, load := some ⟨true, [], 64, .words demoSetup (some 3) (some 16) none⟩ }
    pu := { PathUnit.reset with issuedRead := [.injected ⟨9, ⟨.repIndexRead, 0, true⟩⟩] } }

/-- R169, R170: H_UL takes 3, H_DL takes 0 for the word 16 out of range, P and C take 63; SETUP_LOADED is the first
record and INDEX_FAULT follows. -/
theorem test_index_word_completes :
    leads (.indexWordReadDone 9 .okay 63) lastWord (fun t => decide (t.su.runState = .running ∧ t.rcu.hUl = 3 ∧
      t.rcu.hDl = 0 ∧ t.rpu.producer = 63 ∧ t.rpu.consumer = 63 ∧ t.rpu.queue.map Record.code = [0x40, 0x05])) =
        true := by decide +kernel

/-- R161: ACK_LINES clears the latch in LATCH_ACK mode and not in LATCH_READ mode. -/
theorem test_ack_lines :
    (let s := runningAt { demoSetup with irqMode := .latchAck } 1000
     leads (.ackLines (command 2 0)) { s with rpu := { s.rpu with craneLatch := true } } (fun t => !irqCrane t)) = true ∧
    leads (.ackLines (command 2 0)) { demo with rpu := { demo.rpu with craneLatch := true } } irqCrane =
      true := by decide +kernel

/-- Section 2.10: CRANE_RESET of crane 7 in CLAIM leaves IDLE, nothing learned, the trace OPEN, status DONE. -/
theorem test_crane_reset_worked :
    leads (.craneReset (command 3 7))
        (withCrane 7 (fun c => { c with link := .claim, learned := some 0x0C300007, seqValid := true, traceState := .frozen })
          demo)
      (fun t => decide ((t.clu.crane 7).link = .idle ∧ (t.clu.crane 7).learned = none ∧
        (t.clu.crane 7).seqValid = false ∧ (t.clu.crane 7).traceState = .recording ∧ holdReason t 7 = .idle ∧
        verdictOf t = (.pending, 3, some .done))) = true := by decide +kernel

/-- R48, R172: CRANE_RESET 12 is refused with REFUSED_ARG. -/
theorem test_crane_reset_refused :
    leads (.craneReset (command 3 12)) demo (fun t => decide (verdictOf t = (.pending, 3, some .refusedArg))) =
      true := by decide +kernel

/-- R37: TRACE_OPEN opens a CLOSING trace. -/
theorem test_trace_open :
    leads (.traceOpen (command 4 2)) (withCrane 2 (fun c => { c with traceState := .closing 3 }) demo)
      (fun t => decide ((t.clu.crane 2).traceState = .recording ∧ verdictOf t = (.pending, 4, some .done))) =
        true := by decide +kernel

/-- Section 5.9: REEFER_ACK empties the latch and keeps the count of 1 in area HIGH. -/
theorem test_reefer_ack_worked :
    leads (.reeferAck (command 5 12))
        (withReefer 12 { tracked 3 0 with latchHigh := true, excCount := 1, countArea := .high } demo)
      (fun t => decide ((t.rfu.entry 12).map (fun e => (e.latchHigh, e.excCount, e.countArea)) =
        some (false, 1, .high))) = true := by decide +kernel

/-- Section 4.10 at 603000: REEFER_FORGET frees index 1 and takes it off the departed list. -/
theorem test_reefer_forget_worked :
    leads (.reeferForget (command 6 1))
        (let s := withReefer 1 { tracked 3 0 with state := .departed, reason := .unplugged } demo
         { s with rfu := { s.rfu with departed := [1, 2] } })
      (fun t => decide (t.rfu.entry 1 = none ∧ t.rfu.departed = [2])) = true := by decide +kernel

/-- R136: COVERAGE_CLEAR empties the named segment alone; segment 40 of 40 is refused with REFUSED_ARG. -/
theorem test_coverage_clear :
    leads (.coverageClear (command 7 3)) (withSegment 4 driftSegment (withSegment 3 driftSegment demo))
      (fun t => decide (t.cvu.segment 3 = Segment.blank ∧ t.cvu.segment 4 = driftSegment)) = true ∧
    leads (.coverageClear (command 7 40)) demo (fun t => decide (verdictOf t = (.pending, 7, some .refusedArg))) =
      true := by decide +kernel

/-- R12: CLEAR_COUNTERS leaves COMMITTED at the length of the parse queue. -/
theorem test_clear_counters :
    leads (.clearCounters (command 8 0))
        { demo with rcu := { CaptureUnit.reset with
            queue := [.placeholder 3 900], ul := { UlCounters.zero with committed := 8, ignored := 7 } } }
      (fun t => decide (t.rcu.ul = { UlCounters.zero with committed := 1 })) = true := by decide +kernel

/-- R172: code 09H is refused with REFUSED_ARG in every run state. -/
theorem test_command_code_unknown :
    leads (.commandCodeUnknown (command 9 0)) State.reset (fun t => decide (verdictOf t = (.pending, 9, some .refusedArg))) =
      true := by decide +kernel

/-- R171: a command word write in PENDING sets the busy flag; in CLOSING it is noted as refused. -/
theorem test_command_write_while_busy :
    leads (.commandWriteWhileBusy (command 4 1)) { demo with su := { demo.su with command := { Command.idle with
      phase := .pending } } } (fun t => t.su.command.busy) = true ∧
    leads (.commandWriteWhileBusy (command 4 1)) { demo with su := { demo.su with command := { Command.idle with
      phase := .closing } } } (fun t => decide (t.su.command.refused = some (4, 1))) = true := by decide +kernel

/-- A PENDING write issued and unanswered, the final status of TRACE_OPEN 2 decided DONE. -/
def statusPending : State :=
  { demo with
    su := { demo.su with command := { Command.idle with phase := .pending, code := 4, arg := 2, verdict := some .done } }
    pu := { PathUnit.reset with issuedWrite := [.injected ⟨9, ⟨.statusWrite [], 16, true⟩⟩] } }

/-- R171: after the PENDING write the final status goes out: DONE, code 4, argument 2, fault none, not busy. -/
theorem test_command_status_write_done :
    leads (.commandStatusWriteDone 9 .okay) statusPending (fun t => decide (t.su.command.phase = .closing ∧
      t.pu.waitSu = [⟨.statusWrite (bytes [2, 4, 2, 0, 0, 0, 0, 0]), 16, true⟩])) = true := by decide +kernel

/-! ### Witnesses: a concrete state and operands that meet the hypotheses of each obligation together, clause by
clause, at boundary values where the hypotheses have a range -/

/-- What is decided of a list's first element holds of it. -/
theorem of_head {α : Type} {l : List α} {p : α → Prop} [DecidablePred p] (h : l.head?.all (fun o => decide (p o)) = true) :
    ∀ o rest, l = o :: rest → p o := by
  rintro o rest rfl
  exact of_decide_eq_true h

theorem witness_StepTakesFrontCommand :
    { demo with pending := [.qtIncrement, .parseStart] }.pending = Instr.qtIncrement :: [.parseStart] := rfl

/-- What `nothingFound` asks of a state with a setup, as it is decided; a pulse is asked to be young in any mode. -/
theorem nothing_found {s : State} {p : Setup} (hs : s.su.setup = some p)
    (h : (s.due.deadlines.all fun n => lostCondition p (s.clu.crane n) s.su.qt = false ∧
        lateCondition p (s.clu.crane n) s.su.qt = false) = true ∧
      (s.due.visits.all fun i => (s.rfu.entry i).all fun e => lossReached p s.su.qt e = false ∧
        silenceReached p s.su.qt e = false) = true ∧
      s.due.coverage = false ∧ (s.rpu.pulseStart.all fun x => decide (elapsed s.su.qt x < p.pulseMs)) = true) :
    nothingFound s := by
  intro q hq
  cases hs.symm.trans hq
  refine ⟨fun n hn => of_decide_eq_true (List.all_eq_true.1 h.1 n hn), fun i hi e he => ?_, h.2.2.1, fun _ _ x hx => ?_⟩
  · have := List.all_eq_true.1 h.2.1 i hi
    rw [he] at this
    exact of_decide_eq_true this
  · have := h.2.2.2
    rw [hx] at this
    exact of_decide_eq_true this

/-- Without a setup nothing is found. -/
theorem nothing_found_unloaded {s : State} (hs : s.su.setup = none) : nothingFound s := by
  intro p hp
  cases hs.symm.trans hp

/-- A part in TIMED mode 99 ms into a pulse, in a run state, with checks due: crane 2 was heard 299 ms ago, and index 40
is one millisecond short of its silence limit. -/
def quiet (run : RunState) (due : DueChecks) : State :=
  let s := withCrane 2 (fun c => { c with link := .live, lastArrival := some 1599700 })
    (withReefer 40 (tracked 0 1000000) (runningAt { demoSetup with irqMode := .timed } 1599999))
  { s with
    su := { s.su with runState := run }, rpu := { s.rpu with pulseStart := some 1599900 }, due := due }

/-- QtIncrementCounts, a check due that finds LOST, LATE and nothing. -/
theorem due_deadlines :
    (∃ u, dueStep (timeline 11350 11190) u) ∧ (∃ u, dueStep (timeline 10900 10600) u) ∧
    ∃ u, dueStep (timeline 10700 10600) u := by
  obtain ⟨u, hu⟩ := exec_next (.linkLost 2) (timeline 11350 11190)
  obtain ⟨v, hv⟩ := exec_next (.linkLate 2) (timeline 10900 10600)
  exact ⟨⟨u, _, rfl, .inl ⟨rfl, 2, [], rfl, List.not_mem_nil, .inl ⟨by decide +kernel, hu⟩⟩⟩,
    ⟨v, _, rfl, .inl ⟨rfl, 2, [], rfl, List.not_mem_nil, .inr (.inl ⟨by decide +kernel, hv⟩)⟩⟩,
    _, _, rfl, .inl ⟨rfl, 2, [], rfl, List.not_mem_nil, .inr (.inr ⟨by decide +kernel, by decide +kernel, rfl⟩)⟩⟩

/-- QtIncrementCounts, a visit due that finds a lost entry, a silent one, and nothing (also at a free index). -/
theorem due_visits :
    (∃ u, dueStep (visiting 2800000 (tracked 0 1000000)) u) ∧ (∃ u, dueStep (visiting 1600000 (tracked 0 1000000)) u) ∧
    (∃ u, dueStep (visiting 1599999 (tracked 0 1000000)) u) ∧
    ∃ u, dueStep { demo with due := ⟨[], [2047], false, true⟩ } u := by
  obtain ⟨u, hu⟩ := exec_next (.reeferLost 40) (visiting 2800000 (tracked 0 1000000))
  obtain ⟨v, hv⟩ := exec_next (.reeferSilent 40) (visiting 1600000 (tracked 0 1000000))
  have entry : ∀ now, (visiting now (tracked 0 1000000)).rfu.entry 40 = some (tracked 0 1000000) := fun _ => rfl
  refine ⟨⟨u, _, rfl, .inr (.inl ⟨rfl, rfl, 40, [], rfl, .inl ⟨_, entry _, .inl ⟨by decide +kernel, hu⟩⟩⟩)⟩,
    ⟨v, _, rfl, .inr (.inl ⟨rfl, rfl, 40, [], rfl, .inl ⟨_, entry _, .inr ⟨by decide +kernel, hv⟩⟩⟩)⟩,
    ⟨_, _, rfl, .inr (.inl ⟨rfl, rfl, 40, [], rfl, .inr ⟨fun e he => ?_, rfl⟩⟩)⟩,
    _, _, rfl, .inr (.inl ⟨rfl, rfl, 2047, [], rfl, .inr ⟨fun e he => ?_, rfl⟩⟩)⟩
  · cases (entry 1599999).symm.trans he
    decide +kernel
  · cases he

/-- QtIncrementCounts, a coverage visit due, and a pulse test due that is over, in RUNNING and in LOADING. -/
theorem due_visit_and_pulse :
    (∃ u, dueStep (scanning 766000 driftSegment) u) ∧
    ∀ r, ∃ u, dueStep { pulsing 1100 with su := { (pulsing 1100).su with runState := r } } u := by
  obtain ⟨u, hu⟩ := exec_next .coverageScanVisit (scanning 766000 driftSegment)
  refine ⟨⟨u, _, rfl, .inr (.inr (.inl ⟨rfl, rfl, rfl, rfl, hu⟩))⟩, fun r => ?_⟩
  obtain ⟨v, hv⟩ := exec_next .irqCranePulseEnd { pulsing 1100 with su := { (pulsing 1100).su with runState := r } }
  exact ⟨v, _, rfl, .inr (.inr (.inr ⟨rfl, rfl, rfl, rfl, rfl, ⟨1000, rfl, (by decide +kernel : 100 ≤ elapsed 1100 1000)⟩, hv⟩))⟩

/-- QtIncrementCounts: RUNNING at tick 99, with every kind of check due and nothing found; out of RUNNING with the pulse
test due, with a setup and with none; and the first check due in each of its forms (the three theorems above). -/
theorem witness_QtIncrementCounts :
    (let s := { quiet .running ⟨[2, 3], [40, 41], false, true⟩ with cvu := { demo.cvu with tick := 99 } }
     s.su.runState = .running ∧ s.cvu.tick = 99 ∧ nothingFound s ∧ dueInRange s) ∧
    (let s := quiet .loading ⟨[], [], false, true⟩
     s.su.runState ≠ .running ∧ nothingFound s ∧ dueInRange s) ∧
    (let s := { State.reset with due := ⟨[], [], false, true⟩ }
     s.su.runState ≠ .running ∧ nothingFound s ∧ dueInRange s) ∧
    ∃ u, dueStep (timeline 11350 11190) u :=
  ⟨⟨rfl, rfl, nothing_found rfl (by decide +kernel), by unfold dueInRange; decide +kernel⟩,
    ⟨by decide, nothing_found rfl (by decide +kernel), by unfold dueInRange; decide +kernel⟩,
    ⟨by decide, nothing_found_unloaded rfl, by unfold dueInRange; decide +kernel⟩, due_deadlines.1⟩

/-- LinkLateEntry: silent for exactly LATE_MS, with a command outstanding and with none. -/
theorem witness_LinkLateEntry :
    (let s := timeline 10900 10600
     (s.su.setup = some demoSetup ∧ s.su.runState = .running ∧ 2 ∈ s.due.deadlines ∧ (s.clu.crane 2).link = .live ∧
       (s.clu.crane 2).lastArrival = some 10600 ∧ demoSetup.timing.lateMs = elapsed s.su.qt 10600 ∧
       elapsed s.su.qt 10600 < demoSetup.timing.lostMs) ∧
     ∀ o rest, (s.clu.crane 2).outstanding = o :: rest → elapsed s.su.qt o.departed < demoSetup.timing.echoMs) ∧
    (let s := withCrane 2 (fun c => { c with outstanding := [] }) (timeline 10900 10600)
     (s.su.setup = some demoSetup ∧ s.su.runState = .running ∧ 2 ∈ s.due.deadlines ∧ (s.clu.crane 2).link = .live ∧
       (s.clu.crane 2).lastArrival = some 10600 ∧ demoSetup.timing.lateMs = elapsed s.su.qt 10600 ∧
       elapsed s.su.qt 10600 < demoSetup.timing.lostMs) ∧
     ∀ o rest, (s.clu.crane 2).outstanding = o :: rest → elapsed s.su.qt o.departed < demoSetup.timing.echoMs) :=
  ⟨⟨by decide +kernel, of_head (by decide +kernel)⟩, by decide +kernel, of_head (by decide +kernel)⟩

/-- LinkLostEntry: LIVE, silent for exactly LOST_MS with no command outstanding, position known, LOCAL clear, a segment
with an average; LATE with a command unechoed for exactly ECHO_MS, over an empty segment; and with LOCAL set, in TIMED
mode. -/
theorem witness_LinkLostEntry :
    (let s := withCrane 2 (fun c => { c with outstanding := [] }) (timeline 12190 11190)
     s.su.setup = some demoSetup ∧ s.su.runState = .running ∧ 2 ∈ s.due.deadlines ∧ (s.clu.crane 2).link = .live ∧
     (s.clu.crane 2).lastArrival = some 11190 ∧ demoSetup.timing.lostMs = elapsed s.su.qt 11190 ∧
     (s.clu.crane 2).position = some 41000 ∧ (s.clu.crane 2).localCtl = false ∧ (s.cvu.segment 20).ul ≠ none ∧
     s.rpu.ring = .running ∧ s.rpu.queue.length < 32) ∧
    (let s := withSegment 20 Segment.blank (withCrane 2 (fun c => { c with link := .late }) (timeline 11350 11190))
     s.su.setup = some demoSetup ∧ s.su.runState = .running ∧ 2 ∈ s.due.deadlines ∧ (s.clu.crane 2).link = .late ∧
     (s.clu.crane 2).outstanding = [⟨501, 1, 10550⟩] ∧ demoSetup.timing.echoMs = elapsed s.su.qt 10550 ∧
     (s.clu.crane 2).position = some 41000 ∧ (s.clu.crane 2).localCtl = false ∧ (s.cvu.segment 20).ul = none ∧
     (s.cvu.segment 20).dl = none) ∧
    (let s0 := withCrane 2 (fun c => { c with localCtl := true }) (timeline 11350 11190)
     let p := { demoSetup with irqMode := .timed }
     let s := { s0 with su := { s0.su with setup := some p } }
     s.su.setup = some p ∧ p.irqMask.getLsbD 2 = true ∧ p.irqMode = .timed ∧ s.su.runState = .running ∧ 2 ∈ s.due.deadlines ∧ (s.clu.crane 2).link = .live ∧
     (s.clu.crane 2).outstanding = [⟨501, 1, 10550⟩] ∧ demoSetup.timing.echoMs = elapsed s.su.qt 10550 ∧
     (s.clu.crane 2).localCtl = true) := by decide +kernel

/-- PulseEnds: exactly PULSE_MS after the pulse start. -/
theorem witness_PulseEnds :
    (let s := pulsing 1100
     s.su.setup = some { demoSetup with irqMode := .timed } ∧ s.due.pulse = true ∧ s.rpu.pulseStart = some 1000 ∧
     demoSetup.pulseMs = elapsed s.su.qt 1000) := by decide +kernel

/-- The demo setup with an excusal-free class 1. -/
def strictSetup : Setup :=
  { demoSetup with classes := ⟨20, 15, 3, 2, 10, 30⟩ :: ⟨20, 15, 3, 0, 10, 30⟩ :: List.replicate 14 ⟨20, 15, 3, 2, 10, 30⟩ }

/-- A visit under that setup. -/
def visitingStrict (now : Qt) (e : Reefer) : State :=
  { visiting now e with su := { (visiting now e).su with setup := some strictSetup } }

/-- ReeferSilenceVisits: TRACKED and SILENT at exactly LOSS_MIN; at exactly the silence limit with an excusal left in a
HOLE, with one left in a MARGINAL segment unshadowed, and with none left; and a visit to 40 due behind one to 39, which
holds an entry at either limit, one at none, or nothing. -/
theorem witness_ReeferSilenceVisits :
    (∀ e ∈ [tracked 0 1000000, { tracked 0 1000000 with state := .silent }],
      let s := visiting 2800000 e
      s.su.setup = some demoSetup ∧ s.su.runState = .running ∧ s.due.visits = 40 :: [] ∧ s.rfu.entry 40 = some e ∧
      (e.state = .tracked ∨ e.state = .silent) ∧
      (classEntry demoSetup e.cls).lossMin * 60000 = elapsed s.su.qt e.lastReport) ∧
    (∀ x ∈ [(tracked 0 1000000, SegClass.hole), (tracked 0 1000000, .marginal), (tracked 1 1000000, .hole)],
      let s := withSegment 12 { Segment.blank with declared := x.2, ul := some (-1600) } (visitingStrict 1600000 x.1)
      s.su.setup = some strictSetup ∧ s.su.runState = .running ∧ s.due.visits = 40 :: [] ∧ s.rfu.entry 40 = some x.1 ∧
      x.1.state = .tracked ∧ elapsed s.su.qt x.1.lastReport < (classEntry strictSetup x.1.cls).lossMin * 60000 ∧
      (classEntry strictSetup x.1.cls).silenceMin * 60000 * (1 + x.1.excusals) = elapsed s.su.qt x.1.lastReport ∧
      (s.cvu.segment x.1.segment).declared = x.2) ∧
    (classEntry strictSetup 0).stretchMax = 2 ∧ (classEntry strictSetup 1).stretchMax = 0 ∧
    (∀ x ∈ [some (tracked 0 1000000), some { tracked 0 1000000 with state := .silent, excusals := 1 },
        some (tracked 0 2800000), none],
      let s0 := visiting 2800000 (tracked 0 1000000)
      let s := { s0 with rfu := s0.rfu.setEntry 39 x, due := ⟨[], [39, 40], false, false⟩ }
      s.su.setup = some demoSetup ∧ s.su.runState = .running ∧ s.due.visits = 39 :: [40] ∧ (40 : Fin 2048) ≠ 39 ∧
      40 ∈ [40] ∧ s.rfu.entry 40 = some (tracked 0 1000000) ∧ s.rfu.entry 39 = x ∧
      lossReached demoSetup s.su.qt (tracked 0 1000000) = true) ∧
    (let s := visiting 1600000 (tracked 0 1000000)
     silenceReached demoSetup s.su.qt (tracked 0 1000000) = true) := by decide +kernel

/-- CoverageVisitAndAging: a visit due at a segment aged for exactly AGE_S in both senses, at one not aged with a
baseline and DRIFT in the band, and at the last segment; the two aging steps at the same boundary. -/
theorem witness_CoverageVisitAndAging :
    (let s := scanning 764000 { driftSegment with lastUnshadowed := 704000, lastShadowed := 704000 }
     s.su.setup = some driftSetup ∧ s.su.runState = .running ∧ s.due.coverage = true ∧ (14 : Fin 128).val = s.cvu.scanPos ∧
     (s.cvu.segment 14).ul ≠ none ∧ (s.cvu.segment 14).shadow ≠ none ∧ driftSetup.coverage.ageS * 1000 = elapsed s.su.qt (s.cvu.segment 14).lastUnshadowed ∧
     driftSetup.coverage.ageS * 1000 = elapsed s.su.qt (s.cvu.segment 14).lastShadowed) ∧
    (let s := scanning 703600 { driftSegment with dl := some (-1536), drift := true }
     s.su.setup = some driftSetup ∧ s.su.runState = .running ∧ s.due.coverage = true ∧
     elapsed s.su.qt (s.cvu.segment 14).lastUnshadowed < driftSetup.coverage.ageS * 1000 ∧
     baselineOf driftSetup 14 = some (-1440) ∧ (s.cvu.segment 14).dl = some (-1536)) ∧
    (let s := scanning 703600 driftSegment
     let s := { s with cvu := { s.cvu with scanPos := 23 } }
     s.su.setup = some driftSetup ∧ s.su.runState = .running ∧ s.due.coverage = true ∧
     s.cvu.scanPos + 1 = driftSetup.coverage.segCount) := by decide +kernel

/-- The windows a write reaches under a table. -/
def reaches (s : State) (p : Setup) (w : Write) : List WatchedWindow :=
  [WatchedWindow.ulSlots, .ulProducer, .dlSlots, .dlProducer, .consumer, .views, .command].filter
    (fun y => y.reached s p.windows w)

/-- A write that reaches one window reaches no other. -/
theorem reaches_only (s : State) (p : Setup) (w : Write) (x : WatchedWindow) (hs : s.su.setup = some p)
    (h : reaches s p w = [x]) : x.reached s p.windows w = true ∧ reachesOnly s w x := by
  have all : ∀ y, y.reached s p.windows w = true ↔ y = x := by
    intro y
    have : y ∈ reaches s p w ↔ y.reached s p.windows w = true := by
      cases y <;> simp [reaches]
    rw [← this, h, List.mem_singleton]
  refine ⟨(all x).2 rfl, fun q hq y hy => ?_⟩
  cases hs.symm.trans hq
  exact eq_false_of_ne_true (fun e => hy ((all y).1 e))

/-- An OKAY write of one window in a part RUNNING is watched. -/
theorem watched {s : State} {p : Setup} {role : Role} {x : WatchedWindow} {w : Write}
    (h : s.su.setup = some p ∧ s.su.runState = .running ∧ isOkay w.resp = true ∧
      forwardedRole s .write w.id = some role ∧ reaches s p w = [x]) : watchedBy s p role x w :=
  ⟨h.1, h.2.1, h.2.2.1, h.2.2.2.1, reaches_only s p w x h.1 h.2.2.2.2⟩

/-- A PENDING entry of a slot. -/
def pendingOf (slot : Nat) (first : Qt) : CaptureEntry := ⟨slot, List.replicate 256 none, first⟩

/-- A capture store of `n` QUEUED entries and some PENDING ones. -/
def store (n : Nat) (filling : List CaptureEntry) : State :=
  { demo with rcu := { CaptureUnit.reset with
      queue := List.replicate n (.captured (pendingOf 9 0) 900), filling := filling } }

/-- UplinkWriteCaptured: a write over the end of slot 3, PENDING, and the start of slot 4, not PENDING, with room for
exactly one more entry. -/
theorem witness_UplinkWriteCaptured :
    (let s := store 30 [pendingOf 3 900]
     let w := wrote 32 0x100003FE [1, 2, 3, 4]
     watchedBy s demoSetup .radio .ulSlots w ∧ (∀ e ∈ s.rcu.filling, e.cells.length = 256) ∧
     s.rcu.inUse + ((List.range demoSetup.windows.ulCount).filter
       (fun k => touchesUlSlot demoSetup w k && (s.rcu.pendingEntry k).isNone)).length = 32 ∧
     touchesUlSlot demoSetup w 3 = true ∧ touchesUlSlot demoSetup w 4 = true ∧ touchesUlSlot demoSetup w 5 = false ∧
     (s.rcu.pendingEntry 3).isSome = true ∧ s.rcu.pendingEntry 4 = none) := by
  refine ⟨watched (by decide +kernel), ?_⟩
  decide +kernel

/-- A write of slot 4 alone touches no other slot. -/
theorem touches_only_four : ∀ j, touchesUlSlot demoSetup (wrote 32 0x10000400 [1]) j = true ↔ j = 4 := by
  have h : ∀ j < 16, (touchesUlSlot demoSetup (wrote 32 0x10000400 [1]) j = true ↔ j = 4) := by decide +kernel
  intro j
  by_cases hj : j < 16
  · exact h j hj
  · have : ¬ j < demoSetup.windows.ulCount := hj
    simp only [touchesUlSlot, this, decide_false, Bool.false_and, Bool.false_eq_true, false_iff]
    omega

/-- CaptureOverflow: all 32 entries QUEUED, and 30 QUEUED with two PENDING, the older one that of slot 7. -/
theorem witness_CaptureOverflow :
    (let w := wrote 32 0x10000400 [1]
     (∀ j, touchesUlSlot demoSetup w j = true ↔ j = 4) ∧
     (let s := store 32 []
      watchedBy s demoSetup .radio .ulSlots w ∧ 32 ≤ s.rcu.inUse ∧ s.rcu.pendingEntry 4 = none ∧ s.rcu.filling = []) ∧
     (let s := store 30 [pendingOf 2 800, pendingOf 7 700]
      watchedBy s demoSetup .radio .ulSlots w ∧ s.rcu.inUse = 32 ∧ s.rcu.pendingEntry 4 = none ∧ pendingOf 7 700 ∈ s.rcu.filling ∧
      ∀ e ∈ s.rcu.filling, e ≠ pendingOf 7 700 → olderEntry s.su.qt (pendingOf 7 700) e = true)) := by
  refine ⟨touches_only_four, ⟨watched (by decide +kernel), by decide +kernel⟩,
    watched (by decide +kernel), by decide +kernel⟩

/-- A four-byte index write by an ID. -/
def indexWrite (id addr v : Nat) : Write := wrote id addr (le32 (BitVec.ofNat 32 v))

/-- UplinkCommit: from 14 over the ring's end to 1, slot 15 with a PENDING entry, the queue empty; one item short of
UL_SLOTS, so that slot 14 joins and slot 0 is settled at once; and the last value 15. -/
theorem witness_UplinkCommit :
    (∀ n ∈ [0, 14], (let s := { demo with rcu := { CaptureUnit.reset with
        hUl := 14, filling := [pendingOf 15 900], queue := List.replicate n (.placeholder 3 5) } }
     watchedBy s demoSetup .radio .ulProducer (indexWrite 32 0x10100000 1) ∧
     coversWhole (indexWrite 32 0x10100000 1) demoSetup.windows.ulProducer 4 = true ∧
     indexValue (indexWrite 32 0x10100000 1) demoSetup.windows.ulProducer = 1 ∧ 1 < demoSetup.windows.ulCount ∧
     s.rcu.hUl < demoSetup.windows.ulCount ∧ 3 = (1 + demoSetup.windows.ulCount - s.rcu.hUl) % demoSetup.windows.ulCount ∧
     (s.rcu.queue.length + 3 ≤ demoSetup.windows.ulCount ↔ n = 0) ∧
     (committedItems demoSetup.windows.ulCount 1000 s.rcu.pendingEntry s.rcu.queue.length [14, 15, 0]).2 =
       if n = 0 then [] else [0])) ∧
    indexValue (indexWrite 32 0x10100000 15) demoSetup.windows.ulProducer = 15 ∧ 15 < demoSetup.windows.ulCount := by
  refine ⟨?_, by decide +kernel⟩
  intro n hn
  simp only [List.mem_cons, List.not_mem_nil, or_false] at hn
  rcases hn with rfl | rfl <;> exact ⟨watched (by decide +kernel), by decide +kernel⟩

/-- IndexWriteRefused: for each word, a partial write of a value in range, and a whole write of the ring's count. -/
theorem witness_IndexWriteRefused :
    (∀ w ∈ [wrote 32 0x10100000 [1, 0, 0], indexWrite 32 0x10100000 16],
      watchedBy demo demoSetup .radio .ulProducer w ∧
      (coversWhole w demoSetup.windows.ulProducer 4 = false ∨
        demoSetup.windows.ulCount ≤ indexValue w demoSetup.windows.ulProducer)) ∧
    (∀ w ∈ [wrote 16 0x10300001 [1], indexWrite 16 0x10300000 16],
      watchedBy demo demoSetup .app .dlProducer w ∧
      (coversWhole w demoSetup.windows.dlProducer 4 = false ∨
        demoSetup.windows.dlCount ≤ indexValue w demoSetup.windows.dlProducer)) ∧
    (∀ w ∈ [(⟨16, 0x10500004, [some 1, none, some 0, some 0], .exokay⟩ : Write), indexWrite 16 0x10500004 64],
      watchedBy demo demoSetup .app .consumer w ∧
      (coversWhole w demoSetup.windows.reportConsumer 4 = false ∨
        demoSetup.windows.repCount ≤ indexValue w demoSetup.windows.reportConsumer)) := by
  refine ⟨?_, ?_, ?_⟩ <;> intro w hw <;>
    simp only [List.mem_cons, List.not_mem_nil, or_false] at hw <;> rcases hw with rfl | rfl <;>
    exact ⟨watched (by decide +kernel), by decide +kernel⟩

/-- ParserRows: a placeholder and a captured entry at the head; under parse a SHORT frame, one of kind 02H, one for crane
12, one that fails the check digit, and one for crane 3, which is not enabled. -/
theorem witness_ParserRows :
    (let s := { demo with rcu := { CaptureUnit.reset with queue := [.placeholder 3 900] } }
     s.su.runState = .running ∧ s.rcu.parsing = false ∧ s.rcu.queue = .placeholder 3 900 :: []) ∧
    ((store 1 []).su.runState = .running ∧ (store 1 []).rcu.parsing = false ∧
      (store 1 []).rcu.queue = .captured (pendingOf 9 0) 900 :: []) ∧
    (∀ cells, (let s := parsing cells 900 demo
      s.su.runState = .running ∧ s.rcu.parsing = true ∧ s.rcu.queue = .captured ⟨3, cells, 900⟩ 900 :: [] ∧
      s.su.setup = some demoSetup)) ∧
    parseCells (some demoSetup) (List.replicate 256 none) = .short 12 ∧
    parseCells (some demoSetup) ((statusCells 2 1 0 0 0 0 0).set 4 (some 2)) = .unknownKind 2 ∧
    parseCells (some demoSetup) (statusCells 12 1 0 0 0 0 0) = .fieldBad 0x03 0x01 ∧
    parseCells (some demoSetup) (reportCells (qnsu.set 10 0x36) 3 1 8 0 0 0 0) = .badId (qnsu.set 10 0x36) ∧
    parseCells (some demoSetup) (statusCells 3 1 0 0 0 0 0) = .ignored :=
  ⟨by decide +kernel, by decide +kernel, fun _ => ⟨rfl, rfl, rfl, rfl⟩, by decide +kernel, by decide +kernel,
    by decide +kernel, by decide +kernel, by decide +kernel⟩

/-- A MEAS_REPORT frame by the layout of 10.2, of entries of a position and a level. -/
def measCells (es : List (Nat × Int)) : List (Option Byte) :=
  (bytes [0xFF, 0x7F, 0, 0, 4, 1 + 6 * es.length, 0, 0, 7, 0, 0, 0, es.length] ++
    es.flatMap (fun e => le32 (BitVec.ofNat 32 e.1) ++ le16 (half e.2))).map some

/-- MeasurementReportTaken: entries at the quay's last centimetre and at its end, with the flag clear; and one on the
quay, with the flag set. -/
theorem witness_MeasurementReportTaken :
    (let cells := measCells [(79999, -96), (80000, 32767)]
     let s := parsing cells 10620 demo
     parsesTo s demoSetup ⟨3, cells, 10620⟩ 10620 [] (.acceptedMeas [⟨79999, 0xFFA0⟩, ⟨80000, 0x7FFF⟩]) ∧
     s.cvu.clampReported = false) ∧
    (let cells := measCells [(0, -140)]
     let s := parsing cells 10620 { demo with cvu := { demo.cvu with clampReported := true } }
     parsesTo s demoSetup ⟨3, cells, 10620⟩ 10620 [] (.acceptedMeas [⟨0, 0xFF74⟩]) ∧ s.cvu.clampReported = true) := by
  unfold parsesTo
  decide +kernel

/-- A status frame as it parses: boom UP, level unknown, LOCAL clear. -/
def statusOf (crane : Nat) (terminal : Word) (seq echo : Half) (gantry : Nat) (age : Half) : StatusFrame :=
  ⟨crane, terminal, seq, echo, .up, gantry, false, 0x7FFF, age⟩

/-- Crane 2 in a link state, its last sequence 102 valid, its last arrival 10394. -/
def linked (link : LinkState) : State :=
  withCrane 2 (fun c => { c with
    link := link, seqValid := true, lastSeq := 102, lastArrival := some 10394, learned := none })
    (runningAt demoSetup 10620)

/-- StatusFrameNotTaken: a frame for a crane in CLAIM, a duplicate, a frame behind by exactly 32768, a terminal that is
not the roster's or not the one learned, and one that is another crane's, for a crane without a terminal. -/
theorem witness_StatusFrameNotTaken :
    (let cells := statusCells 2 0x0A100002 102 0 41000 20 0x7FFF
     let s := parsing cells 10620 (linked .claim)
     parsesTo s demoSetup ⟨3, cells, 10620⟩ 10620 [] (.acceptedCrane (statusOf 2 0x0A100002 102 0 41000 20)) ∧
     (s.clu.crane 2).link = .claim) ∧
    (let cells := statusCells 2 0x0A100002 102 0 41000 20 0x7FFF
     let s := parsing cells 10620 (linked .late)
     parsesTo s demoSetup ⟨3, cells, 10620⟩ 10620 [] (.acceptedCrane (statusOf 2 0x0A100002 102 0 41000 20)) ∧
     (s.clu.crane 2).link ≠ .claim ∧ rosterTerminal demoSetup 2 = some 0x0A100002 ∧
     (s.clu.crane 2).seqValid = true ∧ ((102 : Half) - (s.clu.crane 2).lastSeq).toNat = 0) ∧
    (let cells := statusCells 2 0x0A100002 32870 0 41000 20 0x7FFF
     let s := parsing cells 10620 (linked .lost)
     parsesTo s demoSetup ⟨3, cells, 10620⟩ 10620 [] (.acceptedCrane (statusOf 2 0x0A100002 32870 0 41000 20)) ∧
     (s.clu.crane 2).link ≠ .claim ∧ rosterTerminal demoSetup 2 = some 0x0A100002 ∧
     (s.clu.crane 2).seqValid = true ∧ ((32870 : Half) - (s.clu.crane 2).lastSeq).toNat = 32768) ∧
    (let cells := statusCells 2 0x66 103 0 41000 20 0x7FFF
     let s := parsing cells 10620 (linked .live)
     parsesTo s demoSetup ⟨3, cells, 10620⟩ 10620 [] (.acceptedCrane (statusOf 2 0x66 103 0 41000 20)) ∧
     (s.clu.crane 2).link ≠ .claim ∧ (0x0A100002 : Word) ≠ 0x66 ∧ rosterTerminal demoSetup 2 = some 0x0A100002 ∧
     s.rpu.ring = .running ∧ s.rpu.queue.length < 32 ∧ demoSetup.irqMask.getLsbD 2 = true ∧
     demoSetup.irqMode = .latchRead) ∧
    (let cells := statusCells 7 0x0D400007 103 0 41000 20 0x7FFF
     let s := parsing cells 10620 (withCrane 7 (fun c => { c with learned := some 0x0C300007 }) (linked .live))
     parsesTo s demoSetup ⟨3, cells, 10620⟩ 10620 [] (.acceptedCrane (statusOf 7 0x0D400007 103 0 41000 20)) ∧
     (s.clu.crane 7).link ≠ .claim ∧ rosterTerminal demoSetup 7 = none ∧
     (s.clu.crane 7).learned = some 0x0C300007) ∧
    (let cells := statusCells 7 0x0A100002 103 0 41000 20 0x7FFF
     let s := parsing cells 10620 (linked .live)
     parsesTo s demoSetup ⟨3, cells, 10620⟩ 10620 [] (.acceptedCrane (statusOf 7 0x0A100002 103 0 41000 20)) ∧
     (s.clu.crane 7).link ≠ .claim ∧ rosterTerminal demoSetup 7 = none ∧ (s.clu.crane 7).learned = none ∧
     2 ≠ 7 ∧ 2 < 12 ∧ boundTo demoSetup s 2 0x0A100002) := by
  unfold parsesTo boundTo
  refine ⟨?_, ?_, ?_, ?_, ?_, ?_⟩ <;> decide +kernel

/-- StatusFrameInLive: LIVE, in sequence, one millisecond short of aged, at the quay end, with a full trace; LATE, at the
widest gap, aged by no more than it must, with an echo ahead of the newest command; and a learned terminal, with no
valid sequence, and an echo that is its command's. -/
theorem witness_StatusFrameInLive :
    (let cells := statusCells 2 0x0A100002 103 0 80000 299 0x7FFF
     let s := parsing cells 10620 (withCrane 2 (fun c => { c with trace := List.replicate 16 ⟨1, 0, 0x7FFF, 0, .up⟩ })
       (linked .live))
     parsesTo s demoSetup ⟨3, cells, 10620⟩ 10620 [] (.acceptedCrane (statusOf 2 0x0A100002 103 0 80000 299)) ∧
     (s.clu.crane 2).link = .live ∧ terminalOfCrane demoSetup s (statusOf 2 0x0A100002 103 0 80000 299) ∧
     (s.clu.crane 2).takes 103 ∧ (s.clu.crane 2).gapBefore 103 = false ∧
     (299 : Half).toNat + 1 = demoSetup.timing.lateMs ∧ (s.clu.crane 2).trace.length = 16 ∧
     demoSetup.coverage.segCount * demoSetup.coverage.segLenCm = 80000) ∧
    (let cells := statusCells 2 0x0A100002 32869 501 41000 300 0x7FFF
     let s := parsing cells 10620 (withCrane 2 (fun c => { c with outstanding := [⟨500, 1, 10500⟩] }) (linked .late))
     parsesTo s demoSetup ⟨3, cells, 10620⟩ 10620 [] (.acceptedCrane (statusOf 2 0x0A100002 32869 501 41000 300)) ∧
     (s.clu.crane 2).link = .late ∧ terminalOfCrane demoSetup s (statusOf 2 0x0A100002 32869 501 41000 300) ∧
     (s.clu.crane 2).takes 32869 ∧ (s.clu.crane 2).gapBefore 32869 = true ∧
     demoSetup.timing.lateMs = (300 : Half).toNat) ∧
    echoClaims ((withCrane 2 (fun c => { c with outstanding := [⟨500, 1, 10500⟩] }) (linked .late)).clu.crane 2) 501 500 ∧
    (let cells := statusCells 7 0x0C300007 9 500 41000 0 0x7FFF
     let s := parsing cells 10620 (withCrane 7 (fun c => { c with
       link := .late, learned := some 0x0C300007, outstanding := [⟨500, 1, 10500⟩] }) (linked .live))
     parsesTo s demoSetup ⟨3, cells, 10620⟩ 10620 [] (.acceptedCrane (statusOf 7 0x0C300007 9 500 41000 0)) ∧
     (s.clu.crane 7).link = .late ∧ terminalOfCrane demoSetup s (statusOf 7 0x0C300007 9 500 41000 0) ∧
     (s.clu.crane 7).takes 9 ∧ (s.clu.crane 7).seqValid = false ∧ (s.clu.crane 7).lastArrival = none) := by
  unfold parsesTo terminalOfCrane Crane.takes echoClaims
  refine ⟨?_, ?_, ?_, ?_⟩ <;> decide +kernel

/-- StatusFrameRecovers: IDLE with no last arrival; LOST one count short of RECOVER_COUNT with a spacing of 299, of 300,
and after a gap; an aged frame; and a crane that learns. -/
theorem witness_StatusFrameRecovers :
    (let cells := statusCells 2 0x0A100002 100 0 41000 5 0x7FFF
     let s := parsing cells 10000 (runningAt demoSetup 10000)
     parsesTo s demoSetup ⟨3, cells, 10000⟩ 10000 [] (.acceptedCrane (statusOf 2 0x0A100002 100 0 41000 5)) ∧
     (s.clu.crane 2).link = .idle ∧ (s.clu.crane 2).takes 100 ∧ (s.clu.crane 2).lastArrival = none ∧
     (5 : Half).toNat < demoSetup.timing.lateMs) ∧
    (∀ x ∈ [(103, 1, 299), (103, 0, 300), (104, 1, 299), (103, 300, 0)],
      (let cells := statusCells 2 0x0A100002 x.1 0 41000 x.2.1 0x7FFF
       let s := parsing cells 10694 (withCrane 2 (fun c => { c with recovery := 2 }) (linked .lost))
       let f := statusOf 2 0x0A100002 (BitVec.ofNat 16 x.1) 0 41000 (BitVec.ofNat 16 x.2.1)
       parsesTo s demoSetup ⟨3, cells, 10694⟩ 10694 [] (.acceptedCrane f) ∧ terminalOfCrane demoSetup s f ∧
       (s.clu.crane 2).link = .lost ∧ (s.clu.crane 2).takes f.seq ∧ (s.clu.crane 2).lastArrival = some 10394 ∧
       ((10694 : Qt) - f.age.setWidth 32 - 10394).toNat = x.2.2 ∧
       (s.clu.crane 2).recovery + 1 = demoSetup.timing.recoverCount)) ∧
    (let cells := statusCells 7 0x0C300007 100 0 41000 5 0x7FFF
     let s := parsing cells 10000 (runningAt demoSetup 10000)
     parsesTo s demoSetup ⟨3, cells, 10000⟩ 10000 [] (.acceptedCrane (statusOf 7 0x0C300007 100 0 41000 5)) ∧
     (s.clu.crane 7).link = .idle ∧ (s.clu.crane 7).takes 100 ∧ (s.clu.crane 7).lastArrival = none ∧
     rosterTerminal demoSetup 7 = none ∧ (s.clu.crane 7).learned = none ∧
     ∀ m < 12, m ≠ 7 → ¬ boundTo demoSetup s m 0x0C300007) := by
  unfold parsesTo boundTo terminalOfCrane Crane.takes
  refine ⟨?_, ?_, ?_⟩ <;> decide +kernel

/-- A part under parse of a frame whose reefer table holds a list of entries from index 0 on. -/
def seated (es : List Reefer) (cells : List (Option Byte)) : State :=
  let s := parsing cells 600000 (runningAt demoSetup 600000)
  { s with rfu := { s.rfu with
      table := ⟨es.zipIdx.map (fun x => (x.2, some x.1))⟩
      departed := (List.range es.length).filter (fun i => es[i]?.any (fun e => decide (e.state = .departed))) } }

theorem departed_seated (es : List Reefer) (cells : List (Option Byte)) : (seated es cells).rfu.departed =
    (List.range es.length).filter (fun i => es[i]?.any (fun e => decide (e.state = .departed))) := rfl

/-- The frame is under parse. -/
theorem parses_seated {cells : List (Option Byte)} {o : ParseOutcome} (es : List Reefer)
    (h : parseCells (some demoSetup) cells = o) : parsesTo (seated es cells) demoSetup ⟨3, cells, 600000⟩ 600000 [] o :=
  ⟨rfl, rfl, rfl, rfl, h⟩

/-- Its tables are in their canonical form. -/
theorem tables_seated (es : List Reefer) (cells : List (Option Byte)) : tableLaw (seated es cells) := by
  refine ⟨rfl, rfl, rfl, (Table.wf_iff _ _).2 ⟨?_, ?_⟩⟩
  · have h : (es.zipIdx.map Prod.snd).Pairwise (· < ·) := by
      rw [List.zipIdx_map_snd]
      exact List.pairwise_lt_range'
    rw [List.pairwise_map] at h
    exact List.pairwise_map.2 h
  · intro c hc
    obtain ⟨x, -, rfl⟩ := List.mem_map.1 hc
    exact Option.some_ne_none _

/-- Its table holds that list. -/
theorem entry_seated (es : List Reefer) (cells : List (Option Byte)) (i : Nat) :
    (seated es cells).rfu.entry i = es[i]? := by
  by_cases hi : i < es.length
  · rw [List.getElem?_eq_getElem hi]
    exact Table.get_of_mem _ none (tables_seated es cells).2.2.2 (i, some es[i])
      (List.mem_map.2 ⟨(es[i], i), by simp [List.mk_mem_zipIdx_iff_getElem?, hi], rfl⟩)
  · rw [List.getElem?_eq_none (Nat.le_of_not_lt hi)]
    refine Table.get_of_not_listed _ _ _ ?_
    simp [seated, Table.numbers, List.map_map, Function.comp_def]
    omega

/-- It meets the law on the reefer table where the list does. -/
theorem law_seated (es : List Reefer) (cells : List (Option Byte)) (h1 : es.length ≤ 2048)
    (h2 : ∀ e ∈ es, e.reason = .none ↔ e.state ≠ .departed) (h3 : es.Pairwise reefersDiffer) :
    reeferLaw (seated es cells) := by
  refine ⟨?_, ?_, List.nodup_range.filter _, ?_⟩
  · intro i e he
    rw [entry_seated] at he
    have := (List.getElem?_eq_some_iff.1 he).1
    exact ⟨Nat.lt_of_lt_of_le this h1, h2 e (List.mem_of_getElem? he)⟩
  · intro i j a b ha hb hij
    rw [entry_seated] at ha hb
    obtain ⟨hi, rfl⟩ := List.getElem?_eq_some_iff.1 ha
    obtain ⟨hj, rfl⟩ := List.getElem?_eq_some_iff.1 hb
    rw [List.pairwise_iff_getElem] at h3
    rcases Nat.lt_or_gt_of_ne hij with h | h
    · exact h3 i j hi hj h
    · obtain ⟨hc, hp⟩ := h3 j i hj hi h
      exact ⟨hc.symm, fun x y => (hp y x).symm⟩
  · intro i
    rw [entry_seated]
    constructor
    · intro h
      obtain ⟨-, h⟩ := List.mem_filter.1 h
      obtain ⟨e, he, hs⟩ := (Option.any_eq_true _ _).1 h
      exact ⟨e, he, of_decide_eq_true hs⟩
    · rintro ⟨e, he, hs⟩
      have := (List.getElem?_eq_some_iff.1 he).1
      exact List.mem_filter.2 ⟨List.mem_range.2 this, (Option.any_eq_true _ _).2 ⟨e, he, decide_eq_true hs⟩⟩

/-- A container of a list is not one whose ID none of them has. -/
theorem newcomer (es : List Reefer) (cells : List (Option Byte)) (h : ∀ e ∈ es, e.container ≠ qnsu) :
    ∀ j x, (seated es cells).rfu.entry j = some x → x.container ≠ qnsu := by
  intro j x hx
  rw [entry_seated] at hx
  exact h x (List.mem_of_getElem? hx)

/-- The entry at index i of a full table: ID and plug are its number, and it has departed or not. -/
def seat (departed : Bool) (i : Nat) : Reefer :=
  { tracked 3 0 with
    container := [BitVec.ofNat 8 i, BitVec.ofNat 8 (i / 256)]
    plug      := BitVec.ofNat 16 i
    segment   := 0
    state     := if departed then .departed else .tracked
    reason    := if departed then .unplugged else .none }

/-- A table of n entries, of which one or none has departed. -/
def house (n : Nat) (departed : Option Nat) : List Reefer :=
  (List.range n).map (fun i => seat (decide (departed = some i)) i)

theorem get_house (n : Nat) (d : Option Nat) (i : Nat) (h : i < n) :
    (house n d)[i]? = some (seat (decide (d = some i)) i) := by
  simp [house, h]

theorem mem_house (n : Nat) (d : Option Nat) (e : Reefer) (h : e ∈ house n d) : ∃ i b, i < n ∧ e = seat b i := by
  obtain ⟨i, hi, rfl⟩ := List.mem_map.1 h
  exact ⟨i, _, List.mem_range.1 hi, rfl⟩

/-- Its indices are in use. -/
theorem full_house (n : Nat) (d : Option Nat) (cells : List (Option Byte)) :
    ∀ j, j < n → (seated (house n d) cells).rfu.entry j ≠ none := by
  intro j hj
  rw [entry_seated, get_house n d j hj]
  exact Option.some_ne_none _

theorem law_house (n : Nat) (hn : n ≤ 2048) (d : Option Nat) (cells : List (Option Byte)) :
    reeferLaw (seated (house n d) cells) := by
  refine law_seated _ _ (by simpa [house] using hn) ?_ ?_
  · intro e he
    obtain ⟨i, b, -, rfl⟩ := mem_house n d e he
    cases b <;> simp [seat]
  · refine List.pairwise_map.2 (List.Pairwise.imp_of_mem ?_ List.pairwise_lt_range)
    intro i j hi hj hij
    have hi := List.mem_range.1 hi
    have hj := List.mem_range.1 hj
    refine ⟨?_, fun _ _ => ?_⟩
    · intro h
      simp only [seat, List.cons.injEq, and_true] at h
      have h1 := congrArg BitVec.toNat h.1
      have h2 := congrArg BitVec.toNat h.2
      simp only [BitVec.toNat_ofNat] at h1 h2
      omega
    · intro h
      have h := congrArg BitVec.toNat h
      simp only [seat, BitVec.toNat_ofNat] at h
      omega

theorem newcomer_house (n : Nat) (d : Option Nat) (cells : List (Option Byte)) :
    ∀ j x, (seated (house n d) cells).rfu.entry j = some x → x.container ≠ qnsu := by
  refine newcomer _ _ ?_
  intro e he h
  obtain ⟨i, b, -, rfl⟩ := mem_house n d e he
  exact absurd (congrArg List.length h) (by simp [seat, qnsu, bytes])

/-- Its departed list. -/
theorem departed_house (n : Nat) (d : Option Nat) (cells : List (Option Byte)) :
    (seated (house n d) cells).rfu.departed = (List.range n).filter (fun i => decide (d = some i)) := by
  rw [departed_seated]
  have hl : (house n d).length = n := by simp [house]
  rw [hl]
  refine List.filter_congr ?_
  intro i hi
  rw [get_house n d i (List.mem_range.1 hi)]
  by_cases hd : d = some i <;> simp [seat, hd]

/-- A report as it parses: no alarms, level unknown. -/
def reportOf (container : List Byte) (cls : Nat) (power : Power) (plug : Half) (supply : Int) : ReeferReport :=
  ⟨container, cls, power, plug, 0, supply, 0, [], 0x7FFF⟩

/-- An entry that has departed. -/
def left : Reefer := { tracked 3 0 with state := .departed, reason := .unplugged }

/-- ReeferAdmitted: a newcomer claims the plug of a TRACKED entry, with a supply at the edge of the range; one on a
plug that only a DEPARTED entry holds; and one that reuses the only departed index of a full table. -/
theorem witness_ReeferAdmitted :
    (let cells := reportCells qnsu 3 1 96 0 700 0 0x7FFF
     let s := seated [tracked 3 0] cells
     parsesTo s demoSetup ⟨3, cells, 600000⟩ 600000 [] (.acceptedReefer (reportOf qnsu 3 .on 96 700)) ∧ tableLaw s ∧
     reeferLaw s ∧ Power.on ≠ .unplug ∧ (∀ j x, s.rfu.entry j = some x → x.container ≠ qnsu) ∧ s.rfu.entry 1 = none ∧
     (∀ j, j < 1 → s.rfu.entry j ≠ none) ∧ s.rfu.departed = [] ∧
     ∃ y, s.rfu.entry 0 = some y ∧ y.state ≠ .departed ∧ y.plug = 96) ∧
    (let cells := reportCells qnsu 3 0 96 0 701 0 0x7FFF
     let s := seated [left] cells
     parsesTo s demoSetup ⟨3, cells, 600000⟩ 600000 [] (.acceptedReefer (reportOf qnsu 3 .off 96 701)) ∧ tableLaw s ∧
     reeferLaw s ∧ (∀ j x, s.rfu.entry j = some x → x.container ≠ qnsu) ∧ s.rfu.entry 1 = none ∧
     (∀ j, j < 1 → s.rfu.entry j ≠ none) ∧ s.rfu.departed = [0]) ∧
    (let cells := reportCells qnsu 3 1 96 0 0 0 0x7FFF
     let s := seated (house 2048 (some 7)) cells
     parsesTo s demoSetup ⟨3, cells, 600000⟩ 600000 [] (.acceptedReefer (reportOf qnsu 3 .on 96 0)) ∧ tableLaw s ∧
     reeferLaw s ∧ (∀ j x, s.rfu.entry j = some x → x.container ≠ qnsu) ∧
     (∀ j, j < 2048 → s.rfu.entry j ≠ none) ∧ s.rfu.departed = 7 :: []) := by
  have one : ∀ (e : Reefer) cells j, j < 1 → (seated [e] cells).rfu.entry j ≠ none := by
    intro e cells j hj
    obtain rfl : j = 0 := by omega
    rw [entry_seated]
    exact Option.some_ne_none _
  refine ⟨⟨parses_seated _ (by decide +kernel), tables_seated _ _, law_seated _ _ (by decide) (by decide) (by simp), by decide,
      newcomer _ _ (by decide), by rw [entry_seated]; rfl, one _ _, rfl, tracked 3 0, by rw [entry_seated]; rfl,
      by decide, by decide⟩,
    ⟨parses_seated _ (by decide +kernel), tables_seated _ _, law_seated _ _ (by decide) (by decide) (by simp), newcomer _ _ (by decide),
      by rw [entry_seated]; rfl, one _ _, rfl⟩,
    parses_seated _ (by decide +kernel), tables_seated _ _, law_house 2048 (Nat.le_refl _) _ _, newcomer_house _ _ _,
    full_house _ _ _, (departed_house _ _ _).trans (by decide +kernel)⟩

/-- KnownContainerReported: an UNPLUG report of a TRACKED container and of a DEPARTED one; and under power, a TRACKED one
reported again, and a DEPARTED one that returns to a plug another holds. -/
theorem witness_KnownContainerReported :
    (∀ x ∈ [(tracked 3 0, Power.unplug, 96), ({ left with reason := .replaced }, .unplug, 400), (tracked 3 0, .on, 96),
        (left, .on, 17)],
      let cells := reportCells bslu 3 x.2.1.code x.2.2 0 0 0 0x7FFF
      let s := seated [x.1, { tracked 3 0 with container := kxtu, plug := 17, segment := 2 }] cells
      parsesTo s demoSetup ⟨3, cells, 600000⟩ 600000 [] (.acceptedReefer (reportOf bslu 3 x.2.1 (BitVec.ofNat 16 x.2.2) 0)) ∧
      tableLaw s ∧ reeferLaw s ∧ s.rfu.entry 0 = some x.1 ∧ x.1.container = bslu) := by
  intro x hx
  have hp : parseCells (some demoSetup) (reportCells bslu 3 x.2.1.code x.2.2 0 0 0 0x7FFF) =
        .acceptedReefer (reportOf bslu 3 x.2.1 (BitVec.ofNat 16 x.2.2) 0) ∧
      (x.1.reason = .none ↔ x.1.state ≠ .departed) ∧ x.1.container = bslu ∧ x.1.plug = 96 := by
    revert x
    decide +kernel
  obtain ⟨h1, h2, h3, h4⟩ := hp
  refine ⟨parses_seated _ h1, tables_seated _ _, law_seated _ _ (by simp) ?_ ?_, by rw [entry_seated]; rfl, h3⟩
  · simp [h2, tracked]
  · simp [reefersDiffer, h3, h4, tracked, kxtu, bslu, bytes]

/-- NewContainerUnpluggedOrRefused: an UNPLUG report into a free index, and into the reused one; and in a full table with
no departed entry, under power on an occupied plug and unplugged. -/
theorem witness_NewContainerUnpluggedOrRefused :
    (let cells := reportCells qnsu 3 3 96 0 0 0 0x7FFF
     let s := seated [] cells
     parsesTo s demoSetup ⟨3, cells, 600000⟩ 600000 [] (.acceptedReefer (reportOf qnsu 3 .unplug 96 0)) ∧ tableLaw s ∧
     reeferLaw s ∧ (∀ j x, s.rfu.entry j = some x → x.container ≠ qnsu) ∧ s.rfu.entry 0 = none ∧
     (∀ j, j < 0 → s.rfu.entry j ≠ none) ∧ s.rfu.departed = []) ∧
    (let cells := reportCells qnsu 3 3 96 0 0 0 0x7FFF
     ∀ d ∈ [some 7, none],
       let s := seated (house 2048 d) cells
       parsesTo s demoSetup ⟨3, cells, 600000⟩ 600000 [] (.acceptedReefer (reportOf qnsu 3 .unplug 96 0)) ∧ tableLaw s ∧
       reeferLaw s ∧ (∀ j x, s.rfu.entry j = some x → x.container ≠ qnsu) ∧ (∀ j, j < 2048 → s.rfu.entry j ≠ none) ∧
       s.rfu.departed = d.toList) ∧
    (let cells := reportCells qnsu 3 1 96 0 0 0 0x7FFF
     let s := seated (house 2048 none) cells
     parsesTo s demoSetup ⟨3, cells, 600000⟩ 600000 [] (.acceptedReefer (reportOf qnsu 3 .on 96 0)) ∧ tableLaw s ∧
     reeferLaw s ∧ (∀ j x, s.rfu.entry j = some x → x.container ≠ qnsu) ∧ (∀ j, j < 2048 → s.rfu.entry j ≠ none) ∧
     s.rfu.departed = [] ∧ ∃ y, s.rfu.entry 96 = some y ∧ y.plug = 96) := by
  have unplugged : parseCells (some demoSetup) (reportCells qnsu 3 3 96 0 0 0 0x7FFF) =
      .acceptedReefer (reportOf qnsu 3 .unplug 96 0) := by decide +kernel
  have powered : parseCells (some demoSetup) (reportCells qnsu 3 1 96 0 0 0 0x7FFF) =
      .acceptedReefer (reportOf qnsu 3 .on 96 0) := by decide +kernel
  refine ⟨⟨parses_seated _ unplugged, tables_seated _ _, law_seated _ _ (by decide) (by simp) .nil, newcomer _ _ (by simp),
      by rw [entry_seated]; rfl, by omega, departed_seated _ _⟩, ?_,
    parses_seated _ powered, tables_seated _ _, law_house 2048 (Nat.le_refl _) _ _, newcomer_house _ _ _,
    full_house _ _ _, (departed_house _ _ _).trans (by decide +kernel), seat false 96, ?_, rfl⟩
  · intro cells d hd
    refine ⟨parses_seated _ unplugged, tables_seated _ _, law_house 2048 (Nat.le_refl _) _ _, newcomer_house _ _ _,
      full_house _ _ _, ?_⟩
    simp only [List.mem_cons, List.not_mem_nil, or_false] at hd
    rcases hd with rfl | rfl
    · exact (departed_house 2048 (some 7) _).trans (by decide +kernel)
    · exact (departed_house 2048 none _).trans (by decide +kernel)
  · rw [entry_seated, get_house 2048 none 96 (by decide)]
    rfl

/-- The class table entry and the entry of section 5.9. -/
def class3 : ReeferClass := ⟨20, 15, 3, 2, 10, 30⟩

/-- BandComparison: DEFROST; ON without a sensor; ON in the closed band at both ends; HIGH one tenth above it from the
supply, LOW one below it from the return sensor. -/
theorem witness_BandComparison :
    { tracked 3 0 with power := .defrost }.power ≠ .on ∧
    ((tracked 3 0).power = .on ∧ (tracked 3 0).supply = none ∧ (tracked 3 0).ret = none) ∧
    (∀ v ∈ [(-200 : Int), -165], { tracked 3 0 with supply := some v }.supply = some v ∧
      (tracked 3 0).setpoint - class3.bandLow ≤ v ∧ v ≤ (tracked 3 0).setpoint + class3.bandHigh) ∧
    ({ tracked 3 0 with supply := some (-164) }.supply = some (-164) ∧ (tracked 3 0).setpoint + class3.bandHigh < -164) ∧
    ({ tracked 3 0 with ret := some (-201) }.supply = none ∧ { tracked 3 0 with ret := some (-201) }.ret = some (-201) ∧
      (-201 : Int) < (tracked 3 0).setpoint - class3.bandLow) := by decide

/-- ObservationStored: one level below the window, and the window's two ends; the thresholds absolute, and relative to a
baseline; the weaker average the UL one of an observation made, and the DL one; WEIGHT_SHIFT 1, with no average, and
with one below and above the level. -/
theorem witness_ObservationStored :
    ((-141 : Int) < demoSetup.coverage.accLow ∧ demoSetup.coverage.accLow ≤ -140 ∧ (-140 : Int) ≤ demoSetup.coverage.accHigh ∧
      demoSetup.coverage.accLow ≤ -40 ∧ (-40 : Int) ≤ demoSetup.coverage.accHigh ∧ demoSetup.coverage.accHigh < (-39 : Int)) ∧
    gAndH demoSetup 9 (-1520) (-1760) ∧ gAndH { driftSetup with classMode := .relative } 14 (-1536) (-1728) ∧
    (let y := (observeSegment demoSetup false 9 .ul (-96) 5 { Segment.blank with dl := some (-1500) }).1
     y.ul = some (-1536) ∧ y.dl = some (-1500) ∧ (-1536 : Int) ≤ -1500) ∧
    (let y := (observeSegment demoSetup false 9 .ul (-96) 5 { Segment.blank with dl := some (-1600) }).1
     y.dl = some (-1600) ∧ y.ul = some (-1536) ∧ (-1600 : Int) ≤ -1536) ∧
    (1 : Nat) ≤ 1 ∧ (-490 : Int) ≤ -480 ∧ (-1920 : Int) ≤ -1905 := by
  refine ⟨by decide, ?_, ?_, by decide +kernel, by decide +kernel, by decide⟩
  · exact ⟨rfl, rfl⟩
  · have h : baselineOf { driftSetup with classMode := .relative } 14 = some (-1440) := by decide +kernel
    simp only [gAndH, h]
    decide +kernel

/-- A part with a committed record in downlink slot 11, its other records blank. -/
theorem record_commanded (now : Qt) (r : DlRecord) (k : Nat) :
    (commanded now r).rcu.record k = if k = 11 then r else DlRecord.blank := by
  have h : (commanded now r).rcu.record k = (CaptureUnit.reset.setRecord 11 r).record k := rfl
  rw [h, CaptureUnit.record_setRecord]
  rfl

/-- DownlinkHeaderWritten: an APP write over the last header byte of slot 11, committed, and on to the first of slot 12,
uncommitted; slot 13 is not touched. -/
theorem witness_DownlinkHeaderWritten :
    (let s := commanded 21500 (committedRecord 36 702 1 0 20040)
     let w : Write := ⟨16, 0x10200B0B, List.replicate 246 (some 1), .okay⟩
     watchedBy s demoSetup .app .dlSlots w ∧ (∀ k, (s.rcu.record k).cells.length = 12) ∧
     touchesDlHeader demoSetup w 11 = true ∧ (s.rcu.record 11).committed = true ∧
     touchesDlHeader demoSetup w 12 = true ∧ (s.rcu.record 12).committed = false ∧
     touchesDlHeader demoSetup w 13 = false) := by
  refine ⟨watched (by decide +kernel), ?_, by decide +kernel⟩
  · intro k
    rw [record_commanded]
    split <;> decide

/-- DownlinkCommit: from 14 over the ring's end to 1. -/
theorem witness_DownlinkCommit :
    (let s := { demo with rcu := { CaptureUnit.reset with hDl := 14 } }
     watchedBy s demoSetup .app .dlProducer (indexWrite 16 0x10300000 1) ∧
     coversWhole (indexWrite 16 0x10300000 1) demoSetup.windows.dlProducer 4 = true ∧
     indexValue (indexWrite 16 0x10300000 1) demoSetup.windows.dlProducer = 1 ∧ 1 < demoSetup.windows.dlCount ∧
     s.rcu.hDl < demoSetup.windows.dlCount) :=
  ⟨watched (by decide +kernel), by decide +kernel⟩

/-- The hypotheses of FirstDepartureDecided, as they are decided. -/
def fetches (s : State) (b : ReadBeat) (k : Nat) : Bool :=
  match burstOf b s with
  | some (o, _) => decide (o.role = .radio ∧ o.table = some demoWindows ∧ isOkay b.resp = true ∧
      classByteSlots demoWindows (beatAddr b) b.data.length = [k])
  | none => false

/-- They are those hypotheses. -/
theorem fetches_meets (s : State) (b : ReadBeat) (k : Nat) (h : fetches s b k = true) :
    ∃ o s1, fetchesSlot s s1 b o demoWindows k := by
  simp only [fetches] at h
  split at h
  · rename_i o s1 hb
    exact ⟨o, s1, hb, of_decide_eq_true h⟩
  · cases h

/-- The hypotheses of a first departure, as they are decided: such a beat, and the record of a command. -/
def departs (s : State) (b : ReadBeat) (k : Nat) : Bool :=
  fetches s b k && decide ((s.rcu.record k).committed = true ∧ (s.rcu.record k).complete = true ∧
    (s.rcu.record k).kind = 2 ∧ (s.rcu.record k).departed = false)

/-- They are those hypotheses. -/
theorem departs_meets (s : State) (b : ReadBeat) (k : Nat) (h : departs s b k = true) :
    (∃ o s1, fetchesSlot s s1 b o demoWindows k) ∧ (s.rcu.record k).committed = true ∧
      (s.rcu.record k).complete = true ∧ (s.rcu.record k).kind = 2 ∧ (s.rcu.record k).departed = false := by
  have h := Bool.and_eq_true_iff.1 h
  exact ⟨fetches_meets s b k h.1, of_decide_eq_true h.2⟩

/-- A record for a crane number other than 5. -/
def recordFor (crane : Nat) (validity : Nat) : DlRecord :=
  { committedRecord 20 701 1 validity 20020 with cells := (headerCells 20 701 1 validity).set 8 (some (BitVec.ofNat 8 crane)) }

/-- FirstDepartureDecided, each decision at its boundary: crane 12 out of range and crane 3 disabled; crane 2 held;
class 3, lengths 3 and 249; one millisecond past the validity; exactly at the validity, and a validity of zero; a later
departure with each stored decision; and a slot not committed, one not header-complete, and one of another kind. -/
theorem witness_FirstDepartureDecided :
    (let b := readOf 32 0x10200B00 32
     let c := committedRecord 20 701 1 159 20020
     (∀ r ∈ [{ c with departed := true }, { c with departed := true, overlay := .stale },
         { c with departed := true, overlay := .halt .classRange }],
       let s := commanded 20180 r
       fetches s b 11 = true ∧ (s.rcu.record 11).committed = true ∧ (s.rcu.record 11).complete = true ∧
       (s.rcu.record 11).kind = 2 ∧ (s.rcu.record 11).departed = true ∧ holdLine s 5 = false) ∧
     ∀ r ∈ [{ c with committed := false }, { c with cells := c.cells.set 11 none }, { c with cells := c.cells.set 0 (some 3) }],
       let s := commanded 20180 r
       fetches s b 11 = true ∧ ¬ ((s.rcu.record 11).committed = true ∧ (s.rcu.record 11).complete = true ∧
         (s.rcu.record 11).kind = 2)) ∧
    (let b := readOf 32 0x10200B00 32
     (∀ r ∈ [recordFor 12 0, recordFor 3 0, recordFor 2 0, committedRecord 20 701 3 0 20020, committedRecord 3 701 1 0 20020,
         committedRecord 249 701 1 0 20020, committedRecord 20 701 1 159 20020, committedRecord 20 701 1 160 20020,
         committedRecord 4 701 2 0 20020, committedRecord 248 701 0 0 20020], departs (commanded 20180 r) b 11 = true) ∧
     (let s := commanded 20180 (recordFor 2 0)
      holdLine s 2 = true ∧ holdLine s 5 = false ∧ craneEnabled s.su.setup 3 = false) ∧
     elapsed 20180 20020 = 160) := by decide +kernel

/-- Eight commands listed, 693 to 700. -/
def fullList : List Outstanding :=
  (List.range 8).map (fun k => ⟨BitVec.ofNat 16 (693 + k), 1, 20100⟩)

/-- DeliveredCommandListed, DELIVERED exactly at the validity and STALE one millisecond past it: an empty list, a full
list with a sequence ahead of both ends, one equal to the newest, and one ahead of the newest but 32768 past the oldest;
a length of 4 and a class of 2. -/
theorem witness_DeliveredCommandListed :
    (let b := readOf 32 0x10200B00 32
     (∀ v ∈ [160, 159], ∀ l ∈ [[], fullList, [(⟨701, 1, 20100⟩ : Outstanding)], [⟨33469, 1, 20100⟩, ⟨700, 1, 20100⟩]],
       let s := withCrane 5 (fun c => { c with outstanding := l }) (commanded 20180 (committedRecord 4 701 2 v 20020))
       departs s b 11 = true ∧ (s.rcu.record 11).crane = 5 ∧ holdLine s 5 = false ∧ (s.rcu.record 11).cls.toNat = 2 ∧
       (s.rcu.record 11).len = 4 ∧ (s.rcu.record 11).validity.toNat = v ∧
       (s.su.qt - (s.rcu.record 11).writeQt).toNat = 160 ∧ (s.clu.crane 5).outstanding = l ∧ l.length ≤ 8) ∧
     seqAhead 701 700 = true ∧ seqAhead 701 693 = true ∧ seqAhead 701 701 = false ∧ seqAhead 701 33469 = false) := by
  decide +kernel

/-- HeldFetchCarriesStop: a first and a later departure of crane 5 in LOST, the beat running past the motion bytes; and
with crane 5 LIVE a first departure STALE, HALT by class and by length, and DELIVERED, one for crane 12, and a later one
with each stored decision. -/
theorem witness_HeldFetchCarriesStop :
    (let b := readOf 32 0x10200B00 32
     ∀ r ∈ [committedRecord 20 701 1 0 20020, { committedRecord 20 701 1 0 20020 with departed := true }],
       let s := withCrane 5 (fun c => { c with link := .lost }) (commanded 20180 r)
       (match burstOf b s with
         | some (o, _) => decide (o.role = .radio ∧ o.table = some demoWindows)
         | none => false) = true ∧ isOkay b.resp = true ∧
       11 ∈ classByteSlots demoWindows (beatAddr b) b.data.length ∧ (s.rcu.record 11).committed = true ∧
       (s.rcu.record 11).complete = true ∧ (s.rcu.record 11).kind = 2 ∧ (s.rcu.record 11).crane = 5 ∧
       craneEnabled s.su.setup 5 = true ∧ holdLine s 5 = true) ∧
    (let b := readOf 32 0x10200B00 32
     let c := committedRecord 20 701 1 159 20020
     ∀ r ∈ [c, committedRecord 20 701 3 0 20020, committedRecord 3 701 1 0 20020, committedRecord 20 701 1 160 20020,
         recordFor 12 0, { c with departed := true }, { c with departed := true, overlay := .stale },
         { c with departed := true, overlay := .halt .length }],
       let s := commanded 20180 r
       fetches s b 11 = true ∧ (s.rcu.record 11).committed = true ∧ (s.rcu.record 11).complete = true ∧
       (s.rcu.record 11).kind = 2 ∧ holdLine s 5 = false) := by
  refine ⟨?_, ?_⟩ <;> decide +kernel

/-- MotionBytesOverlaid: the last motion byte and the byte past it, for each last fetch decision, with L = 248 whose
motion bytes end at 255; the first beat of a burst, which has counted no early read, and a later one that has. -/
theorem witness_MotionBytesOverlaid :
    (∀ f ∈ [FetchDecision.undecided, .none, .halt, .stale],
      let s := commanded 21001 { committedRecord 248 702 1 0 20040 with lastFetch := f }
      ∀ b ∈ [readOf 32 0x10200B0A 6, readOf 32 0x10200BFF 1], (match burstOf b s with
        | some (o, _) => decide (o.role = .radio ∧ o.table = some demoWindows ∧ o.early = false)
        | none => false) = true ∧
      isOkay b.resp = true ∧ classByteSlots demoWindows (beatAddr b) b.data.length = [] ∧
      beatCarries b demoWindows.dlSlots (demoWindows.dlCount * 256) = true ∧ (s.rcu.record 11).lastFetch = f ∧
      (s.rcu.record 11).committed = true ∧ (s.rcu.record 11).complete = true ∧ (s.rcu.record 11).kind = 2) ∧
    (let s0 := commanded 21001 (committedRecord 36 702 1 0 20040)
     let s := { s0 with pu := { s0.pu with openReads := [⟨32, .radio, some demoWindows, [], true, false⟩] } }
     let b : ReadBeat := ⟨32, [⟨0x10200B10, 16⟩, ⟨0x10200B20, 16⟩], 1, List.replicate 16 0x55, .okay⟩
     (match burstOf b s with
       | some (o, _) => decide (o.role = .radio ∧ o.table = some demoWindows ∧ o.early = true)
       | none => false) = true ∧
     classByteSlots demoWindows (beatAddr b) b.data.length = [] ∧
     beatCarries b demoWindows.dlSlots (demoWindows.dlCount * 256) = true) := by decide +kernel

/-- The second of two beats of a burst bound to a view: the end of a record and what follows. -/
def laterBeat (addr : Nat) : ReadBeat := ⟨16, [⟨addr - 16, 16⟩, ⟨addr, 16⟩], 1, List.replicate 16 0x55, .okay⟩

/-- A part with an APP burst in flight, bound to a view. -/
def bound (x : ViewBinding) (s : State) : State :=
  { s with pu := { s.pu with openReads := [⟨16, .app, some demoWindows, [x], false, false⟩] } }

/-- LiveViewRead: beats that hold the first and the last byte of each LIVE view, with OKAY and with an error; and a later
beat, in the header and in the records, one of which has been given. -/
theorem witness_LiveViewRead :
    (∀ v ∈ [View.status, .crane, .reefer], ∀ resp ∈ [Resp.okay, .slverr],
      ∀ a ∈ [viewBase demoWindows v, viewBase demoWindows v + viewExtent v - 1],
      let b : ReadBeat := ⟨16, [⟨a, 2⟩], 0, [0x55, 0x55], resp⟩
      forwardedRole demo .read b.id = some .app ∧ b.ok = decide (a % 16 ≠ 15) ∧
      beatCarries b (viewBase demoWindows v) (viewExtent v) = true ∧ viewMode demoSetup v = .live) ∧
    (∀ v ∈ [View.status, .crane, .reefer],
      let b : ReadBeat := ⟨16, [⟨viewBase demoWindows v + viewExtent v - 1, 1⟩], 0, [0x55], .okay⟩
      b.ok = true ∧ beatCarries b (viewBase demoWindows v) (viewExtent v) = true) ∧
    demo.su.setup = some demoSetup ∧
    (∀ a ∈ [0x10700010, 0x10700130],
      let x : ViewBinding := ⟨.crane, .live, none, [(0, List.replicate 256 7)], [], [], false⟩
      continued (laterBeat a) (bound x demo) = some ⟨16, .app, some demoWindows, [x], false, false⟩ ∧
      beatCarries (laterBeat a) (viewBase demoWindows .crane) (viewExtent .crane) = true ∧
      isOkay (laterBeat a).resp = true ∧ ([x].map ViewBinding.view).Nodup) := by
  refine ⟨?_, ?_, ?_, ?_⟩ <;> decide +kernel

/-- The coverage view in ALL mode with a snapshot of 2 records, of which some are in the coverage set. -/
def allMode (set_ : List Nat) : State :=
  let s := runningAt { demoSetup with coverageMode := .all } 1000
  { s with vu := { s.vu with coverage := ⟨some ⟨5, 50, 2, []⟩, 5, set_⟩ } }

/-- ViewSnapshotsTaken: HEADER mode with a header byte, without one, and without a snapshot; ALL mode one record short
of the whole set, and with it whole. -/
theorem witness_ViewSnapshotsTaken :
    (∀ s ∈ [headerMode, demo], ∀ a ∈ [0x1080003F, 0x10800040],
      let b := readOf 16 a 1
      s.su.setup = some demoSetup ∧ forwardedRole s .read b.id = some .app ∧ b.beat = 0 ∧ b.ok = true ∧
      beatCarries b (viewBase demoSetup.windows .coverage) (viewExtent .coverage) = true ∧
      viewMode demoSetup .coverage = .header ∧ burstCarries b 0x10800000 64 = decide (a < 0x10800040)) ∧
    (∀ l ∈ [[1], [1, 0]],
      let s := allMode l
      let b := readOf 16 0x10800000 1
      s.su.setup = some { demoSetup with coverageMode := .all } ∧ forwardedRole s .read b.id = some .app ∧ b.beat = 0 ∧
      b.ok = true ∧ beatCarries b (viewBase demoSetup.windows .coverage) (viewExtent .coverage) = true ∧
      (viewState s.vu .coverage).newest = some ⟨5, 50, 2, []⟩ ∧ (∀ o ∈ s.pu.openReads, o.passed = false) ∧
      (viewState s.vu .coverage).coverageSet = l) := by decide +kernel

/-- SnapshotServesBurst: the first beat of a burst in HEADER mode, with a snapshot and without one, and in ALL mode; and a
later beat bound to a snapshot older than the newest. -/
theorem witness_SnapshotServesBurst :
    (∀ s ∈ [headerMode, demo],
      let b := readOf 16 0x10800040 1
      s.su.setup = some demoSetup ∧ forwardedRole s .read b.id = some .app ∧ b.beat = 0 ∧ b.ok = true ∧
      isOkay b.resp = true ∧ beatCarries b (viewBase demoSetup.windows .coverage) (viewExtent .coverage) = true ∧
      viewMode demoSetup .coverage ≠ .live) ∧
    (let s := allMode [1, 0]
     let p := { demoSetup with coverageMode := .all }
     s.su.setup = some p ∧ forwardedRole s .read (readOf 16 0x10800000 1).id = some .app ∧ viewMode p .coverage ≠ .live) ∧
    (let n : Snapshot := ⟨4, 40, 40, List.replicate 128 (List.replicate 32 7)⟩
     let x : ViewBinding := ⟨.coverage, .header, some n, [], [], [], false⟩
     continued (laterBeat 0x10800040) (bound x headerMode) = some ⟨16, .app, some demoWindows, [x], false, false⟩ ∧
     beatCarries (laterBeat 0x10800040) (viewBase demoWindows .coverage) (viewExtent .coverage) = true ∧
     isOkay (laterBeat 0x10800040).resp = true ∧ ([x].map ViewBinding.view).Nodup) := by
  refine ⟨?_, ?_, ?_⟩ <;> decide +kernel

/-- SummaryReadClearsLatch: a burst with the last byte of the summary word, and one of the page without it. -/
theorem witness_SummaryReadClearsLatch :
    (∀ a ∈ [0x1060000B, 0x1060000C],
      let b := readOf 16 a 1
      demo.su.setup = some demoSetup ∧ forwardedRole demo .read b.id = some .app ∧ b.beat = 0 ∧ b.ok = true ∧
      beatCarries b demoSetup.windows.statusPage 256 = true ∧
      burstCarries b (demoSetup.windows.statusPage + 10) 2 = decide (a = 0x1060000B)) ∧
    demoSetup.irqMode = .latchRead := by decide +kernel

/-- ViewBurstsAndWrites: a passed burst bound to the newest snapshot; a write of a view's last byte, strobe inactive,
answered with an error, by an OTHER master, and one answered with OKAY that reaches nothing else. -/
theorem witness_ViewBurstsAndWrites :
    (match findOpen passedBurst.pu.openReads 16 with
      | some o => decide (o.passed = true ∧ (o.views.map ViewBinding.view).Nodup)
      | none => false) = true ∧
    demo.su.setup = some demoSetup ∧ forwardedRole demo .write 77 = some .other ∧
    (let w : Write := ⟨77, 0x10700C3F, [none], .decerr⟩
     touches w (viewBase demoWindows .crane) (viewExtent .crane) = true ∧ isOkay w.resp = false) ∧
    reachesOnly demo ⟨77, 0x10700C3F, [none], .okay⟩ .views := by
  refine ⟨by decide +kernel, rfl, by decide +kernel, by decide +kernel, ?_⟩
  exact (reaches_only demo demoSetup _ .views rfl (by decide +kernel)).2

/-- RecordsHandedOver: a queue one short of full, and a drop count at its limit. -/
theorem witness_RecordsHandedOver :
    (let u := { ReportUnit.reset with queue := List.replicate 31 (note 0x11 .clu), pendingDrops := 65535 }
     u.queue.length ≤ 32 ∧ u.pendingDrops ≤ 65535 ∧ u.ring = .running) := by decide +kernel

/-- ReportTaken: at 4 free a class change goes and LINK_LATE is written; at 5 free any record is; at 0 free none. -/
theorem witness_ReportTaken :
    (let s := ringAt 59 0 [note 0x30 .cvu, note 0x11 .clu]
     s.su.setup = some demoSetup ∧ s.rpu.phase = .idle ∧ s.rpu.ring = .running ∧
     s.rpu.queue = [note 0x30 .cvu] ++ note 0x11 .clu :: [] ∧ s.rpu.pendingDrops ≤ 65535 ∧
     demoSetup.windows.repCount - 1 - s.rpu.unconsumed demoSetup.windows.repCount = 4 ∧
     (∀ d ∈ [note 0x30 .cvu], d.origin ≠ .clu) ∧ (note 0x11 .clu).origin = .clu) ∧
    (let s := ringAt 58 0 [note 0x30 .cvu]
     s.su.setup = some demoSetup ∧ s.rpu.phase = .idle ∧ s.rpu.ring = .running ∧ s.rpu.queue = [] ++ note 0x30 .cvu :: [] ∧
     demoSetup.windows.repCount - 1 - s.rpu.unconsumed demoSetup.windows.repCount = 5) ∧
    (let s := ringAt 63 0 [note 0x11 .clu, note 0x30 .cvu]
     s.su.setup = some demoSetup ∧ s.rpu.phase = .idle ∧ s.rpu.ring = .running ∧
     s.rpu.queue = [] ++ note 0x11 .clu :: [note 0x30 .cvu] ∧
     demoSetup.windows.repCount - 1 - s.rpu.unconsumed demoSetup.windows.repCount = 0) := by decide +kernel

/-- An answered write or read is the oldest of its ID. -/
def answers (s : State) (ch : Channel) (id : AxiId) (good : InjRequest → Bool) : Bool :=
  match takeInjected s ch id with
  | some (q, _) => good q
  | none => false

/-- It is one the statements speak of. -/
theorem answers_meets (s : State) (ch : Channel) (id : AxiId) (good : InjRequest → Bool) (h : answers s ch id good = true) :
    ∃ q s1, takeInjected s ch id = some (q, s1) ∧ good q = true := by
  simp only [answers] at h
  split at h
  · rename_i q s1 e
    exact ⟨q, s1, e, h⟩
  · cases h

/-- ReportWriteAnswered: a live and an orphaned record write, a live and an orphaned index write. -/
theorem witness_ReportWriteAnswered :
    (∀ live ∈ [true, false],
      let s0 := reportWritten (.recordWrite []) .record
      let s := { s0 with pu := { s0.pu with issuedWrite := [.forwarded 16 .app, .injected ⟨9, ⟨.recordWrite [], 0, live⟩⟩] } }
      s.su.setup = some demoSetup ∧ answers s .write 9 (fun q => q.body.isRecordWrite && (q.live == live)) = true) ∧
    (∀ live ∈ [true, false],
      let s0 := reportWritten (.indexWrite []) .index
      let s := { s0 with pu := { s0.pu with issuedWrite := [.injected ⟨9, ⟨.indexWrite [], 0, live⟩⟩] } }
      s.su.setup = some demoSetup ∧ answers s .write 9 (fun q => q.body.isIndexWrite && (q.live == live)) = true) := by
  decide +kernel

/-- ConsumerIndexTaken: the last value in range, in ring state FAULT. -/
theorem witness_ConsumerIndexTaken :
    (let s := { demo with rpu := { ReportUnit.reset with producer := 63, ring := .fault, dropFlag := true } }
     let w := indexWrite 16 0x10500004 63
     watchedBy s demoSetup .app .consumer w ∧ coversWhole w demoSetup.windows.reportConsumer 4 = true ∧
     indexValue w demoSetup.windows.reportConsumer = 63 ∧ 63 < demoSetup.windows.repCount ∧
     s.rpu.producer < demoSetup.windows.repCount) :=
  ⟨watched (by decide +kernel), by decide +kernel⟩

/-- RequestsRefusedOrForwarded: the INJ_ID and another ID; an APP write in no window, on record and not; an OTHER
beat. -/
theorem witness_RequestsRefusedOrForwarded :
    (9 : AxiId) = injIdInForce demo ∧ (16 : AxiId) ≠ injIdInForce demo ∧ (0 : AxiId) = injIdInForce State.reset ∧
    (let w := wrote 16 5000 [1]
     let s := { demo with pu := { PathUnit.reset with issuedWrite := [.forwarded 16 .app] } }
     forwardedRole s .write w.id = some .app ∧ hasEffect s .app w = false ∧
     takeIssued w.id s.pu.issuedWrite = some (.forwarded 16 .app, []) ∧
     forwardedRole demo .write w.id = some .app ∧ takeIssued w.id demo.pu.issuedWrite = none) ∧
    (match burstOf (readOf 77 0x10700000 4) demo with
      | some (o, _) => decide (o.role = .other)
      | none => false) = true := by decide +kernel

/-- WriteTakenByEachWindow: the write over three windows, by APP in RUNNING, named by each of its rows; and a write of the
command word alone, by its code. -/
theorem witness_WriteTakenByEachWindow :
    (let s := runningAt closeSetup 1000
     let p := closeSetup
     let w := broadWrite
     s.su.setup = some p ∧ forwardedRole s .write w.id = some .app ∧ p.windows.apart s.su.sbase ∧
     namesWrite s p w (.dlSlotWrite w) ∧ namesWrite s p w (.dlProducerIndexWrite w) ∧
     namesWrite s p w (.consumerIndexWrite w) ∧ coversWhole w (commandWordAddr s) 4 = false ∧
     ∃ t1 t2 t3 t4 t5,
       exec (.ulSlotWrite (writeWithin w p.windows.ulSlots (p.windows.ulCount * 256))) s = .next t1 ∧
       exec (.ulProducerIndexWrite (writeWithin w p.windows.ulProducer 4)) { t1 with pu := s.pu } = .next t2 ∧
       exec (.dlSlotWrite (writeWithin w p.windows.dlSlots (p.windows.dlCount * 256))) { t2 with pu := s.pu } = .next t3 ∧
       exec (.dlProducerIndexWrite (writeWithin w p.windows.dlProducer 4)) { t3 with pu := s.pu } = .next t4 ∧
       exec (.consumerIndexWrite (writeWithin w p.windows.reportConsumer 4)) { t4 with pu := s.pu } = .next t5) ∧
    (let w := command 8 0
     coversWhole w (commandWordAddr demo) 4 = true ∧ commandRow (writtenCode demo w) w = .clearCounters w ∧
     namesWrite demo demoSetup w (.clearCounters w) ∧ demoSetup.windows.apart demo.su.sbase) := by
  have ap : closeSetup.windows.apart 0 ∧ demoSetup.windows.apart 0 := by
    unfold Windows.apart
    decide +kernel
  refine ⟨⟨rfl, by decide +kernel, ap.1, .inl ⟨.dlSlots, ?_⟩, .inl ⟨.dlProducer, ?_⟩, .inl ⟨.consumer, ?_⟩,
    by decide +kernel, ?_⟩, by decide +kernel, by decide +kernel, .inr ?_, ap.2⟩
  · exact ⟨by simp [windowRows], by decide +kernel⟩
  · exact ⟨by simp [windowRows], by decide +kernel⟩
  · exact ⟨by simp [windowRows], by decide +kernel⟩
  · obtain ⟨t1, h1⟩ := exec_next (.ulSlotWrite (writeWithin broadWrite closeSetup.windows.ulSlots
      (closeSetup.windows.ulCount * 256))) (runningAt closeSetup 1000)
    obtain ⟨t2, h2⟩ := exec_next (.ulProducerIndexWrite (writeWithin broadWrite closeSetup.windows.ulProducer 4))
      { t1 with pu := (runningAt closeSetup 1000).pu }
    obtain ⟨t3, h3⟩ := exec_next (.dlSlotWrite (writeWithin broadWrite closeSetup.windows.dlSlots
      (closeSetup.windows.dlCount * 256))) { t2 with pu := (runningAt closeSetup 1000).pu }
    obtain ⟨t4, h4⟩ := exec_next (.dlProducerIndexWrite (writeWithin broadWrite closeSetup.windows.dlProducer 4))
      { t3 with pu := (runningAt closeSetup 1000).pu }
    obtain ⟨t5, h5⟩ := exec_next (.consumerIndexWrite (writeWithin broadWrite closeSetup.windows.reportConsumer 4))
      { t4 with pu := (runningAt closeSetup 1000).pu }
    exact ⟨t1, t2, t3, t4, t5, h1, h2, h3, h4, h5⟩
  · exact ⟨by decide +kernel, .inl (by decide +kernel)⟩

/-- InjectionsQueuedAndMatched: seven in the queue, and eight. -/
theorem witness_InjectionsQueuedAndMatched :
    (∀ n ∈ [7, 8],
      let s := { demo with pu := { PathUnit.reset with
        waitSu := [⟨.ulIndexRead, 0, true⟩, ⟨.dlIndexRead, 4, true⟩]
        ready := List.replicate n ⟨9, ⟨.setupRead 0, 0, true⟩⟩ } }
      s.pu.waiting .su = ⟨.ulIndexRead, 0, true⟩ :: [⟨.dlIndexRead, 4, true⟩] ∧ s.pu.injectionCount = n) := by
  decide +kernel

/-- GrantTable: both kinds waiting at 15 and at 16, one kind alone, and none. -/
theorem witness_GrantTable :
    (∀ t ∈ [15, 16],
      (contended t).pu.ready.filter (fun x => decide (x.request.body.channel = .read)) = ⟨9, ⟨.setupRead 0, 0, true⟩⟩ :: [] ∧
      (contended t).pu.forwards .read = ⟨16, .app, 5, ⟨.incr, 4, 1⟩, []⟩ :: [] ∧ (contended t).pu.through .read = t) ∧
    (contended 3).pu.ready.filter (fun x => decide (x.request.body.channel = .write)) = [] ∧
    (contended 3).pu.forwards .write = [] := by decide +kernel

/-- InjectionWaitsAtMostSixteen: an injection waiting at 0 while a forwarded request arrives before each of 17 grants. -/
theorem witness_InjectionWaitsAtMostSixteen :
    (contended 0).pu.ready.filter (fun y => decide (y.request.body.channel = .read)) = ⟨9, ⟨.setupRead 0, 0, true⟩⟩ :: [] ∧
    (List.replicate 17 [(⟨16, .app, 5, ⟨.incr, 4, 1⟩, []⟩ : FwdRequest)]).length = 17 := by decide +kernel

/-- A command word write reaches the command word alone. -/
theorem command_only (s : State) (code arg : Nat)
    (h : (s.su.setup.all fun p => decide (reaches s p (command code arg) = [.command])) = true) :
    reachesOnly s (command code arg) .command := by
  intro p hp
  rw [hp] at h
  exact (reaches_only s p _ _ hp (of_decide_eq_true h)).2 p hp

/-- A command word write gives a command. -/
theorem given (s : State) (code arg : Nat) (role : Role)
    (h : forwardedRole s .write (command code arg).id = some role ∧ (role = .app ∨ s.su.setup = none) ∧
      isOkay (command code arg).resp = true ∧ s.su.command.phase = .idle ∧
      coversWhole (command code arg) (commandWordAddr s) 4 = true ∧
      activeByte (command code arg) (commandWordAddr s) = some (BitVec.ofNat 8 code) ∧
      activeByte (command code arg) (commandWordAddr s + 2) = some ((BitVec.ofNat 16 arg).setWidth 8) ∧
      activeByte (command code arg) (commandWordAddr s + 3) = some ((BitVec.ofNat 16 arg >>> 8).setWidth 8) ∧
      (s.su.setup.all fun p => decide (reaches s p (command code arg) = [.command])) = true) :
    commandGiven s (command code arg) (BitVec.ofNat 8 code) (BitVec.ofNat 16 arg) :=
  have ⟨h1, h2, h3, h4, h5, h6, h7, h8, h9⟩ := h
  ⟨⟨role, h1, h2⟩, h3, h4, h5, h6, h7, h8, command_only s code arg h9⟩

/-- ReloadBegins: by APP in RUNNING with KEEP 1, with checks due that find nothing and with one that finds LOST; and by
another master with no setup in force. -/
theorem witness_ReloadBegins :
    (let s := quiet .running ⟨[2, 3], [40, 41], false, true⟩
     commandGiven s (command 1 1) 0x01 1 ∧ s.su.runState ≠ .loading ∧ nothingFound s) ∧
    (let s := timeline 11350 11190
     commandGiven s (command 1 1) 0x01 1 ∧ s.su.runState ≠ .loading ∧ ∃ u, dueStep s u) ∧
    (commandGiven State.reset (command 1 0) 0x01 0 ∧ State.reset.su.runState ≠ .loading ∧ nothingFound State.reset) :=
  ⟨⟨given _ 1 1 .app (by decide +kernel), by decide +kernel, nothing_found rfl (by decide +kernel)⟩,
    ⟨given _ 1 1 .app (by decide +kernel), by decide +kernel, due_deadlines.1⟩,
    given _ 1 0 .other (by decide +kernel), by decide +kernel, nothing_found_unloaded rfl⟩

/-- The first 784 bytes of a setup block by the layout of 10.1: what they hold is the demo setup's kind of part. -/
def blockHead : List Byte :=
  le32 0x0B5C0212 ++ bytes [1, 0] ++ List.replicate 26 0 ++
  bytes [16, 0, 16, 0, 1, 0, 0, 0] ++ bytes [32, 0, 32, 0, 2, 0, 0, 0] ++ List.replicate 16 0 ++
  bytes [9, 0, 0, 0, 0, 0, 0, 0] ++
  ([0x10000000, 0x10100000, 0x10200000, 0x10300000, 0x10400000, 0x10500000, 0x10500004, 0x10600000, 0x10700000,
    0x10800000, 0x11000000] : List Word).flatMap (fun a => le32 a ++ List.replicate 4 0) ++
  bytes [16, 0, 16, 0, 64, 0, 0, 1] ++ List.replicate 24 0 ++
  ((List.range 12).flatMap (fun n => le32 (BitVec.ofNat 32 (if n = 2 then 0x0A100002 else 0)) ++ bytes [n % 2, 0, 0, 0])) ++
  bytes [0x2C, 1, 0xE8, 3, 0x20, 3, 3, 4] ++ List.replicate 24 0 ++
  ((List.range 16).flatMap (fun _ => bytes [20, 15, 3, 2, 10, 0, 30, 0])) ++
  bytes [8, 0, 40, 2] ++ le16 2000 ++ le16 3000 ++
  ([-140, -40, -95, -110, -6, -18] : List Int).flatMap (fun l => le16 (half l)) ++
  bytes [0, 32, 6, 0, 60, 0] ++ List.replicate 38 0 ++
  (List.replicate 128 (bytes [0, 0x80])).flatten ++
  bytes [48, 0, 1, 100, 0xFF, 0x0F] ++ List.replicate 10 0

/-- SetupReadAnswered: a live read of the setup block answered, whatever the load has come to. -/
theorem answers_setup_read (l : Load) :
    (let s := { lastSetupRead with su := { lastSetupRead.su with load := some l } }
     answers s .read 9 (fun q => q.body.isSetupRead && q.live) = true ∧ s.su.load = some l) := ⟨rfl, rfl⟩

/-- SetupReadAnswered and ValidatedSetupInRange: before the 64th read; and a 64th, of 256 bytes, whose copy passes every
check or fails the first of them (the bytes of the copies not written out read as 0, notes/assumptions/27.md). -/
theorem witness_SetupReadAnswered :
    (⟨true, [], 62, .block⟩ : Load).answered < 63 ∧ (blockHead.drop 528).length = 256 ∧
    validateSetup lastSetupRead.su.sbase (blockHead.take 528 ++ blockHead.drop 528) = none ∧
    validateSetup lastSetupRead.su.sbase ([] ++ List.replicate 256 0) = some 0x02 ∧
    (List.replicate 256 (0 : Byte)).length = 256 ∧ Resp.exokay ≠ .okay := by decide +kernel

/-- The setup read from that block has the windows, the roster and the coverage parameters of the demo setup. -/
theorem test_setup_of_block :
    (let p := setupOf blockHead
     p.windows = { demoWindows with reeferView := 0x11000000 } ∧ p.coverage = demoSetup.coverage ∧
     p.timing = demoSetup.timing ∧ p.classes = demoSetup.classes ∧ p.irqMask = 0x0FFF ∧ p.coverageMode = .header ∧
     p.injId = 9 ∧ p.roles = demoSetup.roles ∧ rosterTerminal p 2 = some 0x0A100002 ∧ craneEnabled (some p) 2 = false ∧
     craneEnabled (some p) 3 = true ∧ p.eventThreshold = 48) := by decide +kernel

/-- IndexWordAnswered: a word before the last, the last one with KEEP 0 and 1, and EXOKAY. -/
theorem witness_IndexWordAnswered :
    (∀ keep ∈ [true, false],
      let s := { lastWord with su := { lastWord.su with
        load := some ⟨keep, [], 64, .words demoSetup (some 3) (some 16) none⟩ } }
      answers s .read 9 (fun q => q.live && decide (q.body = .repIndexRead) && q.body.isWordRead) = true ∧
      s.su.load = some ⟨keep, [], 64, .words demoSetup (some 3) (some 16) none⟩) ∧
    (let s := { lastWord with
       su := { lastWord.su with load := some ⟨true, [], 64, .words demoSetup none none none⟩ }
       pu := { PathUnit.reset with issuedRead := [.injected ⟨9, ⟨.ulIndexRead, 0, true⟩⟩] } }
     answers s .read 9 (fun q => q.live && decide (q.body = .ulIndexRead)) = true ∧
     s.su.load = some ⟨true, [], 64, .words demoSetup none none none⟩) ∧ Resp.exokay ≠ .okay := by decide +kernel

/-- CraneAndReeferCommandsDone: the highest crane and the highest index in use. -/
theorem witness_CraneAndReeferCommandsDone :
    (demo.su.runState = .running ∧ (11 : Half).toNat < 12 ∧ commandGiven demo (command 3 11) 0x03 11 ∧
      commandGiven demo (command 4 11) 0x04 11) ∧
    (let s := withReefer 2047 (tracked 3 0) demo
     s.su.runState = .running ∧ (2047 : Half).toNat < 2048 ∧ s.rfu.entry 2047 = some (tracked 3 0) ∧
     commandGiven s (command 5 2047) 0x05 2047 ∧ commandGiven s (command 6 2047) 0x06 2047) :=
  ⟨⟨by decide +kernel, by decide +kernel, given _ 3 11 .app (by decide +kernel), given _ 4 11 .app (by decide +kernel)⟩,
    by decide +kernel, by decide +kernel, by decide +kernel, given _ 5 2047 .app (by decide +kernel),
    given _ 6 2047 .app (by decide +kernel)⟩

/-- ClearingCommandsDone: the last segment, the whole map, counters and lines. -/
theorem witness_ClearingCommandsDone :
    demo.su.runState = .running ∧ demo.su.setup = some demoSetup ∧
    (commandGiven demo (command 7 39) 0x07 39 ∧ (39 : Half).toNat < demoSetup.coverage.segCount) ∧
    commandGiven demo (command 7 0xFFFF) 0x07 0xFFFF ∧ commandGiven demo (command 8 0) 0x08 0 ∧
    commandGiven demo (command 2 0) 0x02 0 :=
  ⟨by decide +kernel, by decide +kernel, ⟨given _ 7 39 .app (by decide +kernel), by decide +kernel⟩,
    given _ 7 0xFFFF .app (by decide +kernel), given _ 8 0 .app (by decide +kernel), given _ 2 0 .app (by decide +kernel)⟩

/-- CommandsRefused: outside RUNNING; in RUNNING the first crane, index, segment out of range and a free index; RELOAD
with argument 2, and in LOADING; codes 0 and 9. -/
theorem witness_CommandsRefused :
    (commandGiven State.reset (command 8 0) 0x08 0 ∧ State.reset.su.runState ≠ .running) ∧
    (commandGiven demo (command 3 12) 0x03 12 ∧ demo.su.runState = .running ∧ 12 ≤ (12 : Half).toNat) ∧
    (commandGiven demo (command 5 2048) 0x05 2048 ∧ 2048 ≤ (2048 : Half).toNat) ∧
    (commandGiven demo (command 6 5) 0x06 5 ∧ demo.rfu.entry (5 : Half).toNat = none) ∧
    (commandGiven demo (command 7 40) 0x07 40 ∧ (40 : Half) ≠ 0xFFFF ∧ demoSetup.coverage.segCount ≤ (40 : Half).toNat) ∧
    (commandGiven demo (command 1 2) 0x01 2 ∧ demo.su.runState ≠ .loading ∧ 1 < (2 : Half).toNat) ∧
    commandGiven demo (command 0 0) 0x00 0 ∧ commandGiven demo (command 9 0) 0x09 0 ∧ 8 < (0x09 : Byte).toNat ∧
    (let s := { demo with su := { demo.su with runState := .loading } }
     commandGiven s (command 1 0) 0x01 0 ∧ s.su.runState = .loading) :=
  ⟨⟨given _ 8 0 .other (by decide +kernel), by decide +kernel⟩,
    ⟨given _ 3 12 .app (by decide +kernel), by decide +kernel⟩,
    ⟨given _ 5 2048 .app (by decide +kernel), by decide +kernel⟩,
    ⟨given _ 6 5 .app (by decide +kernel), by decide +kernel⟩,
    ⟨given _ 7 40 .app (by decide +kernel), by decide +kernel⟩,
    ⟨given _ 1 2 .app (by decide +kernel), by decide +kernel⟩,
    given _ 0 0 .app (by decide +kernel), given _ 9 0 .app (by decide +kernel), by decide,
    given _ 1 0 .app (by decide +kernel), rfl⟩

/-- CommandStateMoves: a command write in PENDING, in CLOSING with and without the REFUSED_BUSY write out; the status
write answered in each case of R171. -/
theorem witness_CommandStateMoves :
    (∀ c ∈ [{ Command.idle with phase := CmdPhase.pending }, { Command.idle with phase := .closing },
        { Command.idle with phase := .closing, busyWrite := true }],
      let s := { demo with su := { demo.su with command := c } }
      let w := command 4 0x0102
      forwardedRole s .write w.id = some .app ∧ isOkay w.resp = true ∧ coversWhole w (commandWordAddr s) 4 = true ∧
      activeByte w (commandWordAddr s) = some 4 ∧ activeByte w (commandWordAddr s + 2) = some 2 ∧
      activeByte w (commandWordAddr s + 3) = some 1) ∧
    (∀ c, reachesOnly { demo with su := { demo.su with command := c } } (command 4 0x0102) .command) ∧
    (∀ c ∈ [{ Command.idle with phase := CmdPhase.pending },
        { Command.idle with phase := .pending, verdict := some .done }, { Command.idle with phase := .closing },
        { Command.idle with phase := .closing, refused := some (4, 1) },
        { Command.idle with phase := .closing, busyWrite := true }],
      answers { statusPending with su := { statusPending.su with command := c } } .write 9
        (fun q => q.body.isStatusWrite) = true) := by
  refine ⟨by decide +kernel, fun c => command_only _ 4 0x0102 ?_, by decide +kernel⟩
  have h : (demo.su.setup.all fun p => decide (reaches demo p (command 4 0x0102) = [.command])) = true := by
    decide +kernel
  exact h

/-- ValidatedSetupInRange: the copy above passes every check; without the magic word it fails the first; and with an
IRQ mode of 4 the last. -/
theorem witness_ValidatedSetupInRange :
    validateSetup 0 (blockHead.take 528 ++ blockHead.drop 528) = none ∧
    validateSetup 0 ([] ++ List.replicate 256 0) = some 0x02 ∧ validateSetup 0 (blockHead.set 0x302 4) = some 0x0F :=
  ⟨witness_SetupReadAnswered.2.2.1, witness_SetupReadAnswered.2.2.2.1, by decide +kernel⟩

/-! ### Witnesses of the laws: a running part with a learned crane under command, averages, a reefer, a committed
downlink record, a PENDING entry and a placeholder -/

/-- Crane 7 LIVE, its terminal learned, two commands outstanding. -/
def lawfulCrane : Crane :=
  { Crane.initial with
    link := .live, learned := some 0x0C300007, position := some 79999
    outstanding := [⟨65535, 1, 900⟩, ⟨0, 2, 950⟩], lastListed := some 0 }

/-- A segment with averages at both ends of the acceptance window. -/
def lawfulSegment : Segment := { Segment.blank with ul := some (-2240), dl := some (-640), declared := .hole }

/-- A state that meets every law and has a command waiting. -/
def lawful : State :=
  { demo with
    pending := [.qtIncrement]
    clu := demo.clu.setCrane 7 lawfulCrane
    cvu := demo.cvu.setSegment 39 lawfulSegment
    rfu := demo.rfu.setEntry 2047 (some (tracked 3 0))
    rcu := { CaptureUnit.reset.setRecord 11 (committedRecord 20 701 1 0 900) with
      filling := [pendingOf 3 900]
      queue   := [.placeholder 4 900]
      ul      := { UlCounters.zero with committed := 1 }
      dl      := { DlCounters.zero with departed := 2, delivered := 1, stale := 1 } }
    rpu := { ReportUnit.reset with queue := List.replicate 32 (note 0x11 .clu) } }

theorem crane_lawful (n : Nat) : lawful.clu.crane n = if n = 7 then lawfulCrane else Crane.initial := by
  have h : lawful.clu.crane n = (CraneUnit.reset.setCrane 7 lawfulCrane).crane n := rfl
  rw [h, CraneUnit.crane_setCrane]
  rfl

theorem segment_lawful (n : Nat) : lawful.cvu.segment n = if n = 39 then lawfulSegment else Segment.blank := by
  have h : lawful.cvu.segment n = (demo.cvu.setSegment 39 lawfulSegment).segment n := rfl
  rw [h, CoverageUnit.segment_setSegment]
  rfl

theorem entry_lawful (i : Nat) : lawful.rfu.entry i = if i = 2047 then some (tracked 3 0) else none := by
  have h : lawful.rfu.entry i = (ReeferUnit.reset.setEntry 2047 (some (tracked 3 0))).entry i := rfl
  rw [h, ReeferUnit.entry_setEntry]
  rfl

theorem record_lawful (k : Nat) :
    lawful.rcu.record k = if k = 11 then committedRecord 20 701 1 0 900 else DlRecord.blank := by
  have h : lawful.rcu.record k = (CaptureUnit.reset.setRecord 11 (committedRecord 20 701 1 0 900)).record k := rfl
  rw [h, CaptureUnit.record_setRecord]
  rfl

theorem witness_CaptureAndCounterLawsKept : captureLaw lawful ∧ counterLaw lawful ∧ ∃ t, step lawful = .next t := by
  refine ⟨⟨by decide +kernel, by decide +kernel, by decide +kernel, ?_, ?_⟩, ⟨by decide +kernel, by decide +kernel⟩,
    step_next _⟩
  · intro k
    rw [record_lawful]
    split <;> decide
  · have h : lawful.rcu.placeholders ≤ demoSetup.windows.ulCount := by decide +kernel
    exact h

theorem witness_OutstandingLawKept : outstandingLaw lawful ∧ ∃ t, step lawful = .next t := by
  refine ⟨?_, step_next _⟩
  intro n
  rw [crane_lawful]
  unfold Crane.outstandingOk
  split <;> decide

theorem witness_EmptySegmentLawKept : emptySegmentLaw lawful ∧ ∃ t, step lawful = .next t := by
  refine ⟨?_, step_next _⟩
  intro n
  rw [segment_lawful]
  split <;> decide

/-- The setup in force in `lawful` is the demo setup, and no other is being loaded. -/
theorem setups_lawful (p : Setup) (h : lawful.su.setup = some p ∨ lawful.newSetup = some p) : p = demoSetup := by
  rcases h with h | h
  · exact (Option.some.inj h).symm
  · cases h

theorem witness_AverageLawKept : averageLaw lawful ∧ ∃ t, step lawful = .next t := by
  refine ⟨⟨?_, ?_⟩, step_next _⟩
  · intro p hp
    rw [setups_lawful p hp]
    exact ⟨by decide, by decide⟩
  · intro p hp n
    rw [setups_lawful p (.inl hp), segment_lawful]
    split
    · refine ⟨?_, ?_, ?_⟩ <;> intro v hv <;> cases hv <;> decide
    · refine ⟨?_, ?_, ?_⟩ <;> intro v hv <;> cases hv

theorem table_lawful : tableLaw lawful :=
  ⟨CraneUnit.setCrane_wf CraneUnit.reset 7 lawfulCrane rfl,
    CaptureUnit.setRecord_wf CaptureUnit.reset 11 (committedRecord 20 701 1 0 900) rfl,
    CoverageUnit.setSegment_wf demo.cvu 39 lawfulSegment rfl,
    ReeferUnit.setEntry_wf ReeferUnit.reset 2047 (some (tracked 3 0)) rfl⟩

theorem witness_ReeferLawKept : tableLaw lawful ∧ reeferLaw lawful ∧ ∃ t, step lawful = .next t := by
  refine ⟨table_lawful, ⟨?_, ?_, by decide +kernel, ?_⟩, step_next _⟩
  · intro i e h
    rw [entry_lawful] at h
    split at h
    · cases h
      subst i
      decide
    · cases h
  · intro i j a b ha hb hij
    rw [entry_lawful] at ha hb
    split at ha <;> split at hb <;> first | omega | contradiction
  · intro i
    have hd : lawful.rfu.departed = [] := by decide +kernel
    rw [hd, entry_lawful]
    by_cases hi : i = 2047 <;> simp [hi, tracked]

theorem witness_TerminalLawKept : terminalLaw lawful ∧ ∃ t, step lawful = .next t := by
  have roster : demoSetup.rosterOk := by
    have short : ∀ m, 12 ≤ m → rosterTerminal demoSetup m = none := by
      intro m hm
      have : demoSetup.roster[m]? = none := List.getElem?_eq_none (by exact hm)
      simp only [rosterTerminal, this]
    refine ⟨by decide, ?_⟩
    intro m n t hm hn
    have h : ∀ m < 12, ∀ n < 12, rosterTerminal demoSetup m ≠ none → rosterTerminal demoSetup m = rosterTerminal demoSetup n →
        m = n := by decide +kernel
    by_cases h1 : m < 12
    · by_cases h2 : n < 12
      · exact h m h1 n h2 (by rw [hm]; exact Option.some_ne_none t) (by rw [hm, hn])
      · rw [short n (by omega)] at hn
        cases hn
    · rw [short m (by omega)] at hm
      cases hm
  have learned : ∀ n t, (lawful.clu.crane n).learned = some t → n = 7 ∧ t = 0x0C300007 := by
    intro n t h
    rw [crane_lawful] at h
    split at h
    · rename_i e
      exact ⟨e, (Option.some.inj h).symm⟩
    · cases h
  have unlisted : ∀ n, rosterTerminal demoSetup n ≠ some 0x0C300007 := by
    intro n h
    have hr : ∀ x ∈ demoSetup.roster, x.terminal ≠ 0x0C300007 := by decide +kernel
    simp only [rosterTerminal] at h
    split at h
    · rename_i x hx
      have := hr x (List.mem_of_getElem? hx)
      split at h
      · cases h
      · exact this (Option.some.inj h)
    · cases h
  refine ⟨⟨?_, ?_, ?_⟩, step_next _⟩
  · intro p hp
    rw [setups_lawful p hp]
    exact roster
  · have h : ∀ m n t, boundTo demoSetup lawful m t → boundTo demoSetup lawful n t → m = n := by
      intro m n t hm hn
      rcases hm with hm | hm
      · rcases hn with hn | hn
        · exact roster.2 m n t hm hn
        · obtain ⟨-, rfl⟩ := learned n t hn
          exact absurd hm (unlisted m)
      · obtain ⟨rfl, rfl⟩ := learned m t hm
        rcases hn with hn | hn
        · exact absurd hn (unlisted n)
        · exact (learned n _ hn).1.symm
    exact h
  · intro n
    rw [crane_lawful]
    split
    · rename_i e
      subst e
      decide
    · exact ⟨by decide, fun _ => rfl⟩

theorem witness_BoundsKept : boundsLaw lawful ∧ tableLaw lawful ∧ ∃ t, step lawful = .next t := by
  refine ⟨⟨by decide +kernel, by decide +kernel, by decide +kernel, by decide +kernel, by decide +kernel,
    by decide +kernel, by decide +kernel, ?_, ?_⟩, table_lawful, step_next _⟩
  · intro p hp
    rw [setups_lawful p hp]
    exact ⟨by decide, by decide, by decide⟩
  · intro p hp
    rw [setups_lawful p (.inl hp)]
    decide +kernel

theorem witness_MapLawKept : mapLaw lawful ∧ ∃ t, step lawful = .next t := by
  refine ⟨⟨?_, ?_, ?_⟩, step_next _⟩
  · intro p hp
    rw [setups_lawful p hp]
    exact ⟨by decide, by decide⟩
  · have h : lawful.cvu.scanPos < 40 ∧ ∀ n, 40 ≤ n → lawful.cvu.segment n = Segment.blank := by
      refine ⟨by decide +kernel, ?_⟩
      intro n hn
      rw [segment_lawful, if_neg (by omega)]
    exact h
  · intro p hp
    rw [setups_lawful p (.inl hp)]
    refine ⟨rfl, ?_, ?_⟩
    · intro n x hx
      rw [crane_lawful] at hx
      split at hx
      · cases hx
        decide
      · cases hx
    · intro i e he
      rw [entry_lawful] at he
      split at he
      · cases he
        decide
      · cases he

theorem witness_RunStateLawKept : runStateLaw lawful ∧ ∃ t, step lawful = .next t :=
  ⟨⟨by decide +kernel, .inl rfl, fun h => absurd rfl h⟩, step_next _⟩

end Sys2Proof.Tests
end

