-- ==== Sys2Proof/Proofs/Effects.lean ====
section
/-! SUPPORT. What a step can do, said once: every step is a sequence of single effects, each a change of one unit that
one of the model's operations makes. A law is kept by every step when every single effect keeps it. -/

namespace Sys2Proof.Machine

open Sys2Proof

/-! ### The changes of each unit -/

/-- The changes of the Ring Capture Unit: one slot captured or committed, an index taken, a record written, committed or
departed, an item settled, a parse begun or abandoned, the counters of R20 and R58, CLEAR_COUNTERS. -/
inductive CaptureChange (s : State) : CaptureUnit → Prop
  | captured (p : Setup) (w : Write) (k : Nat) (hp : s.su.setup = some p) :
      CaptureChange s (captureSlot w p.windows.ulSlots s.su.qt k s.rcu).1
  | committed (p : Setup) (k : Nat) (hp : s.su.setup = some p) :
      CaptureChange s (commitSlot p.windows.ulCount s.su.qt k s.rcu).1
  | ulIndex (p : Setup) (v : Nat) (hp : s.su.setup = some p) (hv : v < p.windows.ulCount) :
      CaptureChange s { s.rcu with hUl := v }
  | dlIndex (p : Setup) (v : Nat) (hp : s.su.setup = some p) (hv : v < p.windows.dlCount) :
      CaptureChange s { s.rcu with hDl := v }
  | headerWritten (w : Write) (base k : Nat) :
      CaptureChange s (s.rcu.setRecord k ((s.rcu.record k).written w base s.su.qt))
  | recordCommitted (k : Nat) : CaptureChange s (s.rcu.setRecord k (s.rcu.record k).commit)
  | departed (k : Nat) (d : Decision) (refused : Bool) :
      CaptureChange s { s.rcu.setRecord k ((s.rcu.record k).afterDeparture d) with
        dl := (s.rcu.dl.count d).countOrder refused }
  | passed (uncommitted unseen early : Word) :
      CaptureChange s { s.rcu with dl :=
        { s.rcu.dl with uncommitted := uncommitted, unseen := unseen, early := early } }
  | parsing (b : Bool) : CaptureChange s { s.rcu with parsing := b }
  | settled (o : ParseOutcome) (i : ParseItem) (rest : List ParseItem) (hq : s.rcu.queue = i :: rest) :
      CaptureChange s { s.rcu with ul := s.rcu.ul.settle o, queue := rest, parsing := false }
  | cleared : CaptureChange s { s.rcu with ul := clearedUl s.rcu, dl := DlCounters.zero }

/-- The changes of crane n's record: the deadlines, a dispatched status frame, a departure, CRANE_RESET, TRACE_OPEN. -/
inductive CraneChange (s : State) (n : Nat) : Crane → Prop
  | late (p : Setup) (hp : s.su.setup = some p) (hl : lateCondition p (s.clu.crane n) s.su.qt = true) :
      CraneChange s n { s.clu.crane n with link := .late }
  | lost (p : Setup) (hp : s.su.setup = some p) (hl : lostCondition p (s.clu.crane n) s.su.qt = true) :
      CraneChange s n ((s.clu.crane n).enterLost p.timing.tracePost)
  | status (p : Setup) (f : StatusFrame) (q : Qt) (cells : List (Option Byte)) (hp : s.su.setup = some p)
      (hf : parseCells s.su.setup cells = .acceptedCrane f) (hn : f.crane = n) :
      CraneChange s n (handleStatus p s.clu f q).1
  | decided (s0 : State) (slot : Nat) (r : DlRecord) (hs : s0.su = s.su) (hc : s0.clu = s.clu) (hr : r.crane = n)
      (hd : departureDecision s0 r ≠ .pass) :
      CraneChange s n (craneDecision s0 slot r (departureDecision s0 r) (s.clu.crane n)).crane
  | reset (hn : n < 12) : CraneChange s n (s.clu.crane n).afterReset
  | traceOpened (hn : n < 12) : CraneChange s n (s.clu.crane n).traceOpened

/-- The changes of the Reefer Unit: the outcomes of a silence scan visit, a dispatched report, the scan's advance,
REEFER_ACK and REEFER_FORGET. -/
inductive ReeferChange (s : State) : ReeferUnit → Prop
  | lost (p : Setup) (i : Nat) (e : Reefer) (hp : s.su.setup = some p) (he : s.rfu.entry i = some e)
      (hl : lossReached p s.su.qt e = true) : ReeferChange s (s.rfu.setEntry i (some { e with state := .lost }))
  | excused (p : Setup) (i : Nat) (e : Reefer) (hp : s.su.setup = some p) (he : s.rfu.entry i = some e)
      (hl : silenceReached p s.su.qt e = true) :
      ReeferChange s (s.rfu.setEntry i (some { e with excusals := e.excusals + 1 }))
  | silent (p : Setup) (i : Nat) (e : Reefer) (hp : s.su.setup = some p) (he : s.rfu.entry i = some e)
      (hl : silenceReached p s.su.qt e = true) : ReeferChange s (s.rfu.setEntry i (some { e with state := .silent }))
  | admitted (p : Setup) (r : ReeferReport) (q : Qt) (hp : s.su.setup = some p) :
      ReeferChange s (admitReport p r q s.rfu).1
  | scanned : ReeferChange s { s.rfu with scanPos := (s.rfu.scanPos + 2) % Config.reeferCount }
  | acked (i : Nat) (e : Reefer) (he : s.rfu.entry i = some e) : ReeferChange s (ackReefer i e s.rfu)
  | forgotten (i : Nat) (e : Reefer) (he : s.rfu.entry i = some e) : ReeferChange s (forgetReefer i s.rfu)

/-- The changes of segment g's record: an observation, a loss vote, the steps of a scan visit. -/
inductive SegmentChange (s : State) (g : Nat) : Segment → Prop
  | observed (p : Setup) (shadow : Bool) (dir : Direction) (level : Int) (now : Qt) (hp : s.su.setup = some p)
      (hg : (∃ x, g = segmentOf p (clampPosition p x)) ∨ ∃ plug, g = plugSegment p plug) :
      SegmentChange s g (observeSegment p shadow g dir level now (s.cvu.segment g)).1
  | voted (p : Setup) (n x : Nat) (hp : s.su.setup = some p) (hx : (s.clu.crane n).position = some x)
      (hg : g = segmentOf p x) : SegmentChange s g (voteSegment p g s.su.qt (s.cvu.segment g)).1
  | aged (p : Setup) (hp : s.su.setup = some p) (hg : g = s.cvu.scanPos) :
      SegmentChange s g (ageSegment p g s.su.qt (s.cvu.segment g)).1
  | shadowAged (p : Setup) (hp : s.su.setup = some p) (hg : g = s.cvu.scanPos) :
      SegmentChange s g (ageShadow p s.su.qt (s.cvu.segment g))
  | driftTested (p : Setup) (hp : s.su.setup = some p) (hg : g = s.cvu.scanPos) :
      SegmentChange s g (driftTest p g s.su.qt (s.cvu.segment g)).1

/-- The changes of the Coverage Unit. -/
inductive CoverageChange (s : State) : CoverageUnit → Prop
  | segment (g : Nat) (x : Segment) (hx : SegmentChange s g x) : CoverageChange s (s.cvu.setSegment g x)
  | clamp (b : Bool) : CoverageChange s { s.cvu with clampReported := b }
  | scanned (p : Setup) (hp : s.su.setup = some p) :
      CoverageChange s { s.cvu with
        scanPos := if s.cvu.scanPos + 1 < p.coverage.segCount then s.cvu.scanPos + 1 else 0 }
  | ticked : CoverageChange s { s.cvu with tick := (nextTick s.cvu.tick).1 }
  | cleared (p : Setup) (arg : Half) (hp : s.su.setup = some p) : CoverageChange s (clearSegments p arg s.cvu)

/-- The changes of the Report Unit: records handed over, the two lines' state, the taking of a record and the answers to
its writes, the consumer index. -/
inductive ReportChange (s : State) : ReportUnit → Prop
  | handedOver (rs : List Record) : ReportChange s (s.rpu.handOverAll rs)
  | lines (latch : Bool) (pulse : Option Qt) : ReportChange s { s.rpu with craneLatch := latch, pulseStart := pulse }
  | judged (p : Setup) (hp : s.su.setup = some p) :
      ReportChange s (takeHead (s.rpu.freeSlots p.windows.repCount) s.rpu.queue s.rpu).1
  | taken (r : Record) : ReportChange s { s.rpu with inFlight := some r, phase := .record, pendingDrops := 0 }
  | recordWritten : ReportChange s { s.rpu with phase := .index }
  | advanced (p : Setup) (hp : s.su.setup = some p) :
      ReportChange s { s.rpu with producer := nextProducer p s.rpu.producer, inFlight := none, phase := .idle }
  | failed : ReportChange s s.rpu.fail
  | consumed (p : Setup) (v : Nat) (hp : s.su.setup = some p) (hv : v < p.windows.repCount) :
      ReportChange s { s.rpu with consumer := v, dropFlag := false }

/-- The changes of the Path Unit: beats and responses at the upstream port, requests accepted, injections made, queued
and matched, grants. -/
inductive PathChange (s : State) : PathUnit → Prop
  | returned (w : Write) : PathChange s (returnWrite w s).pu
  | refused (up : List UpBeat) : PathChange s { s.pu with up := up }
  | reads (os : List OpenRead) : PathChange s { s.pu with openReads := os }
  | beat (b : ReadBeat) (o : OpenRead) (data : List Byte) : PathChange s (endBeat b o data s).pu
  | accepted (ch : Channel) (f : FwdRequest) : PathChange s (acceptRequest ch f s).pu
  | enqueued (src : Source) : PathChange s (enqueue src s).pu
  | granted (ch : Channel) : PathChange s (grant ch s.pu)
  | matched (ch : Channel) (id : AxiId) (q : InjRequest) (s1 : State) (h : takeInjected s ch id = some (q, s1)) :
      PathChange s s1.pu
  | injectedSu (qs : List InjRequest) : PathChange s (s.injectSu qs).pu
  | injectedRpu (b : InjBody) (a : Nat) : PathChange s (s.injectRpu b a).pu

/-- The changes of the load under way (R169): a read of the block taken, the block validated, an index word taken. -/
inductive LoadChange (s : State) (l : Load) : Load → Prop
  | read (copy : List Byte) (answered : Nat) : LoadChange s l { l with copy := copy, answered := answered }
  | validated (copy : List Byte) (answered : Nat) (h : validateSetup s.su.sbase copy = none) :
      LoadChange s l { l with copy := copy, answered := answered, phase := .words (setupOf copy) none none none }
  | word (p : Setup) (ul dl rep ul' dl' rep' : Option Word) (h : l.phase = .words p ul dl rep) :
      LoadChange s l { l with phase := .words p ul' dl' rep' }

/-! ### Single effects -/

/-- One effect on the part: a change of one unit, or one of the events that set several units at once. -/
inductive Effect : State → State → Prop
  | pending (s : State) (rest : List Instr) : Effect s { s with pending := rest }
  | free (s : State) (n : Nat) : Effect s { s with free := n }
  | due (s : State) (d : DueChecks) : Effect s { s with due := d }
  | views (s : State) (v : ViewUnit) : Effect s { s with vu := v }
  | clock (s : State) (qt : Qt) : Effect s { s with su := { s.su with qt := qt } }
  | command (s : State) (c : Command) : Effect s { s with su := { s.su with command := c } }
  | load (s : State) (l l' : Load) (hl : s.su.load = some l) (h : LoadChange s l l') :
      Effect s { s with su := { s.su with load := some l' } }
  | capture (s : State) (u : CaptureUnit) (h : CaptureChange s u) : Effect s { s with rcu := u }
  | crane (s : State) (n : Nat) (c : Crane) (h : CraneChange s n c) : Effect s { s with clu := s.clu.setCrane n c }
  | cranesCleared (s : State) : Effect s { s with clu := s.clu.clearCounters }
  | reefers (s : State) (u : ReeferUnit) (h : ReeferChange s u) : Effect s { s with rfu := u }
  | coverage (s : State) (u : CoverageUnit) (h : CoverageChange s u) : Effect s { s with cvu := u }
  | reports (s : State) (u : ReportUnit) (h : ReportChange s u) : Effect s { s with rpu := u }
  | path (s : State) (u : PathUnit) (h : PathChange s u) : Effect s { s with pu := u }
  | powerOn (s : State) (sbase : BitVec 8) :
      Effect s { State.afterReset sbase with pending := s.pending, free := s.free }
  | loadStarted (s : State) (keep : Bool) :
      Effect s { s with
        su := { s.su with runState := .loading, load := some ⟨keep, [], 0, .block⟩ }
        rcu := { s.rcu with parsing := false } }
  | reloaded (s : State) (p : Setup) (a b c : Word) (l : Load) (ul dl rep : Option Word) (hl : s.su.load = some l)
      (hw : l.phase = .words p ul dl rep) : Effect s (reloadUnits p l.keep a b c s)
  | passOnly (s : State) (code : Byte) : Effect s (enterPassOnly code s)

/-- A sequence of single effects. -/
abbrev Effects : State → State → Prop := Relation.ReflTransGen Effect

/-- What every single effect keeps, a sequence of them keeps. -/
theorem Effects.keep {I : State → Prop} (hI : ∀ s t, Effect s t → I s → I t) {s t : State} (h : Effects s t) :
    I s → I t := by
  induction h with
  | refl => exact id
  | tail _ he ih => exact fun hs => hI _ _ he (ih hs)

/-! ### Shared operations as effects -/

theorem report_effects (rs : List Record) (s : State) : Effects s (s.report rs) :=
  .single (.reports s _ (.handedOver rs))

theorem injectSu_effects (qs : List InjRequest) (s : State) : Effects s (s.injectSu qs) :=
  .single (.path s _ (.injectedSu qs))

theorem injectRpu_effects (b : InjBody) (a : Nat) (s : State) : Effects s (s.injectRpu b a) :=
  .single (.path s _ (.injectedRpu b a))

theorem craneLatch_effects (latch : Bool) (s : State) : Effects s { s with rpu := { s.rpu with craneLatch := latch } } :=
  .single (.reports s _ (.lines latch s.rpu.pulseStart))

theorem pulseStart_effects (pulse : Option Qt) (s : State) :
    Effects s { s with rpu := { s.rpu with pulseStart := pulse } } :=
  .single (.reports s _ (.lines s.rpu.craneLatch pulse))

theorem craneEntered_effects (n : Nat) (s : State) : Effects s (craneEntered n s) := by
  unfold craneEntered
  split
  · exact .refl
  · split
    · exact .refl
    · split
      · exact .refl
      · exact craneLatch_effects true s
      · exact craneLatch_effects true s
      · exact pulseStart_effects _ s

@[simp] theorem craneEntered_su (n : Nat) (s : State) : (craneEntered n s).su = s.su := by
  unfold craneEntered
  split
  · rfl
  · split
    · rfl
    · split <;> rfl

/-- A change of one segment with its records. -/
theorem changeSegment_effects (g : Nat) (f : Segment → Segment × List Record) (s : State)
    (h : SegmentChange s g (f (s.cvu.segment g)).1) : Effects s (changeSegment g f s) :=
  .trans (.single (.coverage s _ (.segment g _ h))) (report_effects _ _)

/-! ### Checks and visits -/

theorem enterLate_effects (p : Setup) (n : Nat) (s : State) (hp : s.su.setup = some p)
    (hl : lateCondition p (s.clu.crane n) s.su.qt = true) : Effects s (enterLate n s) :=
  .trans (.single (.crane s n _ (.late p hp hl))) (report_effects _ _)

/-- Entry into LOST in its stages: the crane's record, one LINK_LOST, the vote where the crane is not LOCAL and its
position is known, the Report Unit's sight of it (R42). -/
theorem enterLost_stages (p : Setup) (n : Nat) (s : State) :
    ∃ r s1 s2, s1 = { s with clu := s.clu.setCrane n ((s.clu.crane n).enterLost p.timing.tracePost) }.report [r] ∧
      (s2 = s1 ∨ ∃ x, (s.clu.crane n).position = some x ∧
        s2 = changeSegment (segmentOf p x) (voteSegment p (segmentOf p x) s.su.qt) s1) ∧
      enterLost p n s = craneEntered n s2 := by
  cases hx : (s.clu.crane n).position with
  | none =>
    simp only [enterLost, hx, Option.map_none]
    exact ⟨_, _, _, rfl, .inl rfl, rfl⟩
  | some x =>
    simp only [enterLost, hx, Option.map_some]
    split
    · exact ⟨_, _, _, rfl, .inl rfl, rfl⟩
    · exact ⟨_, _, _, rfl, .inr ⟨x, rfl, rfl⟩, rfl⟩

theorem enterLost_effects (p : Setup) (n : Nat) (s : State) (hp : s.su.setup = some p)
    (hl : lostCondition p (s.clu.crane n) s.su.qt = true) : Effects s (enterLost p n s) := by
  obtain ⟨r, s1, s2, h1, h2, h⟩ := enterLost_stages p n s
  have e1 : Effects s s1 := by
    rw [h1]
    exact .trans (.single (.crane s n _ (.lost p hp hl))) (report_effects _ _)
  rw [h]
  refine (e1.trans ?_).trans (craneEntered_effects n s2)
  rcases h2 with rfl | ⟨x, hx, rfl⟩
  · exact .refl
  · rw [h1]
    refine changeSegment_effects _ _ _ (.voted p n x hp ?_ rfl)
    simp only [State.report_clu, CraneUnit.crane_setCrane, if_true]
    exact hx

/-- A deadline check: entry into LOST or LATE, or nothing (R40, R41). -/
theorem deadlineCheck_cases (p : Setup) (n : Nat) (s : State) :
    (lostCondition p (s.clu.crane n) s.su.qt = true ∧ deadlineCheck p n s = enterLost p n s) ∨
    (lateCondition p (s.clu.crane n) s.su.qt = true ∧ deadlineCheck p n s = enterLate n s) ∨
      deadlineCheck p n s = s := by
  unfold deadlineCheck
  by_cases h1 : lostCondition p (s.clu.crane n) s.su.qt = true
  · exact .inl ⟨h1, if_pos h1⟩
  · by_cases h2 : lateCondition p (s.clu.crane n) s.su.qt = true
    · exact .inr (.inl ⟨h2, by simp only [h1, h2, if_true, Bool.false_eq_true, if_false]⟩)
    · exact .inr (.inr (by simp only [h1, h2, Bool.false_eq_true, if_false]))

@[simp] theorem enterLost_su (p : Setup) (n : Nat) (s : State) : (enterLost p n s).su = s.su := by
  obtain ⟨r, s1, s2, rfl, h2, h⟩ := enterLost_stages p n s
  rw [h, craneEntered_su]
  rcases h2 with rfl | ⟨x, -, rfl⟩ <;> rfl

@[simp] theorem deadlineCheck_su (p : Setup) (n : Nat) (s : State) : (deadlineCheck p n s).su = s.su := by
  rcases deadlineCheck_cases p n s with ⟨-, h⟩ | ⟨-, h⟩ | h <;> rw [h]
  · exact enterLost_su p n s
  · rfl

theorem deadlineCheck_effects (p : Setup) (n : Nat) (s : State) (hp : s.su.setup = some p) :
    Effects s (deadlineCheck p n s) := by
  rcases deadlineCheck_cases p n s with ⟨hl, h⟩ | ⟨hl, h⟩ | h <;> rw [h]
  · exact enterLost_effects p n s hp hl
  · exact enterLate_effects p n s hp hl

@[simp] theorem checkDeadlines_su (p : Setup) (ns : List Nat) (s : State) : (checkDeadlines p ns s).su = s.su := by
  induction ns generalizing s with
  | nil => rfl
  | cons n ns ih => rw [checkDeadlines, ih, deadlineCheck_su]

theorem checkDeadlines_effects (p : Setup) (ns : List Nat) (s : State) (hp : s.su.setup = some p) :
    Effects s (checkDeadlines p ns s) := by
  induction ns generalizing s with
  | nil => exact .refl
  | cons n ns ih => exact .trans (deadlineCheck_effects p n s hp) (ih _ (by rw [deadlineCheck_su, hp]))

theorem visitReefer_effects (p : Setup) (i : Nat) (s : State) (hp : s.su.setup = some p) :
    Effects s (visitReefer p i s) := by
  rcases visitReefer_cases p i s with h | ⟨e, he, ⟨hl, h⟩ | ⟨-, hl, h⟩⟩ <;> rw [h]
  · exact .trans (.single (.reefers s _ (.lost p i e hp he hl))) (report_effects _ _)
  · simp only [silenceReefer]
    split
    · exact .trans (.single (.reefers s _ (.excused p i e hp he hl))) (report_effects _ _)
    · exact .trans (.single (.reefers s _ (.silent p i e hp he hl))) (report_effects _ _)

theorem visitReefer_su (p : Setup) (i : Nat) (s : State) : (visitReefer p i s).su = s.su := by
  rw [visitReefer_frame]

theorem visitReefers_su (p : Setup) (is : List Nat) (s : State) : (visitReefers p is s).su = s.su := by
  rw [visitReefers_frame]

theorem visitReefers_effects (p : Setup) (is : List Nat) (s : State) (hp : s.su.setup = some p) :
    Effects s (visitReefers p is s) := by
  induction is generalizing s with
  | nil => exact .refl
  | cons i is ih => exact .trans (visitReefer_effects p i s hp) (ih _ (by rw [visitReefer_su, hp]))

theorem takeVisits_effects (p : Setup) (i : Nat) (s : State) (hp : s.su.setup = some p) :
    Effects s (takeVisits p i s) := .tail (visitReefers_effects p _ s hp) (.due _ _)

theorem visitSegment_effects (p : Setup) (s : State) (hp : s.su.setup = some p) :
    Effects s (visitSegment p s.cvu.scanPos s.su.qt s) := by
  refine .trans (changeSegment_effects _ _ s (.aged p hp rfl)) ?_
  refine .trans (changeSegment_effects _ (fun g => (ageShadow p s.su.qt g, [])) _ (.shadowAged p hp rfl)) ?_
  exact changeSegment_effects _ _ _ (.driftTested p hp rfl)

@[simp] theorem visitSegment_su (p : Setup) (g : Nat) (now : Qt) (s : State) : (visitSegment p g now s).su = s.su := rfl

theorem coverageVisit_effects (p : Setup) (s : State) (hp : s.su.setup = some p) : Effects s (coverageVisit p s) :=
  .tail (visitSegment_effects p s hp) (.coverage _ _ (.scanned p hp))

theorem finishChecks_effects (p : Setup) (s : State) (hp : s.su.setup = some p) : Effects s (finishChecks p s) := by
  have h2 : Effects s (visitReefers p s.due.visits (checkDeadlines p s.due.deadlines s)) :=
    .trans (checkDeadlines_effects p _ s hp) (visitReefers_effects p _ _ (by rw [checkDeadlines_su, hp]))
  have h3 : Effects s (if s.due.coverage then coverageVisit p (visitReefers p s.due.visits
      (checkDeadlines p s.due.deadlines s)) else visitReefers p s.due.visits (checkDeadlines p s.due.deadlines s)) := by
    split
    · exact h2.trans (coverageVisit_effects p _ (by rw [visitReefers_su, checkDeadlines_su, hp]))
    · exact h2
  have h4 : ∀ (b : Bool) (t : State), Effects t (if b then endPulse t else t) := fun b t => by
    cases b
    · exact .refl
    · exact pulseStart_effects none t
  exact h3.trans (h4 _ _)

theorem finishDue_effects (s : State) : Effects s (finishDue s) := by
  unfold finishDue
  cases hp : s.su.setup with
  | none => exact .single (.due s _)
  | some p => exact .tail (finishChecks_effects p s hp) (.due _ _)

theorem armChecks_effects (s : State) : Effects s (armChecks s) := by
  unfold armChecks
  split
  · exact .tail (.tail (.single (.reefers s _ .scanned)) (.coverage _ _ .ticked)) (.due _ _)
  · exact .single (.due s _)

/-! ### Frames dispatched -/

theorem observe_effects (p : Setup) (g : Nat) (dir : Direction) (ex : Option Nat) (level : Int) (now : Qt) (s : State)
    (hp : s.su.setup = some p)
    (hg : (∃ x, g = segmentOf p (clampPosition p x)) ∨ ∃ plug, g = plugSegment p plug) :
    Effects s (observe p g dir ex level now s) :=
  .trans (.single (.coverage s _ (.segment g _ (.observed p _ dir level now hp hg)))) (report_effects _ _)

theorem observeLevel_effects (p : Setup) (g : Nat) (ex : Option Nat) (level : Half) (now : Qt) (s : State)
    (hp : s.su.setup = some p)
    (hg : (∃ x, g = segmentOf p (clampPosition p x)) ∨ ∃ plug, g = plugSegment p plug) :
    Effects s (observeLevel p g ex level now s) := by
  unfold observeLevel
  split
  · exact .refl
  · exact observe_effects p g .ul ex _ now s hp hg

theorem dispatchStatus_effects (p : Setup) (f : StatusFrame) (q : Qt) (cells : List (Option Byte)) (s : State)
    (hp : s.su.setup = some p) (hf : parseCells s.su.setup cells = .acceptedCrane f) :
    Effects s (dispatchStatus p f q s) := by
  unfold dispatchStatus
  have h1 := Relation.ReflTransGen.trans (.single (.crane s f.crane _ (.status p f q cells hp hf rfl)))
    (report_effects (handleStatus p s.clu f q).2.1 _)
  dsimp only
  split
  · exact h1.trans (craneEntered_effects _ _)
  · exact h1.trans (observeLevel_effects p _ _ _ _ _ hp (.inl ⟨_, rfl⟩))
  · exact h1
  · exact h1

theorem dispatchReport_effects (p : Setup) (r : ReeferReport) (q : Qt) (s : State) (hp : s.su.setup = some p) :
    Effects s (dispatchReport p r q s) := by
  unfold dispatchReport
  have h1 := Relation.ReflTransGen.trans (.single (.reefers s _ (.admitted p r q hp)))
    (report_effects (admitReport p r q s.rfu).2.1 _)
  dsimp only
  split
  · exact h1.trans (observeLevel_effects p _ _ _ _ _ hp (.inr ⟨_, rfl⟩))
  · exact h1

theorem observeEntries_effects (p : Setup) (now : Qt) (es : List MeasEntry) (s : State) (hp : s.su.setup = some p) :
    Effects s (observeEntries p now es s) := by
  induction es generalizing s with
  | nil => exact .refl
  | cons e es ih =>
    simp only [observeEntries]
    split
    · exact ih s hp
    · exact .trans (observe_effects p _ .dl none _ now s hp (.inl ⟨_, rfl⟩)) (ih _ hp)

@[simp] theorem measClamp_su (p : Setup) (es : List MeasEntry) (now : Qt) (s : State) :
    (measClamp p es now s).su = s.su := by
  simp only [measClamp]
  split
  · rfl
  · split <;> rfl

theorem measClamp_effects (p : Setup) (es : List MeasEntry) (now : Qt) (s : State) :
    Effects s (measClamp p es now s) := by
  simp only [measClamp]
  split
  · exact .single (.coverage s _ (.clamp false))
  · split
    · exact .refl
    · exact .trans (.single (.coverage s _ (.clamp true))) (report_effects _ _)

theorem dispatch_effects (cells : List (Option Byte)) (q : Qt) (s : State) :
    Effects s (dispatch (parseCells s.su.setup cells) q s) := by
  unfold dispatch
  cases hp : s.su.setup with
  | none => exact .refl
  | some p =>
    dsimp only
    split
    · rename_i f hf
      exact dispatchStatus_effects p f q cells s hp (by rw [hp, hf])
    · exact dispatchReport_effects p _ q s hp
    · exact .trans (measClamp_effects p _ q s) (observeEntries_effects p q _ _ (by rw [measClamp_su, hp]))
    · exact .refl

theorem settleHead_effects (o : ParseOutcome) (slot : Nat) (i : ParseItem) (rest : List ParseItem) (s : State)
    (hq : s.rcu.queue = i :: rest) : Effects s (settleHead o slot rest s) :=
  .trans (.single (.capture s _ (.settled o i rest hq))) (report_effects _ _)

/-! ### Read beats -/

theorem onlyViewsDiffer.effects {s t : State} (h : onlyViewsDiffer s t) : Effects s t := by
  rw [h.1]
  exact .tail (.single (.views s t.vu)) (.path _ _ (.reads _))

theorem depart_effects (k : Nat) (s : State) : Effects s (depart k s) := by
  refine .trans (b := { s with
    rcu := (depart k s).rcu, clu := (depart k s).clu }) ?_ (report_effects _ _)
  have h1 : Effects s { s with rcu := (depart k s).rcu } := .single (.capture s _ (.departed k _ _))
  refine h1.trans ?_
  by_cases hd : departureDecision s (s.rcu.record k) = .pass
  · have : (depart k s).clu = s.clu := if_pos hd
    rw [this]
  · have : (depart k s).clu = s.clu.setCrane (s.rcu.record k).crane
        (craneDecision s k (s.rcu.record k) (departureDecision s (s.rcu.record k))
          (s.clu.crane (s.rcu.record k).crane)).crane := if_neg hd
    rw [this]
    exact .single (.crane _ _ _ (.decided s k _ rfl rfl rfl hd))

theorem fetchClassByte_effects (k : Nat) (s : State) : Effects s (fetchClassByte k s) := by
  simp only [fetchClassByte]
  split
  · exact depart_effects k s
  · split
    · exact .single (.capture s _ (.passed _ _ _))
    · split
      · exact .single (.capture s _ (.passed _ _ _))
      · exact .refl

theorem fetchAll_effects (ks : List Nat) (s : State) : Effects s (fetchAll ks s) := by
  induction ks generalizing s with
  | nil => exact .refl
  | cons k ks ih => exact .trans (fetchClassByte_effects k s) (ih _)

theorem endBeat_effects (b : ReadBeat) (o : OpenRead) (data : List Byte) (s : State) :
    Effects s (endBeat b o data s) := .single (.path s _ (.beat b o data))

theorem radioBeat_effects (t : Windows) (b : ReadBeat) (o : OpenRead) (s : State) :
    Effects s (radioBeat t b o s) := by
  unfold radioBeat
  dsimp only
  refine .trans (fetchAll_effects (classByteSlots t (beatAddr b) b.data.length) s) (.trans ?_ (endBeat_effects ..))
  split
  · exact .single (.capture _ _ (.passed _ _ _))
  · exact .refl

theorem summaryNotice_effects (s : State) : Effects s (summaryNotice s) := by
  unfold summaryNotice
  split
  · split
    · exact craneLatch_effects false s
    · exact .refl
  · exact .refl

theorem appBeat_effects (t : Windows) (b : ReadBeat) (o : OpenRead) (s : State) : Effects s (appBeat t b o s) := by
  unfold appBeat
  dsimp only
  refine .trans ?_ (endBeat_effects ..)
  split
  · exact summaryNotice_effects s
  · exact .refl

theorem carryBeat_effects (b : ReadBeat) (o : OpenRead) (s : State) : Effects s (carryBeat b o s) := by
  unfold carryBeat
  split
  · exact endBeat_effects ..
  · split
    · split
      · exact radioBeat_effects ..
      · exact endBeat_effects ..
    · exact appBeat_effects ..
    · exact endBeat_effects ..

theorem passBeat_effects (accepts : ReadBeat → OpenRead → Bool) (b : ReadBeat) (s : State) :
    Effects s (passBeat accepts b s) := by
  unfold passBeat
  split
  · exact .refl
  · rename_i o s1 h
    split
    · exact (burstOf_only b s s1 o h).effects.trans (carryBeat_effects b o s1)
    · exact .refl

/-! ### Commands -/

theorem writeStatusFree_effects (st : CmdStatus) (code : Byte) (arg : Half) (s : State) :
    Effects s (s.writeStatusFree st code arg) := .trans (.single (.free s _)) (injectSu_effects _ _)

theorem settleCommand_effects (s : State) : Effects s (settleCommand s) := by
  unfold settleCommand
  split
  · split
    · exact .trans (.single (.command s _)) (injectSu_effects _ _)
    · exact .refl
  · exact .refl

theorem decideCommand_effects (v : CmdStatus) (s : State) : Effects s (decideCommand v s) :=
  .trans (.single (.command s _)) (settleCommand_effects _)

theorem startLoad_effects (keep : Bool) (s : State) : Effects s (startLoad keep s) :=
  .trans (.tail (finishDue_effects s) (.loadStarted _ keep)) (injectSu_effects _ _)

theorem judgeReload_effects (arg : Half) (s : State) : Effects s (judgeReload arg s) := by
  unfold judgeReload
  split
  · exact decideCommand_effects ..
  · split
    · exact decideCommand_effects ..
    · exact startLoad_effects ..

/-- A judged command is the sequence of its action's effects and the decision. -/
theorem judgeRunning_effects (action : Half → State → Option State) (arg : Half) (s : State)
    (ha : ∀ t, action arg s = some t → Effects s t) : Effects s (judgeRunning action arg s) := by
  unfold judgeRunning
  split
  · exact decideCommand_effects ..
  · split
    · rename_i t ht
      exact (ha t ht).trans (decideCommand_effects ..)
    · exact decideCommand_effects ..

theorem ackLines_effects (arg : Half) (s t : State) (h : ackLines arg s = some t) : Effects s t := by
  unfold ackLines at h
  split at h
  · split at h
    · obtain rfl := Option.some.inj h
      exact craneLatch_effects false s
    · obtain rfl := Option.some.inj h
      exact .refl
  · obtain rfl := Option.some.inj h
    exact .refl

theorem resetCrane_effects (arg : Half) (s t : State) (h : resetCrane arg s = some t) : Effects s t := by
  simp only [resetCrane, Option.ite_none_right_eq_some, Option.some.injEq] at h
  obtain ⟨hn, rfl⟩ := h
  exact .single (.crane s _ _ (.reset hn))

theorem openTrace_effects (arg : Half) (s t : State) (h : openTrace arg s = some t) : Effects s t := by
  simp only [openTrace, Option.ite_none_right_eq_some, Option.some.injEq] at h
  obtain ⟨hn, rfl⟩ := h
  exact .single (.crane s _ _ (.traceOpened hn))

theorem entry_of_namedEntry (arg : Half) (s : State) (e : Reefer) (h : namedEntry arg s = some e) :
    s.rfu.entry arg.toNat = some e := by
  simp only [namedEntry, Option.ite_none_right_eq_some] at h
  exact h.2

theorem ackEntry_effects (arg : Half) (s t : State) (h : ackEntry arg s = some t) : Effects s t := by
  simp only [ackEntry, Option.map_eq_some_iff] at h
  obtain ⟨e, he, rfl⟩ := h
  exact .single (.reefers s _ (.acked _ e (entry_of_namedEntry arg s e he)))

theorem forgetEntry_effects (arg : Half) (s t : State) (h : forgetEntry arg s = some t) : Effects s t := by
  simp only [forgetEntry, Option.map_eq_some_iff] at h
  obtain ⟨e, he, rfl⟩ := h
  exact .single (.reefers s _ (.forgotten _ e (entry_of_namedEntry arg s e he)))

theorem clearCoverage_effects (arg : Half) (s t : State) (h : clearCoverage arg s = some t) : Effects s t := by
  unfold clearCoverage at h
  split at h
  · rename_i p hp
    simp only [Option.ite_none_right_eq_some, Option.some.injEq] at h
    obtain ⟨-, rfl⟩ := h
    exact .single (.coverage s _ (.cleared p arg hp))
  · cases h

theorem clearCounters_effects (arg : Half) (s t : State) (h : clearCounters arg s = some t) : Effects s t := by
  obtain rfl := Option.some.inj h
  exact .tail (.single (.capture s _ .cleared)) (.cranesCleared _)

theorem judgeCommand_effects (code : Byte) (arg : Half) (s : State) : Effects s (judgeCommand code arg s) := by
  unfold judgeCommand
  split_ifs
  · exact judgeReload_effects arg s
  · exact judgeRunning_effects _ arg s (ackLines_effects arg s)
  · exact judgeRunning_effects _ arg s (resetCrane_effects arg s)
  · exact judgeRunning_effects _ arg s (openTrace_effects arg s)
  · exact judgeRunning_effects _ arg s (ackEntry_effects arg s)
  · exact judgeRunning_effects _ arg s (forgetEntry_effects arg s)
  · exact judgeRunning_effects _ arg s (clearCoverage_effects arg s)
  · exact judgeRunning_effects _ arg s (clearCounters_effects arg s)
  · exact decideCommand_effects ..

theorem beginCommand_effects (code : Byte) (arg : Half) (s : State) : Effects s (beginCommand code arg s) :=
  .trans (.single (.command s _)) (writeStatusFree_effects ..)

theorem writeCommand_effects (role : Role) (w : Write) (s : State) : Effects s (writeCommand role w s) := by
  unfold writeCommand
  split
  · rcases takeCommand_cases (writtenCode s w) (writtenArg s w) (judgeCommand (writtenCode s w)) s with
      ⟨-, h⟩ | ⟨-, h⟩ | ⟨-, h⟩ <;> rw [h]
    · exact (beginCommand_effects ..).trans (judgeCommand_effects ..)
    · exact .single (.command s _)
    · split
      · exact .refl
      · exact .single (.command s _)
  · exact .refl

theorem statusAnswered_effects (s : State) : Effects s (statusAnswered s) := by
  unfold statusAnswered
  dsimp only
  split
  · exact .refl
  · exact .trans (.single (.command s _)) (settleCommand_effects _)
  · split
    · exact .trans (.single (.command s _)) (writeStatusFree_effects ..)
    · exact .single (.command s _)

/-! ### Completed writes -/

theorem captureSlots_effects (p : Setup) (w : Write) (ks : List Nat) (s : State) (hp : s.su.setup = some p) :
    Effects s { s with rcu := (captureSlots w p.windows.ulSlots s.su.qt ks s.rcu).1 } := by
  induction ks generalizing s with
  | nil => exact .refl
  | cons k ks ih => exact .head (.capture s _ (.captured p w k hp)) (ih { s with rcu := _ } hp)

theorem commitSlots_effects (p : Setup) (ks : List Nat) (s : State) (hp : s.su.setup = some p) :
    Effects s { s with rcu := (commitSlots p.windows.ulCount s.su.qt ks s.rcu).1 } := by
  induction ks generalizing s with
  | nil => exact .refl
  | cons k ks ih => exact .head (.capture s _ (.committed p k hp)) (ih { s with rcu := _ } hp)

theorem writeRecords_effects (w : Write) (base : Nat) (ks : List Nat) (s : State) :
    Effects s { s with rcu := writeRecords w base s.su.qt ks s.rcu } := by
  induction ks generalizing s with
  | nil => exact .refl
  | cons k ks ih => exact .head (.capture s _ (.headerWritten w _ k)) (ih { s with rcu := _ })

theorem commitRecords_effects (ks : List Nat) (s : State) : Effects s { s with rcu := commitRecords ks s.rcu } := by
  induction ks generalizing s with
  | nil => exact .refl
  | cons k ks ih => exact .head (.capture s _ (.recordCommitted k)) (ih { s with rcu := _ })

theorem writeUlSlots_effects (p : Setup) (w : Write) (s : State) (hp : s.su.setup = some p) :
    Effects s (writeUlSlots p w s) := .trans (captureSlots_effects p w _ s hp) (report_effects _ _)

theorem writeUlIndex_effects (p : Setup) (w : Write) (s : State) (hp : s.su.setup = some p) :
    Effects s (writeUlIndex p w s) := by
  unfold writeUlIndex ulIndexWritten
  dsimp only
  split
  · split
    · exact report_effects _ s
    · split
      · exact report_effects _ s
      · rename_i hv
        exact .trans (.tail (commitSlots_effects p _ s hp) (.capture _ _ (.ulIndex p _ hp (Nat.lt_of_not_le hv))))
          (report_effects _ _)
  · exact .refl

theorem writeDlSlots_effects (p : Setup) (w : Write) (s : State) : Effects s (writeDlSlots p w s) :=
  writeRecords_effects w _ _ s

theorem writeDlIndex_effects (p : Setup) (w : Write) (s : State) (hp : s.su.setup = some p) :
    Effects s (writeDlIndex p w s) := by
  unfold writeDlIndex dlIndexWritten
  dsimp only
  split
  · split
    · exact report_effects _ s
    · split
      · exact report_effects _ s
      · rename_i hv
        exact .tail (commitRecords_effects _ s) (.capture _ _ (.dlIndex p _ hp (Nat.lt_of_not_le hv)))
  · exact .refl

theorem writeConsumer_effects (p : Setup) (w : Write) (s : State) (hp : s.su.setup = some p) :
    Effects s (writeConsumer p w s) := by
  unfold writeConsumer consumerWritten
  dsimp only
  split
  · split
    · exact report_effects _ s
    · split
      · exact report_effects _ s
      · rename_i hv
        exact .single (.reports s _ (.consumed p _ hp (Nat.lt_of_not_le hv)))
  · exact .refl

@[simp] theorem writeDlSlots_su (p : Setup) (w : Write) (s : State) : (writeDlSlots p w s).su = s.su := rfl

@[simp] theorem writeDlIndex_su (p : Setup) (w : Write) (s : State) : (writeDlIndex p w s).su = s.su := by
  unfold writeDlIndex dlIndexWritten
  dsimp only
  split
  · split
    · rfl
    · split <;> rfl
  · rfl

theorem writeWindows_effects (role : Role) (w : Write) (s : State) : Effects s (writeWindows role w s) := by
  unfold writeWindows
  split
  · exact .refl
  · rename_i p hp
    split
    · split
      · exact .trans (writeUlSlots_effects p w s hp) (writeUlIndex_effects p w _ hp)
      · exact .trans (writeDlSlots_effects p w s) (.trans (writeDlIndex_effects p w _ hp)
          (writeConsumer_effects p w _ (by rw [writeDlIndex_su, writeDlSlots_su, hp])))
      · exact .refl
    · exact .refl

theorem returned_effects (w : Write) (s : State) : Effects s (countViewWrite w (returnWrite w s)) := by
  have h1 : Effects s (returnWrite w s) := .single (.path s _ (.returned w))
  rcases countViewWrite_cases w (returnWrite w s) with h | h <;> rw [h]
  · exact h1
  · exact h1.tail (.views _ _)

theorem completeWrite_effects (w : Write) (s : State) : Effects s (completeWrite w s) := by
  rcases completeWrite_cases w s with ⟨-, h⟩ | ⟨role, -, ⟨-, h⟩ | ⟨-, h⟩⟩ <;> rw [h]
  · exact returned_effects w s
  · exact (returned_effects w s).trans ((writeWindows_effects ..).trans (writeCommand_effects ..))

theorem windowWrite_effects (covers : Windows → Bool) (w : Write) (s : State) :
    Effects s (windowWrite covers w s) := by
  rcases windowWrite_cases covers w s with ⟨h, -⟩ | ⟨p, -, -, h⟩ <;> rw [h]
  exact completeWrite_effects w s

theorem commandWrite_effects (codes : Byte → Bool) (w : Write) (s : State) :
    Effects s (commandWrite codes w s) := by
  rcases commandWrite_cases codes w s with ⟨h, -⟩ | ⟨-, -, h⟩ <;> rw [h]
  exact completeWrite_effects w s

/-! ### Answers to injected transactions -/

theorem takeInjected_frame (s s1 : State) (ch : Channel) (id : AxiId) (q : InjRequest)
    (h : takeInjected s ch id = some (q, s1)) : s1 = { s with pu := s1.pu } := by
  obtain ⟨tx, rest, -, hc⟩ := takeInjected_cases s s1 ch id q h
  cases ch <;> rw [hc.2]

theorem takeInjected_effects (s s1 : State) (ch : Channel) (id : AxiId) (q : InjRequest)
    (h : takeInjected s ch id = some (q, s1)) : Effects s s1 := by
  rw [takeInjected_frame s s1 ch id q h]
  exact .single (.path s _ (.matched ch id q s1 h))

theorem takeRecord_effects (p : Setup) (s : State) (hp : s.su.setup = some p) : Effects s (takeRecord p s) := by
  unfold takeRecord
  have h1 : Effects s { s with rpu := (takeHead (s.rpu.freeSlots p.windows.repCount) s.rpu.queue s.rpu).1 } :=
    .single (.reports s _ (.judged p hp))
  dsimp only
  split
  · exact h1
  · exact (h1.tail (.reports _ _ (.taken _))).trans (injectRpu_effects _ _ _)

theorem reportAnswer_effects (resp : Resp) (act : Setup → State → State) (s : State)
    (ha : ∀ p, s.su.setup = some p → Effects s (act p s)) : Effects s (reportAnswer resp act s) := by
  unfold reportAnswer
  split
  · exact .refl
  · rename_i p hp
    split
    · exact ha p hp
    · exact .single (.reports s _ .failed)

theorem issueIndexWrite_effects (p : Setup) (s : State) : Effects s (issueIndexWrite p s) :=
  .trans (.single (.reports s _ .recordWritten)) (injectRpu_effects _ _ _)

theorem advanceProducer_effects (p : Setup) (s : State) (hp : s.su.setup = some p) :
    Effects s (advanceProducer p s) := .single (.reports s _ (.advanced p hp))

theorem failLoad_effects (code : Byte) (s : State) : Effects s (failLoad code s) :=
  .trans (.single (.passOnly s code)) (decideCommand_effects _ _)

theorem completeLoad_effects (p : Setup) (a b c : Word) (l : Load) (ul dl rep : Option Word) (s : State)
    (hl : s.su.load = some l) (hw : l.phase = .words p ul dl rep) : Effects s (completeLoad p l.keep a b c s) :=
  .trans (.trans (.tail (.single (.reloaded s p a b c l ul dl rep hl hw)) (.views _ _)) (report_effects _ _))
    (decideCommand_effects _ _)

theorem setupReadAnswered_effects (l : Load) (resp : Resp) (data : List Byte) (s : State) (hl : s.su.load = some l) :
    Effects s (setupReadAnswered l resp data s) := by
  unfold setupReadAnswered validated
  dsimp only
  split
  · exact failLoad_effects _ s
  · split
    · exact .single (.load s l _ hl (.read _ _))
    · split
      · exact failLoad_effects _ s
      · rename_i hv
        exact .trans (.single (.load s l _ hl (.validated _ _ hv))) (injectSu_effects _ _)

theorem indexWordAnswered_effects (l : Load) (body : InjBody) (resp : Resp) (v : Word) (s : State)
    (hl : s.su.load = some l) : Effects s (indexWordAnswered l body resp v s) := by
  unfold indexWordAnswered
  split
  · exact .refl
  · rename_i p ul dl rep hw
    dsimp only
    split
    · exact failLoad_effects _ s
    · split
      · exact completeLoad_effects p _ _ _ l ul dl rep s hl hw
      · exact .single (.load s l _ hl (.word p ul dl rep _ _ _ hw))

/-! ### The rows and the step -/

theorem execLinkLate_effects (n : Fin 12) (s t : State) (h : execLinkLate n s = .next t) : Effects s t := by
  injection h with h
  subst h
  split
  · exact .refl
  · rename_i p hp
    split
    · rename_i hc
      exact .tail (enterLate_effects p _ s hp hc.2.2) (.due _ _)
    · exact .refl

theorem execLinkLost_effects (n : Fin 12) (s t : State) (h : execLinkLost n s = .next t) : Effects s t := by
  injection h with h
  subst h
  split
  · exact .refl
  · rename_i p hp
    split
    · rename_i hc
      exact .tail (enterLost_effects p _ s hp hc.2.2) (.due _ _)
    · exact .refl

theorem execIrqCranePulseEnd_effects (s t : State) (h : execIrqCranePulseEnd s = .next t) : Effects s t := by
  injection h with h
  subst h
  split
  · exact .refl
  · split
    · exact .tail (pulseStart_effects none s) (.due _ _)
    · exact .refl

theorem execReeferLost_effects (i : Fin 2048) (s t : State) (h : execReeferLost i s = .next t) : Effects s t := by
  injection h with h
  subst h
  split
  · rename_i p e hp he
    split
    · exact takeVisits_effects p _ s hp
    · exact .refl
  · exact .refl

theorem execReeferSilent_effects (i : Fin 2048) (s t : State) (h : execReeferSilent i s = .next t) : Effects s t := by
  injection h with h
  subst h
  split
  · rename_i p e hp he
    split
    · exact takeVisits_effects p _ s hp
    · exact .refl
  · exact .refl

theorem scanVisit_effects (meets : Setup → Segment → Bool) (s : State) : Effects s (scanVisit meets s) := by
  unfold scanVisit
  split
  · exact .refl
  · rename_i p hp
    split
    · exact .tail (coverageVisit_effects p s hp) (.due _ _)
    · exact .refl

theorem execParseStart_effects (s t : State) (h : execParseStart s = .next t) : Effects s t := by
  injection h with h
  subst h
  split
  · exact .refl
  · split
    · exact .refl
    · rename_i hq
      exact settleHead_effects _ _ _ _ s hq
    · exact .single (.capture s _ (.parsing true))

theorem execParseComplete_effects (s t : State) (h : execParseComplete s = .next t) : Effects s t := by
  injection h with h
  subst h
  split
  · exact .refl
  · split
    · rename_i hq
      exact .trans (settleHead_effects _ _ _ _ s hq) (dispatch_effects _ _ (settleHead _ _ _ s))
    · exact .refl

theorem execViewBurstLastBeat_effects (id : AxiId) (s t : State) (h : execViewBurstLastBeat id s = .next t) :
    Effects s t := by
  injection h with h
  subst h
  split
  · split
    · exact (finishBurst_only _ s).effects
    · exact .refl
  · exact .refl

theorem execReportTake_effects (s t : State) (h : execReportTake s = .next t) : Effects s t := by
  injection h with h
  subst h
  split
  · exact .refl
  · rename_i p hp
    split
    · exact takeRecord_effects p s hp
    · exact .refl

theorem execReportRecordWriteDone_effects (id : AxiId) (resp : Resp) (s t : State)
    (h : execReportRecordWriteDone id resp s = .next t) : Effects s t := by
  injection h with h
  subst h
  split
  · exact .refl
  · rename_i q s1 hq
    have h1 := takeInjected_effects s s1 .write id q hq
    split
    · split
      · exact h1.trans (reportAnswer_effects _ _ s1 fun p _ => issueIndexWrite_effects p s1)
      · exact h1
    · exact .refl

theorem execReportIndexWriteDone_effects (id : AxiId) (resp : Resp) (s t : State)
    (h : execReportIndexWriteDone id resp s = .next t) : Effects s t := by
  injection h with h
  subst h
  split
  · exact .refl
  · rename_i q s1 hq
    have h1 := takeInjected_effects s s1 .write id q hq
    split
    · split
      · exact h1.trans (reportAnswer_effects _ _ s1 fun p hp => advanceProducer_effects p s1 hp)
      · exact h1
    · exact .refl

theorem execSetupReadDone_effects (id : AxiId) (resp : Resp) (data : List Byte) (s t : State)
    (h : execSetupReadDone id resp data s = .next t) : Effects s t := by
  injection h with h
  subst h
  split
  · exact .refl
  · rename_i q s1 hq
    have h1 := takeInjected_effects s s1 .read id q hq
    split
    · split
      · rename_i l hl
        split
        · exact h1.trans (setupReadAnswered_effects l resp data s1 hl)
        · exact h1
      · exact h1
    · exact .refl

theorem execIndexWordReadDone_effects (id : AxiId) (resp : Resp) (v : Word) (s t : State)
    (h : execIndexWordReadDone id resp v s = .next t) : Effects s t := by
  injection h with h
  subst h
  split
  · exact .refl
  · rename_i q s1 hq
    have h1 := takeInjected_effects s s1 .read id q hq
    split
    · split
      · rename_i l hl
        split
        · exact h1.trans (indexWordAnswered_effects l q.body resp v s1 hl)
        · exact h1
      · exact h1
    · exact .refl

theorem execCommandStatusWriteDone_effects (id : AxiId) (resp : Resp) (s t : State)
    (h : execCommandStatusWriteDone id resp s = .next t) : Effects s t := by
  injection h with h
  subst h
  split
  · exact .refl
  · rename_i q s1 hq
    split
    · exact (takeInjected_effects s s1 .write id q hq).trans (statusAnswered_effects s1)
    · exact .refl

theorem acceptRequest_effects (ch : Channel) (f : FwdRequest) (s : State) : Effects s (acceptRequest ch f s) := by
  have h : acceptRequest ch f s = { s with pu := (acceptRequest ch f s).pu } := by
    unfold acceptRequest
    split
    · rfl
    · cases ch <;> rfl
  rw [h]
  exact .single (.path s _ (.accepted ch f))

theorem enqueue_effects (src : Source) (s : State) : Effects s (enqueue src s) := by
  have h : enqueue src s = { s with pu := (enqueue src s).pu } := by
    unfold enqueue
    split
    · rfl
    · split <;> rfl
  rw [h]
  exact .single (.path s _ (.enqueued src))

theorem execTransactionForward_effects (f : Forward) (s t : State) (h : execTransactionForward f s = .next t) :
    Effects s t := by
  injection h with h
  subst h
  cases f with
  | readRequest => exact acceptRequest_effects _ _ s
  | writeRequest => exact acceptRequest_effects _ _ s
  | readBeat b => exact passBeat_effects _ b s
  | writeResponse w =>
    unfold forwardResponse
    dsimp only
    split
    · exact .refl
    · split
      · exact .refl
      · exact .single (.path s _ (.returned w))

/-- Every command's meaning is a sequence of single effects. -/
theorem exec_effects (c : Instr) (s t : State) (h : exec c s = .next t) : Effects s t := by
  cases c with
  | powerOnReset b =>
    obtain rfl := Host.Outcome.next.inj h
    exact .single (.powerOn s b)
  | qtIncrement =>
    obtain rfl := Host.Outcome.next.inj h
    exact .trans (.tail (finishDue_effects s) (.clock _ _)) (armChecks_effects _)
  | linkLate n => exact execLinkLate_effects n s t h
  | linkLost n => exact execLinkLost_effects n s t h
  | irqCranePulseEnd => exact execIrqCranePulseEnd_effects s t h
  | reeferLost i => exact execReeferLost_effects i s t h
  | reeferSilent i => exact execReeferSilent_effects i s t h
  | coverageScanVisit =>
    obtain rfl := Host.Outcome.next.inj h
    exact scanVisit_effects _ s
  | segmentAged g =>
    obtain rfl := Host.Outcome.next.inj h
    exact scanVisit_effects _ s
  | shadowAverageAged g =>
    obtain rfl := Host.Outcome.next.inj h
    exact scanVisit_effects _ s
  | parseStart => exact execParseStart_effects s t h
  | parseComplete => exact execParseComplete_effects s t h
  | departure b =>
    obtain rfl := Host.Outcome.next.inj h
    exact passBeat_effects _ b s
  | motionBytesRead b =>
    obtain rfl := Host.Outcome.next.inj h
    exact passBeat_effects _ b s
  | viewReadBeat b =>
    obtain rfl := Host.Outcome.next.inj h
    exact passBeat_effects _ b s
  | viewBurstLastBeat id => exact execViewBurstLastBeat_effects id s t h
  | reportTake => exact execReportTake_effects s t h
  | reportRecordWriteDone id resp => exact execReportRecordWriteDone_effects id resp s t h
  | reportIndexWriteDone id resp => exact execReportIndexWriteDone_effects id resp s t h
  | injIdRefused id ch n =>
    obtain rfl := Host.Outcome.next.inj h
    split
    · exact .single (.path s _ (.refused _))
    · exact .refl
  | transactionForward f => exact execTransactionForward_effects f s t h
  | injectionEnqueue src =>
    obtain rfl := Host.Outcome.next.inj h
    exact enqueue_effects src s
  | arbiterGrant ch =>
    obtain rfl := Host.Outcome.next.inj h
    exact .single (.path s _ (.granted ch))
  | setupReadDone id resp data => exact execSetupReadDone_effects id resp data s t h
  | indexWordReadDone id resp v => exact execIndexWordReadDone_effects id resp v s t h
  | commandStatusWriteDone id resp => exact execCommandStatusWriteDone_effects id resp s t h
  | commandWriteWhileBusy w =>
    obtain rfl := Host.Outcome.next.inj h
    split
    · exact .refl
    · exact commandWrite_effects _ w s
  | ulSlotWrite w | ulProducerIndexWrite w | dlSlotWrite w | dlProducerIndexWrite w | consumerIndexWrite w
  | viewWrite w =>
    obtain rfl := Host.Outcome.next.inj h
    exact windowWrite_effects _ w s
  | reload w | ackLines w | craneReset w | traceOpen w | reeferAck w | reeferForget w | coverageClear w
  | clearCounters w | commandCodeUnknown w =>
    obtain rfl := Host.Outcome.next.inj h
    exact commandWrite_effects _ w s

/-- Every step is a sequence of single effects. -/
theorem step_effects (s t : State) (h : step s = .next t) : Effects s t := by
  unfold step at h
  split at h
  · obtain rfl := Host.Outcome.next.inj h
    exact .refl
  · exact .head (.pending s _) (exec_effects _ _ t h)

/-- A law that every single effect keeps is kept by every step. -/
theorem step_keeps {I : State → Prop} (hI : ∀ s t, Effect s t → I s → I t) (s t : State) (h : step s = .next t)
    (hs : I s) : I t := (step_effects s t h).keep hI hs

end Sys2Proof.Machine
end

