-- ==== Sys2Proof/Proofs/CaptureLaws.lean ====
section
/-! SUPPORT. Every single effect keeps the capture law and the counter law (R1, R2, R7, R12, R15, R64). -/

namespace Sys2Proof.Machine

open Sys2Proof

/-! ### The capture store -/

/-- The part of the capture law about the store and the downlink records alone (R1, R15). -/
def CaptureUnit.storeOk (u : CaptureUnit) : Prop :=
  u.inUse ≤ Config.captureEntries ∧ (u.filling.map CaptureEntry.slot).Nodup ∧
    (∀ e ∈ u.filling, e.cells.length = 256) ∧ ∀ k, (u.record k).cells.length = 12

/-- The part of the capture law about the placeholders (R7). -/
def queueOk (setup : Option Setup) (u : CaptureUnit) : Prop :=
  match setup with
  | some p => u.placeholders ≤ p.windows.ulCount
  | none => u.queue = []

theorem captureLaw_iff (s : State) : captureLaw s ↔ s.rcu.storeOk ∧ queueOk s.su.setup s.rcu := by
  constructor
  · rintro ⟨hu, hd, hc, hr, hq⟩
    exact ⟨⟨hu, hd, hc, hr⟩, hq⟩
  · rintro ⟨⟨hu, hd, hc, hr⟩, hq⟩
    exact ⟨hu, hd, hc, hr, hq⟩

theorem CaptureUnit.reset_storeOk (a b : Nat) : CaptureUnit.storeOk { CaptureUnit.reset with hUl := a, hDl := b } :=
  ⟨Nat.zero_le _, .nil, fun _ h => (nomatch h), fun _ => rfl⟩

@[simp] theorem isCaptured_captured (e : CaptureEntry) (q : Qt) : (ParseItem.captured e q).isCaptured = true := rfl
@[simp] theorem isCaptured_placeholder (k : Nat) (q : Qt) : (ParseItem.placeholder k q).isCaptured = false := rfl

/-- The oldest entry is one of the list, and only an empty list has none (R3). -/
theorem oldestEntry_cases (now : Qt) (l : List CaptureEntry) :
    (l = [] ∧ oldestEntry now l = none) ∨ ∃ o ∈ l, oldestEntry now l = some o := by
  induction l with
  | nil => exact .inl ⟨rfl, rfl⟩
  | cons e es ih =>
    refine .inr ?_
    rcases ih with ⟨-, h⟩ | ⟨o, ho, h⟩ <;> simp only [oldestEntry, h]
    · exact ⟨e, List.mem_cons_self .., rfl⟩
    · split
      · exact ⟨o, List.mem_cons_of_mem _ ho, rfl⟩
      · exact ⟨e, List.mem_cons_self .., rfl⟩

theorem oldestEntry_mem (now : Qt) (l : List CaptureEntry) (o : CaptureEntry) (h : oldestEntry now l = some o) :
    o ∈ l := by
  rcases oldestEntry_cases now l with ⟨-, h'⟩ | ⟨o', ho', h'⟩ <;> rw [h'] at h
  · cases h
  · cases h
    exact ho'

/-- Taking the entries of a listed slot off a list shortens it. -/
theorem filter_slot_length (l : List CaptureEntry) (o : CaptureEntry) (h : o ∈ l) :
    (l.filter (fun e => decide (e.slot ≠ o.slot))).length < l.length :=
  List.length_filter_lt_length_iff_exists.mpr ⟨o, h, by simp⟩

theorem filter_slot_nodup (l : List CaptureEntry) (p : CaptureEntry → Bool) (h : (l.map CaptureEntry.slot).Nodup) :
    ((l.filter p).map CaptureEntry.slot).Nodup := h.sublist (List.filter_sublist.map _)

@[simp] theorem fillEntry_slot (w : Write) (base : Nat) (e : CaptureEntry) : (fillEntry w base e).slot = e.slot := rfl

@[simp] theorem fillEntry_cells_length (w : Write) (base : Nat) (e : CaptureEntry) :
    (fillEntry w base e).cells.length = e.cells.length := writeCells_length ..

/-- The capture of a slot changes the PENDING entries alone. -/
theorem captureSlot_frame (w : Write) (base : Nat) (now : Qt) (k : Nat) (u : CaptureUnit) :
    (captureSlot w base now k u).1 = { u with filling := (captureSlot w base now k u).1.filling } := by
  rcases captureSlot_cases w base now k u with ⟨-, h⟩ | ⟨-, ⟨-, h⟩ | ⟨-, -, h⟩ | ⟨o, -, -, h⟩⟩ <;> rw [h]

/-- A new entry joins a store whose other entries are of other slots. -/
theorem newEntry_joins (w : Write) (base : Nat) (now : Qt) (k : Nat) (l : List CaptureEntry)
    (hn : ∀ e ∈ l, e.slot ≠ k) (hd : (l.map CaptureEntry.slot).Nodup) (hc : ∀ e ∈ l, e.cells.length = 256) :
    ((l ++ [fillEntry w base (newEntry k now)]).map CaptureEntry.slot).Nodup ∧
      ∀ e ∈ l ++ [fillEntry w base (newEntry k now)], e.cells.length = 256 := by
  constructor
  · rw [List.map_append, List.nodup_append]
    refine ⟨hd, List.nodup_singleton _, ?_⟩
    intro a ha b hb
    obtain ⟨e, he, rfl⟩ := List.mem_map.mp ha
    obtain rfl := List.mem_singleton.mp hb
    exact hn e he
  · intro e he
    rcases List.mem_append.mp he with he | he
    · exact hc e he
    · obtain rfl := List.mem_singleton.mp he
      rw [fillEntry_cells_length]
      exact List.length_replicate

/-- The capture of a slot keeps the store (R1 to R3). -/
theorem captureSlot_storeOk (w : Write) (base : Nat) (now : Qt) (k : Nat) (u : CaptureUnit) (h : u.storeOk) :
    (captureSlot w base now k u).1.storeOk := by
  obtain ⟨hu, hd, hc, hr⟩ := h
  have other : u.filling.any (fun e => decide (e.slot = k)) = false → ∀ e ∈ u.filling, e.slot ≠ k := by
    simp
  rcases captureSlot_cases w base now k u with ⟨-, h⟩ | ⟨hn, ⟨hl, h⟩ | ⟨-, -, h⟩ | ⟨o, hl, ho, h⟩⟩ <;> rw [h]
  · refine ⟨?_, ?_, ?_, hr⟩
    · simpa only [CaptureUnit.inUse, List.length_map] using hu
    · have hs : ∀ e : CaptureEntry, (if e.slot = k then fillEntry w base e else e).slot = e.slot := by
        intro e
        split <;> rfl
      simpa only [List.map_map, Function.comp_def, hs] using hd
    · intro e he
      obtain ⟨x, hx, rfl⟩ := List.mem_map.mp he
      have := hc x hx
      split
      · rwa [fillEntry_cells_length]
      · exact this
  · obtain ⟨nd, nc⟩ := newEntry_joins w base now k u.filling (other hn) hd hc
    refine ⟨?_, nd, nc, hr⟩
    simp only [CaptureUnit.inUse, List.length_append, List.length_singleton, Config.captureEntries] at hl ⊢
    omega
  · exact ⟨hu, hd, hc, hr⟩
  · have hm := filter_slot_length u.filling o (oldestEntry_mem now _ o ho)
    obtain ⟨nd, nc⟩ := newEntry_joins w base now k (u.filling.filter (fun e => decide (e.slot ≠ o.slot)))
      (fun e he => other hn e (List.mem_filter.mp he).1) (filter_slot_nodup _ _ hd)
      (fun e he => hc e (List.mem_filter.mp he).1)
    refine ⟨?_, nd, nc, hr⟩
    simp only [CaptureUnit.inUse, List.length_append, List.length_singleton, Config.captureEntries] at hu ⊢
    omega

/-- The commit of a slot keeps the store, its entry going over from PENDING to QUEUED (R7). -/
theorem commitSlot_storeOk (count : Nat) (now : Qt) (k : Nat) (u : CaptureUnit) (h : u.storeOk) :
    (commitSlot count now k u).1.storeOk := by
  obtain ⟨hu, hd, hc, hr⟩ := h
  rcases commitSlot_cases count now k u with ⟨e, he, h⟩ | ⟨-, ⟨-, h⟩ | ⟨-, h⟩⟩ <;> rw [h]
  · refine ⟨?_, filter_slot_nodup _ _ hd, fun x hx => hc x (List.mem_filter.mp hx).1, hr⟩
    have hs : e.slot = k := by simpa using List.find?_some he
    have hm := filter_slot_length u.filling e (List.mem_of_find?_eq_some he)
    rw [hs] at hm
    simp only [CaptureUnit.inUse, List.filter_append, List.length_append, isCaptured_captured, List.filter_cons,
      List.filter_nil, if_true, List.length_singleton] at hu ⊢
    omega
  · refine ⟨?_, hd, hc, hr⟩
    simpa [CaptureUnit.inUse, CaptureUnit.countCommitted] using hu
  · exact ⟨hu, hd, hc, hr⟩

/-- The commit of a slot takes no placeholder more than the ring has slots (R7). -/
theorem commitSlot_placeholders (count : Nat) (now : Qt) (k : Nat) (u : CaptureUnit) (h : u.placeholders ≤ count) :
    (commitSlot count now k u).1.placeholders ≤ count := by
  rcases commitSlot_cases count now k u with ⟨e, he, h'⟩ | ⟨-, ⟨hl, h'⟩ | ⟨-, h'⟩⟩ <;> rw [h']
  · simpa [CaptureUnit.placeholders, CaptureUnit.countCommitted] using h
  · have := List.length_filter_le (fun i => !ParseItem.isCaptured i) u.queue
    simp only [CaptureUnit.placeholders, List.filter_append, List.length_append, isCaptured_placeholder,
      List.filter_cons, List.filter_nil, Bool.not_false, if_true, List.length_singleton]
    omega
  · exact h

/-! ### Downlink records -/

theorem DlRecord.written_cells_length (r : DlRecord) (w : Write) (base : Nat) (now : Qt) (h : r.cells.length = 12) :
    (r.written w base now).cells.length = 12 := by
  simp only [DlRecord.written, writeCells_length]
  split
  · exact List.length_replicate
  · exact h

@[simp] theorem DlRecord.afterDeparture_cells (r : DlRecord) (d : Decision) :
    (r.afterDeparture d).cells = r.cells := by
  unfold DlRecord.afterDeparture
  split <;> rfl

/-- A record written with twelve cells keeps the store. -/
theorem setRecord_storeOk (u : CaptureUnit) (k : Nat) (r : DlRecord) (h : u.storeOk) (hr : r.cells.length = 12) :
    (u.setRecord k r).storeOk := by
  obtain ⟨hu, hd, hc, hk⟩ := h
  refine ⟨hu, hd, hc, ?_⟩
  intro j
  rw [CaptureUnit.record_setRecord]
  split
  · exact hr
  · exact hk j

/-! ### The laws -/

/-- Every change of the Ring Capture Unit keeps the store. -/
theorem CaptureChange.keeps_storeOk {s : State} {u : CaptureUnit} (h : CaptureChange s u) (hs : s.rcu.storeOk) :
    u.storeOk := by
  obtain ⟨hu, hd, hc, hr⟩ := id hs
  cases h with
  | captured p w k => exact captureSlot_storeOk _ _ _ _ _ hs
  | committed p k => exact commitSlot_storeOk _ _ _ _ hs
  | headerWritten w base k => exact setRecord_storeOk _ _ _ hs (DlRecord.written_cells_length _ _ _ _ (hr k))
  | recordCommitted k => exact setRecord_storeOk _ _ _ hs (hr k)
  | departed k d refused =>
    exact setRecord_storeOk _ k (DlRecord.afterDeparture _ d) hs (by rw [DlRecord.afterDeparture_cells, hr k])
  | settled o i rest hq =>
    refine ⟨?_, hd, hc, hr⟩
    simp only [CaptureUnit.inUse, hq, List.filter_cons] at hu ⊢
    split at hu
    · simp only [List.length_cons] at hu
      omega
    · exact hu
  | _ => exact hs

/-- Every change of the Ring Capture Unit keeps the placeholders within the ring. -/
theorem CaptureChange.keeps_queueOk {s : State} {u : CaptureUnit} (h : CaptureChange s u) (hs : queueOk s.su.setup s.rcu) :
    queueOk s.su.setup u := by
  cases h with
  | captured p w k =>
    rw [captureSlot_frame]
    exact hs
  | committed p k hp =>
    rw [hp] at hs ⊢
    exact commitSlot_placeholders _ _ _ _ hs
  | settled o i rest hq =>
    unfold queueOk at hs ⊢
    split at hs
    · refine Nat.le_trans ?_ hs
      simp only [CaptureUnit.placeholders, hq]
      exact (List.Sublist.filter _ (List.sublist_cons_self i rest)).length_le
    · rw [hq] at hs
      cases hs
  | _ => exact hs

/-- Every effect keeps the capture law. -/
theorem Effect.keeps_captureLaw {s t : State} (h : Effect s t) (hs : captureLaw s) : captureLaw t := by
  cases h with
  | capture u hu =>
    rw [captureLaw_iff] at hs ⊢
    exact ⟨hu.keeps_storeOk hs.1, hu.keeps_queueOk hs.2⟩
  | powerOn b => exact (captureLaw_iff _).mpr ⟨CaptureUnit.reset_storeOk 0 0, rfl⟩
  | passOnly code => exact (captureLaw_iff _).mpr ⟨CaptureUnit.reset_storeOk 0 0, rfl⟩
  | reloaded p a b c l => exact (captureLaw_iff _).mpr ⟨CaptureUnit.reset_storeOk _ _, Nat.zero_le _⟩
  | _ => exact hs

/-! ### The counters (R12, R64) -/

/-- The uplink equality of R12. -/
def CaptureUnit.ulBalanced (u : CaptureUnit) : Prop :=
  u.ul.committed = u.ul.outcomeSum + BitVec.ofNat 32 u.queue.length

/-- The downlink equality of R64. -/
def DlCounters.balanced (k : DlCounters) : Prop := k.departed = k.delivered + k.halted + k.stale + k.unrostered

theorem word_succ (n : Nat) : BitVec.ofNat 32 (n + 1) = BitVec.ofNat 32 n + 1 := BitVec.ofNat_add ..

/-- Settling an outcome adds one to the sum of the outcome counters and leaves COMMITTED (R12). -/
theorem UlCounters.settle_sum (k : UlCounters) (o : ParseOutcome) :
    (k.settle o).outcomeSum = k.outcomeSum + 1 ∧ (k.settle o).committed = k.committed := by
  cases o <;> refine ⟨?_, rfl⟩ <;> simp only [UlCounters.settle, UlCounters.outcomeSum] <;> ring

theorem commitSlot_ulBalanced (count : Nat) (now : Qt) (k : Nat) (u : CaptureUnit) (h : u.ulBalanced) :
    (commitSlot count now k u).1.ulBalanced := by
  unfold CaptureUnit.ulBalanced at *
  rcases commitSlot_cases count now k u with ⟨e, -, h'⟩ | ⟨-, ⟨-, h'⟩ | ⟨-, h'⟩⟩ <;> rw [h']
  · simp only [CaptureUnit.countCommitted, h, List.length_append, List.length_singleton, word_succ,
      UlCounters.outcomeSum]
    ring
  · simp only [CaptureUnit.countCommitted, h, List.length_append, List.length_singleton, word_succ,
      UlCounters.outcomeSum]
    ring
  · simp only [CaptureUnit.countCommitted, CaptureUnit.countUncaptured, h, UlCounters.outcomeSum]
    ring

/-- Counting a departure adds one to DL_DEPARTED and to one of the four decisions (R64). -/
theorem DlCounters.count_balanced (k : DlCounters) (d : Decision) (refused : Bool) (h : k.balanced) :
    ((k.count d).countOrder refused).balanced := by
  have h1 : (k.count d).balanced := by
    unfold DlCounters.balanced at *
    cases d <;> simp only [DlCounters.count, h] <;> ring
  unfold DlCounters.countOrder
  split
  · exact h1
  · exact h1

/-- Every change of the Ring Capture Unit keeps the two equalities. -/
theorem CaptureChange.keeps_balanced {s : State} {u : CaptureUnit} (h : CaptureChange s u)
    (hs : s.rcu.ulBalanced ∧ s.rcu.dl.balanced) : u.ulBalanced ∧ u.dl.balanced := by
  obtain ⟨hul, hdl⟩ := id hs
  cases h with
  | captured p w k =>
    rw [captureSlot_frame]
    exact hs
  | committed p k =>
    refine ⟨commitSlot_ulBalanced _ _ _ _ hul, ?_⟩
    rcases commitSlot_cases p.windows.ulCount s.su.qt k s.rcu with ⟨e, -, h'⟩ | ⟨-, ⟨-, h'⟩ | ⟨-, h'⟩⟩ <;> rw [h'] <;>
      exact hdl
  | departed k d refused => exact ⟨hul, DlCounters.count_balanced _ d refused hdl⟩
  | settled o i rest hq =>
    refine ⟨?_, hdl⟩
    obtain ⟨h1, h2⟩ := UlCounters.settle_sum s.rcu.ul o
    simp only [CaptureUnit.ulBalanced, hq, List.length_cons, word_succ] at hul ⊢
    rw [h1, h2, hul]
    ring
  | cleared =>
    refine ⟨?_, rfl⟩
    simp [CaptureUnit.ulBalanced, clearedUl, UlCounters.outcomeSum, UlCounters.zero]
  | _ => exact hs

/-- Every effect keeps the counter law. -/
theorem Effect.keeps_counterLaw {s t : State} (h : Effect s t) (hs : counterLaw s) : counterLaw t := by
  cases h with
  | capture u hu => exact hu.keeps_balanced hs
  | powerOn b => exact ⟨rfl, rfl⟩
  | passOnly code => exact ⟨rfl, rfl⟩
  | reloaded p a b c l => exact ⟨rfl, rfl⟩
  | _ => exact hs

/-- Settles O52: every step is a sequence of effects, and each effect keeps both laws. -/
theorem captureAndCounterLawsKept : Obligations.CaptureAndCounterLawsKept := by
  intro s t h
  exact ⟨step_keeps (fun _ _ => Effect.keeps_captureLaw) s t h, step_keeps (fun _ _ => Effect.keeps_counterLaw) s t h⟩

end Sys2Proof.Machine
end

