-- ==== Sys2Proof/Proofs/Bounds.lean ====
section
/-! SUPPORT. Every single effect keeps the bounds of the queues, counts and positions and the canonical form of the
numbered tables (R5, R17, R105, R129, R153, R154, R157, R163, R165, R166). -/

namespace Sys2Proof.Machine

open Sys2Proof

/-! ### The setups held -/

/-- No check of a list fails where no reason code is given. -/
theorem firstFailing_none (l : List (Bool × Byte)) (h : firstFailing l = none) : ∀ x ∈ l, x.1 = false := by
  induction l with
  | nil => exact fun _ hx => nomatch hx
  | cons a l ih =>
    obtain ⟨fails, code⟩ := a
    cases fails with
    | true => cases h
    | false =>
      intro x hx
      rcases List.mem_cons.mp hx with rfl | hx
      · rfl
      · exact ih h x hx

/-- The setup in force, or the one whose index words are being read. -/
def State.holds (s : State) (p : Setup) : Prop := s.su.setup = some p ∨ s.newSetup = some p

/-- The setup whose index words a load reads. -/
def LoadPhase.setup : LoadPhase → Option Setup
  | .words p _ _ _ => some p
  | .block => none

theorem newSetup_of_load (s : State) (l : Load) (hl : s.su.load = some l) : s.newSetup = l.phase.setup := by
  simp only [State.newSetup, hl]
  cases l.phase <;> rfl

/-- A setup held after an effect was held before, or is that of a copy just validated (R169). -/
theorem Effect.holds {s t : State} (h : Effect s t) (p : Setup) (ht : t.holds p) :
    s.holds p ∨ ∃ copy, validateSetup s.su.sbase copy = none ∧ p = setupOf copy := by
  cases h with
  | load l l' hl hc =>
    rcases ht with ht | ht
    · exact .inl (.inl ht)
    · rw [newSetup_of_load _ l' rfl] at ht
      cases hc with
      | read copy n => exact .inl (.inr (by rw [newSetup_of_load s l hl]; exact ht))
      | validated copy n hv => exact .inr ⟨copy, hv, (Option.some.inj ht).symm⟩
      | word q a b c a' b' c' hw => exact .inl (.inr (by rw [newSetup_of_load s l hl, hw]; exact ht))
  | powerOn b => rcases ht with ht | ht <;> cases ht
  | passOnly code => rcases ht with ht | ht <;> cases ht
  | loadStarted keep =>
    rcases ht with ht | ht
    · exact .inl (.inl ht)
    · cases ht
  | reloaded q a b c l x y z hl hw =>
    rcases ht with ht | ht
    · refine .inl (.inr ?_)
      rw [newSetup_of_load s l hl, hw]
      exact ht
    · cases ht
  | _ => exact .inl ht

/-- A validated copy makes rings that hold at least one slot (R163). -/
theorem validated_ringsOk (sbase : BitVec 8) (copy : List Byte) (h : validateSetup sbase copy = none) :
    (setupOf copy).windows.ringsOk := by
  have hb : windowRangeBad copy = false := firstFailing_none _ h (windowRangeBad copy, 0x05) (by simp)
  simp only [windowRangeBad, outside, Bool.or_eq_false_iff, decide_eq_false_iff_not] at hb
  obtain ⟨⟨⟨⟨hu, -⟩, hd, -⟩, hr, -⟩, -⟩ := hb
  exact ⟨by simp only [setupOf, windowsOf]; omega, by simp only [setupOf, windowsOf]; omega,
    by simp only [setupOf, windowsOf]; omega⟩

/-! ### The Report Unit's queue -/

/-- At most 32 records queued and at most 65535 drops pending (R154, R156). -/
def ReportUnit.bounded (u : ReportUnit) : Prop :=
  u.queue.length ≤ Config.reportQueueDepth ∧ u.pendingDrops ≤ 65535

theorem ReportUnit.drop_pendingDrops (u : ReportUnit) (n : Nat) (h : u.pendingDrops ≤ 65535) :
    (u.drop n).pendingDrops ≤ 65535 := by
  unfold ReportUnit.drop
  split
  · exact h
  · exact Nat.min_le_left ..

theorem takeHead_pendingDrops (free : Nat) (rs : List Record) (u : ReportUnit) (h : u.pendingDrops ≤ 65535) :
    (takeHead free rs u).1.pendingDrops ≤ 65535 := by
  induction rs generalizing u with
  | nil => exact h
  | cons r rs ih =>
    simp only [takeHead]
    split
    · exact h
    · exact ih _ (u.drop_pendingDrops 1 h)

theorem ReportChange.keeps_bounded {s : State} {u : ReportUnit} (h : ReportChange s u) (hs : s.rpu.bounded) :
    u.bounded := by
  obtain ⟨hq, hd⟩ := id hs
  cases h with
  | handedOver rs => exact s.rpu.handOverAll_bounds rs hq hd
  | judged p => exact ⟨Nat.le_trans (takeHead_frame ..).2 hq, takeHead_pendingDrops _ _ _ hd⟩
  | taken r => exact ⟨hq, Nat.zero_le _⟩
  | failed => exact ⟨Nat.zero_le _, s.rpu.drop_pendingDrops _ hd⟩
  | _ => exact hs

/-- P and C lie below a ring size. -/
def ReportUnit.within (u : ReportUnit) (count : Nat) : Prop := u.producer < count ∧ u.consumer < count

theorem ReportUnit.fail_within (u : ReportUnit) (count : Nat) (h : u.within count) : u.fail.within count := by
  unfold ReportUnit.fail ReportUnit.drop
  split <;> exact h

/-- Every change of the Report Unit keeps P and C in the ring of the setup in force. -/
theorem ReportChange.keeps_within {s : State} {u : ReportUnit} (h : ReportChange s u) (p : Setup)
    (hp : s.su.setup = some p) (hr : 0 < p.windows.repCount) (hs : s.rpu.within p.windows.repCount) :
    u.within p.windows.repCount := by
  cases h with
  | handedOver rs => simpa only [ReportUnit.within, ReportUnit.handOverAll_producer, ReportUnit.handOverAll_consumer]
  | judged q =>
    rw [(takeHead_frame ..).1]
    exact hs
  | advanced q hq =>
    obtain rfl := Option.some.inj (hp.symm.trans hq)
    exact ⟨Nat.mod_lt _ hr, hs.2⟩
  | failed => exact s.rpu.fail_within _ hs
  | consumed q v hq hv =>
    obtain rfl := Option.some.inj (hp.symm.trans hq)
    exact ⟨hs.1, hv⟩
  | _ => exact hs

/-! ### The Path Unit's queues -/

/-- Injected requests of a list of issued ones. -/
def injectedIn (is : List Issued) : Nat := (is.filter Issued.isInjected).length

theorem injectionCount_eq (u : PathUnit) :
    u.injectionCount = u.ready.length + injectedIn u.issuedRead + injectedIn u.issuedWrite := rfl

@[simp] theorem injectedIn_append_one (is : List Issued) (i : Issued) :
    injectedIn (is ++ [i]) = injectedIn is + if i.isInjected then 1 else 0 := by
  cases h : i.isInjected <;> simp [injectedIn, h]

/-- At most eight injections and through counts of at most 16 (R165, R166). -/
def PathUnit.bounded (u : PathUnit) : Prop :=
  u.injectionCount ≤ Config.injectionDepth ∧ u.throughRead ≤ Config.throughLimit ∧
    u.throughWrite ≤ Config.throughLimit

theorem takeIssued_sublist (id : AxiId) (is rest : List Issued) (i : Issued) (h : takeIssued id is = some (i, rest)) :
    rest.Sublist is := by
  induction is generalizing i rest with
  | nil => cases h
  | cons j js ih =>
    simp only [takeIssued] at h
    split at h
    · cases h
      exact List.sublist_cons_self ..
    · split at h
      · rename_i k ks hk
        cases h
        exact (ih _ _ hk).cons_cons _
      · cases h

theorem dropIssued_sublist (id : AxiId) (is : List Issued) : (dropIssued id is).Sublist is := by
  unfold dropIssued
  split
  · rename_i i rest h
    exact takeIssued_sublist id is rest i h
  · exact .refl _

theorem injectedIn_mono {is js : List Issued} (h : is.Sublist js) : injectedIn is ≤ injectedIn js :=
  (h.filter _).length_le

theorem firstInjection_length (ch : Channel) (xs ys : List Injected) (x : Injected)
    (h : firstInjection ch xs = some (x, ys)) : ys.length + 1 = xs.length := by
  induction xs generalizing x ys with
  | nil => cases h
  | cons a xs ih =>
    simp only [firstInjection] at h
    split at h
    · cases h
      rfl
    · split at h
      · rename_i b bs hb
        cases h
        simp only [List.length_cons, ih _ _ hb]
      · cases h

@[simp] theorem Issued.orphan_isInjected (which : InjBody → Bool) (i : Issued) :
    (i.orphan which).isInjected = i.isInjected := by
  cases i <;> rfl

/-- Transactions that no longer act keep their places in the injection queue (R160, R165). -/
theorem orphan_bounded (u : PathUnit) (which : InjBody → Bool) (h : u.bounded) : (u.orphan which).bounded := by
  have hi : ∀ is : List Issued, injectedIn (is.map (Issued.orphan which)) = injectedIn is := by
    intro is
    simp only [injectedIn, List.filter_map, List.length_map, Function.comp_def, Issued.orphan_isInjected]
  obtain ⟨hc, hr, hw⟩ := h
  refine ⟨?_, hr, hw⟩
  simpa only [injectionCount_eq, PathUnit.orphan, List.length_map, hi] using hc

/-- A grant moves an injection from the queue to the issued ones, or counts a forwarded request to at most 16 (R166). -/
theorem grant_bounded (ch : Channel) (u : PathUnit) (h : u.bounded) : (grant ch u).bounded := by
  obtain ⟨hc, hr, hw⟩ := id h
  have forwarded : ∀ f rest t, t ≤ Config.throughLimit → (grantForwarded ch f rest t u).bounded := by
    intro f rest t ht
    cases ch
    · exact ⟨by simpa [grantForwarded, PathUnit.issue, injectionCount_eq, Issued.isInjected] using hc, ht, hw⟩
    · exact ⟨by simpa [grantForwarded, PathUnit.issue, injectionCount_eq, Issued.isInjected] using hc, hr, ht⟩
  have injected : ∀ x rest, firstInjection ch u.ready = some (x, rest) → (grantInjected ch x rest u).bounded := by
    intro x rest hx
    have hl := firstInjection_length ch _ _ _ hx
    have hn : (grantInjected ch x rest u).injectionCount = u.injectionCount := by
      cases ch <;> simp only [grantInjected, PathUnit.issue, injectionCount_eq, injectedIn_append_one,
        Issued.isInjected, if_true] <;> omega
    cases ch
    · exact ⟨hn ▸ hc, Nat.zero_le _, hw⟩
    · exact ⟨hn ▸ hc, hr, Nat.zero_le _⟩
  unfold grant
  split
  · exact h
  · exact forwarded _ _ _ (Nat.zero_le _)
  · rename_i x rest hx _
    exact injected x rest hx
  · rename_i x rest f fs hx _
    split
    · rename_i ht
      exact forwarded _ _ _ ht
    · exact injected x rest hx

theorem enqueue_bounded (src : Source) (s : State) (h : s.pu.bounded) : (enqueue src s).pu.bounded := by
  obtain ⟨hc, hr, hw⟩ := id h
  unfold enqueue
  split
  · exact h
  · split
    · rename_i q rest _ hl
      refine ⟨?_, ?_, ?_⟩
      · cases src <;> simp only [PathUnit.injectionCount, PathUnit.setWaiting, List.length_append,
          List.length_singleton] at hl ⊢ <;> omega
      · cases src <;> exact hr
      · cases src <;> exact hw
    · exact h

/-- A Path Unit whose lists of issued requests are parts of another's is bounded with it. -/
theorem PathUnit.bounded_of_sublists {u v : PathUnit} (h : u.bounded) (hready : v.ready = u.ready)
    (hread : v.issuedRead.Sublist u.issuedRead) (hwrite : v.issuedWrite.Sublist u.issuedWrite)
    (ht : v.throughRead = u.throughRead ∧ v.throughWrite = u.throughWrite) : v.bounded := by
  obtain ⟨hc, hr, hw⟩ := h
  have h1 := injectedIn_mono hread
  have h2 := injectedIn_mono hwrite
  refine ⟨?_, ht.1 ▸ hr, ht.2 ▸ hw⟩
  rw [injectionCount_eq] at hc ⊢
  rw [hready]
  omega

theorem PathChange.keeps_bounded {s : State} {u : PathUnit} (h : PathChange s u) (hs : s.pu.bounded) : u.bounded := by
  cases h with
  | returned w => exact PathUnit.bounded_of_sublists hs rfl (.refl _) (dropIssued_sublist ..) ⟨rfl, rfl⟩
  | beat b o data =>
    refine PathUnit.bounded_of_sublists hs rfl ?_ (.refl _) ⟨rfl, rfl⟩
    simp only [endBeat]
    split
    · exact dropIssued_sublist ..
    · exact .refl _
  | accepted ch f =>
    unfold acceptRequest
    split
    · exact hs
    · cases ch <;> exact hs
  | enqueued src => exact enqueue_bounded src s hs
  | granted ch => exact grant_bounded ch _ hs
  | matched ch id q s1 hq =>
    obtain ⟨tx, rest, -, hc⟩ := takeInjected_cases s s1 ch id q hq
    cases ch <;> rw [hc.2]
    · exact PathUnit.bounded_of_sublists hs rfl (takeIssued_sublist _ _ _ _ hc.1) (.refl _) ⟨rfl, rfl⟩
    · exact PathUnit.bounded_of_sublists hs rfl (.refl _) (takeIssued_sublist _ _ _ _ hc.1) ⟨rfl, rfl⟩
  | _ => exact hs

/-! ### Admission by placement -/

theorem admitReport_known (p : Setup) (r : ReeferReport) (now : Qt) (u : ReeferUnit) (i : Nat)
    (h : placement u r.container = .known i) : admitReport p r now u =
      ((admitAt p r i (u.entry i) none (occupantOf u r) now u).1,
        (admitAt p r i (u.entry i) none (occupantOf u r) now u).2, some i) := by
  simp only [admitReport, h]

theorem admitReport_free (p : Setup) (r : ReeferReport) (now : Qt) (u : ReeferUnit) (i : Nat)
    (h : placement u r.container = .free i) : admitReport p r now u =
      ((admitAt p r i none none (occupantOf u r) now u).1,
        (admitAt p r i none none (occupantOf u r) now u).2, some i) := by
  simp only [admitReport, h]

theorem admitReport_reuse (p : Setup) (r : ReeferReport) (now : Qt) (u : ReeferUnit) (i : Nat)
    (h : placement u r.container = .reuse i) : admitReport p r now u =
      ((admitAt p r i none (u.entry i) (occupantOf u r) now { u with departed := u.departed.drop 1 }).1,
        (admitAt p r i none (u.entry i) (occupantOf u r) now { u with departed := u.departed.drop 1 }).2,
        some i) := by
  simp only [admitReport, h]

theorem admitReport_refused (p : Setup) (r : ReeferReport) (now : Qt) (u : ReeferUnit)
    (h : placement u r.container = .refused) : admitReport p r now u =
      (u, [recTableFull r.container r.plug r.cls (occupantOf u r) now], none) := by
  simp only [admitReport, h]

/-- An admission writes the occupant's entry and the index admitted into, and the departed list (R76, R77). -/
theorem admitAt_unit (p : Setup) (r : ReeferReport) (i : Nat) (before old : Option Reefer) (occ : Option (Nat × Reefer))
    (now : Qt) (u : ReeferUnit) : ∃ e ds, (admitAt p r i before old occ now u).1 =
      { (replaceOccupant r i now occ u).1.setEntry i (some e) with departed := ds } := ⟨_, _, rfl⟩

theorem replaceOccupant_scanPos (r : ReeferReport) (i : Nat) (now : Qt) (occ : Option (Nat × Reefer))
    (u : ReeferUnit) : (replaceOccupant r i now occ u).1.scanPos = u.scanPos := by
  unfold replaceOccupant
  split <;> rfl

theorem replaceOccupant_wf (r : ReeferReport) (i : Nat) (now : Qt) (occ : Option (Nat × Reefer)) (u : ReeferUnit)
    (h : u.table.wf none = true) : (replaceOccupant r i now occ u).1.table.wf none = true := by
  unfold replaceOccupant
  split
  · exact h
  · exact ReeferUnit.setEntry_wf u _ _ h

theorem admitAt_scanPos (p : Setup) (r : ReeferReport) (i : Nat) (before old : Option Reefer)
    (occ : Option (Nat × Reefer)) (now : Qt) (u : ReeferUnit) :
    (admitAt p r i before old occ now u).1.scanPos = u.scanPos := by
  obtain ⟨e, ds, h⟩ := admitAt_unit p r i before old occ now u
  rw [h, ← replaceOccupant_scanPos r i now occ u]
  rfl

theorem admitAt_wf (p : Setup) (r : ReeferReport) (i : Nat) (before old : Option Reefer)
    (occ : Option (Nat × Reefer)) (now : Qt) (u : ReeferUnit) (hu : u.table.wf none = true) :
    (admitAt p r i before old occ now u).1.table.wf none = true := by
  obtain ⟨e, ds, h⟩ := admitAt_unit p r i before old occ now u
  rw [h]
  exact ReeferUnit.setEntry_wf _ _ _ (replaceOccupant_wf r i now occ u hu)

theorem admitReport_scanPos (p : Setup) (r : ReeferReport) (q : Qt) (u : ReeferUnit) :
    (admitReport p r q u).1.scanPos = u.scanPos := by
  cases h : placement u r.container with
  | known i => rw [admitReport_known p r q u i h, admitAt_scanPos]
  | free i => rw [admitReport_free p r q u i h, admitAt_scanPos]
  | reuse i => rw [admitReport_reuse p r q u i h, admitAt_scanPos]
  | refused => rw [admitReport_refused p r q u h]

theorem admitReport_wf (p : Setup) (r : ReeferReport) (q : Qt) (u : ReeferUnit) (hu : u.table.wf none = true) :
    (admitReport p r q u).1.table.wf none = true := by
  cases h : placement u r.container with
  | known i =>
    rw [admitReport_known p r q u i h]
    exact admitAt_wf p r i (u.entry i) none (occupantOf u r) q u hu
  | free i =>
    rw [admitReport_free p r q u i h]
    exact admitAt_wf p r i none none (occupantOf u r) q u hu
  | reuse i =>
    rw [admitReport_reuse p r q u i h]
    exact admitAt_wf p r i none (u.entry i) (occupantOf u r) q { u with departed := u.departed.drop 1 } hu
  | refused =>
    rw [admitReport_refused p r q u h]
    exact hu

/-! ### Positions of the rings and scans -/

/-- H_UL and H_DL lie in the rings of a setup (R5, R17). -/
def CaptureUnit.within (u : CaptureUnit) (p : Setup) : Prop := u.hUl < p.windows.ulCount ∧ u.hDl < p.windows.dlCount

theorem commitSlot_frame (count : Nat) (now : Qt) (k : Nat) (u : CaptureUnit) :
    (commitSlot count now k u).1 = { u with
      filling := (commitSlot count now k u).1.filling, queue := (commitSlot count now k u).1.queue,
      ul := (commitSlot count now k u).1.ul } := by
  rcases commitSlot_cases count now k u with ⟨e, -, h⟩ | ⟨-, ⟨-, h⟩ | ⟨-, h⟩⟩ <;> rw [h] <;> rfl

theorem CaptureChange.keeps_within {s : State} {u : CaptureUnit} (h : CaptureChange s u) (p : Setup)
    (hp : s.su.setup = some p) (hs : s.rcu.within p) : u.within p := by
  cases h with
  | captured q w k =>
    rw [captureSlot_frame]
    exact hs
  | committed q k =>
    rw [commitSlot_frame]
    exact hs
  | ulIndex q v hq hv =>
    obtain rfl := Option.some.inj (hp.symm.trans hq)
    exact ⟨hv, hs.2⟩
  | dlIndex q v hq hv =>
    obtain rfl := Option.some.inj (hp.symm.trans hq)
    exact ⟨hs.1, hv⟩
  | _ => exact hs

theorem positionRead_lt (v : Word) (count : Nat) (h : 0 < count) : positionRead v count < count := by
  unfold positionRead
  split
  · assumption
  · exact h

theorem ReeferChange.keeps_scanPos {s : State} {u : ReeferUnit} (h : ReeferChange s u)
    (hs : s.rfu.scanPos < Config.reeferCount) : u.scanPos < Config.reeferCount := by
  cases h with
  | admitted p r q =>
    rw [admitReport_scanPos]
    exact hs
  | scanned => exact Nat.mod_lt _ (by decide)
  | _ => exact hs

theorem CoverageChange.keeps_tick {s : State} {u : CoverageUnit} (h : CoverageChange s u) (hs : s.cvu.tick < 100) :
    u.tick < 100 := by
  cases h with
  | ticked =>
    simp only [nextTick]
    split
    · decide
    · simp only
      omega
  | _ => exact hs

@[simp] theorem reloadReefers_scanPos (p : Setup) (keep : Bool) (now : Qt) (u : ReeferUnit) :
    (reloadReefers p keep now u).scanPos = u.scanPos := by
  unfold reloadReefers
  split <;> rfl

theorem keepSegments_tick (p : Setup) (ns : List Nat) (u : CoverageUnit) : (keepSegments p ns u).tick = u.tick := by
  induction ns generalizing u with
  | nil => rfl
  | cons n ns ih => rw [keepSegments, ih, CoverageUnit.setSegment_tick]

theorem reloadCoverage_tick (p : Setup) (keep : Bool) (u : CoverageUnit) (h : u.tick < 100) :
    (reloadCoverage p keep u).tick < 100 := by
  unfold reloadCoverage
  split
  · rwa [keepSegments_tick]
  · exact Nat.zero_lt_succ _

/-! ### The bounds -/

/-- The positions lie in the rings of the setup in force. -/
def positionsOk (s : State) : Prop :=
  ∀ p, s.su.setup = some p → s.rpu.within p.windows.repCount ∧ s.rcu.within p

/-- The bounds by unit. -/
theorem boundsLaw_iff (s : State) : boundsLaw s ↔
    s.rpu.bounded ∧ s.pu.bounded ∧ s.rfu.scanPos < Config.reeferCount ∧ s.cvu.tick < 100 ∧
      (∀ p, s.holds p → p.windows.ringsOk) ∧ positionsOk s := by
  constructor
  · rintro ⟨hq, hi, hr, hw, hd, hs, ht, ho, hp⟩
    refine ⟨⟨hq, hd⟩, ⟨hi, hr, hw⟩, hs, ht, ho, ?_⟩
    intro p h
    obtain ⟨h1, h2, h3, h4⟩ := hp p h
    exact ⟨⟨h1, h2⟩, h3, h4⟩
  · rintro ⟨⟨hq, hd⟩, ⟨hi, hr, hw⟩, hs, ht, ho, hp⟩
    refine ⟨hq, hi, hr, hw, hd, hs, ht, ho, ?_⟩
    intro p h
    obtain ⟨⟨h1, h2⟩, h3, h4⟩ := hp p h
    exact ⟨h1, h2, h3, h4⟩

theorem Effect.keeps_pathBounded {s t : State} (h : Effect s t) (hs : s.pu.bounded) : t.pu.bounded := by
  cases h with
  | path u hu => exact hu.keeps_bounded hs
  | powerOn b => exact ⟨Nat.zero_le _, Nat.zero_le _, Nat.zero_le _⟩
  | reloaded p a b c l => exact orphan_bounded s.pu _ hs
  | passOnly code => exact orphan_bounded s.pu _ hs
  | _ => exact hs

theorem Effect.keeps_reportBounded {s t : State} (h : Effect s t) (hs : s.rpu.bounded) : t.rpu.bounded := by
  cases h with
  | reports u hu => exact hu.keeps_bounded hs
  | powerOn b => exact ⟨Nat.zero_le _, Nat.zero_le _⟩
  | reloaded p a b c l => exact ⟨Nat.zero_le _, Nat.zero_le _⟩
  | passOnly code => exact ⟨Nat.zero_le _, Nat.zero_le _⟩
  | _ => exact hs

theorem Effect.keeps_scanPos {s t : State} (h : Effect s t) (hs : s.rfu.scanPos < Config.reeferCount) :
    t.rfu.scanPos < Config.reeferCount := by
  cases h with
  | reefers u hu => exact hu.keeps_scanPos hs
  | powerOn b => exact Nat.zero_lt_succ _
  | reloaded p a b c l =>
    rw [reloadUnits_rfu, reloadReefers_scanPos]
    exact hs
  | _ => exact hs

theorem Effect.keeps_tick {s t : State} (h : Effect s t) (hs : s.cvu.tick < 100) : t.cvu.tick < 100 := by
  cases h with
  | coverage u hu => exact hu.keeps_tick hs
  | powerOn b => exact Nat.zero_lt_succ _
  | reloaded p a b c l => exact reloadCoverage_tick p _ _ hs
  | _ => exact hs

/-- Positions stay in the rings: indices are taken below the ring sizes, and a completion reads them so (R22, R160). -/
theorem Effect.keeps_positions {s t : State} (h : Effect s t) (hr : ∀ p, t.holds p → p.windows.ringsOk)
    (hs : positionsOk s) : positionsOk t := by
  intro p hp
  obtain ⟨hul, hdl, hrep⟩ := hr p (.inl hp)
  cases h with
  | reports u hu => exact ⟨hu.keeps_within p hp hrep (hs p hp).1, (hs p hp).2⟩
  | capture u hu => exact ⟨(hs p hp).1, hu.keeps_within p hp (hs p hp).2⟩
  | powerOn b => cases hp
  | passOnly code => cases hp
  | reloaded q a b c l =>
    obtain rfl := Option.some.inj hp
    exact ⟨⟨positionRead_lt _ _ hrep, positionRead_lt _ _ hrep⟩, positionRead_lt _ _ hul, positionRead_lt _ _ hdl⟩
  | _ => exact hs p hp

/-- Every effect keeps the bounds. -/
theorem Effect.keeps_boundsLaw {s t : State} (h : Effect s t) (hs : boundsLaw s) : boundsLaw t := by
  rw [boundsLaw_iff] at hs ⊢
  obtain ⟨hq, hi, hp, ht, ho, hw⟩ := hs
  have ho' : ∀ p, t.holds p → p.windows.ringsOk := by
    intro p hp
    rcases h.holds p hp with hp | ⟨copy, hv, rfl⟩
    · exact ho p hp
    · exact validated_ringsOk _ copy hv
  exact ⟨h.keeps_reportBounded hq, h.keeps_pathBounded hi, h.keeps_scanPos hp, h.keeps_tick ht, ho',
    h.keeps_positions ho' hw⟩

/-! ### The canonical form of the tables -/

theorem CaptureChange.keeps_wf {s : State} {u : CaptureUnit} (h : CaptureChange s u)
    (hs : s.rcu.records.wf DlRecord.blank = true) : u.records.wf DlRecord.blank = true := by
  cases h with
  | captured p w k =>
    rw [captureSlot_frame]
    exact hs
  | committed p k =>
    rw [commitSlot_frame]
    exact hs
  | headerWritten w base k => exact CaptureUnit.setRecord_wf _ _ _ hs
  | recordCommitted k => exact CaptureUnit.setRecord_wf _ _ _ hs
  | departed k d refused => exact CaptureUnit.setRecord_wf s.rcu k _ hs
  | _ => exact hs

theorem ReeferChange.keeps_wf {s : State} {u : ReeferUnit} (h : ReeferChange s u)
    (hs : s.rfu.table.wf none = true) : u.table.wf none = true := by
  cases h with
  | admitted p r q => exact admitReport_wf p r q _ hs
  | scanned => exact hs
  | forgotten i e => exact ReeferUnit.setEntry_wf s.rfu i none hs
  | _ => exact ReeferUnit.setEntry_wf _ _ _ hs

theorem CoverageChange.keeps_wf {s : State} {u : CoverageUnit} (h : CoverageChange s u)
    (hs : s.cvu.segments.wf Segment.blank = true) : u.segments.wf Segment.blank = true := by
  cases h with
  | segment g x => exact CoverageUnit.setSegment_wf _ _ _ hs
  | cleared p arg => exact Table.modifyAll_wf _ _ _ _ hs
  | _ => exact hs

theorem keepSegments_wf (p : Setup) (ns : List Nat) (u : CoverageUnit) (h : u.segments.wf Segment.blank = true) :
    (keepSegments p ns u).segments.wf Segment.blank = true := by
  induction ns generalizing u with
  | nil => exact h
  | cons n ns ih => exact ih _ (CoverageUnit.setSegment_wf _ _ _ h)

theorem reloadCoverage_wf (p : Setup) (keep : Bool) (u : CoverageUnit) (h : u.segments.wf Segment.blank = true) :
    (reloadCoverage p keep u).segments.wf Segment.blank = true := by
  unfold reloadCoverage
  split
  · exact keepSegments_wf p _ u h
  · exact Table.empty_wf _

theorem reloadReefers_wf (p : Setup) (keep : Bool) (now : Qt) (u : ReeferUnit) (h : u.table.wf none = true) :
    (reloadReefers p keep now u).table.wf none = true := by
  unfold reloadReefers
  split
  · exact Table.modifyAll_wf _ _ _ _ h
  · exact Table.empty_wf _

/-- Every effect keeps the canonical form of the four tables. -/
theorem Effect.keeps_tableLaw {s t : State} (h : Effect s t) (hs : tableLaw s) : tableLaw t := by
  obtain ⟨hc, hr, hg, he⟩ := id hs
  cases h with
  | capture u hu => exact ⟨hc, hu.keeps_wf hr, hg, he⟩
  | crane n c => exact ⟨CraneUnit.setCrane_wf _ _ _ hc, hr, hg, he⟩
  | cranesCleared => exact ⟨Table.modifyAll_wf _ _ _ _ hc, hr, hg, he⟩
  | reefers u hu => exact ⟨hc, hr, hg, hu.keeps_wf he⟩
  | coverage u hu => exact ⟨hc, hr, hu.keeps_wf hg, he⟩
  | powerOn b => exact ⟨Table.empty_wf _, Table.empty_wf _, Table.empty_wf _, Table.empty_wf _⟩
  | reloaded p a b c l =>
    exact ⟨Table.empty_wf _, Table.empty_wf _, reloadCoverage_wf p _ _ hg, reloadReefers_wf p _ _ _ he⟩
  | passOnly code => exact ⟨Table.empty_wf _, Table.empty_wf _, hg, he⟩
  | _ => exact hs

/-- Settles O58: every step is a sequence of effects, and each effect keeps the bounds and the canonical tables. -/
theorem boundsKept : Obligations.BoundsKept := by
  intro s t h
  exact ⟨step_keeps (fun _ _ => Effect.keeps_boundsLaw) s t h, step_keeps (fun _ _ => Effect.keeps_tableLaw) s t h⟩

end Sys2Proof.Machine
end

