-- ==== Sys2Proof/Proofs/WindowWrites.lean ====
section
/-! SUPPORT. A completed write that reaches one watched window alone is taken by that window's rule and by nothing else
(R164); the index words refused (R6, R18, R157). -/

namespace Sys2Proof.Machine

open Sys2Proof

/-! ### Writes of one window -/

theorem watchedBy.misses {s : State} {p : Setup} {role : Role} {x : WatchedWindow} {w : Write}
    (h : watchedBy s p role x w) (y : WatchedWindow) (hy : y ≠ x) : y.reached s p.windows w = false := by
  obtain ⟨hp, -, -, -, -, ho⟩ := h
  exact ho p hp y hy

theorem countViewWrite_outside (p : Setup) (w : Write) (s : State) (hp : s.su.setup = some p)
    (h : touchesView w p.windows = false) : countViewWrite w s = s := by
  simp only [countViewWrite, hp, h, Bool.false_eq_true, if_false]

@[simp] theorem writeUlSlots_su (p : Setup) (w : Write) (s : State) : (writeUlSlots p w s).su = s.su := rfl

@[simp] theorem writeUlIndex_su (p : Setup) (w : Write) (s : State) : (writeUlIndex p w s).su = s.su := by
  unfold writeUlIndex ulIndexWritten
  dsimp only
  split
  · split
    · rfl
    · split <;> rfl
  · rfl

@[simp] theorem writeConsumer_su (p : Setup) (w : Write) (s : State) : (writeConsumer p w s).su = s.su := by
  unfold writeConsumer consumerWritten
  dsimp only
  split
  · split
    · rfl
    · split <;> rfl
  · rfl

/-- No window's rule changes the Setup Unit. -/
theorem writeWindows_su (role : Role) (w : Write) (s : State) : (writeWindows role w s).su = s.su := by
  unfold writeWindows
  split
  · rfl
  · split
    · cases role with
      | radio => simp only [writeRadio, writeUlIndex_su, writeUlSlots_su]
      | app => simp only [writeApp, writeConsumer_su, writeDlIndex_su, writeDlSlots_su]
      | other => rfl
    · rfl

theorem writeWindows_radio (p : Setup) (w : Write) (s : State) (hp : s.su.setup = some p)
    (hr : s.su.runState = .running) : writeWindows .radio w s = writeRadio p w s := by
  simp only [writeWindows, hp, hr, if_true]

theorem writeWindows_app (p : Setup) (w : Write) (s : State) (hp : s.su.setup = some p)
    (hr : s.su.runState = .running) : writeWindows .app w s = writeApp p w s := by
  simp only [writeWindows, hp, hr, if_true]

/-- A completed write that reaches neither a view nor the command word is returned and taken by the windows. -/
theorem completeWrite_watched {s : State} {p : Setup} {role : Role} {x : WatchedWindow} {w : Write}
    (h : watchedBy s p role x w) (hv : x ≠ .views) (hc : x ≠ .command) :
    completeWrite w s = writeWindows role w (returnWrite w s) := by
  obtain ⟨hp, hr, hok, hrole, -, -⟩ := id h
  have h1 : countViewWrite w (returnWrite w s) = returnWrite w s :=
    countViewWrite_outside p w _ hp (h.misses .views (Ne.symm hv))
  have h2 : coversWhole w (commandWordAddr (writeWindows role w (returnWrite w s))) 4 = false := by
    simp only [commandWordAddr, setupBase, writeWindows_su, returnWrite_su]
    exact h.misses .command (Ne.symm hc)
  rcases completeWrite_cases w s with ⟨hn, -⟩ | ⟨role', hrole', ⟨hf, -⟩ | ⟨-, h3⟩⟩
  · rw [hn] at hrole
    cases hrole
  · rw [hok] at hf
    cases hf
  · obtain rfl := Option.some.inj (hrole.symm.trans hrole')
    rw [h3, h1, writeCommand_outside _ _ _ h2]

theorem watchedBy.radio {s : State} {p : Setup} {x : WatchedWindow} {w : Write} (h : watchedBy s p .radio x w)
    (hv : x ≠ .views) (hc : x ≠ .command) : completeWrite w s = writeRadio p w (returnWrite w s) := by
  rw [completeWrite_watched h hv hc]
  exact writeWindows_radio p w _ h.1 h.2.1

theorem watchedBy.app {s : State} {p : Setup} {x : WatchedWindow} {w : Write} (h : watchedBy s p .app x w)
    (hv : x ≠ .views) (hc : x ≠ .command) : completeWrite w s = writeApp p w (returnWrite w s) := by
  rw [completeWrite_watched h hv hc]
  exact writeWindows_app p w _ h.1 h.2.1

theorem windowWrite_reached (covers : Windows → Bool) (p : Setup) (w : Write) (s : State) (hp : s.su.setup = some p)
    (h : covers p.windows = true) : windowWrite covers w s = completeWrite w s := by
  simp only [windowWrite, hp, h, if_true]

/-- UL_SLOT_WRITE of the uplink slots alone (R2). -/
theorem exec_ulSlotWrite {s : State} {p : Setup} {w : Write} (h : watchedBy s p .radio .ulSlots w) :
    exec (.ulSlotWrite w) s = .next (writeUlSlots p w (returnWrite w s)) := by
  have hi : touches w p.windows.ulProducer 4 = false := h.misses .ulProducer (by decide)
  obtain ⟨hp, -, -, -, hx, -⟩ := id h
  have h1 : windowWrite (fun t => touches w t.ulSlots (t.ulCount * Config.slotBytes)) w s = completeWrite w s :=
    windowWrite_reached _ p w s hp hx
  simp only [exec, execUlSlotWrite, h1, h.radio (by decide) (by decide), writeRadio, writeUlIndex, hi,
    Bool.false_eq_true, if_false]

/-- UL_PRODUCER_INDEX_WRITE of the index word alone (R5). -/
theorem exec_ulProducerIndexWrite {s : State} {p : Setup} {w : Write} (h : watchedBy s p .radio .ulProducer w) :
    exec (.ulProducerIndexWrite w) s = .next (ulIndexWritten p w (returnWrite w s)) := by
  have hs := writeUlSlots_outside p w (returnWrite w s) (h.misses .ulSlots (by decide))
  obtain ⟨hp, -, -, -, hx, -⟩ := id h
  have h1 : windowWrite (fun t => touches w t.ulProducer 4) w s = completeWrite w s :=
    windowWrite_reached _ p w s hp hx
  have hx' : touches w p.windows.ulProducer 4 = true := hx
  simp only [exec, execUlProducerIndexWrite, h1, h.radio (by decide) (by decide), writeRadio, hs, writeUlIndex, hx',
    if_true]

/-- DL_SLOT_WRITE of the downlink slots alone (R15). -/
theorem exec_dlSlotWrite {s : State} {p : Setup} {w : Write} (h : watchedBy s p .app .dlSlots w) :
    exec (.dlSlotWrite w) s = .next (writeDlSlots p w (returnWrite w s)) := by
  have hi : touches w p.windows.dlProducer 4 = false := h.misses .dlProducer (by decide)
  have hc : touches w p.windows.reportConsumer 4 = false := h.misses .consumer (by decide)
  obtain ⟨hp, -, -, -, hx, -⟩ := id h
  have h1 : windowWrite (fun t => touches w t.dlSlots (t.dlCount * Config.slotBytes)) w s = completeWrite w s :=
    windowWrite_reached _ p w s hp hx
  simp only [exec, execDlSlotWrite, h1, h.app (by decide) (by decide), writeApp, writeDlIndex, writeConsumer, hi,
    hc, Bool.false_eq_true, if_false]

/-- DL_PRODUCER_INDEX_WRITE of the index word alone (R17). -/
theorem exec_dlProducerIndexWrite {s : State} {p : Setup} {w : Write} (h : watchedBy s p .app .dlProducer w) :
    exec (.dlProducerIndexWrite w) s = .next (dlIndexWritten p w (returnWrite w s)) := by
  have hs := writeDlSlots_outside p w (returnWrite w s) (h.misses .dlSlots (by decide))
  have hc : touches w p.windows.reportConsumer 4 = false := h.misses .consumer (by decide)
  obtain ⟨hp, -, -, -, hx, -⟩ := id h
  have h1 : windowWrite (fun t => touches w t.dlProducer 4) w s = completeWrite w s :=
    windowWrite_reached _ p w s hp hx
  have hx' : touches w p.windows.dlProducer 4 = true := hx
  simp only [exec, execDlProducerIndexWrite, h1, h.app (by decide) (by decide), writeApp, hs, writeDlIndex, hx',
    writeConsumer, hc, Bool.false_eq_true, if_true, if_false]

/-- CONSUMER_INDEX_WRITE of the index word alone (R157). -/
theorem exec_consumerIndexWrite {s : State} {p : Setup} {w : Write} (h : watchedBy s p .app .consumer w) :
    exec (.consumerIndexWrite w) s = .next (consumerWritten p w (returnWrite w s)) := by
  have hs := writeDlSlots_outside p w (returnWrite w s) (h.misses .dlSlots (by decide))
  have hi : touches w p.windows.dlProducer 4 = false := h.misses .dlProducer (by decide)
  obtain ⟨hp, -, -, -, hx, -⟩ := id h
  have h1 : windowWrite (fun t => touches w t.reportConsumer 4) w s = completeWrite w s :=
    windowWrite_reached _ p w s hp hx
  have hx' : touches w p.windows.reportConsumer 4 = true := hx
  simp only [exec, execConsumerIndexWrite, h1, h.app (by decide) (by decide), writeApp, hs, writeDlIndex, hi,
    writeConsumer, hx', Bool.false_eq_true, if_true, if_false]

/-! ### Index words refused -/

/-- The case of an INDEX_FAULT: 0 for a whole word out of range, 1 for a partial write (R6; notes/assumptions/14.md). -/
def faultCase (whole : Bool) : Byte := if whole then 0 else 1

/-- A refusal's first test is the partial write, its second the value out of range. -/
theorem refused_by_case {α : Type} (whole : Bool) (high : Prop) [Decidable high] (f : Byte → α) (taken : α)
    (h : whole = false ∨ high) :
    (if !whole then f 1 else if high then f 0 else taken) = f (faultCase whole) := by
  cases whole with
  | false => rfl
  | true =>
    rcases h with h | h
    · cases h
    · simp [faultCase, h]

theorem recIndexFault_detail (origin : UnitName) (ring kase : Byte) (v : Nat) (qt : Qt) :
    (recIndexFault origin ring kase v qt).detail.take 8 = [ring, kase, 0, 0] ++ le32 (BitVec.ofNat 32 v) := rfl

theorem ulIndexWritten_refused (p : Setup) (w : Write) (s : State)
    (h : coversWhole w p.windows.ulProducer 4 = false ∨ p.windows.ulCount ≤ indexValue w p.windows.ulProducer) :
    ulIndexWritten p w s = s.report [recIndexFault .rcu 0 (faultCase (coversWhole w p.windows.ulProducer 4))
      (indexValue w p.windows.ulProducer) s.su.qt] :=
  refused_by_case _ _ (fun c => s.report [recIndexFault .rcu 0 c (indexValue w p.windows.ulProducer) s.su.qt]) _ h

theorem dlIndexWritten_refused (p : Setup) (w : Write) (s : State)
    (h : coversWhole w p.windows.dlProducer 4 = false ∨ p.windows.dlCount ≤ indexValue w p.windows.dlProducer) :
    dlIndexWritten p w s = s.report [recIndexFault .rcu 1 (faultCase (coversWhole w p.windows.dlProducer 4))
      (indexValue w p.windows.dlProducer) s.su.qt] :=
  refused_by_case _ _ (fun c => s.report [recIndexFault .rcu 1 c (indexValue w p.windows.dlProducer) s.su.qt]) _ h

theorem consumerWritten_refused (p : Setup) (w : Write) (s : State)
    (h : coversWhole w p.windows.reportConsumer 4 = false ∨
      p.windows.repCount ≤ indexValue w p.windows.reportConsumer) :
    consumerWritten p w s = s.report [recIndexFault .rpu 2 (faultCase (coversWhole w p.windows.reportConsumer 4))
      (indexValue w p.windows.reportConsumer) s.su.qt] :=
  refused_by_case _ _ (fun c => s.report [recIndexFault .rpu 2 c (indexValue w p.windows.reportConsumer) s.su.qt]) _ h

/-- Settles O12: each of the three words, refused by one of its two tests, makes one INDEX_FAULT. -/
theorem indexWriteRefused : Obligations.IndexWriteRefused := by
  intro s p w
  refine ⟨fun h hc => ?_, fun h hc => ?_, fun h hc => ?_⟩
  · rw [exec_ulProducerIndexWrite h, ulIndexWritten_refused p w _ hc]
    exact ⟨_, rfl, rfl, rfl, rfl, recIndexFault_detail ..⟩
  · rw [exec_dlProducerIndexWrite h, dlIndexWritten_refused p w _ hc]
    exact ⟨_, rfl, rfl, rfl, rfl, recIndexFault_detail ..⟩
  · rw [exec_consumerIndexWrite h, consumerWritten_refused p w _ hc]
    exact ⟨_, rfl, rfl, rfl, rfl, recIndexFault_detail ..⟩

end Sys2Proof.Machine
end

