-- ==== Sys2Proof/Proofs/UplinkWrites.lean ====
section
/-! SUPPORT. The capture of the uplink slots a write touches, the full store, and the commit of the uplink ring (R2, R3,
R5, R7). -/

namespace Sys2Proof.Machine

open Sys2Proof

/-! ### PENDING entries -/

theorem pendingEntry_none_iff (u : CaptureUnit) (k : Nat) :
    u.pendingEntry k = none ↔ u.filling.any (fun e => decide (e.slot = k)) = false := by
  simp [CaptureUnit.pendingEntry, List.find?_eq_none]

theorem pendingEntry_slot (u : CaptureUnit) (k : Nat) (e : CaptureEntry) (h : u.pendingEntry k = some e) :
    e.slot = k := by
  simpa using List.find?_some h

theorem pendingEntry_mem (u : CaptureUnit) (k : Nat) (e : CaptureEntry) (h : u.pendingEntry k = some e) :
    e ∈ u.filling := List.mem_of_find?_eq_some h

/-- The PENDING entries of a list after a new one of slot k has joined. -/
theorem find_joined (l : List CaptureEntry) (n : CaptureEntry) (j : Nat) :
    (l ++ [n]).find? (fun e => decide (e.slot = j)) =
      (l.find? (fun e => decide (e.slot = j))).or (if n.slot = j then some n else none) := by
  rw [List.find?_append]
  by_cases h : n.slot = j <;> simp [h]

/-- The PENDING entries of a list that has lost those of slot k. -/
theorem find_without (l : List CaptureEntry) (k j : Nat) :
    (l.filter (fun e => decide (e.slot ≠ k))).find? (fun e => decide (e.slot = j)) =
      if j = k then none else l.find? (fun e => decide (e.slot = j)) := by
  rw [List.find?_filter]
  split
  · rename_i h
    subst h
    simp [List.find?_eq_none]
  · rename_i h
    congr 1
    funext e
    by_cases he : e.slot = j
    · simp [he, h]
    · simp [he]

/-- The entry of slot k as a write leaves it: the PENDING one or a new one, filled (R2). -/
def capturedEntry (w : Write) (base : Nat) (now : Qt) (u : CaptureUnit) (k : Nat) : CaptureEntry :=
  fillEntry w base ((u.pendingEntry k).getD (newEntry k now))

/-- The capture of one slot that has a PENDING entry or finds room: no record, its entry filled, every other entry as it
was, and one more in use where it had none (R2). -/
theorem captureSlot_room (w : Write) (base : Nat) (now : Qt) (k : Nat) (u : CaptureUnit)
    (h : u.pendingEntry k = none → u.inUse < 32) :
    (captureSlot w base now k u).2 = [] ∧
      (captureSlot w base now k u).1.inUse = u.inUse + (if u.pendingEntry k = none then 1 else 0) ∧
      ∀ j, (captureSlot w base now k u).1.pendingEntry j =
        if j = k then some (capturedEntry w base now u k) else u.pendingEntry j := by
  rcases captureSlot_cases w base now k u with ⟨hany, hc⟩ | ⟨hany, hc⟩
  · have hne : u.pendingEntry k ≠ none := by simp [pendingEntry_none_iff, hany]
    obtain ⟨old, hold⟩ := Option.ne_none_iff_exists'.mp hne
    rw [hc]
    refine ⟨rfl, ?_, ?_⟩
    · simp only [CaptureUnit.inUse, List.length_map, if_neg hne, Nat.add_zero]
    · intro j
      have hf : (fun e : CaptureEntry => decide (e.slot = j)) ∘
          (fun e => if e.slot = k then fillEntry w base e else e) = fun e => decide (e.slot = j) := by
        funext e
        simp only [Function.comp]
        split <;> rfl
      simp only [CaptureUnit.pendingEntry, List.find?_map, hf]
      split
      · rename_i hj
        subst hj
        have hs := pendingEntry_slot u j old hold
        simp only [CaptureUnit.pendingEntry] at hold
        simp only [capturedEntry, CaptureUnit.pendingEntry, hold, Option.map_some, hs, if_true, Option.getD_some]
      · rename_i hj
        cases hx : u.filling.find? (fun e => decide (e.slot = j)) with
        | none => rfl
        | some e =>
          have hs : e.slot = j := pendingEntry_slot u j e hx
          simp only [Option.map_some, hs, if_neg hj]
  · have hn := (pendingEntry_none_iff u k).mpr hany
    have hl := h hn
    rcases hc with ⟨-, hc⟩ | ⟨hf, -⟩ | ⟨o, hf, -⟩
    · rw [hc]
      refine ⟨rfl, ?_, ?_⟩
      · simp only [CaptureUnit.inUse, List.length_append, List.length_singleton, hn, if_true]
        omega
      · intro j
        have hslot : (fillEntry w base (newEntry k now)).slot = k := rfl
        simp only [CaptureUnit.pendingEntry, find_joined, hslot, capturedEntry] at hn ⊢
        by_cases hj : j = k
        · simp only [hj, hn, if_true, Option.none_or, Option.getD_none]
        · simp only [if_neg hj, if_neg (Ne.symm hj), Option.or_none]
    · omega
    · omega

/-- Units that differ in their PENDING entries alone. -/
theorem filling_frame_trans (a b c : CaptureUnit) (h1 : b = { a with filling := b.filling })
    (h2 : c = { b with filling := c.filling }) : c = { a with filling := c.filling } := by
  rw [h2, h1]

/-- The capture of several slots with room for all: no record, every slot's entry filled, every other entry as it was,
and nothing else of the unit changed (R2). -/
theorem captureSlots_room (w : Write) (base : Nat) (now : Qt) (ks : List Nat) (u : CaptureUnit) (hd : ks.Nodup)
    (h : u.inUse + (ks.filter (fun k => (u.pendingEntry k).isNone)).length ≤ 32) :
    (captureSlots w base now ks u).2 = [] ∧
      (captureSlots w base now ks u).1 = { u with filling := (captureSlots w base now ks u).1.filling } ∧
      ∀ j, (captureSlots w base now ks u).1.pendingEntry j =
        if j ∈ ks then some (capturedEntry w base now u j) else u.pendingEntry j := by
  induction ks generalizing u with
  | nil => exact ⟨rfl, rfl, fun j => by simp [captureSlots]⟩
  | cons k ks ih =>
    obtain ⟨hk, hd⟩ := List.nodup_cons.mp hd
    have hroom : u.pendingEntry k = none → u.inUse < 32 := by
      intro hn
      simp only [List.filter_cons, hn, Option.isNone_none, if_true, List.length_cons] at h
      omega
    obtain ⟨h1, h2, h3⟩ := captureSlot_room w base now k u hroom
    have hframe := captureSlot_frame w base now k u
    have hrest : ∀ j ∈ ks, (captureSlot w base now k u).1.pendingEntry j = u.pendingEntry j := by
      intro j hj
      rw [h3, if_neg]
      rintro rfl
      exact hk hj
    have hcount : (captureSlot w base now k u).1.inUse + (ks.filter (fun j =>
        ((captureSlot w base now k u).1.pendingEntry j).isNone)).length ≤ 32 := by
      rw [List.filter_congr (fun j hj => by rw [hrest j hj]), h2]
      cases hx : u.pendingEntry k with
      | none =>
        simp only [List.filter_cons, hx, Option.isNone_none, if_true, List.length_cons] at h ⊢
        omega
      | some e =>
        simp only [List.filter_cons, hx, Option.isNone_some, Bool.false_eq_true, if_false, reduceCtorEq] at h ⊢
        exact h
    obtain ⟨i1, i2, i3⟩ := ih _ hd hcount
    simp only [captureSlots]
    refine ⟨by rw [h1, i1]; rfl, ?_, ?_⟩
    · exact filling_frame_trans _ _ _ hframe i2
    · intro j
      rw [i3]
      by_cases hj : j ∈ ks
      · simp only [hj, List.mem_cons, or_true, if_true, capturedEntry, hrest j hj]
      · simp only [hj, if_false, h3, List.mem_cons, or_false]
        by_cases hjk : j = k
        · subst hjk
          simp only [if_true]
        · simp only [hjk, if_false]

/-! ### The slots a write touches -/

theorem touchesUlSlot_iff (p : Setup) (w : Write) (k : Nat) : touchesUlSlot p w k = true ↔
    k ∈ touchedSlots w p.windows.ulSlots p.windows.ulCount Config.slotBytes := by
  simp only [touchesUlSlot, touchedSlots, List.mem_filter, List.mem_range, Bool.and_eq_true, decide_eq_true_eq,
    Config.slotBytes]

theorem touchedSlots_nodup (w : Write) (base count part : Nat) : (touchedSlots w base count part).Nodup :=
  List.nodup_range.filter _

/-- The slots touched without a PENDING entry, counted over the ring or over the slots touched. -/
theorem touched_without_entry (p : Setup) (w : Write) (q : Nat → Bool) :
    (touchedSlots w p.windows.ulSlots p.windows.ulCount Config.slotBytes).filter q =
      (List.range p.windows.ulCount).filter (fun k => touchesUlSlot p w k && q k) := by
  rw [touchedSlots, List.filter_filter]
  apply List.filter_congr
  intro k hk
  rw [List.mem_range] at hk
  simp only [touchesUlSlot, hk, decide_true, Bool.true_and, Config.slotBytes]
  exact Bool.and_comm ..

/-- A captured entry's cells: the bytes written with their strobe active, the old entry's elsewhere (R2). -/
theorem capturedEntry_cell (w : Write) (base : Nat) (now : Qt) (u : CaptureUnit) (k j : Nat)
    (hc : ∀ e ∈ u.filling, e.cells.length = 256) (hj : j < 256) :
    cellAt (capturedEntry w base now u k).cells j = match u.pendingEntry k with
      | some old => (activeByte w (base + 256 * k + j)).or (cellAt old.cells j)
      | none => activeByte w (base + 256 * k + j) := by
  cases hx : u.pendingEntry k with
  | some old =>
    have hl := hc old (pendingEntry_mem u k old hx)
    simp only [capturedEntry, hx, Option.getD_some, fillEntry, pendingEntry_slot u k old hx]
    exact cellAt_writeCells w _ _ j (by rw [hl]; exact hj)
  | none =>
    have hl : (newEntry k now).cells.length = 256 := List.length_replicate
    simp only [capturedEntry, hx, Option.getD_none, fillEntry]
    rw [cellAt_writeCells w _ _ j (by rw [hl]; exact hj)]
    have hblank : cellAt (newEntry k now).cells j = none := by
      simp only [cellAt, newEntry, List.getElem?_replicate]
      split <;> rfl
    rw [hblank, Option.or_none]
    rfl

/-- Settles O9: with room, each touched slot's entry is filled in turn, and none of the others changes. -/
theorem uplinkWriteCaptured : Obligations.UplinkWriteCaptured := by
  intro s p w h hcells hroom
  obtain ⟨h1, h2, h3⟩ := captureSlots_room w p.windows.ulSlots s.su.qt
    (touchedSlots w p.windows.ulSlots p.windows.ulCount Config.slotBytes) s.rcu (touchedSlots_nodup ..)
    (by rw [touched_without_entry]; exact hroom)
  refine ⟨_, exec_ulSlotWrite h, ?_, ?_, ?_⟩
  · simp only [writeUlSlots, State.report, returnWrite_su, returnWrite_rcu, h1, ReportUnit.handOverAll_nil]
    rw [← h2]
  · intro k hk
    refine (h3 k).trans (if_neg ?_)
    rw [← touchesUlSlot_iff, hk]
    exact Bool.false_ne_true
  · intro k hk
    refine ⟨_, (h3 k).trans (if_pos ((touchesUlSlot_iff p w k).mp hk)), ?_, ?_, ?_⟩
    · cases hx : s.rcu.pendingEntry k with
      | none => simp only [capturedEntry, hx, Option.getD_none, fillEntry_slot, newEntry]
      | some old => simp only [capturedEntry, hx, Option.getD_some, fillEntry_slot, pendingEntry_slot _ _ _ hx]
    · cases hx : s.rcu.pendingEntry k with
      | none =>
        simp only [capturedEntry, hx, Option.getD_none, fillEntry_cells_length]
        exact List.length_replicate
      | some old =>
        simp only [capturedEntry, hx, Option.getD_some, fillEntry_cells_length]
        exact hcells old (pendingEntry_mem _ _ _ hx)
    · have hcell := capturedEntry_cell w p.windows.ulSlots s.su.qt s.rcu k
      cases hx : s.rcu.pendingEntry k with
      | none =>
        refine ⟨by simp only [capturedEntry, hx, Option.getD_none]; rfl, fun j hj => ?_⟩
        rw [hcell j hcells hj, hx]
      | some old =>
        refine ⟨by simp only [capturedEntry, hx, Option.getD_some]; rfl, fun j hj => ?_⟩
        rw [hcell j hcells hj, hx]

/-! ### The full store -/

theorem olderEntry_asymm (now : Qt) (a b : CaptureEntry) (h : olderEntry now a b = true) :
    olderEntry now b a = false := by
  simp only [olderEntry, Bool.or_eq_true, Bool.and_eq_true, decide_eq_true_eq, Bool.or_eq_false_iff,
    Bool.and_eq_false_iff, decide_eq_false_iff_not] at h ⊢
  omega

/-- An entry older than every other is the oldest (R3). -/
theorem oldestEntry_of_older (now : Qt) (l : List CaptureEntry) (o : CaptureEntry) (ho : o ∈ l)
    (h : ∀ e ∈ l, e ≠ o → olderEntry now o e = true) : oldestEntry now l = some o := by
  induction l with
  | nil => cases ho
  | cons e es ih =>
    have hes : ∀ x ∈ es, x ≠ o → olderEntry now o x = true := fun x hx => h x (List.mem_cons_of_mem _ hx)
    by_cases hmem : o ∈ es
    · simp only [oldestEntry, ih hmem hes]
      by_cases he : e = o
      · rw [he, ite_self]
      · rw [if_pos (h e (List.mem_cons_self ..) he)]
    · obtain rfl : o = e := (List.mem_cons.mp ho).resolve_right hmem
      rcases oldestEntry_cases now es with ⟨-, hn⟩ | ⟨x, hx, hn⟩ <;> simp only [oldestEntry, hn]
      have hxo : x ≠ o := fun hxo => hmem (hxo ▸ hx)
      rw [olderEntry_asymm now o x (hes x hx hxo)]
      rfl

theorem eq_singleton_of_nodup {l : List Nat} {k : Nat} (hd : l.Nodup) (h : ∀ j, j ∈ l ↔ j = k) : l = [k] :=
  List.perm_singleton.mp ((List.perm_ext_iff_of_nodup hd (List.nodup_singleton k)).mpr (by simpa using h))

theorem recCaptureOverflow_dropped (k o : Nat) (qt : Qt) : (recCaptureOverflow k (some o) qt).detail.take 5 =
    le16 (BitVec.ofNat 16 k) ++ le16 (BitVec.ofNat 16 o) ++ [1] := rfl

theorem recCaptureOverflow_none (k : Nat) (qt : Qt) : (recCaptureOverflow k none qt).detail.take 5 =
    le16 (BitVec.ofNat 16 k) ++ [0, 0, 0] := rfl

/-- A write of one slot captures that slot alone. -/
theorem writeUlSlots_one (p : Setup) (w : Write) (s : State) (k : Nat)
    (h : ∀ j, touchesUlSlot p w j = true ↔ j = k) : writeUlSlots p w s =
      { s with rcu := (captureSlot w p.windows.ulSlots s.su.qt k s.rcu).1 }.report
        (captureSlot w p.windows.ulSlots s.su.qt k s.rcu).2 := by
  have hk : touchedSlots w p.windows.ulSlots p.windows.ulCount Config.slotBytes = [k] :=
    eq_singleton_of_nodup (touchedSlots_nodup ..) (fun j => by rw [← touchesUlSlot_iff, h])
  simp only [writeUlSlots, hk, captureSlots, List.append_nil]

/-- Settles O10: the one slot touched finds the store full; the oldest entry makes room, or there is none. -/
theorem captureOverflow : Obligations.CaptureOverflow := by
  intro s p w k h hfull hk hnone
  rw [exec_ulSlotWrite h, writeUlSlots_one p w _ k hk]
  have hany := (pendingEntry_none_iff s.rcu k).mp hnone
  refine ⟨fun hempty => ?_, fun o ho hold => ?_⟩
  · have hc : captureSlot w p.windows.ulSlots s.su.qt k s.rcu = (s.rcu, [recCaptureOverflow k none s.su.qt]) := by
      rcases captureSlot_cases w p.windows.ulSlots s.su.qt k s.rcu with ⟨ht, -⟩ | ⟨-, ⟨hl, -⟩ | ⟨-, -, hc⟩ | ⟨o, -, ho, -⟩⟩
      · rw [hany] at ht
        cases ht
      · omega
      · exact hc
      · rw [hempty] at ho
        cases ho
    refine ⟨recCaptureOverflow k none s.su.qt, ?_, rfl, rfl, recCaptureOverflow_none ..⟩
    simp only [returnWrite_su, returnWrite_rcu, hc]
    rfl
  · have hoo := oldestEntry_of_older s.su.qt s.rcu.filling o ho hold
    have hok : o.slot ≠ k := by
      have := List.find?_eq_none.mp hnone o ho
      simpa using this
    have hc : captureSlot w p.windows.ulSlots s.su.qt k s.rcu =
        ({ s.rcu with filling := s.rcu.filling.filter (fun e => decide (e.slot ≠ o.slot)) ++
            [fillEntry w p.windows.ulSlots (newEntry k s.su.qt)] }, [recCaptureOverflow k (some o.slot) s.su.qt]) := by
      rcases captureSlot_cases w p.windows.ulSlots s.su.qt k s.rcu with ⟨ht, -⟩ | ⟨-, ⟨hl, -⟩ | ⟨-, ho', -⟩ | ⟨o', -, ho', hc⟩⟩
      · rw [hany] at ht
        cases ht
      · omega
      · rw [hoo] at ho'
        cases ho'
      · obtain rfl := Option.some.inj (hoo.symm.trans ho')
        exact hc
    have hslot : (fillEntry w p.windows.ulSlots (newEntry k s.su.qt)).slot = k := rfl
    simp only [returnWrite_su, returnWrite_rcu, hc]
    refine ⟨_, recCaptureOverflow k (some o.slot) s.su.qt, rfl, rfl, ?_, ?_, ?_, rfl, rfl,
      recCaptureOverflow_dropped ..⟩
    · simp only [State.report_rcu, CaptureUnit.pendingEntry, find_joined, find_without, if_true, hslot,
        if_neg (Ne.symm hok), Option.or_none]
    · intro j hj hjk
      simp only [State.report_rcu, CaptureUnit.pendingEntry, find_joined, find_without, hslot, if_neg hj,
        if_neg (Ne.symm hjk), Option.or_none]
    · refine ⟨fillEntry w p.windows.ulSlots (newEntry k s.su.qt), ?_, rfl⟩
      have hn : s.rcu.filling.find? (fun e => decide (e.slot = k)) = none := hnone
      simp only [State.report_rcu, CaptureUnit.pendingEntry, find_joined, find_without, hslot, if_neg (Ne.symm hok),
        if_true, hn, Option.none_or]

/-! ### The commit of the ring -/

/-- The slots committed, numbered from the ring's position on (R5). -/
theorem ringSlots_eq (count h n : Nat) (hh : h < count) :
    ringSlots count h n = (List.range n).map (fun i => (h + i) % count) := by
  induction n generalizing h with
  | zero => rfl
  | succ n ih =>
    have h0 : (h + 0) % count = h := Nat.mod_eq_of_lt hh
    rw [ringSlots, ih _ (Nat.mod_lt _ (Nat.zero_lt_of_lt hh)), List.range_succ_eq_map, List.map_cons, List.map_map, h0]
    congr 1
    apply List.map_congr_left
    intro i _
    simp only [Function.comp, Nat.mod_add_mod]
    congr 1
    omega

/-- Fewer slots than the ring has are each committed once. -/
theorem ringSlots_nodup (count h n : Nat) (hh : h < count) (hn : n ≤ count) : (ringSlots count h n).Nodup := by
  rw [ringSlots_eq count h n hh]
  refine List.nodup_range.map_on ?_
  intro i hi j hj hij
  rw [List.mem_range] at hi hj
  have := Nat.ModEq.add_left_cancel' h hij
  rwa [Nat.ModEq, Nat.mod_eq_of_lt (by omega), Nat.mod_eq_of_lt (by omega)] at this

theorem ringDistance_of_lt (count h v : Nat) (hh : h < count) : ringDistance count h v = (v + count - h) % count := by
  rw [ringDistance, Nat.mod_eq_of_lt hh]

theorem ringDistance_le (count h v : Nat) (hc : 0 < count) : ringDistance count h v ≤ count :=
  Nat.le_of_lt (Nat.mod_lt _ hc)

section CommittedItems

variable (count : Nat) (now : Qt) (entryOf : Nat → Option CaptureEntry) (n k : Nat) (ks : List Nat)

/-- The item that joins the parse queue for a slot while the queue has room. -/
def joiningItem (now : Qt) (entryOf : Nat → Option CaptureEntry) (k : Nat) : ParseItem :=
  match entryOf k with
  | some e => .captured e now
  | none => .placeholder k now

theorem committedItems_join (h : entryOf k ≠ none ∨ n < count) :
    committedItems count now entryOf n (k :: ks) =
      (joiningItem now entryOf k :: (committedItems count now entryOf (n + 1) ks).1,
        (committedItems count now entryOf (n + 1) ks).2) := by
  cases hk : entryOf k with
  | some e => simp only [committedItems, joiningItem, hk]
  | none =>
    have hn : n < count := h.resolve_left (fun hne => hne hk)
    simp only [committedItems, joiningItem, hk, hn, if_true]

theorem committedItems_lost (h : entryOf k = none) (hn : count ≤ n) :
    committedItems count now entryOf n (k :: ks) =
      ((committedItems count now entryOf n ks).1, k :: (committedItems count now entryOf n ks).2) := by
  simp only [committedItems, h, Nat.not_lt.mpr hn, if_false]

/-- The first slot's item or loss, then those of the others. -/
theorem committedItems_cons :
    committedItems count now entryOf n (k :: ks) =
      let a := committedItems count now entryOf n [k]
      let b := committedItems count now entryOf (n + a.1.length) ks
      (a.1 ++ b.1, a.2 ++ b.2) := by
  by_cases h : entryOf k ≠ none ∨ n < count
  · simp only [committedItems_join count now entryOf n k _ h]
    rfl
  · rw [not_or, not_not, Nat.not_lt] at h
    simp only [committedItems_lost count now entryOf n k _ h.1 h.2]
    rfl

/-- With room for a placeholder for each, one item a slot joins and none is lost (R7). -/
theorem committedItems_room (h : n + ks.length ≤ count) :
    committedItems count now entryOf n ks = (ks.map (joiningItem now entryOf), []) := by
  induction ks generalizing n with
  | nil => rfl
  | cons k ks ih =>
    rw [List.length_cons] at h
    rw [committedItems_join count now entryOf n k ks (.inr (by omega)), ih (n + 1) (by omega)]
    rfl

/-- What is committed depends on the entries of the slots committed alone. -/
theorem committedItems_congr (other : Nat → Option CaptureEntry) (h : ∀ j ∈ ks, other j = entryOf j) :
    committedItems count now other n ks = committedItems count now entryOf n ks := by
  induction ks generalizing n with
  | nil => rfl
  | cons k ks ih =>
    have hk := h k (List.mem_cons_self ..)
    have ih' := fun m => ih m (fun j hj => h j (List.mem_cons_of_mem _ hj))
    simp only [committedItems, hk, ih']

end CommittedItems

/-- The Ring Capture Unit after slots have been committed: items at the queue's tail, the two counters, and the PENDING
entries of those slots gone (R5, R7). -/
def committedUnit (u : CaptureUnit) (filling : List CaptureEntry) (items : List ParseItem) (slots lost : Nat) :
    CaptureUnit :=
  { u with
    filling := filling
    queue := u.queue ++ items
    ul := { u.ul with
      committed := u.ul.committed + BitVec.ofNat 32 slots
      uncaptured := u.ul.uncaptured + BitVec.ofNat 32 lost } }

/-- One commit after another adds items and counts. -/
theorem committedUnit_trans (u : CaptureUnit) (f g : List CaptureEntry) (is js : List ParseItem) (a b c d : Nat) :
    committedUnit (committedUnit u f is a c) g js b d = committedUnit u g (is ++ js) (a + b) (c + d) := by
  simp only [committedUnit, List.append_assoc, BitVec.ofNat_add, add_assoc]

/-- The commit of one slot in terms of what joins and what is lost. -/
theorem commitSlot_eq (count : Nat) (now : Qt) (k : Nat) (u : CaptureUnit) :
    let c := committedItems count now u.pendingEntry u.queue.length [k]
    commitSlot count now k u =
      (committedUnit u (u.filling.filter (fun e => decide (e.slot ≠ k))) c.1 1 c.2.length,
        c.2.map (recSlotUncaptured · now)) := by
  rcases commitSlot_cases count now k u with ⟨e, he, h⟩ | ⟨hn, hc⟩
  · have hp : u.pendingEntry k = some e := he
    have hj := committedItems_join count now u.pendingEntry u.queue.length k [] (.inl (by rw [hp]; exact nofun))
    simp only [hj, h, joiningItem, hp]
    simp [committedUnit, CaptureUnit.countCommitted, committedItems]
  · have hp : u.pendingEntry k = none := hn
    have hf : u.filling.filter (fun e => decide (e.slot ≠ k)) = u.filling := by
      rw [List.filter_eq_self]
      intro e he
      have := List.find?_eq_none.mp hn e he
      simpa using this
    rcases hc with ⟨hl, h⟩ | ⟨hl, h⟩
    · have hj := committedItems_join count now u.pendingEntry u.queue.length k [] (.inr hl)
      simp only [hj, h, joiningItem, hp, hf]
      simp [committedUnit, CaptureUnit.countCommitted, committedItems]
    · have hj := committedItems_lost count now u.pendingEntry u.queue.length k [] hp hl
      simp only [hj, h, hf]
      simp [committedUnit, CaptureUnit.countCommitted, CaptureUnit.countUncaptured, committedItems]

/-- The PENDING entries after one slot has been committed. -/
theorem pendingEntry_committed (u : CaptureUnit) (k j : Nat) (is : List ParseItem) (a b : Nat) :
    (committedUnit u (u.filling.filter (fun e => decide (e.slot ≠ k))) is a b).pendingEntry j =
      if j = k then none else u.pendingEntry j := find_without u.filling k j

/-- The commit of a list of slots, each once (R5, R7). -/
theorem commitSlots_eq (count : Nat) (now : Qt) (ks : List Nat) (u : CaptureUnit) (hd : ks.Nodup) :
    let c := committedItems count now u.pendingEntry u.queue.length ks
    ∃ f, commitSlots count now ks u = (committedUnit u f c.1 ks.length c.2.length, c.2.map (recSlotUncaptured · now)) ∧
      ∀ j, (commitSlots count now ks u).1.pendingEntry j = if j ∈ ks then none else u.pendingEntry j := by
  induction ks generalizing u with
  | nil =>
    refine ⟨u.filling, ?_, fun j => by simp [commitSlots]⟩
    simp [commitSlots, committedUnit, committedItems]
  | cons k ks ih =>
    obtain ⟨hk, hd⟩ := List.nodup_cons.mp hd
    have h1 := commitSlot_eq count now k u
    have hc := committedItems_cons count now u.pendingEntry u.queue.length k ks
    generalize committedItems count now u.pendingEntry u.queue.length [k] = a at h1 hc
    obtain ⟨f, i1, i2⟩ := ih (commitSlot count now k u).1 hd
    have hlen : (commitSlot count now k u).1.queue.length = u.queue.length + a.1.length := by
      rw [h1]
      exact List.length_append
    have hpend : ∀ j, (commitSlot count now k u).1.pendingEntry j = if j = k then none else u.pendingEntry j := by
      rw [h1]
      exact fun j => pendingEntry_committed u k j _ _ _
    have hsame : ∀ j ∈ ks, (commitSlot count now k u).1.pendingEntry j = u.pendingEntry j := by
      intro j hj
      rw [hpend, if_neg]
      rintro rfl
      exact hk hj
    rw [hlen, committedItems_congr count now u.pendingEntry _ ks _ hsame] at i1
    refine ⟨f, ?_, ?_⟩
    · simp only [commitSlots, i1, hc]
      rw [h1]
      simp only [committedUnit_trans, List.map_append, List.length_append, List.length_cons, Nat.add_comm 1]
    · intro j
      simp only [commitSlots, i2, hpend, List.mem_cons]
      by_cases hjk : j = k
      · simp only [hjk, true_or, if_true, ite_self]
      · simp only [hjk, false_or, if_false]

/-- Settles O11: the slots lie in the ring once each, and are committed in order. -/
theorem uplinkCommit : Obligations.UplinkCommit := by
  intro s p w v d h hwhole hv hlt hpos hd slots items lost
  have hslots : slots = ringSlots p.windows.ulCount s.rcu.hUl d := (ringSlots_eq _ _ _ hpos).symm
  have hdle : d < p.windows.ulCount := hd ▸ Nat.mod_lt _ (Nat.zero_lt_of_lt hpos)
  have hlen : slots.length = d := by simp [slots]
  obtain ⟨f, hcommit, hpend⟩ := commitSlots_eq p.windows.ulCount s.su.qt slots s.rcu
    (hslots ▸ ringSlots_nodup _ _ _ hpos hdle.le)
  have htaken : ulIndexWritten p w (returnWrite w s) =
      { returnWrite w s with rcu := { (commitSlots p.windows.ulCount s.su.qt slots s.rcu).1 with hUl := v } }.report
        (commitSlots p.windows.ulCount s.su.qt slots s.rcu).2 := by
    simp only [ulIndexWritten, hwhole, hv, Nat.not_le.mpr hlt, Bool.not_true, Bool.false_eq_true, if_false,
      returnWrite_rcu, returnWrite_su, ringDistance_of_lt _ _ _ hpos, ← hd, hslots]
  rw [exec_ulProducerIndexWrite h, htaken]
  refine ⟨_, lost.map (recSlotUncaptured · s.su.qt), rfl, ?_, ?_, ?_, ?_, ?_, ?_⟩
  · rw [hcommit, hlen]
    rfl
  · exact fun k hk => (hpend k).trans (if_pos hk)
  · exact fun k hk => (hpend k).trans (if_neg hk)
  · rw [List.map_map]
    rfl
  · intro r hr
    obtain ⟨k, -, rfl⟩ := List.mem_map.mp hr
    exact ⟨rfl, rfl, rfl⟩
  · intro hroom
    have hitems := committedItems_room p.windows.ulCount s.su.qt s.rcu.pendingEntry s.rcu.queue.length slots
      (by rw [hlen]; exact hroom)
    exact ⟨congrArg Prod.snd hitems, (congrArg Prod.fst hitems).trans (List.map_congr_left fun k _ => by
      cases hk : s.rcu.pendingEntry k with
      | none => simp only [joiningItem, hk]
      | some e => simp only [joiningItem, hk])⟩

end Sys2Proof.Machine
end

