-- ==== Sys2Proof/Proofs/DownlinkWrites.lean ====
section
/-! SUPPORT. The downlink slot records a header write and a commit change (R15, R16, R17, R57). -/

namespace Sys2Proof.Machine

open Sys2Proof

/-- Header writes of several slots, each once: the records written are those slots', and nothing else changes (R15). -/
theorem writeRecords_eq (w : Write) (base : Nat) (now : Qt) (ks : List Nat) (u : CaptureUnit) (hd : ks.Nodup) :
    writeRecords w base now ks u = { u with records := (writeRecords w base now ks u).records } ∧
      ∀ j, (writeRecords w base now ks u).record j =
        if j ∈ ks then (u.record j).written w (base + 256 * j) now else u.record j := by
  induction ks generalizing u with
  | nil => exact ⟨rfl, fun j => by simp [writeRecords]⟩
  | cons k ks ih =>
    obtain ⟨hk, hd⟩ := List.nodup_cons.mp hd
    obtain ⟨i1, i2⟩ := ih (u.setRecord k ((u.record k).written w (base + Config.slotBytes * k) now)) hd
    simp only [writeRecords]
    refine ⟨i1, fun j => ?_⟩
    rw [i2]
    simp only [CaptureUnit.record_setRecord, List.mem_cons]
    by_cases hj : j = k
    · subst hj
      simp only [hk, true_or, if_true, if_false]
      rfl
    · simp only [hj, false_or, if_false]

/-- Commits of several slots: the records committed are those slots', and nothing else changes (R17). -/
theorem commitRecords_eq (ks : List Nat) (u : CaptureUnit) :
    commitRecords ks u = { u with records := (commitRecords ks u).records } ∧
      ∀ j, (commitRecords ks u).record j = if j ∈ ks then (u.record j).commit else u.record j := by
  induction ks generalizing u with
  | nil => exact ⟨rfl, fun j => by simp [commitRecords]⟩
  | cons k ks ih =>
    obtain ⟨i1, i2⟩ := ih (u.setRecord k (u.record k).commit)
    simp only [commitRecords]
    refine ⟨i1, fun j => ?_⟩
    have hidem : ∀ r : DlRecord, r.commit.commit = r.commit := fun _ => rfl
    rw [i2]
    simp only [CaptureUnit.record_setRecord, List.mem_cons]
    by_cases hj : j = k
    · simp only [hj, if_true, hidem, ite_self, true_or]
    · simp only [hj, false_or, if_false]

theorem touchesDlHeader_iff (p : Setup) (w : Write) (k : Nat) : touchesDlHeader p w k = true ↔
    k ∈ touchedSlots w p.windows.dlSlots p.windows.dlCount 12 := by
  simp only [touchesDlHeader, touchedSlots, List.mem_filter, List.mem_range, Bool.and_eq_true, decide_eq_true_eq,
    Config.slotBytes]

/-- A header write that finds a record not committed changes its cells and write QT alone (R15). -/
theorem DlRecord.written_of_not_committed (r : DlRecord) (w : Write) (base : Nat) (now : Qt) (h : r.committed = false) :
    r.written w base now = { r with cells := writeCells w base r.cells, writeQt := now } := by
  simp only [DlRecord.written, h, Bool.false_eq_true, if_false]

/-- A header write that finds a committed record makes it ready for a new frame first (R16). -/
theorem DlRecord.written_of_committed (r : DlRecord) (w : Write) (base : Nat) (now : Qt) (h : r.committed = true) :
    r.written w base now =
      ⟨writeCells w base (List.replicate 12 none), now, false, false, .none, .undecided⟩ := by
  simp only [DlRecord.written, h, if_true, DlRecord.rewritten]

theorem cellAt_replicate_none (n j : Nat) : cellAt (List.replicate n none) j = none := by
  simp only [cellAt, List.getElem?_replicate]
  split <;> rfl

/-- Settles O23: the slots whose header bytes are covered have their records written, the others stand. -/
theorem downlinkHeaderWritten : Obligations.DownlinkHeaderWritten := by
  intro s p w h hcells
  obtain ⟨h1, h2⟩ := writeRecords_eq w p.windows.dlSlots s.su.qt
    (touchedSlots w p.windows.dlSlots p.windows.dlCount 12) s.rcu (touchedSlots_nodup ..)
  refine ⟨_, exec_dlSlotWrite h, ?_, ?_, ?_⟩
  · simp only [writeDlSlots, returnWrite_su, returnWrite_rcu]
    rw [← h1]
  · intro k hk
    refine (h2 k).trans (if_neg ?_)
    rw [← touchesDlHeader_iff, hk]
    exact Bool.false_ne_true
  · intro k hk r y
    have hy : y = r.written w (p.windows.dlSlots + 256 * k) s.su.qt :=
      (h2 k).trans (if_pos ((touchesDlHeader_iff p w k).mp hk))
    have hlen : r.cells.length = 12 := hcells k
    cases hc : r.committed with
    | true =>
      rw [DlRecord.written_of_committed r _ _ _ hc] at hy
      rw [hy]
      refine ⟨by rw [writeCells_length, List.length_replicate], rfl, fun j hj => ?_, fun _ => ⟨rfl, rfl, rfl, rfl⟩,
        nofun⟩
      rw [cellAt_writeCells w _ _ j (by rw [List.length_replicate]; exact hj), cellAt_replicate_none, if_pos rfl]
    | false =>
      rw [DlRecord.written_of_not_committed r _ _ _ hc] at hy
      rw [hy]
      refine ⟨by rw [writeCells_length, hlen], rfl, fun j hj => ?_, nofun,
        fun _ => ⟨hc, rfl, rfl, rfl⟩⟩
      rw [cellAt_writeCells w _ _ j (by rw [hlen]; exact hj), if_neg Bool.false_ne_true]

/-- The slots from `h` on, `d` of them, are those less than `d` after `h` around the ring (R17). -/
theorem mem_ringSlots (count h d k : Nat) (hh : h < count) (hd : d ≤ count) :
    k ∈ ringSlots count h d ↔ k < count ∧ (k + count - h) % count < d := by
  have wrap : ∀ x y, x < count → (y = x ∨ y = x + count) → y % count = x := by
    rintro x y hx (rfl | rfl)
    · exact Nat.mod_eq_of_lt hx
    · rw [Nat.add_mod_right, Nat.mod_eq_of_lt hx]
  rw [ringSlots_eq count h d hh, List.mem_map]
  simp only [List.mem_range]
  constructor
  · rintro ⟨i, hi, rfl⟩
    refine ⟨Nat.mod_lt _ (Nat.zero_lt_of_lt hh), ?_⟩
    by_cases hw : h + i < count
    · rw [Nat.mod_eq_of_lt hw, wrap i _ (by omega) (by omega)]
      exact hi
    · rw [wrap (h + i - count) (h + i) (by omega) (by omega), wrap i _ (by omega) (by omega)]
      exact hi
  · rintro ⟨hk, hi⟩
    refine ⟨(k + count - h) % count, hi, ?_⟩
    by_cases hkh : h ≤ k
    · rw [wrap (k - h) (k + count - h) (by omega) (by omega)]
      exact wrap k _ hk (by omega)
    · rw [wrap (k + count - h) (k + count - h) (by omega) (by omega)]
      exact wrap k _ hk (by omega)

/-- Settles O24: the slots from H_DL up to the value have their records committed, the others stand. -/
theorem downlinkCommit : Obligations.DownlinkCommit := by
  intro s p w v h hwhole hv hlt hpos
  have hd : ringDistance p.windows.dlCount s.rcu.hDl v = (v + p.windows.dlCount - s.rcu.hDl) % p.windows.dlCount :=
    ringDistance_of_lt _ _ _ hpos
  obtain ⟨h1, h2⟩ := commitRecords_eq
    (ringSlots p.windows.dlCount s.rcu.hDl (ringDistance p.windows.dlCount s.rcu.hDl v)) s.rcu
  have htaken : dlIndexWritten p w (returnWrite w s) = { returnWrite w s with
      rcu := { commitRecords (ringSlots p.windows.dlCount s.rcu.hDl (ringDistance p.windows.dlCount s.rcu.hDl v)) s.rcu
        with hDl := v } } := by
    simp only [dlIndexWritten, hwhole, hv, Nat.not_le.mpr hlt, Bool.not_true, Bool.false_eq_true, if_false,
      returnWrite_rcu]
  rw [exec_dlProducerIndexWrite h, htaken]
  refine ⟨_, rfl, ?_, fun k => (h2 k).trans ?_⟩
  · rw [h1]
  · have hm := mem_ringSlots p.windows.dlCount s.rcu.hDl (ringDistance p.windows.dlCount s.rcu.hDl v) k hpos
      (ringDistance_le _ _ _ (Nat.zero_lt_of_lt hpos))
    rw [hd] at hm ⊢
    exact if_congr hm rfl rfl

end Sys2Proof.Machine
end

