-- ==== Sys2Proof/Proofs/Parser.lean ====
section
/-! SUPPORT. The parser: what its two rows do to the part, and the outcome of a frame by its bytes (R8 to R13). -/

namespace Sys2Proof.Machine

open Sys2Proof

/-! ### What a dispatched frame leaves alone -/

/-- The two states differ in the units that frames are dispatched to and the Report Unit alone. -/
def onlyDispatchDiffers (s t : State) : Prop := t = { s with clu := t.clu, rfu := t.rfu, cvu := t.cvu, rpu := t.rpu }

theorem onlyDispatchDiffers.refl (s : State) : onlyDispatchDiffers s s := rfl

theorem onlyDispatchDiffers.trans {s t u : State} (h : onlyDispatchDiffers s t) (k : onlyDispatchDiffers t u) :
    onlyDispatchDiffers s u := by
  unfold onlyDispatchDiffers at *
  rw [k, h]

theorem craneEntered_only (n : Nat) (s : State) : onlyDispatchDiffers s (craneEntered n s) := by
  unfold craneEntered
  split
  · exact .refl s
  · split
    · exact .refl s
    · split
      · exact .refl s
      · exact rfl
      · exact rfl
      · exact rfl

theorem observe_only (p : Setup) (g : Nat) (dir : Direction) (ex : Option Nat) (level : Int) (now : Qt) (s : State) :
    onlyDispatchDiffers s (observe p g dir ex level now s) := rfl

theorem observeLevel_only (p : Setup) (g : Nat) (ex : Option Nat) (level : Half) (now : Qt) (s : State) :
    onlyDispatchDiffers s (observeLevel p g ex level now s) := by
  unfold observeLevel
  split
  · exact .refl s
  · exact observe_only ..

theorem dispatchStatus_only (p : Setup) (f : StatusFrame) (q : Qt) (s : State) :
    onlyDispatchDiffers s (dispatchStatus p f q s) := by
  unfold dispatchStatus
  have h1 : onlyDispatchDiffers s ({ s with clu := s.clu.setCrane f.crane (handleStatus p s.clu f q).1 }.report
    (handleStatus p s.clu f q).2.1) := rfl
  dsimp only
  split
  · exact h1.trans (craneEntered_only _ _)
  · exact h1.trans (observeLevel_only ..)
  · exact h1
  · exact h1

theorem dispatchReport_only (p : Setup) (r : ReeferReport) (q : Qt) (s : State) :
    onlyDispatchDiffers s (dispatchReport p r q s) := by
  unfold dispatchReport
  have h1 : onlyDispatchDiffers s ({ s with rfu := (admitReport p r q s.rfu).1 }.report
    (admitReport p r q s.rfu).2.1) := rfl
  dsimp only
  split
  · exact h1.trans (observeLevel_only ..)
  · exact h1

theorem observeEntries_only (p : Setup) (now : Qt) (es : List MeasEntry) (s : State) :
    onlyDispatchDiffers s (observeEntries p now es s) := by
  induction es generalizing s with
  | nil => exact .refl s
  | cons e es ih =>
    simp only [observeEntries]
    split
    · exact ih s
    · exact (observe_only ..).trans (ih _)

theorem measClamp_only (p : Setup) (es : List MeasEntry) (now : Qt) (s : State) :
    onlyDispatchDiffers s (measClamp p es now s) := by
  simp only [measClamp]
  split
  · exact rfl
  · split <;> exact rfl

/-- A dispatched frame changes the unit of its kind, the Coverage Unit and the Report Unit at most (R13). -/
theorem dispatch_only (o : ParseOutcome) (q : Qt) (s : State) : onlyDispatchDiffers s (dispatch o q s) := by
  unfold dispatch
  split
  · exact .refl s
  · split
    · exact dispatchStatus_only ..
    · exact dispatchReport_only ..
    · exact (measClamp_only ..).trans (observeEntries_only ..)
    · exact .refl s

/-! ### The rows -/

/-- PARSE_COMPLETE with an entry under parse (R8). -/
theorem exec_parseComplete (s : State) (e : CaptureEntry) (q : Qt) (rest : List ParseItem)
    (hr : s.su.runState = .running) (hp : s.rcu.parsing = true) (hq : s.rcu.queue = .captured e q :: rest) :
    exec .parseComplete s = .next (dispatch (parseCells s.su.setup e.cells) q
      (settleHead (parseCells s.su.setup e.cells) e.slot rest s)) := by
  simp [exec, execParseComplete, hr, hp, hq]

/-- An outcome that no unit is told of. -/
def ParseOutcome.undispatched : ParseOutcome → Bool
  | .acceptedCrane _ => false
  | .acceptedReefer _ => false
  | .acceptedMeas _ => false
  | _ => true

theorem dispatch_undispatched (o : ParseOutcome) (q : Qt) (s : State) (h : o.undispatched = true) :
    dispatch o q s = s := by
  unfold dispatch
  split
  · rfl
  · split
    · cases h
    · cases h
    · cases h
    · rfl

/-- PARSE_COMPLETE with an outcome that no unit is told of: counted, recorded, and nothing else (R11, R12). -/
theorem exec_parseComplete_undispatched (s : State) (e : CaptureEntry) (q : Qt) (rest : List ParseItem)
    (o : ParseOutcome) (hr : s.su.runState = .running) (hp : s.rcu.parsing = true)
    (hq : s.rcu.queue = .captured e q :: rest) (ho : parseCells s.su.setup e.cells = o) (hd : o.undispatched = true) :
    exec .parseComplete s = .next (settledAs s rest (s.rcu.ul.settle o) (outcomeRecords e.slot s.su.qt o)) := by
  rw [exec_parseComplete s e q rest hr hp hq, ho, dispatch_undispatched o q _ hd]
  rfl

/-! ### Bytes of a frame -/

/-- Bytes filled up or cut, one by one. -/
theorem padTo_eq (n : Nat) (bs : List Byte) : padTo n bs = (List.range n).map (fun i => (bs[i]?).getD 0) := by
  apply List.ext_getElem?
  intro i
  simp only [padTo, List.getElem?_take, List.getElem?_map, List.getElem?_append, List.getElem?_replicate]
  by_cases hi : i < n
  · by_cases hb : i < bs.length
    · simp [hi, hb]
    · have hs : i - bs.length < n := by omega
      simp [hi, hb, hs]
  · simp [hi]

theorem slice_eq (bs : List Byte) (a n : Nat) :
    slice bs a n = (List.range n).map (fun i => (bs[a + i]?).getD 0) := by
  simp only [slice, padTo_eq, List.getElem?_drop]

/-- The byte of a cell, 0 where it is UNSEEN. -/
def byteAt (cells : List (Option Byte)) (i : Nat) : Byte := (cellAt cells i).getD 0

theorem cellBytes_get (cells : List (Option Byte)) (i : Nat) : ((cellBytes cells)[i]?).getD 0 = byteAt cells i := by
  simp only [cellBytes, byteAt, cellAt, List.getElem?_map]
  cases cells[i]? <;> rfl

theorem slice_cellBytes (cells : List (Option Byte)) (a n : Nat) :
    slice (cellBytes cells) a n = (List.range n).map (fun i => byteAt cells (a + i)) := by
  simp only [slice_eq, cellBytes_get]

@[simp] theorem lowByte_toNat (b : Byte) : lowByte b.toNat = b := by
  rw [lowByte, BitVec.ofNat_toNat, BitVec.setWidth_eq]

/-- A field of one byte. -/
@[simp] theorem field_byte (cells : List (Option Byte)) (i : Nat) :
    field (cellBytes cells) i 1 = (byteAt cells i).toNat := by
  simp [field, slice_cellBytes, ofLe]

/-- A field of four bytes is 0 when each of them is. -/
theorem field_four_zero (cells : List (Option Byte)) (i : Nat) : field (cellBytes cells) i 4 = 0 ↔
    (byteAt cells i).toNat = 0 ∧ (byteAt cells (i + 1)).toNat = 0 ∧ (byteAt cells (i + 2)).toNat = 0 ∧
      (byteAt cells (i + 3)).toNat = 0 := by
  simp only [field, slice_cellBytes, List.range_succ, List.range_zero, List.nil_append, List.map_cons,
    List.map_nil, List.cons_append, ofLe, Nat.add_zero]
  omega

/-! ### The tests of R9 and R10 -/

theorem unseenIn_eq_zero (cells : List (Option Byte)) (i n : Nat) :
    unseenIn cells i n = 0 ↔ ∀ k, k < n → cellAt cells (i + k) ≠ none := by
  simp only [unseenIn, List.length_eq_zero_iff, List.filter_eq_nil_iff, List.mem_range, Option.isNone_iff_eq_none]

/-- The frame is SHORT (R9). -/
def isShort (cells : List (Option Byte)) : Prop :=
  (∃ i, i < 12 ∧ cellAt cells i = none) ∨
    ∃ l, cellAt cells 5 = some l ∧ l.toNat ≤ 240 ∧ ∃ i, i < l.toNat ∧ cellAt cells (12 + i) = none

theorem unseenRequired_eq_zero (cells : List (Option Byte)) : unseenRequired cells = 0 ↔ ¬ isShort cells := by
  have hpay : unseenIn cells 12 (requiredPayload cells) = 0 ↔
      ¬ ∃ l, cellAt cells 5 = some l ∧ l.toNat ≤ 240 ∧ ∃ i, i < l.toNat ∧ cellAt cells (12 + i) = none := by
    rw [unseenIn_eq_zero]
    unfold requiredPayload
    split
    · rename_i l hl
      simp only [hl, Option.some.injEq]
      by_cases h : l.toNat ≤ 240
      · simp [h]
      · simp [h]
    · rename_i hl
      simp [hl]
  have hhead : unseenIn cells 0 12 = 0 ↔ ¬ ∃ i, i < 12 ∧ cellAt cells i = none := by
    rw [unseenIn_eq_zero]
    simp only [Nat.zero_add]
    push Not
    rfl
  rw [unseenRequired, Nat.add_eq_zero_iff, hpay, hhead, isShort, not_or]

/-- The first failing check of a list decides, else what stands for none. -/
theorem firstFailing_cons_elim {α : Type} (fails : Bool) (code : Byte) (rest : List (Bool × Byte)) (good : α)
    (bad : Byte → α) : (firstFailing ((fails, code) :: rest)).elim good bad =
      if fails = true then bad code else (firstFailing rest).elim good bad := by
  cases fails <;> rfl

theorem firstFailing_nil_elim {α : Type} (good : α) (bad : Byte → α) : (firstFailing []).elim good bad = good := rfl

/-- The outcome of a check that fails (R11). -/
def failedOutcome (cells : List (Option Byte)) (kind reason : Byte) : ParseOutcome :=
  if reason = 0x07 then .badId (slice (cellBytes cells) 12 11) else .fieldBad reason kind

/-- The outcome of a frame no check of which fails (R9). -/
def passedOutcome (setup : Option Setup) (cells : List (Option Byte)) : ParseOutcome :=
  if byteAt cells 4 = 0x01 then
    if craneEnabled setup (byteAt cells 12).toNat then .acceptedCrane (statusFrame cells) else .ignored
  else if byteAt cells 4 = 0x03 then .acceptedReefer (reeferReport cells)
  else .acceptedMeas (measEntries cells)

/-- The tests of R9 in order. -/
theorem parseCells_eq (setup : Option Setup) (cells : List (Option Byte)) : parseCells setup cells =
    if unseenRequired cells ≠ 0 then .short (unseenRequired cells)
    else if byteAt cells 4 ≠ 0x01 ∧ byteAt cells 4 ≠ 0x03 ∧ byteAt cells 4 ≠ 0x04 then .unknownKind (byteAt cells 4)
    else (fieldCheck cells).elim (passedOutcome setup cells) (failedOutcome cells (byteAt cells 4)) := by
  simp only [parseCells, field_byte, lowByte_toNat]
  split
  · rfl
  · split
    · rfl
    · cases fieldCheck cells <;> rfl

/-! ### The outcome by the kind -/

theorem parseCells_short (setup : Option Setup) (cells : List (Option Byte)) :
    (∃ u, parseCells setup cells = .short u) ↔ isShort cells := by
  constructor
  · rintro ⟨u, hu⟩
    by_contra hs
    rw [parseCells_eq, if_neg (not_not.mpr ((unseenRequired_eq_zero cells).mpr hs))] at hu
    split at hu
    · cases hu
    · cases hc : fieldCheck cells with
      | some reason =>
        rw [hc] at hu
        simp only [Option.elim, failedOutcome] at hu
        split at hu <;> cases hu
      | none =>
        rw [hc] at hu
        simp only [Option.elim, passedOutcome] at hu
        split at hu
        · split at hu <;> cases hu
        · split at hu <;> cases hu
  · intro hs
    refine ⟨unseenRequired cells, ?_⟩
    rw [parseCells_eq, if_pos]
    exact fun h0 => (unseenRequired_eq_zero cells).mp h0 hs

theorem parseCells_unknownKind (setup : Option Setup) (cells : List (Option Byte)) (hs : ¬ isShort cells)
    (hk : (byteAt cells 4).toNat ≠ 1 ∧ (byteAt cells 4).toNat ≠ 3 ∧ (byteAt cells 4).toNat ≠ 4) :
    parseCells setup cells = .unknownKind (byteAt cells 4) := by
  obtain ⟨h1, h3, h4⟩ := hk
  have hkind : byteAt cells 4 ≠ 0x01 ∧ byteAt cells 4 ≠ 0x03 ∧ byteAt cells 4 ≠ 0x04 :=
    ⟨fun h => h1 (congrArg BitVec.toNat h), fun h => h3 (congrArg BitVec.toNat h),
      fun h => h4 (congrArg BitVec.toNat h)⟩
  rw [parseCells_eq, if_neg (not_not.mpr ((unseenRequired_eq_zero cells).mpr hs)), if_pos hkind]

/-- A complete frame of one of the three kinds is judged by its field checks (R9). -/
theorem parseCells_known (setup : Option Setup) (cells : List (Option Byte)) (kind : Byte) (hs : ¬ isShort cells)
    (hk : byteAt cells 4 = kind) (h : kind = 0x01 ∨ kind = 0x03 ∨ kind = 0x04) : parseCells setup cells =
      (fieldCheck cells).elim (passedOutcome setup cells) (failedOutcome cells kind) := by
  have hkind : ¬ (kind ≠ 0x01 ∧ kind ≠ 0x03 ∧ kind ≠ 0x04) := by tauto
  rw [parseCells_eq, if_neg (not_not.mpr ((unseenRequired_eq_zero cells).mpr hs)), hk, if_neg hkind]

theorem failedOutcome_other (cells : List (Option Byte)) (kind reason : Byte) (h : reason ≠ 0x07) :
    failedOutcome cells kind reason = .fieldBad reason kind := if_neg h

/-- The checks of a CRANE_STATUS frame in order (R10). -/
theorem parseCells_status (setup : Option Setup) (cells : List (Option Byte)) (hs : ¬ isShort cells)
    (hk : (byteAt cells 4).toNat = 1) : parseCells setup cells =
      if (byteAt cells 8).toNat = 0 ∧ (byteAt cells 9).toNat = 0 ∧ (byteAt cells 10).toNat = 0 ∧
        (byteAt cells 11).toNat = 0 then .fieldBad 0x01 0x01
      else if (byteAt cells 5).toNat ≠ 9 then .fieldBad 0x02 0x01
      else if 11 < (byteAt cells 12).toNat then .fieldBad 0x03 0x01
      else if 2 < (byteAt cells 13).toNat then .fieldBad 0x04 0x01
      else if craneEnabled setup (byteAt cells 12).toNat = true then .acceptedCrane (statusFrame cells)
      else .ignored := by
  have hkind : byteAt cells 4 = 0x01 := BitVec.eq_of_toNat_eq hk
  rw [parseCells_known setup cells 0x01 hs hkind (by decide)]
  simp only [fieldCheck, field_byte, hk, if_true, List.cons_append, List.nil_append, firstFailing_cons_elim,
    firstFailing_nil_elim, decide_eq_true_eq, field_four_zero, gt_iff_lt]
  rw [passedOutcome, if_pos hkind]
  rfl

/-- The checks of a REEFER_STATUS frame in order (R10). -/
theorem parseCells_reefer (setup : Option Setup) (cells : List (Option Byte)) (hs : ¬ isShort cells)
    (hk : (byteAt cells 4).toNat = 3) : parseCells setup cells =
      if (byteAt cells 8).toNat = 0 ∧ (byteAt cells 9).toNat = 0 ∧ (byteAt cells 10).toNat = 0 ∧
        (byteAt cells 11).toNat = 0 then .fieldBad 0x01 0x03
      else if (byteAt cells 5).toNat < 22 then .fieldBad 0x02 0x03
      else if 4 < (byteAt cells 25).toNat then .fieldBad 0x05 0x03
      else if (byteAt cells 5).toNat ≠ 22 + 2 * (byteAt cells 25).toNat then .fieldBad 0x02 0x03
      else if idFormatOk ((List.range 11).map (fun i => byteAt cells (12 + i))) = false then .fieldBad 0x06 0x03
      else if checkDigitOk ((List.range 11).map (fun i => byteAt cells (12 + i))) = false then
        .badId ((List.range 11).map (fun i => byteAt cells (12 + i)))
      else if 15 < (byteAt cells 23).toNat then .fieldBad 0x08 0x03
      else if 3 < (byteAt cells 24).toNat then .fieldBad 0x09 0x03
      else .acceptedReefer (reeferReport cells) := by
  have hkind : byteAt cells 4 = 0x03 := BitVec.eq_of_toNat_eq hk
  rw [parseCells_known setup cells 0x03 hs hkind (by decide)]
  simp only [fieldCheck, field_byte, hk, if_true, List.cons_append, List.nil_append, firstFailing_cons_elim,
    firstFailing_nil_elim, decide_eq_true_eq, field_four_zero, gt_iff_lt, slice_cellBytes,
    Bool.not_eq_eq_eq_not, Bool.not_true, failedOutcome, Nat.reduceEqDiff, if_false]
  rw [passedOutcome, hkind]
  rfl

/-- The checks of a MEAS_REPORT frame in order (R10). -/
theorem parseCells_meas (setup : Option Setup) (cells : List (Option Byte)) (hs : ¬ isShort cells)
    (hk : (byteAt cells 4).toNat = 4) : parseCells setup cells =
      if (byteAt cells 8).toNat = 0 ∧ (byteAt cells 9).toNat = 0 ∧ (byteAt cells 10).toNat = 0 ∧
        (byteAt cells 11).toNat = 0 then .fieldBad 0x01 0x04
      else if (byteAt cells 5).toNat = 0 then .fieldBad 0x02 0x04
      else if cellAt cells 12 ≠ none ∧ ((byteAt cells 12).toNat = 0 ∨ 8 < (byteAt cells 12).toNat) then
        .fieldBad 0x0A 0x04
      else if (byteAt cells 5).toNat ≠ 1 + 6 * (byteAt cells 12).toNat then .fieldBad 0x02 0x04
      else .acceptedMeas (measEntries cells) := by
  have hkind : byteAt cells 4 = 0x04 := BitVec.eq_of_toNat_eq hk
  rw [parseCells_known setup cells 0x04 hs hkind (by decide)]
  simp only [fieldCheck, field_byte, hk, List.cons_append, List.nil_append, firstFailing_cons_elim,
    firstFailing_nil_elim, decide_eq_true_eq, field_four_zero, gt_iff_lt, failedOutcome,
    Bool.and_eq_true, Bool.or_eq_true, Option.isSome_iff_ne_none, Nat.reduceEqDiff, if_false]
  rw [passedOutcome, hkind]
  rfl

/-- The identity a bad check digit is reported with has eleven characters. -/
theorem parseCells_badId (setup : Option Setup) (cells : List (Option Byte)) (id : List Byte)
    (h : parseCells setup cells = .badId id) : id.length = 11 := by
  rw [parseCells_eq] at h
  split at h
  · cases h
  · split at h
    · cases h
    · cases hc : fieldCheck cells with
      | some reason =>
        rw [hc] at h
        simp only [Option.elim, failedOutcome] at h
        split at h
        · cases h
          simp [slice_cellBytes]
        · cases h
      | none =>
        rw [hc] at h
        simp only [Option.elim, passedOutcome] at h
        split at h
        · split at h <;> cases h
        · split at h <;> cases h

/-! ### PARSE_START and PARSE_COMPLETE -/

theorem exec_parseStart_placeholder (s : State) (slot : Nat) (q : Qt) (rest : List ParseItem)
    (hr : s.su.runState = .running) (hp : s.rcu.parsing = false) (hq : s.rcu.queue = .placeholder slot q :: rest) :
    exec .parseStart s = .next (settleHead .uncaptured slot rest s) := by
  simp [exec, execParseStart, hr, hp, hq]

theorem exec_parseStart_captured (s : State) (e : CaptureEntry) (q : Qt) (rest : List ParseItem)
    (hr : s.su.runState = .running) (hp : s.rcu.parsing = false) (hq : s.rcu.queue = .captured e q :: rest) :
    exec .parseStart s = .next { s with rcu := { s.rcu with parsing := true } } := by
  simp [exec, execParseStart, hr, hp, hq]

/-- Settling the head counts one outcome and leaves the rest of the part to the records (R8, R12). -/
theorem dispatch_settleHead (o : ParseOutcome) (q : Qt) (slot : Nat) (rest : List ParseItem) (s : State) :
    ∃ t, dispatch o q (settleHead o slot rest s) = t ∧
      t.rcu = { s.rcu with queue := rest, parsing := false, ul := t.rcu.ul } ∧
      t.rcu.ul.committed = s.rcu.ul.committed ∧ t.rcu.ul.outcomeSum = s.rcu.ul.outcomeSum + 1 ∧
      t.su = s.su ∧ t.pu = s.pu ∧ t.vu = s.vu ∧ t.due = s.due ∧ t.pending = s.pending ∧ t.free = s.free := by
  obtain ⟨hsum, hcom⟩ := UlCounters.settle_sum s.rcu.ul o
  refine ⟨_, rfl, ?_⟩
  rw [dispatch_only o q (settleHead o slot rest s)]
  exact ⟨rfl, hcom, hsum, rfl, rfl, rfl, rfl, rfl, rfl⟩

/-- Settles O13: each outcome through the row of its kind, and the outcome by the checks in order. -/
theorem parserRows : Obligations.ParserRows := by
  refine ⟨fun s hr => ⟨fun slot q rest hp hq => ?_, fun e q rest hp hq => ?_, fun e q rest hp hq => ⟨?_, ?_⟩⟩,
    fun setup cells => ⟨parseCells_short setup cells, fun hs => ⟨fun hk => ?_, fun hk => ?_, fun hk => ?_,
      fun hk => ?_⟩⟩⟩
  · exact ⟨recSlotUncaptured slot s.su.qt, by
      rw [exec_parseStart_placeholder s slot q rest hr hp hq]; simp [settleHead, State.report, outcomeRecords,
        UlCounters.settle, hp], rfl, rfl, rfl, rfl⟩
  · exact exec_parseStart_captured s e q rest hr hp hq
  · obtain ⟨t, ht, hrest⟩ := dispatch_settleHead (parseCells s.su.setup e.cells) q e.slot rest s
    exact ⟨t, by rw [exec_parseComplete s e q rest hr hp hq, ht], hrest⟩
  · have hrow := fun o ho => exec_parseComplete_undispatched s e q rest o hr hp hq ho
    refine ⟨fun n ho => ⟨_, hrow _ ho rfl, rfl, rfl, rfl, rfl, rfl⟩,
      fun kind ho => ⟨_, hrow _ ho rfl, rfl, rfl, rfl, rfl, rfl⟩,
      fun reason kind ho => ⟨_, hrow _ ho rfl, rfl, rfl, rfl, rfl, rfl⟩,
      fun id ho => ⟨_, hrow _ ho rfl, rfl, rfl, rfl, rfl, ?_⟩, fun ho => hrow _ ho rfl⟩
    have hlen := parseCells_badId _ _ _ ho
    simp [recBadId, mkRecord, padTo, hlen, List.take_append, List.take_of_length_le]
  · have hu := parseCells_unknownKind setup cells hs hk
    simpa [byteAt] using hu
  · exact parseCells_status setup cells hs hk
  · exact parseCells_reefer setup cells hs hk
  · exact parseCells_meas setup cells hs hk

end Sys2Proof.Machine
end

