-- ==== Sys2Proof/Proofs/Measurements.lean ====
section
/-! SUPPORT. Accepted frames dispatched, and a measurement report taken whole (R13, R115 to R120). -/

namespace Sys2Proof.Machine

open Sys2Proof

/-! ### Records handed over in turn -/

theorem ReportUnit.handOverAll_append (u : ReportUnit) (rs rs' : List Record) :
    u.handOverAll (rs ++ rs') = (u.handOverAll rs).handOverAll rs' := by
  induction rs generalizing u with
  | nil => rfl
  | cons r rs ih => exact ih (u.handOver r)

theorem State.report_report (s : State) (rs rs' : List Record) : (s.report rs).report rs' = s.report (rs ++ rs') := by
  simp only [State.report, ReportUnit.handOverAll_append]

/-! ### An accepted frame -/

/-- PARSE_COMPLETE with the outcome of the item under parse fixed. -/
theorem exec_parsesTo {s : State} {p : Setup} {e : CaptureEntry} {q : Qt} {rest : List ParseItem} {o : ParseOutcome}
    (h : parsesTo s p e q rest o) : exec .parseComplete s = .next (dispatch o q (settleHead o e.slot rest s)) := by
  obtain ⟨-, hr, hp, hq, ho⟩ := h
  rw [exec_parseComplete s e q rest hr hp hq, ho]

/-- The item under parse settled with the counters given, nothing recorded. -/
def settledUl (s : State) (rest : List ParseItem) (ul : UlCounters) : State :=
  { s with rcu := { s.rcu with queue := rest, parsing := false, ul := ul } }

theorem exec_parsesTo_meas {s : State} {p : Setup} {e : CaptureEntry} {q : Qt} {rest : List ParseItem}
    {es : List MeasEntry} (h : parsesTo s p e q rest (.acceptedMeas es)) : exec .parseComplete s = .next
      (takeMeasurement p es q
        (settledUl s rest { s.rcu.ul with acceptedMeas := s.rcu.ul.acceptedMeas + 1 })) := by
  rw [exec_parsesTo h, dispatch]
  have hsu : (settleHead (.acceptedMeas es) e.slot rest s).su.setup = some p := h.1
  rw [hsu]
  rfl

theorem exec_parsesTo_crane {s : State} {p : Setup} {e : CaptureEntry} {q : Qt} {rest : List ParseItem}
    {f : StatusFrame} (h : parsesTo s p e q rest (.acceptedCrane f)) : exec .parseComplete s = .next
      (dispatchStatus p f q
        (settledUl s rest { s.rcu.ul with acceptedCrane := s.rcu.ul.acceptedCrane + 1 })) := by
  rw [exec_parsesTo h, dispatch]
  have hsu : (settleHead (.acceptedCrane f) e.slot rest s).su.setup = some p := h.1
  rw [hsu]
  rfl

theorem exec_parsesTo_reefer {s : State} {p : Setup} {e : CaptureEntry} {q : Qt} {rest : List ParseItem}
    {r : ReeferReport} (h : parsesTo s p e q rest (.acceptedReefer r)) : exec .parseComplete s = .next
      (dispatchReport p r q
        (settledUl s rest { s.rcu.ul with acceptedReefer := s.rcu.ul.acceptedReefer + 1 })) := by
  rw [exec_parsesTo h, dispatch]
  have hsu : (settleHead (.acceptedReefer r) e.slot rest s).su.setup = some p := h.1
  rw [hsu]
  rfl

/-! ### Observations -/

/-- The records are CLASS_CHANGE of the Coverage Unit. -/
def classChanges (rs : List Record) : Prop := ∀ r ∈ rs, r.origin = .cvu ∧ r.code = 0x30

theorem classChanges_nil : classChanges [] := fun _ h => nomatch h

theorem classChanges.append {rs rs' : List Record} (h : classChanges rs) (h' : classChanges rs') :
    classChanges (rs ++ rs') := fun r hr => (List.mem_append.mp hr).elim (h r) (h' r)

theorem appendClass_records (p : Setup) (seg : Nat) (g : Segment) (c : SegClass) (v : Option Int) (now : Qt) :
    classChanges (appendClass p seg g c v now).2 := by
  simp only [appendClass]
  split
  · split
    · exact classChanges_nil
    · intro r hr
      cases List.mem_singleton.mp hr
      exact ⟨rfl, rfl⟩
  · exact classChanges_nil

theorem observeSegment_records (p : Setup) (shadow : Bool) (seg : Nat) (dir : Direction) (level : Int) (now : Qt)
    (g : Segment) : classChanges (observeSegment p shadow seg dir level now g).2 := by
  unfold observeSegment
  split
  · exact classChanges_nil
  · split
    · exact classChanges_nil
    · simp only [storeUnshadowed]
      split
      · exact appendClass_records _ _ _ _ _ _
      · exact classChanges_nil

theorem clampPosition_eq_min (p : Setup) (x : Nat) : clampPosition p x = min x (quayEnd p - 1) := by
  unfold clampPosition
  split <;> omega

/-- What one entry of a measurement report makes of segment `g`. -/
def entryObserved (p : Setup) (shadow : Nat → Bool) (now : Qt) (g : Nat) (y : Segment) (x : MeasEntry) : Segment :=
  if g = min x.position (quayEnd p - 1) / p.coverage.segLenCm ∧ x.level ≠ 0x7FFF then
    (observeSegment p (shadow g) g .dl x.level.toInt now y).1
  else y

/-- The entries observed in list order: each segment folds those that fall in it, and every record is CLASS_CHANGE. -/
theorem observeEntries_taken (p : Setup) (now : Qt) (es : List MeasEntry) (s : State) :
    ∃ segs rs, observeEntries p now es s =
        { s with cvu := { s.cvu with segments := segs }, rpu := s.rpu.handOverAll rs } ∧
      (∀ g, segs.get Segment.blank g =
        es.foldl (entryObserved p (fun k => shadowedNow s p k none) now g) (s.cvu.segment g)) ∧ classChanges rs := by
  induction es generalizing s with
  | nil => exact ⟨s.cvu.segments, [], rfl, fun _ => rfl, classChanges_nil⟩
  | cons x es ih =>
    simp only [observeEntries, List.foldl_cons]
    by_cases hl : x.level = 0x7FFF
    · rw [if_pos (by exact hl)]
      obtain ⟨segs, rs, heq, hseg, hrec⟩ := ih s
      refine ⟨segs, rs, heq, fun g => ?_, hrec⟩
      rw [hseg g, entryObserved, if_neg (fun h => h.2 hl)]
    · rw [if_neg (by exact hl), clampPosition_eq_min]
      generalize hk : segmentOf p (min x.position (quayEnd p - 1)) = k
      obtain ⟨segs, rs, heq, hseg, hrec⟩ := ih (observe p k .dl none x.level.toInt now s)
      refine ⟨segs, (observeSegment p (shadowedNow s p k none) k .dl x.level.toInt now (s.cvu.segment k)).2 ++ rs,
        ?_, fun g => ?_, (observeSegment_records _ _ _ _ _ _ _).append hrec⟩
      · rw [heq, ReportUnit.handOverAll_append]
        rfl
      · rw [hseg g]
        congr 1
        simp only [observe, State.report_cvu, CoverageUnit.segment_setSegment, entryObserved]
        rw [segmentOf] at hk
        by_cases hg : g = k
        · rw [if_pos hg, if_pos ⟨hg.trans hk.symm, hl⟩, hg]
        · rw [if_neg hg, if_neg (fun h => hg (h.1.trans hk))]

/-! ### The clamp flag -/

/-- A report with entries beyond the quay sets the flag and records it once; one without clears it (R116). -/
theorem measClamp_taken (p : Setup) (es : List MeasEntry) (now : Qt) (s : State) : ∃ rs, measClamp p es now s =
      { s with cvu := { s.cvu with clampReported := es.any (fun x => decide (quayEnd p ≤ x.position)) },
               rpu := s.rpu.handOverAll rs } ∧
    (∀ r ∈ rs, r.origin = .cvu ∧ r.code = 0x34) ∧
    rs.length = if es.any (fun x => decide (quayEnd p ≤ x.position)) = true ∧ s.cvu.clampReported = false then 1
      else 0 := by
  have hany : es.any (fun x => decide (quayEnd p ≤ x.position)) =
      !(es.filter (fun x => decide (quayEnd p ≤ x.position))).isEmpty := by
    rw [Bool.eq_iff_iff]
    simp
  simp only [measClamp, hany]
  cases hf : es.filter (fun x => decide (quayEnd p ≤ x.position)) with
  | nil => exact ⟨[], rfl, fun _ h => (nomatch h), rfl⟩
  | cons x xs =>
    cases hc : s.cvu.clampReported with
    | true => exact ⟨[], by simp [← hc], fun _ h => (nomatch h), by simp⟩
    | false =>
      refine ⟨[_], rfl, fun r hr => ?_, by simp⟩
      cases List.mem_singleton.mp hr
      exact ⟨rfl, rfl⟩

/-- Settles O14: the clamp flag first, then the entries observed in list order. -/
theorem measurementReportTaken : Obligations.MeasurementReportTaken := by
  intro s p e q rest es h
  obtain ⟨clampRs, hclamp, hclampRec, hclampLen⟩ :=
    measClamp_taken p es q (settledUl s rest { s.rcu.ul with acceptedMeas := s.rcu.ul.acceptedMeas + 1 })
  obtain ⟨segs, rs, hobs, hseg, hrec⟩ := observeEntries_taken p q es
    (measClamp p es q (settledUl s rest { s.rcu.ul with acceptedMeas := s.rcu.ul.acceptedMeas + 1 }))
  refine ⟨_, clampRs ++ rs, exec_parsesTo_meas h, ?_, ?_, ?_, ?_⟩
  · rw [takeMeasurement, hobs, hclamp, ReportUnit.handOverAll_append]
    rfl
  · intro g
    rw [takeMeasurement, hobs]
    refine (hseg g).trans ?_
    rw [hclamp]
    rfl
  · intro r hr
    rcases List.mem_append.mp hr with hr | hr
    · exact ⟨(hclampRec r hr).1, .inl (hclampRec r hr).2⟩
    · exact ⟨(hrec r hr).1, .inr (hrec r hr).2⟩
  · have hone : (clampRs.map Record.code).count 0x34 = clampRs.length := by
      rw [← List.length_map (f := Record.code), List.count_eq_length]
      intro c hc
      obtain ⟨r, hr, rfl⟩ := List.mem_map.mp hc
      exact (hclampRec r hr).2.symm
    have hnone : (rs.map Record.code).count 0x34 = 0 := by
      rw [List.count_eq_zero]
      intro hc
      obtain ⟨r, hr, hrc⟩ := List.mem_map.mp hc
      rw [(hrec r hr).2] at hrc
      exact absurd hrc (by decide)
    rw [List.map_append, List.count_append, hone, hnone]
    exact hclampLen

end Sys2Proof.Machine
end

