-- ==== Sys2Proof/Proofs/StatusFrames.lean ====
section
/-! SUPPORT. Crane status frames that a crane takes: each step of R25 as an equation, and the frame as a whole. -/

namespace Sys2Proof.Machine

open Sys2Proof

/-! ### The observation of a frame or report -/

/-- Who shadows a segment does not depend on the excluded crane. -/
theorem shadowedNow_congr {s s' : State} (p : Setup) (seg : Nat) (ex : Option Nat) (hsu : s'.su = s.su)
    (hc : ∀ m, ex ≠ some m → s'.clu.crane m = s.clu.crane m) : shadowedNow s' p seg ex = shadowedNow s p seg ex := by
  unfold shadowedNow
  refine congrArg (List.any _) (funext fun n => ?_)
  by_cases hn : ex = some n
  · rw [if_pos hn, if_pos hn]
  · rw [if_neg hn, if_neg hn, shadowPosition, shadowPosition, hsu, hc n hn]

theorem observed_congr {s s' : State} (p : Setup) (seg : Nat) (dir : Direction) (ex : Option Nat) (level : Half)
    (now : Qt) (g : Nat) (hsu : s'.su = s.su) (hcvu : s'.cvu = s.cvu)
    (hc : ∀ m, ex ≠ some m → s'.clu.crane m = s.clu.crane m) :
    observed p s' seg dir ex level now g = observed p s seg dir ex level now g := by
  rw [observed, observed, shadowedNow_congr p seg ex hsu hc, hcvu]

/-- An observation changes its own segment alone, and none with the unknown level (R115). -/
theorem observeLevel_taken (p : Setup) (seg : Nat) (ex : Option Nat) (level : Half) (now : Qt) (s : State) :
    ∃ segs rs, observeLevel p seg ex level now s =
        { s with cvu := { s.cvu with segments := segs }, rpu := s.rpu.handOverAll rs } ∧
      (∀ g, segs.get Segment.blank g = observed p s seg .ul ex level now g) ∧
      (level = 0x7FFF → segs = s.cvu.segments) ∧ classChanges rs := by
  by_cases hl : level = 0x7FFF
  · refine ⟨s.cvu.segments, [], if_pos hl, fun g => ?_, fun _ => rfl, classChanges_nil⟩
    rw [observed, if_neg (fun h => h.2 hl)]
    rfl
  · refine ⟨(s.cvu.setSegment seg (observeSegment p (shadowedNow s p seg ex) seg .ul level.toInt now
      (s.cvu.segment seg)).1).segments, _, if_neg hl, fun g => ?_, fun h => absurd h hl, observeSegment_records _ _ _ _ _ _ _⟩
    refine (CoverageUnit.segment_setSegment s.cvu seg g _).trans ?_
    rw [observed]
    by_cases hg : g = seg
    · rw [if_pos hg, if_pos ⟨hg, hl⟩]
    · rw [if_neg hg, if_neg (fun h => hg h.1)]

/-! ### The steps of R25 on a crane record -/

theorem Crane.takeSequence_eq (c : Crane) (seq : Half) (gap fresh : Bool) : c.takeSequence seq gap fresh = { c with
    lastSeq := seq, seqValid := true
    recovery := if gap && c.recovering then (if fresh then 1 else 0) else c.recovery
    counters := { c.counters with gap := if gap = true then c.counters.gap + 1 else c.counters.gap } } := by
  cases gap with
  | false => rfl
  | true =>
    simp only [Crane.takeSequence, Crane.countGap, if_true, Bool.true_and]
    split <;> rfl

theorem Crane.takeAged_eq (c : Crane) : c.takeAged = { c with
    recovery := if c.recovering then 0 else c.recovery
    counters := { c.counters with aged := c.counters.aged + 1 } } := by
  simp only [Crane.takeAged, Crane.countAged]
  split <;> rfl

/-- The last arrival after a fresh frame (R32). -/
def movedArrival (recovering : Bool) (last : Option Qt) (a : Qt) : Option Qt :=
  match last with
  | none => some a
  | some l => if recovering || laterQt a l then some a else some l

theorem movedArrival_recovering (last : Option Qt) (a : Qt) : movedArrival true last a = some a := by
  cases last <;> rfl

theorem Crane.moveArrival_eq (c : Crane) (a : Qt) :
    c.moveArrival a = { c with lastArrival := movedArrival c.recovering c.lastArrival a } := by
  cases hl : c.lastArrival with
  | none => simp only [Crane.moveArrival, hl, movedArrival]
  | some l =>
    simp only [Crane.moveArrival, hl, movedArrival]
    split
    · rfl
    · rw [← hl]

/-- The last round-trip time after the echo `e` of a frame that arrived at `a`, `old` before (R33). -/
def echoLast (l : List Outstanding) (e : Half) (a : Qt) (old : Word) : Word :=
  match exactEntry l e with
  | some o => roundTrip a o.departed
  | none => old

/-- The greatest round-trip time after the echo, `old` before (R33). -/
def echoGreatest (l : List Outstanding) (e : Half) (a : Qt) (old : Word) : Word :=
  match exactEntry l e with
  | some o => if old.toNat < (roundTrip a o.departed).toNat then roundTrip a o.departed else old
  | none => old

theorem Crane.takeEcho_eq (c : Crane) (e : Half) (a : Qt) : c.takeEcho e a = { c with
    outstanding := c.outstanding.filter (fun o => !echoCovers e o.seq)
    rttLast := echoLast c.outstanding e a c.rttLast
    rttGreatest := echoGreatest c.outstanding e a c.rttGreatest } := by
  unfold Crane.takeEcho echoLast echoGreatest
  cases exactEntry c.outstanding e <;> rfl

/-- A crane with the list and the round-trip times of the echo step is as `echoTaken` says. -/
theorem echoTaken_of {c y : Crane} {e : Half} {a : Qt}
    (hl : y.outstanding = c.outstanding.filter (fun o => !echoCovers e o.seq))
    (hr : y.rttLast = echoLast c.outstanding e a c.rttLast)
    (hg : y.rttGreatest = echoGreatest c.outstanding e a c.rttGreatest) : echoTaken c y e a := by
  refine ⟨?_, fun hnone => ?_, fun o ho => ?_⟩
  · rw [hl]
    refine List.filter_congr fun o _ => ?_
    have hd : echoCovers e o.seq = decide ((e - o.seq).toNat < 32768) := rfl
    rw [hd, ← decide_not]
    exact decide_eq_decide.mpr Nat.not_lt
  · have hx : exactEntry c.outstanding e = none :=
      List.find?_eq_none.mpr fun o ho => by simpa using hnone o ho
    rw [hr, hg, echoLast, echoGreatest, hx]
    exact ⟨rfl, rfl⟩
  · have hx : exactEntry c.outstanding e = some o := ho
    rw [hr, hg, echoLast, echoGreatest, hx]
    exact ⟨rfl, rfl⟩

/-- POSITION_CLAMPED of a fresh frame beyond the quay, once (R35). -/
def clampRecords (p : Setup) (c : Crane) (f : StatusFrame) (now : Qt) : List Record :=
  if quayEnd p ≤ f.gantry ∧ c.clampReported = false then [recCraneClamped f.crane f.gantry now] else []

theorem Crane.takePosition_eq (p : Setup) (c : Crane) (f : StatusFrame) (now : Qt) :
    c.takePosition p f.crane f now = ({ c with
      position := some (min f.gantry (quayEnd p - 1)), boom := f.boom, localCtl := f.localCtl
      clampReported := decide (quayEnd p ≤ f.gantry) }, clampRecords p c f now) := by
  simp only [Crane.takePosition, clampPosition_eq_min, clampRecords]
  by_cases hq : f.gantry < quayEnd p
  · have hn : ¬ quayEnd p ≤ f.gantry := by omega
    simp [hq, hn]
  · have hn : quayEnd p ≤ f.gantry := by omega
    cases hc : c.clampReported <;> simp [hq, hn]

/-- The entries of a trace after a fresh frame (R36). -/
def appendedTrace (t : TraceState) (l : List TraceEntry) (x : TraceEntry) : List TraceEntry :=
  match t with
  | .frozen => l
  | _ => pushBounded Config.traceDepth l x

/-- The state of a trace after a fresh frame (R36). -/
def nextTrace : TraceState → TraceState
  | .closing n => if n ≤ 1 then .frozen else .closing (n - 1)
  | t => t

theorem Crane.appendTrace_eq (c : Crane) (x : TraceEntry) : c.appendTrace x =
    { c with trace := appendedTrace c.traceState c.trace x, traceState := nextTrace c.traceState } := by
  cases c
  rename_i t
  cases t <;> rfl

/-- A crane with the trace of the trace step is as `traceTaken` says. -/
theorem traceTaken_of {c y : Crane} {x : TraceEntry} (ht : y.trace = appendedTrace c.traceState c.trace x)
    (hs : y.traceState = nextTrace c.traceState) : traceTaken c y x := by
  unfold traceTaken
  cases h : c.traceState with
  | frozen => rw [h] at ht hs; exact ⟨ht, hs⟩
  | recording => rw [h] at ht hs; exact ⟨ht, hs⟩
  | closing n =>
    rw [h] at ht hs
    refine ⟨ht, fun hn => hs.trans ?_⟩
    by_cases h1 : n = 1
    · simp [nextTrace, h1]
    · simp only [nextTrace, if_neg h1]
      rw [if_neg (by omega)]

/-! ### A fresh frame and an aged one -/

/-- The crane record of a fresh frame before the state step (R29 to R36). -/
def Crane.stored (p : Setup) (f : StatusFrame) (now : Qt) (gap : Bool) (c : Crane) : Crane :=
  let a : Qt := now - f.age.setWidth 32
  let x := min f.gantry (quayEnd p - 1)
  { c with
    lastSeq := f.seq, seqValid := true
    recovery := if gap && c.recovering then 1 else c.recovery
    counters := { c.counters with gap := if gap = true then c.counters.gap + 1 else c.counters.gap }
    lastArrival := movedArrival c.recovering c.lastArrival a
    outstanding := c.outstanding.filter (fun o => !echoCovers f.echo o.seq)
    rttLast := echoLast c.outstanding f.echo a c.rttLast
    rttGreatest := echoGreatest c.outstanding f.echo a c.rttGreatest
    position := some x, boom := f.boom, localCtl := f.localCtl, clampReported := decide (quayEnd p ≤ f.gantry)
    trace := appendedTrace c.traceState c.trace ⟨f.seq, a, f.level, x, f.boom⟩
    traceState := nextTrace c.traceState }

/-- The crane record of an aged frame (R29 to R34). -/
def Crane.agedBy (f : StatusFrame) (now : Qt) (gap : Bool) (c : Crane) : Crane :=
  let a : Qt := now - f.age.setWidth 32
  { c with
    lastSeq := f.seq, seqValid := true
    recovery := if c.recovering then 0 else c.recovery
    counters := { c.counters with
      gap := if gap = true then c.counters.gap + 1 else c.counters.gap
      aged := c.counters.aged + 1 }
    outstanding := c.outstanding.filter (fun o => !echoCovers f.echo o.seq)
    rttLast := echoLast c.outstanding f.echo a c.rttLast
    rttGreatest := echoGreatest c.outstanding f.echo a c.rttGreatest }

theorem takeStatus_fresh (p : Setup) (f : StatusFrame) (now : Qt) (gap : Bool) (c : Crane)
    (h : f.age.toNat < p.timing.lateMs) : takeStatus p f.crane f now gap c =
      (let r := (c.stored p f now gap).takeState p f.crane gap c.lastArrival (now - f.age.setWidth 32) now
       (r.1, echoAheadRecord f.crane c f.echo now ++ clampRecords p c f now ++ r.2, .fresh)) := by
  simp only [takeStatus, h, decide_true, if_true, Crane.takeSequence_eq, Crane.moveArrival_eq, Crane.takeEcho_eq,
    Crane.takePosition_eq, Crane.appendTrace_eq, clampPosition_eq_min]
  rfl

theorem takeStatus_aged (p : Setup) (f : StatusFrame) (now : Qt) (gap : Bool) (c : Crane)
    (h : p.timing.lateMs ≤ f.age.toNat) : takeStatus p f.crane f now gap c =
      (c.agedBy f now gap, echoAheadRecord f.crane c f.echo now, .aged) := by
  simp only [takeStatus, Nat.not_lt.mpr h, decide_false, Bool.false_eq_true, if_false, Crane.takeSequence_eq,
    Crane.takeAged_eq, Crane.takeEcho_eq]
  refine Prod.ext ?_ rfl
  unfold Crane.agedBy Crane.recovering
  cases c.link == .idle || c.link == .lost <;> simp

/-! ### The state step -/

/-- LINK_LIVE where a frame makes the crane LIVE (R38, R39). -/
def liveRecords (n : Nat) (c : Crane) (arrival : Option Qt) (live : Bool) (now : Qt) : List Record :=
  if live = true then [recLinkLive n c.link arrival now] else []

/-- A fresh frame of a LIVE or LATE crane leaves it LIVE (R39). -/
theorem Crane.takeState_watched (p : Setup) (f : StatusFrame) (now : Qt) (gap : Bool) (c : Crane)
    (h : c.link = .live ∨ c.link = .late) :
    (c.stored p f now gap).takeState p f.crane gap c.lastArrival (now - f.age.setWidth 32) now =
      ({ c.stored p f now gap with link := .live },
        liveRecords f.crane c (c.stored p f now gap).lastArrival (decide (c.link = .late)) now) := by
  have hlink : (c.stored p f now gap).link = c.link := rfl
  unfold Crane.takeState
  rw [hlink]
  rcases h with h | h
  · have hc : { c.stored p f now gap with link := .live } = c.stored p f now gap := by rw [← h, ← hlink]
    simp [h, liveRecords, hc]
  · simp [h, liveRecords]

/-- The recovery count a fresh frame gives a crane in IDLE or LOST, `r` before (R30, R38). -/
def recoveryCount (lateMs : Nat) (gap : Bool) (before : Option Qt) (a : Qt) (r : Nat) : Nat :=
  if gap = true ∨ spacingBreaks lateMs before a = true then 1 else r + 1

/-- A fresh frame of a crane in IDLE or LOST counts toward recovery, and RECOVER_COUNT makes it LIVE (R38). -/
theorem Crane.takeState_recovering (p : Setup) (f : StatusFrame) (now : Qt) (gap : Bool) (c : Crane) (n : Nat)
    (h : c.link = .idle ∨ c.link = .lost)
    (hn : recoveryCount p.timing.lateMs gap c.lastArrival (now - f.age.setWidth 32) c.recovery = n) :
    (c.stored p f now gap).takeState p f.crane gap c.lastArrival (now - f.age.setWidth 32) now =
      ({ c.stored p f now gap with
          link := if n = p.timing.recoverCount then .live else c.link
          recovery := if n = p.timing.recoverCount then 0 else n },
        liveRecords f.crane c (c.stored p f now gap).lastArrival (decide (n = p.timing.recoverCount)) now) := by
  have hrec : c.recovering = true := by
    unfold Crane.recovering
    rcases h with h | h <;> rw [h] <;> rfl
  have hcount : (if gap then (c.stored p f now gap).recovery
      else (if spacingBreaks p.timing.lateMs c.lastArrival (now - f.age.setWidth 32) then 0
        else (c.stored p f now gap).recovery) + 1) = n := by
    rw [← hn, recoveryCount]
    cases gap with
    | true => simp [Crane.stored, hrec]
    | false =>
      cases spacingBreaks p.timing.lateMs c.lastArrival (now - f.age.setWidth 32) <;> simp [Crane.stored]
  have hlink : (c.stored p f now gap).link = c.link := rfl
  unfold Crane.takeState
  rw [hcount, hlink]
  by_cases hlive : n = p.timing.recoverCount
  · rcases h with h | h <;> simp [h, hlive, liveRecords]
  · rcases h with h | h <;> simp [h, hlive, liveRecords, Crane.stored]

theorem recoveryCount_first (lateMs : Nat) (gap : Bool) (a : Qt) (r : Nat) :
    recoveryCount lateMs gap none a r = if gap = true ∨ false = true then 1 else r + 1 := rfl

/-- The spacing of a fresh frame, where a frame can be fresh at all (R38). -/
theorem recoveryCount_later (lateMs : Nat) (gap : Bool) (l a : Qt) (r : Nat) (h : 0 < lateMs) :
    recoveryCount lateMs gap (some l) a r =
      if gap = true ∨ decide (lateMs ≤ (a - l).toNat ∧ (a - l).toNat < 2 ^ 31) = true then 1 else r + 1 := by
  have hs : spacingBreaks lateMs (some l) a = decide (lateMs ≤ (a - l).toNat ∧ (a - l).toNat < 2 ^ 31) := by
    change (decide (1 ≤ (a - l).toNat) && decide ((a - l).toNat < 2 ^ 31) && decide (lateMs ≤ (a - l).toNat)) =
      decide (lateMs ≤ (a - l).toNat ∧ (a - l).toNat < 2 ^ 31)
    generalize (a - l).toNat = d
    rw [Bool.eq_iff_iff]
    simp only [Bool.and_eq_true, decide_eq_true_eq]
    omega
  rw [recoveryCount, hs]

/-! ### The claim and sequence steps -/

/-- SEQ_GAP of a frame that a crane takes after a gap (R30). -/
def gapRecords (c : Crane) (f : StatusFrame) (now : Qt) : List Record :=
  if c.gapBefore f.seq = true then
    [recSeqGap f.crane (c.lastSeq + 1) f.seq ((f.seq - c.lastSeq).toNat - 1) now]
  else []

theorem sequenceOutcome_takes {c : Crane} {seq : Half} (h : c.takes seq) : sequenceOutcome c seq =
    if c.gapBefore seq = true then .gap ((seq - c.lastSeq).toNat - 1) else .inSequence := by
  change _ = if (c.seqValid && decide (2 ≤ seqDiff seq c.lastSeq)) = true then Sequence.gap (seqDiff seq c.lastSeq - 1)
    else Sequence.inSequence
  unfold sequenceOutcome
  dsimp only
  rcases h with hv | ⟨h1, h2⟩
  · simp [hv]
  · change 1 ≤ seqDiff seq c.lastSeq at h1
    change seqDiff seq c.lastSeq < 32768 at h2
    generalize seqDiff seq c.lastSeq = d at *
    cases c.seqValid with
    | false => rfl
    | true =>
      rw [if_neg (by simp), if_neg (by omega), if_neg (by omega)]
      by_cases hd : d = 1
      · simp [hd]
      · rw [if_neg hd, if_pos (by simp; omega)]

/-- The roster terminal as the claim step reads it: none where it is 0 (R26). -/
theorem expectedTerminal_roster (p : Setup) (n : Nat) (c : Crane) :
    expectedTerminal (((p.roster[n]?).map (fun r => r.terminal)).getD 0) c =
      (rosterTerminal p n).or c.learned := by
  unfold expectedTerminal rosterTerminal
  cases p.roster[n]? with
  | none => simp
  | some r => by_cases hr : r.terminal = 0#32 <;> simp [hr]

theorem claimOutcome_bound (p : Setup) (s : State) (f : StatusFrame) (h : terminalOfCrane p s f) :
    claimOutcome p s.clu f.crane (((p.roster[f.crane]?).map (fun r => r.terminal)).getD 0) (s.clu.crane f.crane)
      f.terminal = .passes := by
  unfold claimOutcome
  rw [expectedTerminal_roster]
  rcases h with h | ⟨hr, hl⟩
  · simp [h]
  · simp [hr, hl]

theorem claimOutcome_learns (p : Setup) (s : State) (f : StatusFrame) (hr : rosterTerminal p f.crane = none)
    (hl : (s.clu.crane f.crane).learned = none)
    (hb : ∀ m, m ≠ f.crane → m < 12 → ¬ boundTo p s m f.terminal) (ht : f.terminal ≠ 0#32) :
    claimOutcome p s.clu f.crane (((p.roster[f.crane]?).map (fun r => r.terminal)).getD 0) (s.clu.crane f.crane)
      f.terminal = .learns := by
  have hfree : boundElsewhere p s.clu f.crane f.terminal = false := by
    unfold boundElsewhere
    rw [List.any_eq_false]
    intro m hm
    have hm12 : m < 12 := List.mem_range.mp hm
    by_cases hmn : m = f.crane
    · simp [hmn]
    · have hnb := hb m hmn hm12
      simp only [boundTo, not_or] at hnb
      obtain ⟨hros, hlearn⟩ := hnb
      have hros' : (p.roster[m]?).map (fun r => r.terminal) ≠ some f.terminal := by
        intro h
        obtain ⟨r, hrm, hrt⟩ := Option.map_eq_some_iff.mp h
        exact hros (by simp [rosterTerminal, hrm, hrt, ht])
      simp [hros', hlearn]
  unfold claimOutcome
  rw [expectedTerminal_roster, hr, hl]
  simp [hfree]

/-- A status frame that the parser accepts names an enabled crane and a terminal other than 0 (R9, R10). -/
theorem parseCells_acceptedCrane {setup : Option Setup} {cells : List (Option Byte)} {f : StatusFrame}
    (h : parseCells setup cells = .acceptedCrane f) : craneEnabled setup f.crane = true ∧ f.terminal ≠ 0#32 := by
  have hs : ¬ isShort cells := by
    intro hs
    obtain ⟨u, hu⟩ := (parseCells_short setup cells).mpr hs
    rw [hu] at h
    cases h
  have hk : (byteAt cells 4).toNat = 1 := by
    rw [parseCells_eq, if_neg (not_not.mpr ((unseenRequired_eq_zero cells).mpr hs))] at h
    split at h
    · cases h
    · cases hc : fieldCheck cells with
      | some reason =>
        rw [hc] at h
        simp only [Option.elim, failedOutcome] at h
        split at h <;> cases h
      | none =>
        rw [hc] at h
        simp only [Option.elim, passedOutcome] at h
        split at h
        · rename_i h4; rw [h4]; rfl
        · split at h <;> cases h
  rw [parseCells_status setup cells hs hk] at h
  split at h
  · cases h
  · rename_i hz
    split at h
    · cases h
    · split at h
      · cases h
      · split at h
        · cases h
        · split at h
          · rename_i hen
            cases h
            refine ⟨by simpa [statusFrame] using hen, fun h0 => hz ((field_four_zero cells 8).mp ?_)⟩
            have h0' := congrArg BitVec.toNat h0
            have hlt : field (cellBytes cells) 8 4 < 2 ^ 32 := by
              simp only [field, slice_cellBytes, List.range_succ, List.range_zero, List.nil_append, List.map_cons,
                List.map_nil, List.cons_append, ofLe, Nat.add_zero]
              omega
            exact (Nat.mod_eq_of_lt hlt).symm.trans (by simpa [statusFrame] using h0')
          · cases h

/-! ### The records of a taken frame -/

/-- Every record of the list has the code. -/
def coded (code : Byte) (rs : List Record) : Prop := ∀ r ∈ rs, r.code = code

theorem coded_ite {code : Byte} {r : Record} (b : Prop) [Decidable b] (h : r.code = code) :
    coded code (if b then [r] else []) := by
  split
  · exact fun x hx => (List.mem_singleton.mp hx) ▸ h
  · exact fun x hx => nomatch hx

theorem coded.count {code : Byte} {rs : List Record} (h : coded code rs) (k : Byte) :
    (rs.map Record.code).count k = if code = k then rs.length else 0 := by
  have hrep : rs.map Record.code = List.replicate rs.length code :=
    List.eq_replicate_iff.mpr ⟨List.length_map _, fun c hc => by
      obtain ⟨r, hr, rfl⟩ := List.mem_map.mp hc
      exact h r hr⟩
  rw [hrep, List.count_replicate]
  simp

theorem classChanges.coded {rs : List Record} (h : classChanges rs) : coded 0x30 rs := fun r hr => (h r hr).2

/-- ECHO_AHEAD is made once, with the sequence compared, exactly where the echo claims a command unseen (R34). -/
theorem echoAheadRecord_cases (n : Nat) (c : Crane) (e : Half) (now : Qt) :
    (echoAheadRecord n c e now = [] ∧ ¬ ∃ x, echoClaims c e x) ∨
      ∃ x, echoClaims c e x ∧ echoAheadRecord n c e now = [recEchoAhead n e x (decide (c.outstanding = [])) now] := by
  have hnone : (exactEntry c.outstanding e).isSome = false ↔ ∀ o ∈ c.outstanding, o.seq ≠ e := by
    rw [exactEntry, Option.isSome_eq_false_iff, Option.isNone_iff_eq_none, List.find?_eq_none]
    simp
  have hahead : ∀ x, seqAhead e x = true ↔ 1 ≤ (e - x).toNat ∧ (e - x).toNat < 32768 := by
    intro x
    have hd : seqAhead e x = (decide (1 ≤ (e - x).toNat) && decide ((e - x).toNat ≤ 32767)) := rfl
    rw [hd, Bool.and_eq_true, decide_eq_true_eq, decide_eq_true_eq]
    omega
  unfold echoAheadRecord echoClaims
  cases hx : (exactEntry c.outstanding e).isSome with
  | true =>
    refine .inl ⟨rfl, ?_⟩
    rintro ⟨x, hn, -⟩
    rw [hnone.mpr hn] at hx
    cases hx
  | false =>
    have hno := hnone.mp hx
    cases hg : c.outstanding.getLast? with
    | some newest =>
      have hne : c.outstanding ≠ [] := by
        intro h
        rw [h] at hg
        cases hg
      by_cases ha : seqAhead e newest.seq = true
      · refine .inr ⟨newest.seq, ⟨hno, ((hahead _).mp ha).1, ((hahead _).mp ha).2, .inl ⟨newest, rfl, rfl⟩⟩, ?_⟩
        simp [ha, hne]
      · refine .inl ⟨by simp [ha], ?_⟩
        rintro ⟨x, -, h1, h2, ⟨o, ho, rfl⟩ | ⟨h0, -⟩⟩
        · cases ho
          exact ha ((hahead _).mpr ⟨h1, h2⟩)
        · exact hne h0
    | none =>
      have hemp : c.outstanding = [] := List.getLast?_eq_none_iff.mp hg
      cases hl : c.lastListed with
      | none =>
        refine .inl ⟨rfl, ?_⟩
        rintro ⟨x, -, -, -, ⟨o, ho, -⟩ | ⟨-, h⟩⟩
        · cases ho
        · cases h
      | some last =>
        by_cases ha : seqAhead e last = true
        · refine .inr ⟨last, ⟨hno, ((hahead _).mp ha).1, ((hahead _).mp ha).2, .inr ⟨hemp, rfl⟩⟩, ?_⟩
          simp [ha, hemp]
        · refine .inl ⟨by simp [ha], ?_⟩
          rintro ⟨x, -, h1, h2, ⟨o, ho, -⟩ | ⟨-, h⟩⟩
          · cases ho
          · cases h
            exact ha ((hahead _).mpr ⟨h1, h2⟩)

/-- TERMINAL_LEARNED records of the crane of a frame. -/
def learnings (n : Nat) (rs : List Record) : Prop :=
  ∀ r ∈ rs, r.code = 0x15 ∧ r.origin = .clu ∧ r.object = BitVec.ofNat 16 n

/-- The records of the steps of R25 in their order are those of a taken frame. -/
theorem takenRecords_of (p : Setup) (c : Crane) (f : StatusFrame) (fresh live : Bool) (now : Qt) (arrival : Option Qt)
    {L O : List Record} (hL : learnings f.crane L) (hO : classChanges O) :
    takenRecords p c f fresh live (L ++ gapRecords c f now ++ (echoAheadRecord f.crane c f.echo now ++
      (if fresh = true then clampRecords p c f now else []) ++ liveRecords f.crane c arrival live now) ++ O) ∧
    ((L ++ gapRecords c f now ++ (echoAheadRecord f.crane c f.echo now ++
      (if fresh = true then clampRecords p c f now else []) ++ liveRecords f.crane c arrival live now) ++ O).map
        Record.code).count 0x15 = L.length := by
  have hLc : coded 0x15 L := fun r hr => (hL r hr).1
  have hGc : coded 0x14 (gapRecords c f now) := coded_ite _ rfl
  have hGl : (gapRecords c f now).length = if c.gapBefore f.seq = true then 1 else 0 := by
    unfold gapRecords
    split <;> rfl
  have hVc : coded 0x10 (liveRecords f.crane c arrival live now) := coded_ite _ rfl
  have hVl : (liveRecords f.crane c arrival live now).length = if live = true then 1 else 0 := by
    unfold liveRecords
    split <;> rfl
  have hPc : coded 0x34 (if fresh = true then clampRecords p c f now else []) := by
    split
    · exact coded_ite _ rfl
    · exact fun r hr => nomatch hr
  have hPl : (if fresh = true then clampRecords p c f now else []).length =
      if fresh = true ∧ p.coverage.segCount * p.coverage.segLenCm ≤ f.gantry ∧ c.clampReported = false then 1
      else 0 := by
    unfold clampRecords quayEnd
    cases fresh with
    | false => simp
    | true =>
      by_cases h : p.coverage.segCount * p.coverage.segLenCm ≤ f.gantry ∧ c.clampReported = false <;> simp [h]
  have hEc : coded 0x1B (echoAheadRecord f.crane c f.echo now) := by
    rcases echoAheadRecord_cases f.crane c f.echo now with ⟨he, -⟩ | ⟨x, -, he⟩ <;> rw [he]
    · exact fun r hr => nomatch hr
    · exact fun r hr => (List.mem_singleton.mp hr) ▸ rfl
  have hEl : (echoAheadRecord f.crane c f.echo now).length ≤ 1 ∧
      ((echoAheadRecord f.crane c f.echo now).length = 1 ↔ ∃ x, echoClaims c f.echo x) := by
    rcases echoAheadRecord_cases f.crane c f.echo now with ⟨he, hno⟩ | ⟨x, hx, he⟩ <;> rw [he]
    · exact ⟨by simp, by simpa using hno⟩
    · exact ⟨by simp, by simpa using ⟨x, hx⟩⟩
  refine ⟨⟨?_, ?_, ?_, ?_, ?_, fun r hr => ?_⟩, ?_⟩
  any_goals simp only [List.map_append, List.count_append, hLc.count, hGc.count, hEc.count, hPc.count, hVc.count,
    hO.coded.count]
  · simpa using hGl
  · simpa using hEl.1
  · simpa using hEl.2
  · simpa using hPl
  · simpa using hVl
  rotate_left
  · simp
  · simp only [List.mem_append] at hr
    rcases hr with ((hr | hr) | ((hr | hr) | hr)) | hr
    · obtain ⟨hcode, horigin, hobject⟩ := hL r hr
      exact .inr ⟨horigin, hobject, .inl hcode⟩
    · unfold gapRecords at hr
      split at hr
      · rename_i hgap
        cases List.mem_singleton.mp hr
        refine .inr ⟨rfl, rfl, .inr (.inl ⟨rfl, ?_⟩)⟩
        have hd : 2 ≤ (f.seq - c.lastSeq).toNat := by
          simp only [Crane.gapBefore, Bool.and_eq_true, decide_eq_true_eq] at hgap
          exact hgap.2
        have hmiss : BitVec.ofNat 16 ((f.seq - c.lastSeq).toNat - 1) = f.seq - c.lastSeq - 1 := by
          generalize f.seq - c.lastSeq = d at hd ⊢
          bv_omega
        rw [← hmiss]
        rfl
      · cases hr
    · rcases echoAheadRecord_cases f.crane c f.echo now with ⟨he, -⟩ | ⟨x, hx, he⟩
      · rw [he] at hr
        cases hr
      · rw [he] at hr
        cases List.mem_singleton.mp hr
        refine .inr ⟨rfl, rfl, .inr (.inr (.inl ⟨rfl, x, hx, ?_⟩))⟩
        by_cases hemp : c.outstanding = [] <;> simp [hemp, recEchoAhead, craneRecord, mkRecord, padTo, le16, flag]
    · have hr' : r ∈ clampRecords p c f now := by
        split at hr
        · exact hr
        · cases hr
      unfold clampRecords at hr'
      split at hr'
      · cases List.mem_singleton.mp hr'
        exact .inr ⟨rfl, rfl, .inr (.inr (.inr (.inl ⟨rfl, rfl⟩)))⟩
      · cases hr'
    · unfold liveRecords at hr
      split at hr
      · cases List.mem_singleton.mp hr
        exact .inr ⟨rfl, rfl, .inr (.inr (.inr (.inr ⟨rfl, rfl⟩)))⟩
      · cases hr
    · exact .inl (hO r hr)

/-! ### The frame as a whole -/

/-- What the claim step leaves of a crane it lets pass, with the records of a terminal learned (R26). -/
def claimPasses (p : Setup) (clu : CraneUnit) (f : StatusFrame) (now : Qt) (c : Crane) (rs : List Record) : Prop :=
  let outcome := claimOutcome p clu f.crane (((p.roster[f.crane]?).map (fun r => r.terminal)).getD 0)
    (clu.crane f.crane) f.terminal
  (outcome = .passes ∧ c = clu.crane f.crane ∧ rs = []) ∨
    (outcome = .learns ∧ c = { clu.crane f.crane with learned := some f.terminal } ∧
      rs = [recTerminalLearned f.crane f.terminal now])

/-- A frame that the claim step passes and the sequence step takes is handled by the steps that follow (R25). -/
theorem handleStatus_taken (p : Setup) (clu : CraneUnit) (f : StatusFrame) (now : Qt) (c : Crane) (rs : List Record)
    (hlink : (clu.crane f.crane).link ≠ .claim) (hclaim : claimPasses p clu f now c rs) (htakes : c.takes f.seq) :
    handleStatus p clu f now =
      (let r := takeStatus p f.crane f now (c.gapBefore f.seq) c
       (r.1, rs ++ gapRecords c f now ++ r.2.1, r.2.2)) := by
  unfold handleStatus
  dsimp only
  rw [if_neg hlink]
  have hseq := sequenceOutcome_takes htakes
  cases hgap : c.gapBefore f.seq with
  | false =>
    rw [hgap] at hseq
    rcases hclaim with ⟨ho, rfl, rfl⟩ | ⟨ho, rfl, rfl⟩ <;> rw [ho] <;> simp [hseq, gapRecords, hgap]
  | true =>
    rw [hgap] at hseq
    rcases hclaim with ⟨ho, rfl, rfl⟩ | ⟨ho, rfl, rfl⟩ <;> rw [ho] <;> simp [hseq, gapRecords, hgap]

/-- A fresh frame stores the crane and observes its level with the crane excluded (R13, R14). -/
theorem dispatchStatus_fresh (p : Setup) (f : StatusFrame) (q : Qt) (s : State) (y : Crane) (rs : List Record)
    (h : handleStatus p s.clu f q = (y, rs, .fresh)) : ∃ segs os, dispatchStatus p f q s =
        { s with clu := s.clu.setCrane f.crane y, cvu := { s.cvu with segments := segs },
                 rpu := s.rpu.handOverAll (rs ++ os) } ∧
      (∀ g, segs.get Segment.blank g = observed p s (min f.gantry (quayEnd p - 1) / p.coverage.segLenCm) .ul
        (some f.crane) f.level q g) ∧
      (f.level = 0x7FFF → segs = s.cvu.segments) ∧ classChanges os := by
  obtain ⟨segs, os, heq, hseg, hunknown, hrec⟩ := observeLevel_taken p (segmentOf p (clampPosition p f.gantry))
    (some f.crane) f.level q ({ s with clu := s.clu.setCrane f.crane y }.report rs)
  refine ⟨segs, os, ?_, fun g => ?_, hunknown, hrec⟩
  · unfold dispatchStatus
    rw [h]
    dsimp only
    rw [heq, ReportUnit.handOverAll_append]
    rfl
  · rw [hseg g, clampPosition_eq_min]
    refine observed_congr p _ .ul (some f.crane) f.level q g rfl rfl fun m hm => ?_
    have hmn : m ≠ f.crane := fun h => hm (congrArg some h.symm)
    exact (CraneUnit.crane_setCrane s.clu f.crane m y).trans (if_neg hmn)

theorem dispatchStatus_aged (p : Setup) (f : StatusFrame) (q : Qt) (s : State) (y : Crane) (rs : List Record)
    (h : handleStatus p s.clu f q = (y, rs, .aged)) : dispatchStatus p f q s =
      { s with clu := s.clu.setCrane f.crane y, rpu := s.rpu.handOverAll rs } := by
  unfold dispatchStatus
  rw [h]
  rfl

/-! ### The HOLD line of an enabled crane in RUNNING -/

theorem holdLine_of_watched {s : State} {n : Nat} (hr : s.su.runState = .running)
    (he : craneEnabled s.su.setup n = true) (hl : (s.clu.crane n).link = .live ∨ (s.clu.crane n).link = .late) :
    holdLine s n = false := by
  rcases hl with hl | hl <;> simp [holdLine, holdReason, hr, he, hl]

theorem holdLine_of_recovering {s : State} {n : Nat} (hr : s.su.runState = .running)
    (he : craneEnabled s.su.setup n = true) (hl : (s.clu.crane n).link = .idle ∨ (s.clu.crane n).link = .lost) :
    holdLine s n = true := by
  rcases hl with hl | hl <;> simp [holdLine, holdReason, hr, he, hl]

theorem crane_setCrane_same (u : CraneUnit) (n : Nat) (c : Crane) : (u.setCrane n c).crane n = c :=
  (CraneUnit.crane_setCrane u n n c).trans (if_pos rfl)

theorem settledUl_clu (s : State) (rest : List ParseItem) (ul : UlCounters) : (settledUl s rest ul).clu = s.clu := rfl

/-- Settles O16: the fresh and the aged frame of a LIVE or LATE crane. -/
theorem statusFrameInLive : Obligations.StatusFrameInLive := by
  intro s p e q rest f hp hlink hterm htakes
  obtain ⟨hsetup, hrun, -, -, hout⟩ := id hp
  obtain ⟨hen, -⟩ := parseCells_acceptedCrane hout
  have hne : (s.clu.crane f.crane).link ≠ .claim := by
    rcases hlink with h | h <;> rw [h] <;> decide
  have hhandle := handleStatus_taken p s.clu f q (s.clu.crane f.crane) [] hne
    (.inl ⟨claimOutcome_bound p s f hterm, rfl, rfl⟩) htakes
  have hnorec : (s.clu.crane f.crane).recovering = false := by
    unfold Crane.recovering
    rcases hlink with h | h <;> rw [h] <;> rfl
  rcases Nat.lt_or_ge f.age.toNat p.timing.lateMs with hf | ha
  · rw [takeStatus_fresh p f q _ _ hf, Crane.takeState_watched _ _ _ _ _ hlink] at hhandle
    obtain ⟨segs, os, heq, hseg, hunknown, hos⟩ := dispatchStatus_fresh p f q
      (settledUl s rest { s.rcu.ul with acceptedCrane := s.rcu.ul.acceptedCrane + 1 }) _ _ hhandle
    obtain ⟨hrec, hcount⟩ := takenRecords_of p (s.clu.crane f.crane) f true
      (decide ((s.clu.crane f.crane).link = .late)) q _ (L := []) (fun r hr => nomatch hr) hos
    refine ⟨_, _, (exec_parsesTo_crane hp).trans (congrArg _ heq), rfl, fun m hm => ?_, ?_, ?_⟩
    · exact (CraneUnit.crane_setCrane s.clu f.crane m _).trans (if_neg hm)
    · exact holdLine_of_watched hrun hen (.inl (congrArg Crane.link (crane_setCrane_same ..)))
    · simp only [settledUl_clu, crane_setCrane_same]
      refine ⟨echoTaken_of rfl rfl rfl, ?_, ?_, fun _ => ⟨?_, traceTaken_of rfl rfl, fun hl => ?_, fun l hl => ?_, hseg,
        fun hl => ?_⟩, fun hl => absurd hl (Nat.not_le.mpr hf)⟩
      · simpa [hf] using hrec
      · exact List.count_eq_zero.mp (by simpa using hcount)
      · simp only [Crane.stored, Crane.takenCounters, hnorec, Bool.and_false, Bool.false_eq_true, if_false]
        rfl
      · simp [Crane.stored, movedArrival, hl]
      · simp [Crane.stored, movedArrival, hl, hnorec, laterQt, elapsed]
      · exact congrArg (fun g => { s.cvu with segments := g }) (hunknown hl)
  · rw [takeStatus_aged p f q _ _ ha] at hhandle
    have heq := dispatchStatus_aged p f q
      (settledUl s rest { s.rcu.ul with acceptedCrane := s.rcu.ul.acceptedCrane + 1 }) _ _ hhandle
    obtain ⟨hrec, hcount⟩ := takenRecords_of p (s.clu.crane f.crane) f false false q none (L := []) (O := [])
      (fun r hr => nomatch hr) classChanges_nil
    refine ⟨_, _, (exec_parsesTo_crane hp).trans (congrArg _ heq), rfl, fun m hm => ?_, ?_, ?_⟩
    · exact (CraneUnit.crane_setCrane s.clu f.crane m _).trans (if_neg hm)
    · exact holdLine_of_watched hrun hen (hlink.imp (congrArg Crane.link (crane_setCrane_same ..)).trans
        (congrArg Crane.link (crane_setCrane_same ..)).trans)
    · simp only [settledUl_clu, crane_setCrane_same]
      refine ⟨echoTaken_of rfl rfl rfl, ?_, ?_, fun hl => absurd hl (Nat.not_lt.mpr ha), fun _ => ⟨?_, rfl⟩⟩
      · simpa [Nat.not_lt.mpr ha, liveRecords] using hrec
      · exact List.count_eq_zero.mp (by simpa [liveRecords] using hcount)
      · simp [Crane.agedBy, Crane.takenCounters, hnorec]

/-- The crane with the terminal it has learned. -/
def Crane.withTerminal (c : Crane) (x : Option Word) : Crane := { c with learned := x }

/-- What a crane in IDLE or LOST that takes a frame has learned after the claim step, and the record of it (R26). -/
theorem claimPasses_recovering {p : Setup} {s : State} {f : StatusFrame} (q : Qt) (ht : f.terminal ≠ 0#32)
    (h : terminalOfCrane p s f ∨ (rosterTerminal p f.crane = none ∧ (s.clu.crane f.crane).learned = none ∧
      ∀ m, m ≠ f.crane → m < 12 → ¬ boundTo p s m f.terminal)) :
    ∃ x L, claimPasses p s.clu f q ((s.clu.crane f.crane).withTerminal x) L ∧ learnings f.crane L ∧
      if rosterTerminal p f.crane = none ∧ (s.clu.crane f.crane).learned = none then
        x = some f.terminal ∧ L = [recTerminalLearned f.crane f.terminal q]
      else x = (s.clu.crane f.crane).learned ∧ L = [] := by
  rcases h with hbound | ⟨hros, hlearn, hfree⟩
  · refine ⟨_, [], .inl ⟨claimOutcome_bound p s f hbound, rfl, rfl⟩, fun r hr => (nomatch hr), ?_⟩
    rw [if_neg]
    · exact ⟨rfl, rfl⟩
    · rintro ⟨hr, hl⟩
      rcases hbound with hb | ⟨-, hb⟩
      · rw [hr] at hb
        cases hb
      · rw [hl] at hb
        cases hb
  · refine ⟨some f.terminal, [_], .inr ⟨claimOutcome_learns p s f hros hlearn hfree ht, rfl, rfl⟩, fun r hr => ?_, ?_⟩
    · cases List.mem_singleton.mp hr
      exact ⟨rfl, rfl, rfl⟩
    · rw [if_pos ⟨hros, hlearn⟩]
      exact ⟨rfl, rfl⟩

/-- The first record of a taken frame is that of the terminal learned, where one is, and none else is such. -/
theorem learned_first {c : Crane} {t : Word} {x : Option Word} {L rs : List Record} {f : StatusFrame} {q : Qt} (P : Prop)
    [Decidable P] (hx : if P then x = some t ∧ L = [recTerminalLearned f.crane t q] else x = c.learned ∧ L = [])
    (hcount : ((L ++ rs).map Record.code).count 0x15 = L.length) :
    if P then x = some t ∧ ∃ r more, L ++ rs = r :: more ∧ r.code = 0x15 ∧ r.origin = .clu ∧
        r.object = BitVec.ofNat 16 f.crane ∧ r.detail = [0, 0, 0, 0] ++ le32 t ++ List.replicate 12 0
    else x = c.learned ∧ 0x15 ∉ (L ++ rs).map Record.code := by
  split at hx
  · rename_i hP
    obtain ⟨rfl, rfl⟩ := hx
    rw [if_pos hP]
    exact ⟨rfl, _, rs, rfl, rfl, rfl, rfl, rfl⟩
  · rename_i hP
    obtain ⟨rfl, rfl⟩ := hx
    rw [if_neg hP]
    exact ⟨rfl, List.count_eq_zero.mp hcount⟩

/-- Link, count and HOLD of a crane in IDLE or LOST after a fresh frame that makes its count `k` (R38, R44). -/
theorem recovering_line {t : State} {n k rc : Nat} {l : LinkState} (hr : t.su.runState = .running)
    (he : craneEnabled t.su.setup n = true) (hl : l = .idle ∨ l = .lost)
    (hlink : (t.clu.crane n).link = if k = rc then .live else l) :
    if decide (k = rc) = true then
      (if k = rc then .live else l) = LinkState.live ∧ (if k = rc then 0 else k) = 0 ∧ holdLine t n = false
    else (if k = rc then .live else l) = l ∧ (if k = rc then 0 else k) = k ∧ holdLine t n = true := by
  by_cases hk : k = rc
  · rw [if_pos hk] at hlink
    simpa [hk] using holdLine_of_watched hr he (.inl hlink)
  · rw [if_neg hk] at hlink
    simpa [hk] using holdLine_of_recovering hr he (hlink ▸ hl)

/-- Settles O17: the fresh and the aged frame of a crane in IDLE or LOST, with what its claim step leaves. -/
theorem statusFrameRecovers : Obligations.StatusFrameRecovers := by
  intro s p e q rest f hp hlink hterm htakes
  obtain ⟨hsetup, hrun, -, -, hout⟩ := id hp
  obtain ⟨hen, hzero⟩ := parseCells_acceptedCrane hout
  obtain ⟨x, L, hclaim, hL, hx⟩ := claimPasses_recovering q hzero hterm
  have hne : (s.clu.crane f.crane).link ≠ .claim := by
    rcases hlink with h | h <;> rw [h] <;> decide
  have hhandle := handleStatus_taken p s.clu f q ((s.clu.crane f.crane).withTerminal x) L hne hclaim htakes
  have hrecov : ((s.clu.crane f.crane).withTerminal x).recovering = true := by
    unfold Crane.recovering Crane.withTerminal
    rcases hlink with h | h <;> rw [h] <;> rfl
  have hgap : ((s.clu.crane f.crane).withTerminal x).gapBefore f.seq = (s.clu.crane f.crane).gapBefore f.seq := rfl
  rcases Nat.lt_or_ge f.age.toNat p.timing.lateMs with hf | ha
  · obtain ⟨n, hn⟩ : ∃ n, recoveryCount p.timing.lateMs ((s.clu.crane f.crane).gapBefore f.seq)
        (s.clu.crane f.crane).lastArrival (q - f.age.setWidth 32) (s.clu.crane f.crane).recovery = n := ⟨_, rfl⟩
    rw [takeStatus_fresh p f q _ _ hf, hgap,
      Crane.takeState_recovering p f q _ ((s.clu.crane f.crane).withTerminal x) n hlink hn] at hhandle
    obtain ⟨segs, os, heq, hseg, -, hos⟩ := dispatchStatus_fresh p f q
      (settledUl s rest { s.rcu.ul with acceptedCrane := s.rcu.ul.acceptedCrane + 1 }) _ _ hhandle
    have hfresh : decide (f.age.toNat < p.timing.lateMs) = true := decide_eq_true hf
    have hpos : 0 < p.timing.lateMs := Nat.lt_of_le_of_lt (Nat.zero_le _) hf
    obtain ⟨hrec, hcount⟩ := takenRecords_of p ((s.clu.crane f.crane).withTerminal x) f true
      (decide (n = p.timing.recoverCount)) q
      (((s.clu.crane f.crane).withTerminal x).stored p f q ((s.clu.crane f.crane).gapBefore f.seq)).lastArrival hL hos
    refine ⟨_, _, (exec_parsesTo_crane hp).trans (congrArg _ heq), rfl, fun m hm => ?_, ?_⟩
    · exact (CraneUnit.crane_setCrane s.clu f.crane m _).trans (if_neg hm)
    · simp only [settledUl_clu, crane_setCrane_same, hfresh, Bool.true_and, ↓reduceIte]
      refine ⟨echoTaken_of rfl rfl rfl, ?_, ?_, ?_, fun _ => ⟨?_, traceTaken_of rfl rfl, hseg⟩, fun h => nomatch h⟩
      · cases hla : (s.clu.crane f.crane).lastArrival with
        | none =>
          dsimp only
          rw [← recoveryCount_first p.timing.lateMs, ← hla, hn]
          exact hrec
        | some l =>
          dsimp only
          rw [← recoveryCount_later p.timing.lateMs _ _ _ _ hpos, ← hla, hn]
          exact hrec
      · cases hla : (s.clu.crane f.crane).lastArrival with
        | none =>
          dsimp only
          rw [← recoveryCount_first p.timing.lateMs, ← hla, hn]
          refine recovering_line ?_ ?_ hlink (congrArg Crane.link (crane_setCrane_same ..))
          · exact hrun
          · exact hen
        | some l =>
          dsimp only
          rw [← recoveryCount_later p.timing.lateMs _ _ _ _ hpos, ← hla, hn]
          refine recovering_line ?_ ?_ hlink (congrArg Crane.link (crane_setCrane_same ..))
          · exact hrun
          · exact hen
      · simp only [List.append_assoc] at hcount ⊢
        exact learned_first (c := s.clu.crane f.crane) _ hx hcount
      · simp only [Crane.stored, Crane.takenCounters, hrecov, movedArrival_recovering]
        rfl
  · rw [takeStatus_aged p f q _ _ ha] at hhandle
    have heq := dispatchStatus_aged p f q
      (settledUl s rest { s.rcu.ul with acceptedCrane := s.rcu.ul.acceptedCrane + 1 }) _ _ hhandle
    have hold : decide (f.age.toNat < p.timing.lateMs) = false := decide_eq_false (Nat.not_lt.mpr ha)
    obtain ⟨hrec, hcount⟩ := takenRecords_of p ((s.clu.crane f.crane).withTerminal x) f false false q none (O := []) hL
      classChanges_nil
    refine ⟨_, _, (exec_parsesTo_crane hp).trans (congrArg _ heq), rfl, fun m hm => ?_, ?_⟩
    · exact (CraneUnit.crane_setCrane s.clu f.crane m _).trans (if_neg hm)
    · simp only [settledUl_clu, crane_setCrane_same, hold, Bool.false_and, Bool.false_eq_true, if_false]
      refine ⟨echoTaken_of rfl rfl rfl, ?_, ⟨rfl, ?_, ?_⟩, ?_, fun h => (nomatch h), fun _ => ⟨?_, rfl⟩⟩
      · change takenRecords p ((s.clu.crane f.crane).withTerminal x) f _ _ _
        simpa [liveRecords] using hrec
      · exact if_pos hrecov
      · exact holdLine_of_recovering hrun hen (hlink.imp (congrArg Crane.link (crane_setCrane_same ..)).trans
          (congrArg Crane.link (crane_setCrane_same ..)).trans)
      · rw [List.append_assoc]
        refine learned_first (c := s.clu.crane f.crane) _ hx ?_
        simpa [liveRecords] using hcount
      · simp only [Crane.agedBy, Crane.takenCounters, hrecov, if_true, hgap]
        rfl

end Sys2Proof.Machine
end

