-- ==== Sys2Proof/Proofs/ReeferReports.lean ====
section
/-! SUPPORT. Reefer reports: the collections of the table, the occupant of a plug, and an admission (R72 to R93). -/

namespace Sys2Proof.Machine

open Sys2Proof

/-! ### The collections -/

/-- A search of the table finds an index whose entry meets the test. -/
theorem findCell_some {u : ReeferUnit} (hu : u.table.wf none = true) (P : Reefer → Bool) {i : Nat}
    (h : (u.table.cells.find? (fun c => c.2.any P)).map Prod.fst = some i) :
    ∃ e, u.entry i = some e ∧ P e = true := by
  obtain ⟨c, hc, rfl⟩ := Option.map_eq_some_iff.mp h
  have hP := List.find?_some hc
  have hget := Table.get_of_mem u.table none hu c (List.mem_of_find?_eq_some hc)
  cases he : c.2 with
  | none => simp [he] at hP
  | some e => exact ⟨e, hget.trans he, by simpa [he] using hP⟩

/-- A search of the table fails only where no entry meets the test. -/
theorem findCell_none {u : ReeferUnit} (P : Reefer → Bool)
    (h : (u.table.cells.find? (fun c => c.2.any P)).map Prod.fst = none) {i : Nat} {e : Reefer}
    (he : u.entry i = some e) : P e = false := by
  have hnone := List.find?_eq_none.mp (Option.map_eq_none_iff.mp h)
  unfold ReeferUnit.entry Table.get at he
  split at he
  · rename_i c hc
    have hP := hnone c (List.mem_of_find?_eq_some hc)
    rw [he] at hP
    simpa using hP
  · cases he

theorem findContainer_some {u : ReeferUnit} (hu : u.table.wf none = true) {id : List Byte} {i : Nat}
    (h : findContainer u id = some i) : ∃ e, u.entry i = some e ∧ e.container = id := by
  obtain ⟨e, he, hP⟩ := findCell_some hu _ h
  exact ⟨e, he, of_decide_eq_true hP⟩

theorem findContainer_unknown {u : ReeferUnit} (hu : u.table.wf none = true) {id : List Byte}
    (h : ∀ j x, u.entry j = some x → x.container ≠ id) : findContainer u id = none := by
  cases hf : findContainer u id with
  | none => rfl
  | some i =>
    obtain ⟨e, he, hid⟩ := findContainer_some hu hf
    exact absurd hid (h i e he)

theorem findPlug_some {u : ReeferUnit} (hu : u.table.wf none = true) {plug : Half} {i : Nat}
    (h : findPlug u plug = some i) : ∃ e, u.entry i = some e ∧ e.plug = plug ∧ e.state ≠ .departed := by
  obtain ⟨e, he, hP⟩ := findCell_some hu _ h
  rw [Bool.and_eq_true, decide_eq_true_eq, decide_eq_true_eq] at hP
  exact ⟨e, he, hP⟩

theorem findPlug_none {u : ReeferUnit} {plug : Half} (h : findPlug u plug = none) {i : Nat} {e : Reefer}
    (he : u.entry i = some e) (hs : e.state ≠ .departed) : e.plug ≠ plug := by
  have hP := findCell_none _ h he
  intro hplug
  simp [hplug, hs] at hP

/-- The lowest of `n` indices from `i` on that is free. -/
theorem lowestFree_eq {u : ReeferUnit} {k : Nat} (hk : u.entry k = none) (i n : Nat) (hi : i ≤ k) (hn : k < i + n)
    (hlow : ∀ j, j < k → u.entry j ≠ none) : lowestFree u i n = some k := by
  induction n generalizing i with
  | zero => omega
  | succ n ih =>
    unfold lowestFree
    by_cases h : i = k
    · subst h
      simp [hk]
    · rw [if_neg (by simpa using hlow i (by omega))]
      exact ih (i + 1) (by omega) (by omega)

theorem lowestFree_full {u : ReeferUnit} (i n : Nat) (h : ∀ j, j < i + n → u.entry j ≠ none) :
    lowestFree u i n = none := by
  induction n generalizing i with
  | zero => rfl
  | succ n ih =>
    unfold lowestFree
    rw [if_neg (by simpa using h i (by omega))]
    exact ih (i + 1) (fun j hj => h j (by omega))

/-! ### Placement -/

/-- R72 for the table of a unit: no container twice, no occupied plug twice. -/
def ReeferUnit.unique (u : ReeferUnit) : Prop :=
  ∀ i j a b, u.entry i = some a → u.entry j = some b → i ≠ j → reefersDiffer a b

theorem findContainer_known {u : ReeferUnit} (hu : u.table.wf none = true) (hd : u.unique) {i : Nat} {x : Reefer}
    (hx : u.entry i = some x) : findContainer u x.container = some i := by
  cases hf : findContainer u x.container with
  | none =>
    have hP := findCell_none _ hf hx
    simp at hP
  | some j =>
    obtain ⟨e, he, hid⟩ := findContainer_some hu hf
    by_cases hij : j = i
    · rw [hij]
    · exact absurd hid (hd j i e x he hx hij).1

theorem placement_known {u : ReeferUnit} {id : List Byte} {i : Nat} (h : findContainer u id = some i) :
    placement u id = .known i := by
  simp only [placement, h]

theorem placement_free {u : ReeferUnit} {id : List Byte} {i : Nat} (h : findContainer u id = none) (hi : i < 2048)
    (hfree : u.entry i = none) (hlow : ∀ j, j < i → u.entry j ≠ none) : placement u id = .free i := by
  have hl : lowestFree u 0 Config.reeferCount = some i :=
    lowestFree_eq hfree 0 _ (Nat.zero_le i) (by rw [Nat.zero_add]; exact hi) hlow
  simp only [placement, h, hl]

/-- With no index free an unknown container takes the head of the departed list, or is refused (R80, R81). -/
theorem placement_full {u : ReeferUnit} {id : List Byte} (h : findContainer u id = none)
    (hfull : ∀ j, j < 2048 → u.entry j ≠ none) :
    (∀ i ds, u.departed = i :: ds → placement u id = .reuse i) ∧ (u.departed = [] → placement u id = .refused) := by
  have hl : lowestFree u 0 Config.reeferCount = none :=
    lowestFree_full 0 _ (fun j hj => hfull j (by rw [Nat.zero_add] at hj; exact hj))
  exact ⟨fun i ds hds => by simp only [placement, h, hl, hds], fun hds => by simp only [placement, h, hl, hds]⟩

/-! ### The occupant of the plug a report claims (R76 step 2) -/

theorem occupantOf_unplug {u : ReeferUnit} {r : ReeferReport} (h : r.power = .unplug) : occupantOf u r = none := if_pos h

/-- What is on the plug of a report under power that is admitted at index `i`: no other entry, or exactly one. -/
theorem occupantOf_cases {u : ReeferUnit} (hu : u.table.wf none = true) (hd : u.unique) {r : ReeferReport}
    (hp : r.power ≠ .unplug) {i : Nat} (hid : ∀ j, findContainer u r.container = some j → j = i)
    (hi : findContainer u r.container = some i ∨ ∀ x, u.entry i = some x → x.state = .departed) :
    (occupantOf u r = none ∧ ∀ j y, j ≠ i → u.entry j = some y → y.state ≠ .departed → y.plug ≠ r.plug) ∨
      ∃ k z, occupantOf u r = some (k, z) ∧ k ≠ i ∧ u.entry k = some z ∧ z.state ≠ .departed ∧ z.plug = r.plug ∧
        ∀ j y, u.entry j = some y → y.state ≠ .departed → y.plug = r.plug → j = k := by
  unfold occupantOf
  rw [if_neg hp]
  cases hf : findPlug u r.plug with
  | none => exact .inl ⟨rfl, fun j y _ hy hs => findPlug_none hf hy hs⟩
  | some k =>
    obtain ⟨z, hz, hplug, hstate⟩ := findPlug_some hu hf
    have hone : ∀ j y, u.entry j = some y → y.state ≠ .departed → y.plug = r.plug → j = k := by
      intro j y hy hs hpl
      by_contra hjk
      exact (hd j k y z hy hz hjk).2 hs hstate (hpl.trans hplug.symm)
    dsimp only
    by_cases hk : findContainer u r.container = some k
    · rw [if_pos hk]
      exact .inl ⟨rfl, fun j y hj hy hs hpl => hj ((hone j y hy hs hpl).trans (hid k hk))⟩
    · rw [if_neg hk, hz]
      refine .inr ⟨k, z, rfl, ?_, hz, hstate, hplug, hone⟩
      rintro rfl
      rcases hi with hi | hi
      · exact hk hi
      · exact hstate (hi z hz)

/-! ### Supervision -/

theorem plugSegment_eq (p : Setup) (plug : Half) : plugSegment p plug = segmentOfPlug p plug := by
  unfold plugSegment plugClamped segmentOfPlug
  by_cases h : p.coverage.segCount ≤ plug.toNat / p.plugsPerSeg
  · rw [if_pos (decide_eq_true h)]
    omega
  · rw [if_neg (by simpa using h)]
    omega

/-- The first three steps of R93 are the readings of a report taken. -/
theorem takeReadings_eq (r : ReeferReport) (i : Nat) (now : Qt) (e : Reefer) :
    takeTemperatures r.supply r.ret (takeSetpoint r.setpoint (takePower i r.power now e).1) = e.read r := by
  unfold takeSetpoint takenSetpoint
  by_cases hraw : r.setpoint = -32768
  · simp [hraw, Reefer.read, takePower, takeTemperatures, takenTemperature]
  · by_cases hsame : max (-400) (min 300 r.setpoint) = e.setpoint
    · simp [hraw, hsame, Reefer.read, takePower, takeTemperatures, takenTemperature]
    · simp [hraw, hsame, Reefer.read, takePower, takeTemperatures, takenTemperature]

theorem supervise_judged (p : Setup) (r : ReeferReport) (i : Nat) (now : Qt) (e : Reefer) :
    (supervise (classEntry p r.cls) i r now e).1 = Reefer.judged p r i now e := by
  simp only [supervise, takeReadings_eq, takeAlarms, Reefer.judged]

/-- No record of the list is one of the reefer table: REEFER_NEW, REPLACED, DEPARTED, RETURNED. -/
def noTableRecord (rs : List Record) : Prop := ∀ r ∈ rs, r.code ∉ [(0x20 : Byte), 0x21, 0x22, 0x2F]

theorem noTableRecord_nil : noTableRecord [] := fun _ h => nomatch h

theorem noTableRecord_one {r : Record} (k : Byte) (hr : r.code = k) (hk : k ∉ [(0x20 : Byte), 0x21, 0x22, 0x2F]) :
    noTableRecord [r] := fun _ hx => (List.mem_singleton.mp hx) ▸ hr ▸ hk

theorem noTableRecord.append {rs rs' : List Record} (h : noTableRecord rs) (h' : noTableRecord rs') :
    noTableRecord (rs ++ rs') := fun r hr => (List.mem_append.mp hr).elim (h r) (h' r)

theorem noTableRecord.not_mem {rs : List Record} (h : noTableRecord rs) {k : Byte}
    (hk : k ∈ [(0x20 : Byte), 0x21, 0x22, 0x2F]) : k ∉ rs.map Record.code := by
  intro hc
  obtain ⟨r, hr, rfl⟩ := List.mem_map.mp hc
  exact h r hr hk

theorem classChanges.noTable {rs : List Record} (h : classChanges rs) : noTableRecord rs := fun r hr => by
  rw [(h r hr).2]
  decide

theorem compareBand_noTable (k : ReeferClass) (i : Nat) (now : Qt) (e : Reefer) :
    noTableRecord (compareBand k i now e).2 := by
  have hexc : ∀ t b (e : Reefer), noTableRecord (enterExcursion k i t b now e).2 := by
    intro t b e
    unfold enterExcursion
    split
    · cases decide (e.countArea = .low) with
      | false => exact noTableRecord_one 0x28 rfl (by decide)
      | true => exact noTableRecord_one 0x29 rfl (by decide)
    · exact noTableRecord_nil
  unfold compareBand
  split
  · exact noTableRecord_nil
  · split
    · exact noTableRecord_nil
    · dsimp only
      split
      · unfold takeNormal
        dsimp only
        split
        · exact noTableRecord_nil
        · exact noTableRecord_one 0x2A rfl (by decide)
      · exact hexc _ _ _

theorem alarmRecords_noTable (i : Nat) (e : Reefer) (now : Qt) (n : Nat) (seen codes : List Half) :
    noTableRecord (alarmRecords i e now n seen codes) := by
  induction codes generalizing n seen with
  | nil => exact noTableRecord_nil
  | cons a as ih =>
    unfold alarmRecords
    dsimp only
    split
    · exact ih _ _
    · exact (noTableRecord_one 0x2B rfl (by decide)).append (ih _ _)

theorem supervise_noTable (k : ReeferClass) (i : Nat) (r : ReeferReport) (now : Qt) (e : Reefer) :
    noTableRecord (supervise k i r now e).2 := by
  have hpower : noTableRecord (takePower i r.power now e).2 := by
    simp only [takePower]
    split
    · exact noTableRecord_one 0x27 rfl (by decide)
    · exact noTableRecord_nil
  exact (hpower.append (compareBand_noTable _ _ _ _)).append (alarmRecords_noTable _ _ _ _ _ _)

theorem plugRecords_noTable (p : Setup) (r : ReeferReport) (i : Nat) (before : Option Half) (now : Qt) :
    noTableRecord (plugRecords p r i before now) := by
  unfold plugRecords
  split
  · exact noTableRecord_one 0x34 rfl (by decide)
  · exact noTableRecord_nil

/-! ### The occupant replaced (R77) -/

@[simp] theorem replaceOccupant_none (r : ReeferReport) (i : Nat) (now : Qt) (u : ReeferUnit) :
    replaceOccupant r i now none u = (u, []) := rfl

theorem replaceOccupant_departed (r : ReeferReport) (i : Nat) (now : Qt) (occ : Option (Nat × Reefer))
    (u : ReeferUnit) : (replaceOccupant r i now occ u).1.departed = u.departed ++ occ.toList.map Prod.fst := by
  cases occ with
  | none => exact (List.append_nil _).symm
  | some o => rfl

theorem replaceOccupant_codes (r : ReeferReport) (i : Nat) (now : Qt) (occ : Option (Nat × Reefer)) (u : ReeferUnit) :
    (replaceOccupant r i now occ u).2.map Record.code = occ.toList.map (fun _ => (0x21 : Byte)) := by
  cases occ <;> rfl

/-- What stands of the other entries and of the departed list after a report under power on plug `r.plug` has been
admitted at index `i`: the one other occupant is REPLACED (R77). -/
def replacedAs (r : ReeferReport) (i : Nat) (u : ReeferUnit) (entry : Nat → Option Reefer) (left departed : List Nat)
    (codes : List Byte) : Prop :=
  (∀ j y, j ≠ i → u.entry j = some y → y.state ≠ .departed → y.plug = r.plug →
    entry j = some { y with state := .departed, reason := .replaced } ∧ departed = left ++ [j] ∧ 0x21 ∈ codes) ∧
  (∀ j y, j ≠ i → u.entry j = some y → (y.state = .departed ∨ y.plug ≠ r.plug) → entry j = some y) ∧
  (∀ j, j ≠ i → u.entry j = none → entry j = none) ∧
  ((∀ j y, j ≠ i → u.entry j = some y → y.state ≠ .departed → y.plug ≠ r.plug) →
    departed = left ∧ 0x21 ∉ codes)

theorem replaceOccupant_replaced {u v : ReeferUnit} (hu : u.table.wf none = true) (hd : u.unique) {r : ReeferReport}
    (hp : r.power ≠ .unplug) {i : Nat} (hid : ∀ j, findContainer u r.container = some j → j = i)
    (hi : findContainer u r.container = some i ∨ ∀ x, u.entry i = some x → x.state = .departed) (now : Qt)
    (left : List Nat) {codes : List Byte} (hcodes : 0x21 ∈ codes ↔ (occupantOf u r).isSome = true)
    {entry : Nat → Option Reefer} (hv : ∀ j, v.entry j = u.entry j)
    (hentry : ∀ j, j ≠ i → entry j = (replaceOccupant r i now (occupantOf u r) v).1.entry j) :
    replacedAs r i u entry left (left ++ (occupantOf u r).toList.map Prod.fst) codes := by
  rcases occupantOf_cases hu hd hp hid hi with ⟨hocc, hfree⟩ | ⟨k, z, hocc, hki, hz, hstate, hplug, hone⟩
  · rw [hocc] at hcodes hentry ⊢
    have hstand : ∀ j, j ≠ i → entry j = u.entry j := fun j hj => (hentry j hj).trans (hv j)
    refine ⟨fun j y hj hy hs hpl => absurd hpl (hfree j y hj hy hs), fun j y hj hy _ => (hstand j hj).trans hy,
      fun j hj hy => (hstand j hj).trans hy, fun _ => ⟨List.append_nil _, ?_⟩⟩
    rw [hcodes]
    simp
  · rw [hocc] at hcodes hentry ⊢
    have hset : ∀ j, j ≠ i → entry j = if j = k then some { z with state := .departed, reason := .replaced }
        else u.entry j := by
      intro j hj
      refine (hentry j hj).trans ((ReeferUnit.entry_setEntry v k j _).trans ?_)
      rw [hv j]
    refine ⟨fun j y hj hy hs hpl => ?_, fun j y hj hy hs => ?_, fun j hj hy => ?_, fun hno => ?_⟩
    · obtain rfl := hone j y hy hs hpl
      rw [hz] at hy
      cases hy
      exact ⟨(hset j hj).trans (if_pos rfl), rfl, hcodes.mpr rfl⟩
    · rw [hset j hj, if_neg, hy]
      rintro rfl
      rw [hz] at hy
      cases hy
      exact hs.elim hstate (fun h => h hplug)
    · rw [hset j hj, if_neg, hy]
      rintro rfl
      rw [hz] at hy
      cases hy
    · exact absurd hplug (hno k z hki hz hstate)

/-! ### Admission at an index -/

/-- The entry of a new container, before the five steps of R93 (R78, R83). -/
def admittedNew (p : Setup) (r : ReeferReport) (now : Qt) (state : ReeferState) (reason : DepartReason) : Reefer :=
  ⟨r.container, r.plug, segmentOfPlug p r.plug, r.cls, .off, 0, none, none, [], state, reason, .normal, 0, .normal,
    false, false, false, 0, now, 1⟩

/-- The entry of a known container, before the five steps of R93 (R78). -/
def admittedKnown (p : Setup) (r : ReeferReport) (now : Qt) (x : Reefer) (state : ReeferState) (reason : DepartReason) :
    Reefer :=
  { x with
    plug := r.plug, segment := segmentOfPlug p r.plug, cls := r.cls, lastReport := now,
    reportCount := min 65535 (x.reportCount + 1), excusals := 0, state := state, reason := reason }

theorem updateEntry_new (p : Setup) (r : ReeferReport) (now : Qt) (state : ReeferState) (reason : DepartReason) :
    { updateEntry p r now (newReefer r.container) with state := state, reason := reason } =
      admittedNew p r now state reason := by
  simp only [updateEntry, plugSegment_eq]
  rfl

theorem updateEntry_known (p : Setup) (r : ReeferReport) (now : Qt) (x : Reefer) (state : ReeferState)
    (reason : DepartReason) : { updateEntry p r now x with state := state, reason := reason } =
      admittedKnown p r now x state reason := by
  simp only [updateEntry, plugSegment_eq]
  rfl

theorem admitAt_entry_other (p : Setup) (r : ReeferReport) (i : Nat) (before old : Option Reefer)
    (occ : Option (Nat × Reefer)) (now : Qt) (u : ReeferUnit) (j : Nat) (hj : j ≠ i) :
    (admitAt p r i before old occ now u).1.entry j = (replaceOccupant r i now occ u).1.entry j :=
  (ReeferUnit.entry_setEntry _ i j _).trans (if_neg hj)

/-- A new container under power: its entry, the departed list and the records (R78, R80). -/
theorem admitAt_new_powered (p : Setup) (r : ReeferReport) (i : Nat) (old : Option Reefer) (occ : Option (Nat × Reefer))
    (now : Qt) (u : ReeferUnit) (hp : r.power ≠ .unplug) :
    (admitAt p r i none old occ now u).1.entry i =
        some (Reefer.judged p r i now (admittedNew p r now .tracked .none)) ∧
      (admitAt p r i none old occ now u).1.departed = (replaceOccupant r i now occ u).1.departed ∧
      ∃ more, (admitAt p r i none old occ now u).2 = (replaceOccupant r i now occ u).2 ++
        recReeferNew i r.container r.plug r.cls old now :: more ∧ noTableRecord more := by
  refine ⟨(ReeferUnit.entry_setEntry _ i i _).trans ((if_pos rfl).trans ?_), ?_, ?_⟩
  · simp only [supervise_judged, settleNew, if_neg hp, updateEntry_new]
  · simp only [admitAt, settleNew, if_neg hp]
  · refine ⟨_, ?_, (plugRecords_noTable p r i none now).append (supervise_noTable (classEntry p r.cls) i r now (admittedNew p r now .tracked .none))⟩
    simp only [admitAt, settleNew, if_neg hp, List.append_nil, List.append_assoc, updateEntry_new,
      List.cons_append, List.nil_append, Option.map_none]

/-- A new container unplugged: DEPARTED at once (R80, R82). -/
theorem admitAt_new_unplug (p : Setup) (r : ReeferReport) (i : Nat) (old : Option Reefer) (now : Qt) (u : ReeferUnit)
    (hp : r.power = .unplug) :
    (admitAt p r i none old none now u).1.entry i =
        some (Reefer.judged p r i now (admittedNew p r now .departed .unplugged)) ∧
      (admitAt p r i none old none now u).1.departed = u.departed ++ [i] ∧
      ∃ plug more, (admitAt p r i none old none now u).2 = recReeferNew i r.container r.plug r.cls old now ::
        (plug ++ recReeferDeparted i r.container r.plug none .tracked now :: more) ∧ noTableRecord plug ∧
        noTableRecord more := by
  refine ⟨(ReeferUnit.entry_setEntry _ i i _).trans ((if_pos rfl).trans ?_), ?_, ?_⟩
  · simp only [supervise_judged, settleNew, if_pos hp, updateEntry_new]
  · simp only [admitAt, settleNew, if_pos hp, replaceOccupant_none]
  · refine ⟨_, _, ?_, plugRecords_noTable p r i none now, supervise_noTable (classEntry p r.cls) i r now (admittedNew p r now .departed .unplugged)⟩
    simp only [admitAt, settleNew, if_pos hp, replaceOccupant_none, List.nil_append, List.append_assoc,
      List.cons_append, updateEntry_new, Option.map_none]

/-- A known container under power: TRACKED, off the departed list, REEFER_RETURNED unless it stood in TRACKED (R78,
R79). -/
theorem admitAt_known_powered (p : Setup) (r : ReeferReport) (i : Nat) (x : Reefer) (occ : Option (Nat × Reefer))
    (now : Qt) (u : ReeferUnit) (hp : r.power ≠ .unplug) :
    (admitAt p r i (some x) none occ now u).1.entry i =
        some (Reefer.judged p r i now (admittedKnown p r now x .tracked .none)) ∧
      (admitAt p r i (some x) none occ now u).1.departed =
        (if x.state = .departed then (replaceOccupant r i now occ u).1.departed.filter (fun j => j != i)
          else (replaceOccupant r i now occ u).1.departed) ∧
      ∃ more, (admitAt p r i (some x) none occ now u).2 = (replaceOccupant r i now occ u).2 ++
        ((if x.state = .tracked then []
          else [recReturned i x.container x.state x.reason r.plug (decide (x.plug ≠ r.plug)) now]) ++ more) ∧
        noTableRecord more := by
  refine ⟨(ReeferUnit.entry_setEntry _ i i _).trans ((if_pos rfl).trans ?_), ?_, ?_⟩
  · simp only [supervise_judged, settleKnown, if_neg hp, updateEntry_known]
  · simp only [admitAt, settleKnown, if_neg hp]
  · refine ⟨_, ?_, (plugRecords_noTable p r i (some x.plug) now).append (supervise_noTable (classEntry p r.cls) i r now (admittedKnown p r now x .tracked .none))⟩
    simp only [admitAt, settleKnown, if_neg hp, List.append_nil, List.append_assoc, updateEntry_known,
      Option.map_some]

/-- A known container unplugged: DEPARTED, at the end of the departed list unless it stood in it, REEFER_DEPARTED then
(R82). -/
theorem admitAt_known_unplug (p : Setup) (r : ReeferReport) (i : Nat) (x : Reefer) (now : Qt) (u : ReeferUnit)
    (hp : r.power = .unplug) :
    (admitAt p r i (some x) none none now u).1.entry i =
        some (Reefer.judged p r i now (admittedKnown p r now x .departed .unplugged)) ∧
      (admitAt p r i (some x) none none now u).1.departed =
        (if x.state = .departed then u.departed else u.departed ++ [i]) ∧
      ∃ plug more, (admitAt p r i (some x) none none now u).2 = plug ++
        ((if x.state = .departed then []
          else [recReeferDeparted i x.container r.plug (some x.plug) x.state now]) ++ more) ∧ noTableRecord plug ∧
        noTableRecord more := by
  refine ⟨(ReeferUnit.entry_setEntry _ i i _).trans ((if_pos rfl).trans ?_), ?_, ?_⟩
  · by_cases hx : x.state = .departed <;>
      simp only [supervise_judged, settleKnown, if_pos hp, hx, if_true, if_false, updateEntry_known]
  · by_cases hx : x.state = .departed <;>
      simp only [admitAt, settleKnown, if_pos hp, hx, if_true, if_false, replaceOccupant_none]
  · refine ⟨plugRecords p r i (some x.plug) now, _, ?_, plugRecords_noTable p r i (some x.plug) now,
      supervise_noTable (classEntry p r.cls) i r now (admittedKnown p r now x .departed .unplugged)⟩
    by_cases hx : x.state = .departed <;>
      simp only [admitAt, settleKnown, if_pos hp, hx, if_true, if_false, replaceOccupant_none, List.nil_append,
        List.append_nil, List.append_assoc, updateEntry_known, Option.map_some]

/-! ### A report dispatched -/

/-- An admitted report is observed at the segment of its plug, with no crane excluded (R13, R14). -/
theorem dispatchReport_admitted (p : Setup) (r : ReeferReport) (q : Qt) (s : State) (u : ReeferUnit)
    (rs : List Record) (i : Nat) (h : admitReport p r q s.rfu = (u, rs, some i)) :
    ∃ segs os, dispatchReport p r q s = { s with rfu := u, cvu := { s.cvu with segments := segs },
                                                 rpu := s.rpu.handOverAll (rs ++ os) } ∧
      (∀ g, segs.get Segment.blank g = observed p s (segmentOfPlug p r.plug) .ul none r.level q g) ∧
      classChanges os := by
  obtain ⟨segs, os, heq, hseg, -, hrec⟩ := observeLevel_taken p (plugSegment p r.plug) none r.level q
    ({ s with rfu := u }.report rs)
  refine ⟨segs, os, ?_, fun g => ?_, hrec⟩
  · unfold dispatchReport
    rw [h]
    dsimp only
    rw [heq, ReportUnit.handOverAll_append]
    rfl
  · rw [hseg g, plugSegment_eq]
    exact observed_congr p _ .ul none r.level q g rfl rfl fun _ _ => rfl

theorem dispatchReport_refused (p : Setup) (r : ReeferReport) (q : Qt) (s : State) (rs : List Record)
    (h : admitReport p r q s.rfu = (s.rfu, rs, none)) : dispatchReport p r q s = s.report rs := by
  unfold dispatchReport
  rw [h]

/-- The index an unknown container enters, and the departed list without it (R80). -/
def newIndex (u : ReeferUnit) (i : Nat) (ds : List Nat) : Prop :=
  i < 2048 ∧ u.entry i = none ∧ (∀ j, j < i → u.entry j ≠ none) ∧ ds = u.departed ∨
    (∀ j, j < 2048 → u.entry j ≠ none) ∧ u.departed = i :: ds

theorem admitReport_new {p : Setup} {r : ReeferReport} {now : Qt} {u : ReeferUnit} {i : Nat} {ds : List Nat}
    (hid : findContainer u r.container = none) (hi : newIndex u i ds) : admitReport p r now u =
      ((admitAt p r i none (u.entry i) (occupantOf u r) now { u with departed := ds }).1,
        (admitAt p r i none (u.entry i) (occupantOf u r) now { u with departed := ds }).2, some i) := by
  rcases hi with ⟨hlt, hfree, hlow, rfl⟩ | ⟨hfull, hds⟩
  · rw [admitReport_free p r now u i (placement_free hid hlt hfree hlow), hfree]
  · rw [admitReport_reuse p r now u i ((placement_full hid hfull).1 i ds hds), hds]
    rfl

/-- Nothing stands at a new index but a DEPARTED entry (R80). -/
theorem newIndex_departed {s : State} (hl : reeferLaw s) {i : Nat} {ds : List Nat} (hi : newIndex s.rfu i ds)
    {x : Reefer} (hx : s.rfu.entry i = some x) : x.state = .departed := by
  obtain ⟨-, -, -, hdep⟩ := hl
  rcases hi with ⟨-, hfree, -⟩ | ⟨-, hds⟩
  · rw [hfree] at hx
    cases hx
  · obtain ⟨e, he, hst⟩ := (hdep i).mp (by rw [hds]; exact List.mem_cons_self ..)
    rw [hx] at he
    cases he
    exact hst

theorem recReeferNew_reused (i : Nat) (id : List Byte) (plug : Half) (cls : Nat) (old : Option Reefer) (qt : Qt) :
    (recReeferNew i id plug cls old qt).detail[15]? = some (if old = none then 0 else 1) := by
  cases old <;> rfl

/-- REPLACED is made exactly where there is an occupant, whatever else an admission and its observation record. -/
theorem replaced_coded {r : ReeferReport} {i : Nat} {now : Qt} {occ : Option (Nat × Reefer)} {u : ReeferUnit}
    {more : List Record} (h : 0x21 ∉ more.map Record.code) :
    0x21 ∈ ((replaceOccupant r i now occ u).2 ++ more).map Record.code ↔ occ.isSome = true := by
  rw [List.map_append, List.mem_append, replaceOccupant_codes]
  cases occ with
  | none => simpa using h
  | some o => simp

/-- Settles O18: the admission of an unknown container under power at its new index. -/
theorem reeferAdmitted : Obligations.ReeferAdmitted := by
  rintro s p e q rest r i ds hp ⟨-, -, -, hwf⟩ hl hpow hnew hi
  have hid := findContainer_unknown hwf hnew
  obtain ⟨-, huniq, -, -⟩ := id hl
  have hadmit := admitReport_new (p := p) (now := q) hid hi
  obtain ⟨hentry, hdep, more, hrecs, hmore⟩ := admitAt_new_powered p r i (s.rfu.entry i) (occupantOf s.rfu r) q
    { s.rfu with departed := ds } hpow
  have hscan := admitAt_scanPos p r i none (s.rfu.entry i) (occupantOf s.rfu r) q { s.rfu with departed := ds }
  have hother := admitAt_entry_other p r i none (s.rfu.entry i) (occupantOf s.rfu r) q { s.rfu with departed := ds }
  rw [replaceOccupant_departed] at hdep
  generalize admitAt p r i none (s.rfu.entry i) (occupantOf s.rfu r) q { s.rfu with departed := ds } = a at *
  obtain ⟨segs, os, heq, hseg, hos⟩ := dispatchReport_admitted p r q
    (settledUl s rest { s.rcu.ul with acceptedReefer := s.rcu.ul.acceptedReefer + 1 }) _ _ i hadmit
  have hquiet := hmore.append hos.noTable
  have hcodes : 0x21 ∈ (a.2 ++ os).map Record.code ↔ (occupantOf s.rfu r).isSome = true := by
    rw [hrecs, List.append_assoc]
    refine replaced_coded ?_
    rw [List.cons_append, List.map_cons, List.mem_cons, not_or]
    exact ⟨(by decide : (0x21 : Byte) ≠ 0x20), hquiet.not_mem (by decide)⟩
  have hdeparted : ∀ x, s.rfu.entry i = some x → x.state = .departed := fun x hx => newIndex_departed hl hi hx
  obtain ⟨hrep, hstand, hfree, hnone⟩ := replaceOccupant_replaced hwf huniq hpow (fun j hj => by rw [hid] at hj; cases hj)
    (.inr hdeparted) q ds hcodes (v := { s.rfu with departed := ds }) (fun _ => rfl) hother
  have hmade : recReeferNew i r.container r.plug r.cls (s.rfu.entry i) q ∈ a.2 ++ os := by
    rw [hrecs]
    simp
  refine ⟨_, _, (exec_parsesTo_reefer hp).trans (congrArg _ heq), rfl, hscan, hentry,
    ⟨_, hmade, rfl, rfl, rfl, recReeferNew_reused ..⟩, ?_, hstand, hfree, ?_, hseg⟩
  · intro j y hj hy hs hpl
    obtain ⟨h1, h2, h3⟩ := hrep j y hj hy hs hpl
    exact ⟨h1, hdep.trans h2, h3⟩
  · intro hno
    obtain ⟨h1, h2⟩ := hnone fun j y _ => hno j y
    exact ⟨hdep.trans h1, h2⟩

/-- REEFER_RETURNED names the state and reason left, the plug, and whether it is another (R79). -/
theorem recReturned_detail (i : Nat) (id : List Byte) (left : ReeferState) (reason : DepartReason) (plug old : Half)
    (qt : Qt) : ((recReturned i id left reason plug (decide (old ≠ plug)) qt).detail.drop 6).take 5 =
      [BitVec.ofNat 8 left.code, BitVec.ofNat 8 reason.code] ++ le16 plug ++ [if old = plug then 0 else 1] := by
  by_cases h : old = plug <;> simp [h, recReturned, reeferRecord, mkRecord, padTo, packedBytes, le16, flag, lowByte]

/-- The departed list with the index admitted taken out and the occupants behind it (R77, R79). -/
theorem filter_departed {x : Reefer} {i : Nat} {ds js : List Nat} (hmem : x.state ≠ .departed → i ∉ ds)
    (hjs : i ∉ js) : (if x.state = .departed then (ds ++ js).filter (fun j => j != i) else ds ++ js) =
      ds.filter (fun j => decide (j ≠ i)) ++ js := by
  have hne : ∀ l : List Nat, i ∉ l → l.filter (fun j => j != i) = l := fun l hl =>
    List.filter_eq_self.mpr fun j hj => by
      have : j ≠ i := fun h => hl (h ▸ hj)
      simpa using this
  have hsame : ds.filter (fun j => decide (j ≠ i)) = ds.filter (fun j => j != i) :=
    List.filter_congr fun j _ => by by_cases h : j = i <;> simp [h]
  rw [hsame]
  split
  · rw [List.filter_append, hne js hjs]
  · rename_i hx
    rw [hne ds (hmem hx)]

/-- Settles O19: the admission of a known container, unplugged or under power. -/
theorem knownContainerReported : Obligations.KnownContainerReported := by
  rintro s p e q rest r i x hp ⟨-, -, -, hwf⟩ hl hx hcont
  obtain ⟨-, huniq, -, hdepmem⟩ := id hl
  have hfind : findContainer s.rfu r.container = some i := hcont ▸ findContainer_known hwf huniq hx
  have hadmit := admitReport_known p r q s.rfu i (placement_known hfind)
  rw [hx] at hadmit
  have hscan := admitAt_scanPos p r i (some x) none (occupantOf s.rfu r) q s.rfu
  have hother := admitAt_entry_other p r i (some x) none (occupantOf s.rfu r) q s.rfu
  by_cases hpow : r.power = .unplug
  · have hocc := occupantOf_unplug (u := s.rfu) hpow
    rw [hocc] at hadmit hscan hother
    obtain ⟨hentry, hdep, plug, more, hrecs, hplug, hmore⟩ := admitAt_known_unplug p r i x q s.rfu hpow
    generalize admitAt p r i (some x) none none q s.rfu = a at *
    obtain ⟨segs, os, heq, hseg, hos⟩ := dispatchReport_admitted p r q
      (settledUl s rest { s.rcu.ul with acceptedReefer := s.rcu.ul.acceptedReefer + 1 }) _ _ i hadmit
    refine ⟨_, _, (exec_parsesTo_reefer hp).trans (congrArg _ heq), rfl, hscan,
      ⟨fun _ => ⟨hentry, hother, hdep, ?_, ?_⟩, fun h => absurd hpow h⟩, hseg⟩
    · have h1 := List.count_eq_zero.mpr (hplug.not_mem (k := 0x22) (by decide))
      have h2 := List.count_eq_zero.mpr (hmore.not_mem (k := 0x22) (by decide))
      have h3 := List.count_eq_zero.mpr (hos.noTable.not_mem (k := 0x22) (by decide))
      rw [hrecs]
      simp only [List.map_append, List.count_append, h1, h2, h3]
      split <;> rfl
    · have h1 := hplug.not_mem (k := 0x2F) (by decide)
      have h2 := (hmore.append hos.noTable).not_mem (k := 0x2F) (by decide)
      rw [hrecs, List.append_assoc, List.append_assoc, List.map_append, List.mem_append, not_or, List.map_append,
        List.mem_append, not_or]
      refine ⟨h1, ?_, h2⟩
      split
      · simp
      · exact fun h => absurd (List.mem_singleton.mp h) (by decide : (0x2F : Byte) ≠ 0x22)
  · obtain ⟨hentry, hdep, more, hrecs, hmore⟩ := admitAt_known_powered p r i x (occupantOf s.rfu r) q s.rfu hpow
    rw [replaceOccupant_departed] at hdep
    generalize admitAt p r i (some x) none (occupantOf s.rfu r) q s.rfu = a at *
    obtain ⟨segs, os, heq, hseg, hos⟩ := dispatchReport_admitted p r q
      (settledUl s rest { s.rcu.ul with acceptedReefer := s.rcu.ul.acceptedReefer + 1 }) _ _ i hadmit
    have hquiet := hmore.append hos.noTable
    have hid : ∀ j, findContainer s.rfu r.container = some j → j = i := fun j hj =>
      Option.some.inj (hj.symm.trans hfind)
    have hlisted : x.state ≠ .departed → i ∉ s.rfu.departed := by
      intro hst hmem
      obtain ⟨y, hy, hyd⟩ := (hdepmem i).mp hmem
      rw [hx] at hy
      cases hy
      exact hst hyd
    have hnotocc : i ∉ (occupantOf s.rfu r).toList.map Prod.fst := by
      rcases occupantOf_cases hwf huniq hpow hid (.inl hfind) with ⟨hocc, -⟩ | ⟨k, z, hocc, hki, -⟩
      · simp [hocc]
      · simpa [hocc] using hki.symm
    rw [filter_departed hlisted hnotocc] at hdep
    have hreturned : 0x21 ∉ (((if x.state = .tracked then []
        else [recReturned i x.container x.state x.reason r.plug (decide (x.plug ≠ r.plug)) q]) ++ (more ++ os)).map
          Record.code) := by
      rw [List.map_append, List.mem_append, not_or]
      refine ⟨?_, hquiet.not_mem (by decide)⟩
      split
      · simp
      · exact fun h => absurd (List.mem_singleton.mp h) (by decide : (0x21 : Byte) ≠ 0x2F)
    have hcodes : 0x21 ∈ (a.2 ++ os).map Record.code ↔ (occupantOf s.rfu r).isSome = true := by
      rw [hrecs, List.append_assoc, List.append_assoc]
      exact replaced_coded hreturned
    obtain ⟨hrep, hstand, hfree, hnone⟩ := replaceOccupant_replaced hwf huniq hpow hid (.inl hfind) q
      (s.rfu.departed.filter (fun j => decide (j ≠ i))) hcodes (fun _ => rfl) hother
    refine ⟨_, _, (exec_parsesTo_reefer hp).trans (congrArg _ heq), rfl, hscan,
      ⟨fun h => absurd h hpow, fun _ => ⟨hentry, ⟨?_, hstand, hfree, ?_⟩, ?_, ?_⟩⟩, hseg⟩
    · intro j y hj hy hs hpl
      obtain ⟨h1, h2, -⟩ := hrep j y hj hy hs hpl
      exact ⟨h1, hdep.trans h2⟩
    · exact fun hno => hdep.trans (hnone hno).1
    · intro htr
      rw [hrecs, if_pos htr, List.nil_append, List.append_assoc, List.map_append, List.mem_append, not_or,
        replaceOccupant_codes]
      refine ⟨?_, hquiet.not_mem (by decide)⟩
      cases occupantOf s.rfu r <;> simp
    · intro htr
      refine ⟨_, ?_, rfl, rfl, rfl, recReturned_detail i x.container x.state x.reason r.plug x.plug q⟩
      rw [hrecs, if_neg htr]
      simp

/-- Settles O22: the admission of an unknown container unplugged, and the refusal at a full table. -/
theorem newContainerUnpluggedOrRefused : Obligations.NewContainerUnpluggedOrRefused := by
  rintro s p e q rest r hp ⟨-, -, -, hwf⟩ hl hnew
  have hid := findContainer_unknown hwf hnew
  obtain ⟨hindex, huniq, -, hdepmem⟩ := id hl
  refine ⟨fun i ds hpow hi => ?_, fun hfull hnil => ?_⟩
  · have hadmit := admitReport_new (p := p) (now := q) hid hi
    rw [occupantOf_unplug hpow] at hadmit
    obtain ⟨hentry, hdep, plug, more, hrecs, hplug, hmore⟩ := admitAt_new_unplug p r i (s.rfu.entry i) q
      { s.rfu with departed := ds } hpow
    have hscan := admitAt_scanPos p r i none (s.rfu.entry i) none q { s.rfu with departed := ds }
    have hother := admitAt_entry_other p r i none (s.rfu.entry i) none q { s.rfu with departed := ds }
    generalize admitAt p r i none (s.rfu.entry i) none q { s.rfu with departed := ds } = a at *
    obtain ⟨segs, os, heq, hseg, hos⟩ := dispatchReport_admitted p r q
      (settledUl s rest { s.rcu.ul with acceptedReefer := s.rcu.ul.acceptedReefer + 1 }) _ _ i hadmit
    have hcodes : (a.2 ++ os).map Record.code =
        0x20 :: (plug.map Record.code ++ 0x22 :: (more ++ os).map Record.code) := by
      rw [hrecs]
      simp [recReeferNew, recReeferDeparted, reeferRecord, mkRecord]
    refine ⟨_, _, (exec_parsesTo_reefer hp).trans (congrArg _ heq), rfl, hscan, hdep, hentry, hother, ?_, ?_, ?_, hseg⟩
    · rw [hcodes]
      simp
    · rw [hcodes]
      simp
    · have h1 := hplug.not_mem (k := 0x21) (by decide)
      have h2 := (hmore.append hos.noTable).not_mem (k := 0x21) (by decide)
      rw [hcodes, List.mem_cons, List.mem_append, List.mem_cons, not_or, not_or, not_or]
      exact ⟨by decide, h1, by decide, h2⟩
  · have hplace := (placement_full hid hfull).2 hnil
    have heq := dispatchReport_refused p r q
      (settledUl s rest { s.rcu.ul with acceptedReefer := s.rcu.ul.acceptedReefer + 1 }) _
      (admitReport_refused p r q s.rfu hplace)
    refine ⟨recTableFull r.container r.plug r.cls (occupantOf s.rfu r) q,
      (exec_parsesTo_reefer hp).trans (congrArg _ heq), rfl, rfl, ?_, ?_⟩
    · intro j y hpow hy hplug
      have hstate : y.state ≠ .departed := by
        intro hd
        have hmem := (hdepmem j).mpr ⟨y, hy, hd⟩
        rw [hnil] at hmem
        cases hmem
      have hlt : j < 2048 := (hindex j y hy).1
      have hlimit : ∀ x, s.rfu.entry 2048 = some x → x.state = .departed := fun x hx =>
        absurd (hindex 2048 x hx).1 (Nat.lt_irrefl _)
      rcases occupantOf_cases hwf huniq hpow (i := 2048) (fun k hk => by rw [hid] at hk; cases hk) (.inr hlimit) with
        ⟨-, hfree⟩ | ⟨k, z, hocc, -, -, -, -, hone⟩
      · exact absurd hplug (hfree j y (Nat.ne_of_lt hlt) hy hstate)
      · rw [hone j y hy hstate hplug, hocc]
        rfl
    · intro hno
      have hocc : occupantOf s.rfu r = none := by
        rcases hno with hpow | hfree
        · exact occupantOf_unplug hpow
        · unfold occupantOf
          cases hf : findPlug s.rfu r.plug with
          | none => simp
          | some k =>
            obtain ⟨z, hz, hplug, -⟩ := findPlug_some hwf hf
            exact absurd hplug (hfree k z hz)
      rw [hocc]
      rfl

end Sys2Proof.Machine
end

