-- ==== Sys2Proof/Proofs/Departures.lean ====
section
/-! SUPPORT. A RADIO beat with byte 9 of one slot: the departure or classified read, its decision, counts and records
(R19, R20, R52 to R57, R64). -/

namespace Sys2Proof.Machine

open Sys2Proof

/-! ### The beat and the fetch in it -/

/-- Nothing a fetch reads or changes depends on the views or the bursts in flight. -/
theorem fetchClassByte_views (k : Nat) (s : State) (vu : ViewUnit) (pu : PathUnit) :
    fetchClassByte k { s with vu := vu, pu := pu } = { fetchClassByte k s with vu := vu, pu := pu } := by
  unfold fetchClassByte
  dsimp only
  split
  · rfl
  · split
    · rfl
    · split <;> rfl

/-- The overlay does not depend on the views or the bursts in flight. -/
theorem overlayBytes_views (t : Windows) (a : Nat) (bs : List Byte) (s : State) (vu : ViewUnit) (pu : PathUnit) :
    overlayBytes { s with vu := vu, pu := pu } t a bs = overlayBytes s t a bs := by
  induction bs generalizing a with
  | nil => rfl
  | cons b bs ih =>
    simp only [overlayBytes, ih]
    rfl

/-- No fetch counts DL_EARLY. -/
theorem fetchClassByte_early (k : Nat) (s : State) : (fetchClassByte k s).rcu.dl.early = s.rcu.dl.early := by
  unfold fetchClassByte
  dsimp only
  split
  · simp only [depart, State.report_rcu, CaptureUnit.setRecord]
    unfold DlCounters.countOrder DlCounters.count
    split <;> split <;> rfl
  · split
    · rfl
    · split <;> rfl

/-- What a fetch leaves of the Ring Capture Unit: all but the record of its slot and the downlink counters. -/
theorem fetchClassByte_rcu (k : Nat) (s : State) :
    (fetchClassByte k s).rcu = { s.rcu with
        records := (fetchClassByte k s).rcu.records, dl := (fetchClassByte k s).rcu.dl } ∧
      ∀ j, j ≠ k → (fetchClassByte k s).rcu.record j = s.rcu.record j := by
  unfold fetchClassByte
  dsimp only
  split
  · exact ⟨rfl, fun j hj => (CaptureUnit.record_setRecord s.rcu k j _).trans (if_neg hj)⟩
  · split
    · exact ⟨rfl, fun j _ => rfl⟩
    · split <;> exact ⟨rfl, fun j _ => rfl⟩

/-- DL_EARLY counted where a beat carries early motion bytes for the first time (R58). -/
def countEarly (early : Bool) (s : State) : State :=
  if early = true then { s with rcu := { s.rcu with dl := { s.rcu.dl with early := s.rcu.dl.early + 1 } } } else s

theorem countEarly_rcu (early : Bool) (s : State) : (countEarly early s).rcu =
    { s.rcu with dl := { s.rcu.dl with early := (countEarly early s).rcu.dl.early } } := by
  cases early <;> rfl

theorem countEarly_frame (early : Bool) (s : State) :
    countEarly early s = { s with rcu := (countEarly early s).rcu } := by
  cases early <;> rfl

/-- DEPARTURE with byte 9 of one slot: the fetch of the slot, DL_EARLY counted once, and the beat overlaid (R19, R58). -/
theorem exec_departure_one {s s1 : State} {b : ReadBeat} {o : OpenRead} {tb : Windows} {k : Nat}
    (h : fetchesSlot s s1 b o tb k) : ∃ early pu t, exec (.departure b) s = .next t ∧
      (carriesEarly (fetchClassByte k s) tb (beatAddr b) b.data.length = false → early = false) ∧
      t = { countEarly early (fetchClassByte k s) with vu := s1.vu, pu := pu } ∧
      pu.up = [⟨b.id, b.resp, overlayBytes (countEarly early (fetchClassByte k s)) tb (beatAddr b) b.data⟩] := by
  obtain ⟨hburst, hrole, htable, hresp, hslots⟩ := h
  have hexec : exec (.departure b) s = .next (radioBeat tb b o s1) := by
    simp [exec, execDeparture, passBeat, hburst, isDepartureBeat, htable, hrole, hslots, carryBeat, hresp]
  obtain ⟨vu, pu, rfl⟩ : ∃ vu pu, s1 = { s with vu := vu, pu := pu } := ⟨_, _, (burstOf_only b s s1 o hburst).1⟩
  have hfetch : fetchAll (classByteSlots tb (beatAddr b) b.data.length) { s with vu := vu, pu := pu } =
      { fetchClassByte k s with vu := vu, pu := pu } := by
    rw [hslots]
    exact fetchClassByte_views k s vu pu
  have hbeat : radioBeat tb b o { s with vu := vu, pu := pu } =
      (let f := { fetchClassByte k s with vu := vu, pu := pu }
       let early := carriesEarly f tb (beatAddr b) b.data.length
       endBeat b { o with early := o.early || early } (overlayBytes (countEarly (early && !o.early) f) tb (beatAddr b)
         b.data) (countEarly (early && !o.early) f)) := by
    simp only [radioBeat, hfetch]
    rfl
  have hviews : ∀ early, countEarly early { fetchClassByte k s with vu := vu, pu := pu } =
      { countEarly early (fetchClassByte k s) with vu := vu, pu := pu } := fun early => by cases early <;> rfl
  refine ⟨carriesEarly (fetchClassByte k s) tb (beatAddr b) b.data.length && !o.early,
    (radioBeat tb b o { s with vu := vu, pu := pu }).pu, _, hexec, fun he => ?_, ?_, ?_⟩
  · rw [he]
    rfl
  · rw [hbeat]
    dsimp only
    rw [hviews]
    rfl
  · rw [hbeat]
    dsimp only
    rw [hviews, endBeat_up, overlayBytes_views]
    rfl

/-! ### The decision -/

/-- A crane out of range or disabled: test 1 of R52. -/
def passesBy (s : State) (r : DlRecord) : Prop := 11 < r.crane ∨ craneEnabled s.su.setup r.crane = false

theorem unrostered_iff (s : State) (r : DlRecord) : unrostered s r = true ↔ passesBy s r := by
  unfold unrostered passesBy
  rw [Bool.or_eq_true, decide_eq_true_eq, Bool.not_eq_true']

/-- The reason of a first departure that is held (R52). -/
def haltReason (s : State) (r : DlRecord) : HaltReason :=
  if holdLine s r.crane = true then .hold else if 2 < r.cls.toNat then .classRange else .length

theorem firstDecision_pass {s : State} {r : DlRecord} (h : passesBy s r) : firstDecision s r = .pass :=
  if_pos ((unrostered_iff s r).mpr h)

theorem firstDecision_halt {s : State} {r : DlRecord} (hp : ¬ passesBy s r)
    (h : holdLine s r.crane = true ∨ 2 < r.cls.toNat ∨ r.len < 4 ∨ 248 < r.len) :
    firstDecision s r = .halt (haltReason s r) := by
  unfold firstDecision haltReason
  rw [if_neg (mt (unrostered_iff s r).mp hp)]
  by_cases hh : holdLine s r.crane = true
  · rw [if_pos hh, if_pos hh]
  · rw [if_neg hh, if_neg hh]
    by_cases hc : 2 < r.cls.toNat
    · rw [if_pos hc, if_pos hc]
    · rw [if_neg hc, if_neg hc, if_pos ((h.resolve_left hh).resolve_left hc)]

theorem firstDecision_stale {s : State} {r : DlRecord} (hp : ¬ passesBy s r)
    (h : ¬ (holdLine s r.crane = true ∨ 2 < r.cls.toNat ∨ r.len < 4 ∨ 248 < r.len)) :
    firstDecision s r = if r.validity ≠ 0 ∧ r.validity.toNat < (s.su.qt - r.writeQt).toNat then .stale
      else .delivered := by
  obtain ⟨hh, hc, hl⟩ : ¬ holdLine s r.crane = true ∧ ¬ 2 < r.cls.toNat ∧ ¬ (r.len < 4 ∨ 248 < r.len) := by tauto
  unfold firstDecision
  rw [if_neg (mt (unrostered_iff s r).mp hp), if_neg hh, if_neg hc, if_neg hl]
  have hstale : isStale r s.su.qt = true ↔
      r.validity ≠ 0 ∧ r.validity.toNat < (s.su.qt - r.writeQt).toNat := by
    unfold isStale
    rw [Bool.and_eq_true, decide_eq_true_eq, decide_eq_true_eq]
    rfl
  by_cases hs : isStale r s.su.qt = true
  · rw [if_pos hs, if_pos (hstale.mp hs)]
  · rw [if_neg hs, if_neg (mt hstale.mpr hs)]

theorem laterDecision_pass {s : State} {r : DlRecord} (h : passesBy s r) : laterDecision s r = .pass :=
  if_pos ((unrostered_iff s r).mpr h)

theorem laterDecision_held {s : State} {r : DlRecord} (hp : ¬ passesBy s r) (h : holdLine s r.crane = true) :
    laterDecision s r = .halt .hold := by
  unfold laterDecision
  rw [if_neg (mt (unrostered_iff s r).mp hp), if_pos h]

/-- The stored decision stands at a later departure (R54). -/
theorem laterDecision_stored {s : State} {r : DlRecord} (hp : ¬ passesBy s r) (h : ¬ holdLine s r.crane = true) :
    (∀ why, r.overlay = .halt why → laterDecision s r = .halt why) ∧
      (r.overlay = .stale → laterDecision s r = .stale) ∧ (r.overlay = .none → laterDecision s r = .delivered) := by
  unfold laterDecision
  rw [if_neg (mt (unrostered_iff s r).mp hp), if_neg h]
  exact ⟨fun why ho => by rw [ho], fun ho => by rw [ho], fun ho => by rw [ho]⟩

/-! ### The effects of a departure -/

theorem isCommand_iff (r : DlRecord) : isCommand r = true ↔ r.committed = true ∧ r.complete = true ∧ r.kind = 2 := by
  unfold isCommand
  rw [Bool.and_eq_true, Bool.and_eq_true, decide_eq_true_eq, and_assoc]

theorem fetchClassByte_command {s : State} {k : Nat} (h : isCommand (s.rcu.record k) = true) :
    fetchClassByte k s = depart k s := if_pos h

/-- Only the crane the command names can change (R55). -/
theorem depart_crane_other (k : Nat) (s : State) (m : Nat) (hm : m ≠ (s.rcu.record k).crane) :
    (depart k s).clu.crane m = s.clu.crane m := by
  simp only [depart, State.report_clu]
  split
  · rfl
  · exact (CraneUnit.crane_setCrane _ _ _ _).trans (if_neg hm)

/-- The record, the counters, the crane and the records of a departure by its decision `d` and what it lists `l` (R19,
R55, R64). -/
theorem depart_decided {k : Nat} {s : State} {d : Decision} {l : Listing}
    (hd : departureDecision s (s.rcu.record k) = d)
    (hl : craneDecision s k (s.rcu.record k) d (s.clu.crane (s.rcu.record k).crane) = l) :
    (depart k s).rcu.record k = (s.rcu.record k).afterDeparture d ∧
      (depart k s).rcu.dl = (s.rcu.dl.count d).countOrder l.refused ∧
      (depart k s).clu.crane (s.rcu.record k).crane = l.crane ∧ (depart k s).rpu = s.rpu.handOverAll l.records := by
  subst hd hl
  refine ⟨(CaptureUnit.record_setRecord s.rcu k k _).trans (if_pos rfl), rfl, ?_, rfl⟩
  simp only [depart, State.report_clu]
  split
  · rename_i h
    rw [h]
    rfl
  · exact (CraneUnit.crane_setCrane _ _ _ _).trans (if_pos rfl)

theorem afterDeparture_first {r : DlRecord} (h : r.departed = false) (d : Decision) :
    r.afterDeparture d = { r with departed := true, overlay := d.overlay, lastFetch := d.fetch } := by
  unfold DlRecord.afterDeparture
  rw [h]
  rfl

theorem afterDeparture_later {r : DlRecord} (h : r.departed = true) (d : Decision) :
    r.afterDeparture d = { r with lastFetch := d.fetch } := by
  unfold DlRecord.afterDeparture
  rw [h]
  rfl

/-- A refusal by the list counts DL_ORDER alone (R61). -/
theorem countOrder_order (k : DlCounters) (refused : Bool) :
    k.countOrder refused = { k with order := (k.countOrder refused).order } := by
  cases refused <;> rfl

/-- Offering a command to a list counts no STALE (R61, R62). -/
theorem offerCommand_stale (n slot : Nat) (c : Crane) (seq : Half) (cls : Byte) (stale : Bool) (now : Qt) :
    (offerCommand n slot c seq cls stale now).crane.counters.stale = c.counters.stale := by
  unfold offerCommand
  split
  · simp only [Crane.listCommand]
    split
    · split <;> rfl
    · rfl
  · rfl
  · rfl

theorem holdReason_of_free {s : State} {n : Nat} (h : ¬ holdLine s n = true) : holdReason s n = .none := by
  simpa [holdLine] using h

theorem recCmdHalted_detail (n slot : Nat) (seq : Half) (cls : Byte) (reason : HaltReason) (hold : HoldReason)
    (first : Bool) (validity : Half) (qt : Qt) (h : reason ≠ .hold → hold = .none) :
    (recCmdHalted n slot seq cls reason hold first validity qt).detail.take 10 =
      le16 (BitVec.ofNat 16 slot) ++ le16 seq ++ [cls] ++
        [BitVec.ofNat 8 reason.code, if reason = .hold then BitVec.ofNat 8 hold.code else 0, flag first] ++
        le16 validity := by
  have hcode : lowByte hold.code = if reason = .hold then BitVec.ofNat 8 hold.code else 0 := by
    by_cases hr : reason = .hold
    · rw [if_pos hr]
      rfl
    · rw [if_neg hr, h hr]
      rfl
  rw [← hcode]
  rfl

/-- CMD_STALE of a later departure (R55). -/
theorem recCmdStale_detail (n slot : Nat) (seq : Half) (cls : Byte) (listed : Bool) (validity : Half) (now since : Qt) :
    (recCmdStale n slot seq cls false (false && listed) validity (elapsed now since) now).detail.take 16 =
      le16 (BitVec.ofNat 16 slot) ++ le16 seq ++ [cls] ++ [0, 0, 0] ++ le16 validity ++ [0, 0] ++ le32 (now - since) := by
  have he : BitVec.ofNat 32 (elapsed now since) = now - since := by
    rw [elapsed, BitVec.ofNat_toNat, BitVec.setWidth_eq]
  rw [recCmdStale, he]
  rfl

/-- A later departure offers nothing to the list (R54, R55). -/
theorem craneDecision_later_stale {s : State} {k : Nat} {r : DlRecord} {c : Crane} (h : r.departed = true) :
    craneDecision s k r .stale c = ⟨c.countStale,
      [recCmdStale r.crane k r.seq r.cls false (false && !false) r.validity (elapsed s.su.qt r.writeQt) s.su.qt], false⟩ := by
  simp only [craneDecision, h]
  rfl

theorem craneDecision_later_delivered {s : State} {k : Nat} {r : DlRecord} {c : Crane} (h : r.departed = true) :
    craneDecision s k r .delivered c = ⟨c, [], false⟩ := by
  simp only [craneDecision, h]
  rfl

/-- A departure decided HALT: the crane's count, the counters and CMD_HALTED with its reason (R55, R64). -/
theorem depart_halt {k : Nat} {s : State} {why : HaltReason} {first : Byte}
    (hd : departureDecision s (s.rcu.record k) = .halt why) (hfirst : flag (!(s.rcu.record k).departed) = first)
    (hwhy : why ≠ .hold → ¬ holdLine s (s.rcu.record k).crane = true) :
    (depart k s).rcu.record k = (s.rcu.record k).afterDeparture (.halt why) ∧
      (depart k s).clu.crane (s.rcu.record k).crane =
        (s.clu.crane (s.rcu.record k).crane).countHalted ∧
      (depart k s).rcu.dl = { s.rcu.dl with departed := s.rcu.dl.departed + 1, halted := s.rcu.dl.halted + 1 } ∧
      ∃ z, (depart k s).rpu = s.rpu.handOver z ∧ z.code = 0x18 ∧ z.origin = .clu ∧
        z.object = BitVec.ofNat 16 (s.rcu.record k).crane ∧ z.qt = s.su.qt ∧
        z.detail.take 10 = le16 (BitVec.ofNat 16 k) ++ le16 (s.rcu.record k).seq ++ [(s.rcu.record k).cls] ++
          [BitVec.ofNat 8 why.code,
            if why = .hold then BitVec.ofNat 8 (holdReason s (s.rcu.record k).crane).code else 0, first] ++
          le16 (s.rcu.record k).validity := by
  obtain ⟨hrec, hdl, hclu, hrpu⟩ := depart_decided hd rfl
  refine ⟨hrec, hclu, hdl, _, hrpu, rfl, rfl, rfl, rfl, ?_⟩
  rw [← hfirst]
  exact recCmdHalted_detail _ _ _ _ _ _ _ _ _ fun h => holdReason_of_free (hwhy h)

/-- A departure decided PASS touches the record and the counters alone (R55, R64). -/
theorem depart_pass {k : Nat} {s : State} (hd : departureDecision s (s.rcu.record k) = .pass) :
    (depart k s).rcu.record k = (s.rcu.record k).afterDeparture .pass ∧
      (depart k s).clu.crane (s.rcu.record k).crane = s.clu.crane (s.rcu.record k).crane ∧
      (depart k s).rpu = s.rpu ∧ (depart k s).rcu.dl =
        { s.rcu.dl with departed := s.rcu.dl.departed + 1, unrostered := s.rcu.dl.unrostered + 1 } := by
  obtain ⟨hrec, hdl, hclu, hrpu⟩ := depart_decided hd rfl
  exact ⟨hrec, hclu, hrpu, hdl⟩

/-! ### Reads that are no departure (R20) -/

/-- A classified read that is no departure counts in DL_UNCOMMITTED, DL_UNSEEN or neither, and does nothing else. -/
theorem fetchClassByte_other {s : State} {k : Nat} (h : ¬ isCommand (s.rcu.record k) = true) :
    fetchClassByte k s = { s with rcu := { s.rcu with dl :=
      if (s.rcu.record k).committed = false then { s.rcu.dl with uncommitted := s.rcu.dl.uncommitted + 1 }
      else if (s.rcu.record k).complete = false then { s.rcu.dl with unseen := s.rcu.dl.unseen + 1 }
      else s.rcu.dl } } := by
  unfold fetchClassByte
  dsimp only
  rw [if_neg h]
  cases (s.rcu.record k).committed with
  | false => rfl
  | true => cases (s.rcu.record k).complete <;> rfl

/-- After a fetch the slot does not govern with its last decision UNDECIDED (R57, R58). -/
theorem fetched_decided (k : Nat) (s : State) : (governs (fetchClassByte k s) ((fetchClassByte k s).rcu.record k) &&
    decide (((fetchClassByte k s).rcu.record k).lastFetch = .undecided)) = false := by
  by_cases h : isCommand (s.rcu.record k) = true
  · rw [fetchClassByte_command h, (depart_decided rfl rfl).1]
    have hfetch : ((s.rcu.record k).afterDeparture (departureDecision s (s.rcu.record k))).lastFetch ≠ .undecided := by
      unfold DlRecord.afterDeparture
      cases departureDecision s (s.rcu.record k) <;> split <;> simp [Decision.fetch]
    rw [decide_eq_false hfetch, Bool.and_false]
  · rw [fetchClassByte_other h]
    have hgov : governs s (s.rcu.record k) = false := by
      unfold governs
      rw [Bool.eq_false_iff.mpr h, Bool.false_and]
    exact Bool.and_eq_false_iff.mpr (.inl hgov)

/-- A beat whose bytes in the ring are all of the slot fetched carries no early motion byte (R58). -/
theorem carriesEarly_one {s : State} {tb : Windows} {a n k : Nat}
    (h : ∀ j k' off, j < n → dlPlace tb (a + j) = some (k', off) → k' = k) :
    carriesEarly (fetchClassByte k s) tb a n = false := by
  unfold carriesEarly
  rw [List.any_eq_false]
  intro j hj
  cases hplace : dlPlace tb (a + j) with
  | none => simp
  | some place =>
    obtain ⟨k', off⟩ := place
    obtain rfl := h j k' off (List.mem_range.mp hj) hplace
    dsimp only
    rw [fetched_decided, Bool.false_and]
    simp

/-- Bytes of a slot that does not govern pass as they are (R58). -/
theorem overlayByte_ungoverned {s : State} {tb : Windows} {a k off : Nat} (b : Byte)
    (hplace : dlPlace tb a = some (k, off)) (h : ¬ isCommand (s.rcu.record k) = true) : overlayByte s tb a b = b := by
  have hgov : governs s (s.rcu.record k) = false := by
    unfold governs
    rw [Bool.eq_false_iff.mpr h, Bool.false_and]
  unfold overlayByte
  rw [hplace]
  dsimp only
  rw [hgov]
  rfl

theorem countEarly_dl (early : Bool) (s : State) :
    { (countEarly early s).rcu.dl with early := s.rcu.dl.early } = s.rcu.dl := by
  cases early <;> rfl

theorem countEarly_record (early : Bool) (s : State) (j : Nat) :
    (countEarly early s).rcu.record j = s.rcu.record j := by
  cases early <;> rfl

/-- The frame of a fetch, DL_EARLY and the beat (R19, R20). -/
theorem fetchFrame_of (s : State) (k : Nat) (early : Bool) (vu : ViewUnit) (pu : PathUnit) :
    fetchFrame s { countEarly early (fetchClassByte k s) with vu := vu, pu := pu } k := by
  have hF := fetchClassByte_frame k s
  obtain ⟨hrcu, hother⟩ := fetchClassByte_rcu k s
  rw [countEarly_frame]
  have hsu : (fetchClassByte k s).su = s.su := by rw [hF]
  have hrfu : (fetchClassByte k s).rfu = s.rfu := by rw [hF]
  have hcvu : (fetchClassByte k s).cvu = s.cvu := by rw [hF]
  have hdue : (fetchClassByte k s).due = s.due := by rw [hF]
  have hpending : (fetchClassByte k s).pending = s.pending := by rw [hF]
  have hfree : (fetchClassByte k s).free = s.free := by rw [hF]
  refine ⟨hsu, hrfu, hcvu, hdue, hpending, hfree, ?_, fun j hj => ?_⟩
  · dsimp only
    rw [countEarly_rcu]
    generalize (countEarly early (fetchClassByte k s)).rcu.dl.early = x
    rw [hrcu]
  · exact (countEarly_record early _ j).trans (hother j hj)

/-- The first departure of a command, by its decision (R52, R55, R57, R64). -/
theorem departureDecision_first {s : State} {r : DlRecord} (h : r.departed = false) :
    departureDecision s r = firstDecision s r := if_neg (by rw [h]; decide)

theorem departureDecision_later {s : State} {r : DlRecord} (h : r.departed = true) :
    departureDecision s r = laterDecision s r := if_pos h

/-- Settles O25: the fetch of the slot by its kind, and a departure by its decision. -/
theorem firstDepartureDecided : Obligations.FirstDepartureDecided := by
  intro s s1 b o tb k hfetch
  obtain ⟨early, pu, t, hexec, hearly, ht, hup⟩ := exec_departure_one hfetch
  have hsame := fetchClassByte_early k s
  have hrec : t.rcu.record k = (fetchClassByte k s).rcu.record k := by rw [ht]; exact countEarly_record early _ k
  have hclu : t.clu = (fetchClassByte k s).clu := by rw [ht, countEarly_frame]
  have hrpu : t.rpu = (fetchClassByte k s).rpu := by rw [ht, countEarly_frame]
  have hdl : { t.rcu.dl with early := s.rcu.dl.early } = (fetchClassByte k s).rcu.dl := by
    rw [← hsame, ht]
    exact countEarly_dl early _
  have horder : t.rcu.dl.order = (fetchClassByte k s).rcu.dl.order := by rw [← hdl]
  refine ⟨t, hexec, ht ▸ fetchFrame_of s k early s1.vu pu, ?_⟩
  dsimp only
  rw [hdl, horder, hrec, hclu, hrpu]
  refine ⟨fun hcmd m hm => ?_, fun hcmd hdep => ?_, fun hcmd hdep => ?_, fun hone => ?_, fun hcmd => ?_⟩
  · rw [fetchClassByte_command ((isCommand_iff _).mpr hcmd)]
    exact depart_crane_other k s m hm
  · rw [fetchClassByte_command ((isCommand_iff _).mpr hcmd)]
    have hd := departureDecision_first (s := s) hdep
    by_cases hp : 11 < (s.rcu.record k).crane ∨ craneEnabled s.su.setup (s.rcu.record k).crane = false
    · rw [if_pos hp]
      obtain ⟨hx, hc, hr, hy⟩ := depart_pass (hd.trans (firstDecision_pass hp))
      exact ⟨hx.trans (afterDeparture_first hdep _), hc, hr, hy⟩
    · rw [if_neg hp]
      by_cases hh : holdLine s (s.rcu.record k).crane = true ∨ 2 < (s.rcu.record k).cls.toNat ∨
          (s.rcu.record k).len < 4 ∨ 248 < (s.rcu.record k).len
      · rw [if_pos hh]
        have hwhy : haltReason s (s.rcu.record k) ≠ .hold → ¬ holdLine s (s.rcu.record k).crane = true :=
          fun h hheld => h (if_pos hheld)
        obtain ⟨hx, hc, hy, hz⟩ := depart_halt (first := 1) (hd.trans (firstDecision_halt hp hh))
          (by rw [hdep]; rfl) hwhy
        exact ⟨hx.trans (afterDeparture_first hdep _), hc, hy, hz⟩
      · rw [if_neg hh]
        have hdec := hd.trans (firstDecision_stale hp hh)
        by_cases hs : (s.rcu.record k).validity ≠ 0 ∧
            (s.rcu.record k).validity.toNat < (s.su.qt - (s.rcu.record k).writeQt).toNat
        · rw [if_pos hs] at hdec ⊢
          obtain ⟨hx, hy, hc, -⟩ := depart_decided hdec rfl
          refine ⟨hx.trans (afterDeparture_first hdep _), ?_, hy.trans ((countOrder_order _ _).trans (by rw [hy]; rfl))⟩
          rw [hc]
          simp only [craneDecision, hdep, Bool.not_false, if_true, Crane.countStale, offerCommand_stale]
        · rw [if_neg hs] at hdec ⊢
          obtain ⟨hx, hy, -, -⟩ := depart_decided hdec rfl
          exact ⟨hx.trans (afterDeparture_first hdep _), hy.trans ((countOrder_order _ _).trans (by rw [hy]; rfl))⟩
  · rw [fetchClassByte_command ((isCommand_iff _).mpr hcmd)]
    have hd := departureDecision_later (s := s) hdep
    by_cases hp : 11 < (s.rcu.record k).crane ∨ craneEnabled s.su.setup (s.rcu.record k).crane = false
    · rw [if_pos hp]
      obtain ⟨hx, hc, hr, hy⟩ := depart_pass (hd.trans (laterDecision_pass hp))
      exact ⟨hx.trans (afterDeparture_later hdep _), hc, hr, hy⟩
    · rw [if_neg hp]
      by_cases hh : holdLine s (s.rcu.record k).crane = true
      · rw [if_pos hh]
        obtain ⟨hx, hc, hy, hz⟩ := depart_halt (first := 0) (hd.trans (laterDecision_held hp hh)) (by rw [hdep]; rfl)
          (fun h => absurd rfl h)
        exact ⟨hx.trans (afterDeparture_later hdep _), hc, hy, hz⟩
      · rw [if_neg hh]
        obtain ⟨hhalt, hstale, hnone⟩ := laterDecision_stored hp hh
        cases ho : (s.rcu.record k).overlay with
        | halt why =>
          obtain ⟨hx, hc, hy, hz⟩ := depart_halt (first := 0) (hd.trans (hhalt why ho)) (by rw [hdep]; rfl)
            (fun _ => hh)
          rw [afterDeparture_later hdep, ho] at hx
          exact ⟨hx, hc, hy, hz⟩
        | stale =>
          obtain ⟨hx, hy, hc, hr⟩ := depart_decided (hd.trans (hstale ho)) (craneDecision_later_stale hdep)
          rw [afterDeparture_later hdep, ho] at hx
          exact ⟨hx, hc, hy, _, hr, rfl, rfl, rfl, rfl, recCmdStale_detail ..⟩
        | none =>
          obtain ⟨hx, hy, hc, hr⟩ := depart_decided (hd.trans (hnone ho)) (craneDecision_later_delivered hdep)
          rw [afterDeparture_later hdep, ho] at hx
          exact ⟨hx, hc, hr, hy⟩
  · rw [ht, hearly (carriesEarly_one hone)]
    exact hsame
  · have hno := mt (isCommand_iff (s.rcu.record k)).mp hcmd
    have hstand : (fetchClassByte k s).rcu.record k = s.rcu.record k := by
      rw [fetchClassByte_other hno]
      rfl
    have hpass : ¬ isCommand ((countEarly early (fetchClassByte k s)).rcu.record k) = true := by
      rw [countEarly_record, hstand]
      exact hno
    refine ⟨hstand, by rw [fetchClassByte_other hno], by rw [fetchClassByte_other hno],
      by rw [fetchClassByte_other hno], _, (by rw [ht]; exact hup), overlayBytes_length .., fun j off hj hplace => ?_⟩
    rw [overlayBytes_get, List.getElem?_eq_getElem hj, Option.map_some, overlayByte_ungoverned _ hplace hpass]

end Sys2Proof.Machine
end

