-- ==== Sys2Proof/Proofs/Commands.lean ====
section
/-! SUPPORT. A command word written in RUNNING, taken and judged (R171, R172); the commands that only clear. -/

namespace Sys2Proof.Machine

open Sys2Proof

/-! ### A command taken -/

theorem ofLe_le16 (h : Half) : BitVec.ofNat 16 (ofLe (le16 h)) = h := by
  apply BitVec.eq_of_toNat_eq
  simp only [le16, ofLe, BitVec.toNat_ofNat, BitVec.toNat_setWidth, BitVec.toNat_ushiftRight, Nat.shiftRight_eq_div_pow]
  have := h.isLt
  omega

theorem writtenCode_given {s : State} {w : Write} {code : Byte} {arg : Half} (h : commandGiven s w code arg) :
    writtenCode s w = code := by
  obtain ⟨-, -, -, -, hc, -⟩ := h
  simp only [writtenCode, hc, Option.getD_some]

theorem writtenArg_given {s : State} {w : Write} {code : Byte} {arg : Half} (h : commandGiven s w code arg) :
    writtenArg s w = arg := by
  obtain ⟨-, -, -, -, -, hlo, hhi, -⟩ := h
  have hb : writtenBytes w (commandWordAddr s + 2) 2 = le16 arg := by
    simp only [writtenBytes, hlo, hhi, Option.getD_some, le16]
  rw [writtenArg, hb, ofLe_le16]

/-- A command given in RUNNING changes nothing in the windows: it is begun and judged. -/
theorem completeWrite_given {s : State} {p : Setup} {w : Write} {code : Byte} {arg : Half}
    (hr : s.su.runState = .running) (hp : s.su.setup = some p) (h : commandGiven s w code arg) :
    completeWrite w s = judgeCommand code arg (beginCommand code arg (returnWrite w s)) := by
  obtain ⟨⟨role, hrole, happ⟩, hok, hidle, hcov, -, -, -, honly⟩ := id h
  obtain rfl : role = .app := happ.resolve_right (by simp [hp])
  have hv : countViewWrite w (returnWrite w s) = returnWrite w s :=
    countViewWrite_outside p w _ hp (honly p hp .views (by decide))
  have hw : writeWindows .app w (returnWrite w s) = returnWrite w s := by
    refine (writeWindows_app p w (returnWrite w s) hp hr).trans ?_
    exact writeApp_outside p w _ (honly p hp .dlSlots (by decide)) (honly p hp .dlProducer (by decide))
      (honly p hp .consumer (by decide))
  have hcmd : isCommandWrite (returnWrite w s) .app w = true := by
    have hcov' : coversWhole w (commandWordAddr (returnWrite w s)) 4 = true := hcov
    simp only [isCommandWrite, hcov', decide_true, Bool.true_or, Bool.and_self]
  have hcode : writtenCode (returnWrite w s) w = code := (writtenCode_given h :)
  have harg : writtenArg (returnWrite w s) w = arg := (writtenArg_given h :)
  have htake : takeCommand code arg (judgeCommand code) (returnWrite w s) =
      judgeCommand code arg (beginCommand code arg (returnWrite w s)) := by
    have hidle' : (returnWrite w s).su.command.phase = .idle := hidle
    simp only [takeCommand, hidle']
  rcases completeWrite_cases w s with ⟨hn, -⟩ | ⟨role', hrole', ⟨hf, -⟩ | ⟨-, h3⟩⟩
  · rw [hn] at hrole
    cases hrole
  · rw [hok] at hf
    cases hf
  · obtain rfl := Option.some.inj (hrole.symm.trans hrole')
    rw [h3, hv, hw, writeCommand, if_pos hcmd, hcode, harg, htake]

theorem commandWrite_given {s : State} {p : Setup} {w : Write} {code : Byte} {arg : Half}
    (hr : s.su.runState = .running) (hp : s.su.setup = some p) (h : commandGiven s w code arg) :
    commandWrite (fun c => decide (c = code)) w s =
      judgeCommand code arg (beginCommand code arg (returnWrite w s)) := by
  have hcode := writtenCode_given h
  rw [← completeWrite_given hr hp h]
  obtain ⟨-, -, -, hcov, -⟩ := h
  rw [commandWrite, hcov, hcode, if_pos (by simp)]

/-- A command begun whose action then answers a state with the Setup and Path Units standing is taken with DONE. -/
theorem judgeRunning_done (action : Half → State → Option State) (code : Byte) (arg : Half) (w : Write) (s u : State)
    (hr : s.su.runState = .running) (ha : action arg (beginCommand code arg (returnWrite w s)) = some u)
    (hsu : u.su = (beginCommand code arg (returnWrite w s)).su)
    (hpu : u.pu = (beginCommand code arg (returnWrite w s)).pu) (hq : u.pending = s.pending) :
    ∃ t, judgeRunning action arg (beginCommand code arg (returnWrite w s)) = t ∧ commandTaken s t w code arg .done ∧
      t = { u with su := t.su } := by
  have hrun : (beginCommand code arg (returnWrite w s)).su.runState = .running := hr
  have hwait : u.su.command.pendingAnswered = false := by
    rw [hsu]
    rfl
  refine ⟨{ u with su := { u.su with command := { u.su.command with verdict := some .done } } }, ?_, ?_, rfl⟩
  · simp only [judgeRunning, hrun, ne_eq, not_true_eq_false, if_false, ha]
    exact decideCommand_waits .done u hwait
  · refine ⟨?_, hq, Config.freeFaultByte s.free, ?_⟩
    · simp only [hsu]
      rfl
    · simp only [hpu]
      rfl

/-! ### What the clearing commands do -/

theorem mem_clearedSegments (p : Setup) (arg : Half) (g : Nat) :
    g ∈ clearedSegments p arg ↔ g = arg.toNat ∧ arg ≠ 0xFFFF ∨ arg = 0xFFFF ∧ g < p.coverage.segCount := by
  by_cases h : arg = 0xFFFF
  · rw [clearedSegments, if_pos h]
    simp [h]
  · rw [clearedSegments, if_neg h]
    simp only [List.mem_singleton, h, not_false_eq_true, ne_eq, and_true, false_and, or_false]

theorem clearSegments_segment (p : Setup) (arg : Half) (u : CoverageUnit) (g : Nat) :
    (clearSegments p arg u).segment g = if g = arg.toNat ∧ arg ≠ 0xFFFF ∨ arg = 0xFFFF ∧ g < p.coverage.segCount
      then Segment.blank else u.segment g := by
  simp only [← mem_clearedSegments]
  exact Table.get_modifyAll Segment.blank (fun _ => Segment.blank) (fun _ => rfl) _ u.segments g

/-- Every crane is cleared: one not listed holds the values of reset, which clearing leaves. -/
theorem CraneUnit.clearCounters_crane (u : CraneUnit) (n : Nat) : u.clearCounters.crane n = (u.crane n).clearCounters := by
  have h := Table.get_modifyAll Crane.initial Crane.clearCounters (fun _ => rfl) u.cranes.numbers u.cranes n
  refine h.trans ?_
  split
  case isTrue => rfl
  case isFalse hn =>
    rw [CraneUnit.crane, Table.get_of_not_listed u.cranes Crane.initial n hn]
    rfl

/-- Settles O48: each command is begun, its action answers, and DONE is decided. -/
theorem clearingCommandsDone : Obligations.ClearingCommandsDone := by
  intro s p w arg hr hp
  refine ⟨fun hg harg => ?_, fun hg => ?_, fun hg => ?_⟩
  · have ha : clearCoverage arg (beginCommand 0x07 arg (returnWrite w s)) =
        some { beginCommand 0x07 arg (returnWrite w s) with cvu := clearSegments p arg s.cvu } := by
      have hp' : (beginCommand 0x07 arg (returnWrite w s)).su.setup = some p := hp
      simp only [clearCoverage, hp']
      exact if_pos harg
    obtain ⟨t, ht, htaken, hfr⟩ := judgeRunning_done clearCoverage 0x07 arg w s _ hr ha rfl rfl rfl
    refine ⟨t, ?_, htaken, ?_⟩
    · rw [← ht]
      exact congrArg Host.Outcome.next (commandWrite_given hr hp hg)
    · rw [hfr]
      exact ⟨rfl, rfl, rfl, rfl, rfl, rfl, rfl, clearSegments_segment p arg s.cvu⟩
  · obtain ⟨t, ht, htaken, hfr⟩ := judgeRunning_done clearCounters 0x08 arg w s _ hr rfl rfl rfl rfl
    refine ⟨t, ?_, htaken, ?_⟩
    · rw [← ht]
      exact congrArg Host.Outcome.next (commandWrite_given hr hp hg)
    · rw [hfr]
      exact ⟨rfl, rfl, rfl, rfl, rfl, rfl, s.clu.clearCounters_crane⟩
  · have ha : ackLines arg (beginCommand 0x02 arg (returnWrite w s)) =
        some { beginCommand 0x02 arg (returnWrite w s) with
          rpu := { s.rpu with craneLatch := if p.irqMode = .latchAck then false else s.rpu.craneLatch } } := by
      have hp' : (beginCommand 0x02 arg (returnWrite w s)).su.setup = some p := hp
      simp only [ackLines, hp']
      split <;> rfl
    obtain ⟨t, ht, htaken, hfr⟩ := judgeRunning_done ackLines 0x02 arg w s _ hr ha rfl rfl rfl
    refine ⟨t, ?_, htaken, ?_⟩
    · rw [← ht]
      exact congrArg Host.Outcome.next (commandWrite_given hr hp hg)
    · have hrpu : t.rpu = { s.rpu with craneLatch := if p.irqMode = .latchAck then false else s.rpu.craneLatch } := by
        rw [hfr]
      have hset : t.su.setup = some p := by
        rw [htaken.1]
        exact hp
      refine ⟨by rw [hfr]; rfl, by rw [hfr]; rfl, by rw [hfr]; rfl, by rw [hfr]; rfl, by rw [hfr]; rfl, by rw [hfr]; rfl,
        hrpu, fun hm => ?_⟩
      simp only [irqCrane, hset, hm, hrpu, if_true]

end Sys2Proof.Machine
end

