-- ==== Sys2Proof/Proofs/Loads.lean ====
section
/-! SUPPORT. The end of a load (R169, R170): the index words gathered, the units at a completion, entry into PASS_ONLY,
and the final status of the RELOAD. -/

namespace Sys2Proof.Machine

open Sys2Proof

/-! ### The final status (R171) -/

/-- The final status decided changes the command in hand, and adds at most one status write. -/
theorem decideCommand_frame (v : CmdStatus) (s : State) : ∃ c ws,
    decideCommand v s = { s with
      su := { s.su with command := c }, pu := { s.pu with waitSu := s.pu.waitSu ++ ws } } ∧
    ∀ q ∈ ws, q.body.isLoadRead = false := by
  by_cases h : s.su.command.phase = .pending ∧ s.su.command.pendingAnswered = true
  · refine ⟨_, _, if_pos h, fun q hq => ?_⟩
    obtain rfl := List.mem_singleton.mp hq
    rfl
  · refine ⟨{ s.su.command with verdict := some v }, [], ?_, fun q hq => nomatch hq⟩
    rw [List.append_nil]
    exact if_neg h

theorem decideCommand_final (v : CmdStatus) (s : State) : finalDecided s (decideCommand v s) v := by
  by_cases h : s.su.command.phase = .pending ∧ s.su.command.pendingAnswered = true
  · have hd : decideCommand v s = handFinal v
        { s with su := { s.su with command := { s.su.command with verdict := some v } } } := if_pos h
    rw [finalDecided, if_pos h, hd]
    exact ⟨rfl, List.getLast?_concat⟩
  · have hd : decideCommand v s =
        { s with su := { s.su with command := { s.su.command with verdict := some v } } } := if_neg h
    rw [finalDecided, if_neg h, hd]

/-! ### Transactions that no longer act (R160, R169) -/

theorem InjRequest.orphan_live (which : InjBody → Bool) (q : InjRequest) (h : which (q.orphan which).body = true) :
    (q.orphan which).live = false := by
  unfold InjRequest.orphan at h ⊢
  split at h
  case isTrue hw => rw [if_pos hw]
  case isFalse hw => exact absurd h hw

/-- Report writes orphaned with others are orphaned. -/
theorem orphan_reportsOrphaned (u : PathUnit) (which : InjBody → Bool) (hw : ∀ b, b.isReportWrite = true → which b = true) :
    reportsOrphaned (u.orphan which) := by
  refine ⟨fun q hq hb => ?_, fun x hx hb => ?_, fun x hx hb => ?_⟩
  · obtain ⟨q', -, rfl⟩ := List.mem_map.mp hq
    exact InjRequest.orphan_live which q' (hw _ hb)
  · obtain ⟨x', -, rfl⟩ := List.mem_map.mp hx
    exact InjRequest.orphan_live which x'.request (hw _ hb)
  · obtain ⟨i, -, hi⟩ := List.mem_map.mp hx
    cases i with
    | forwarded r k => cases hi
    | injected x' =>
      cases hi
      exact InjRequest.orphan_live which x'.request (hw _ hb)

/-- No load read waits any more once PASS_ONLY is entered (R169). -/
theorem passOnly_noLoadRead (u : PathUnit) {ws : List InjRequest} (hws : ∀ q ∈ ws, q.body.isLoadRead = false) :
    ((passOnlyPath u).waitSu ++ ws).filter (fun q => q.body.isLoadRead) = [] := by
  rw [List.filter_eq_nil_iff]
  intro q hq
  rcases List.mem_append.mp hq with hq | hq
  · simpa using (List.mem_filter.mp hq).2
  · simp only [hws q hq, Bool.false_eq_true, not_false_eq_true]

theorem OpenRead.outdated_newest (o : OpenRead) : ∀ x ∈ o.outdated.views, x.newest = false := by
  intro x hx
  obtain ⟨y, -, rfl⟩ := List.mem_map.mp hx
  rfl

/-! ### The reefer table and the map at a completion (R89, R90, R140, R141) -/

theorem keepReefer_idem (p : Setup) (now : Qt) (e : Reefer) :
    keepReefer p now (keepReefer p now e) = keepReefer p now e := by
  by_cases h : e.state = .lost ∧ elapsed now e.lastReport < minutesMs (classEntry p e.cls).lossMin
  · have hk : keepReefer p now e = { e with segment := plugSegment p e.plug, state := .silent } := by
      rw [keepReefer, if_pos h]
    rw [hk]
    rfl
  · have hk : keepReefer p now e = { e with segment := plugSegment p e.plug } := by
      rw [keepReefer, if_neg h]
    rw [hk]
    exact congrArg (fun x => { e with segment := plugSegment p e.plug, state := x }) (if_neg h)

theorem keepReefers_entry (p : Setup) (now : Qt) (u : ReeferUnit) (i : Nat) :
    (reloadReefers p true now u).entry i = (u.entry i).map (keepReefer p now) := by
  have hidem : ∀ x : Option Reefer, (x.map (keepReefer p now)).map (keepReefer p now) = x.map (keepReefer p now) := by
    intro x
    cases x with
    | none => rfl
    | some e => exact congrArg some (keepReefer_idem p now e)
  have h := Table.get_modifyAll none (fun e => e.map (keepReefer p now)) hidem u.table.numbers u.table i
  refine h.trans ?_
  split
  case isTrue => rfl
  case isFalse hn =>
    rw [ReeferUnit.entry, Table.get_of_not_listed u.table none i hn]
    rfl

/-- KEEP 1: every entry stays, its segment derived anew, LOST made SILENT below the new loss limit (R90). -/
theorem reloadReefers_kept (p : Setup) {keep : Bool} (now : Qt) (u : ReeferUnit) (hk : keep = true) :
    (reloadReefers p keep now u).departed = u.departed ∧
      ∀ i, (reloadReefers p keep now u).entry i = (u.entry i).map (fun e =>
        { e with
          segment := segmentOfPlug p e.plug
          state := if e.state = .lost ∧ elapsed now e.lastReport < (classEntry p e.cls).lossMin * 60000 then .silent
            else e.state }) := by
  subst hk
  refine ⟨rfl, fun i => (keepReefers_entry p now u i).trans ?_⟩
  simp only [← plugSegment_eq]
  rfl

/-- KEEP 0: the table is emptied (R89). -/
theorem reloadReefers_emptied (p : Setup) {keep : Bool} (now : Qt) (u : ReeferUnit) (hk : keep = false) :
    (∀ i, (reloadReefers p keep now u).entry i = none) ∧ (reloadReefers p keep now u).departed = [] := by
  subst hk
  exact ⟨fun _ => rfl, rfl⟩

theorem clampAverage_idem (p : Setup) (a : Option Int) : clampAverage p (clampAverage p a) = clampAverage p a := by
  cases a with
  | none => rfl
  | some v =>
    simp only [clampAverage, Option.map_some, Option.some.injEq]
    omega

theorem keepSegment_idem (p : Setup) (n : Nat) (g : Segment) :
    keepSegment p n (keepSegment p n g) = keepSegment p n g := by
  simp only [keepSegment, clampAverage_idem, Bool.and_assoc, Bool.and_self]

theorem keepSegment_blank (p : Setup) (n : Nat) : keepSegment p n Segment.blank = Segment.blank := rfl

theorem keepSegments_segment (p : Setup) (ns : List Nat) (u : CoverageUnit) (g : Nat) :
    (keepSegments p ns u).segment g = if g ∈ ns then keepSegment p g (u.segment g) else u.segment g := by
  induction ns generalizing u with
  | nil => rfl
  | cons n ns ih =>
    rw [keepSegments, ih, CoverageUnit.segment_setSegment]
    by_cases hn : g = n
    · subst hn
      simp only [if_true, keepSegment_idem, ite_self, List.mem_cons, true_or]
    · simp only [hn, if_false, List.mem_cons, false_or]

theorem keepSegments_frame (p : Setup) (ns : List Nat) (u : CoverageUnit) :
    keepSegments p ns u = { u with segments := (keepSegments p ns u).segments } := by
  induction ns generalizing u with
  | nil => rfl
  | cons n ns ih => exact ih _

theorem reloadCoverage_kept (p : Setup) (keep : Bool) (u : CoverageUnit)
    (h : keep = true ∧ u.geometry = some ⟨p.coverage.segCount, p.coverage.segLenCm⟩) :
    reloadCoverage p keep u = { u with segments := (reloadCoverage p keep u).segments } ∧
      ∀ g, (reloadCoverage p keep u).segment g = keepSegment p g (u.segment g) := by
  have hk : reloadCoverage p keep u = keepSegments p u.segments.numbers u := if_pos (by simp [mapKept, h, geometryOf])
  rw [hk]
  refine ⟨keepSegments_frame p _ u, fun g => (keepSegments_segment p _ u g).trans ?_⟩
  split
  case isTrue => rfl
  case isFalse hn => rw [CoverageUnit.segment, Table.get_of_not_listed u.segments Segment.blank g hn, keepSegment_blank]

/-- KEEP 0 or another geometry: the map is emptied (R140). -/
theorem reloadCoverage_emptied (p : Setup) (keep : Bool) (u : CoverageUnit)
    (h : ¬(keep = true ∧ u.geometry = some ⟨p.coverage.segCount, p.coverage.segLenCm⟩)) :
    (reloadCoverage p keep u).geometry = some ⟨p.coverage.segCount, p.coverage.segLenCm⟩ ∧
      (reloadCoverage p keep u).scanPos = 0 ∧ (reloadCoverage p keep u).tick = 0 ∧
      (reloadCoverage p keep u).clampReported = false ∧
      ∀ g, (reloadCoverage p keep u).segment g = Segment.blank := by
  have hm : mapKept p keep u ≠ true := by
    intro hk
    rw [mapKept, Bool.and_eq_true] at hk
    obtain ⟨hkeep, hgeometry⟩ := hk
    exact h ⟨hkeep, of_decide_eq_true hgeometry⟩
  rw [reloadCoverage, if_neg hm]
  exact ⟨rfl, rfl, rfl, rfl, fun _ => rfl⟩

/-! ### Reports and views at a completion (R152, R160, R170) -/

/-- Records handed over while the queue has room for them all join it (R154). -/
theorem ReportUnit.handOverAll_room (u : ReportUnit) (rs : List Record) (hr : u.ring = .running)
    (hl : u.queue.length + rs.length ≤ 32) : u.handOverAll rs = { u with queue := u.queue ++ rs } := by
  induction rs generalizing u with
  | nil => simp only [ReportUnit.handOverAll, List.append_nil]
  | cons r rs ih =>
    simp only [List.length_cons] at hl
    have hu : u.handOver r = { u with queue := u.queue ++ [r] } := if_pos ⟨hr, by
      simp only [Config.reportQueueDepth]
      omega⟩
    have hroom : (u.queue ++ [r]).length + rs.length ≤ 32 := by
      rw [List.length_append, List.length_singleton]
      omega
    rw [ReportUnit.handOverAll, hu, ih { u with queue := u.queue ++ [r] } hr hroom]
    simp only [List.append_assoc, List.singleton_append]

theorem indexReadFault_codes (origin : UnitName) (ring : Byte) (v : Word) (count : Nat) (now : Qt) :
    (∀ x ∈ indexReadFault origin ring v count now, x.code = 0x05) ∧
      (indexReadFault origin ring v count now).length = if v.toNat < count then 0 else 1 := by
  unfold indexReadFault
  split
  · exact ⟨fun x hx => (nomatch hx), rfl⟩
  · refine ⟨fun x hx => ?_, rfl⟩
    obtain rfl := List.mem_singleton.mp hx
    rfl

theorem completionRecords_eq (p : Setup) (keep : Bool) (a b c : Word) (s : State) :
    ∃ r rest, completionRecords p keep a b c s = r :: rest ∧ r.code = 0x40 ∧ r.origin = .su ∧
      (∀ x ∈ rest, x.code = 0x05) ∧
      rest.length = (if a.toNat < p.windows.ulCount then 0 else 1) + (if b.toNat < p.windows.dlCount then 0 else 1) +
        (if c.toNat < p.windows.repCount then 0 else 1) := by
  obtain ⟨ha, hla⟩ := indexReadFault_codes .rcu 0 a p.windows.ulCount s.su.qt
  obtain ⟨hb, hlb⟩ := indexReadFault_codes .rcu 1 b p.windows.dlCount s.su.qt
  obtain ⟨hc, hlc⟩ := indexReadFault_codes .rpu 2 c p.windows.repCount s.su.qt
  refine ⟨_, indexReadFault .rcu 0 a p.windows.ulCount s.su.qt ++ indexReadFault .rcu 1 b p.windows.dlCount s.su.qt ++
    indexReadFault .rpu 2 c p.windows.repCount s.su.qt, rfl, rfl, rfl, fun x hx => ?_, ?_⟩
  · rcases List.mem_append.mp hx with hx | hx
    · rcases List.mem_append.mp hx with hx | hx
      · exact ha x hx
      · exact hb x hx
    · exact hc x hx
  · simp only [List.length_append, hla, hlb, hlc]

/-- The Report Unit at a completion: its positions from the word read, its queue the records made (R160, R170). -/
theorem reloadReports_reported (p : Setup) (keep : Bool) (a b c : Word) (s : State) :
    (reloadReports p c).handOverAll (completionRecords p keep a b c s) =
      { reloadReports p c with queue := completionRecords p keep a b c s } := by
  obtain ⟨r, rest, he, -, -, -, hl⟩ := completionRecords_eq p keep a b c s
  refine ReportUnit.handOverAll_room (reloadReports p c) _ rfl ?_
  have hq : (reloadReports p c).queue.length = 0 := rfl
  rw [hq, he, List.length_cons, hl]
  split <;> split <;> split <;> decide

/-- The crane and coverage views show the cranes, the map, the setup and the run state alone (10.5). -/
theorem recordImage_congr {s t : State} {w : View} (hw : w = .crane ∨ w = .coverage) (hr : t.su.runState = s.su.runState)
    (hp : t.su.setup = s.su.setup) (hclu : t.clu = s.clu) (hcvu : t.cvu = s.cvu) :
    shownCount t w = shownCount s w ∧ ∀ i, recordImage t w i = recordImage s w i := by
  rcases hw with rfl | rfl
  · refine ⟨rfl, fun i => ?_⟩
    simp only [recordImage, craneImage, holdLine, holdReason, hr, hp, hclu]
  · refine ⟨by simp only [shownCount, hp], fun i => ?_⟩
    simp only [recordImage, coverageImage, shownBaseline, hp, hcvu]

/-- A view at a completion: blank in LIVE mode, a new snapshot of the state as it stands otherwise (R152). -/
theorem reloadView_eq {p : Setup} {s t : State} {w : View} (old : ViewState) (hw : w = .crane ∨ w = .coverage)
    (hr : t.su.runState = s.su.runState) (hp : t.su.setup = s.su.setup) (hclu : t.clu = s.clu) (hcvu : t.cvu = s.cvu) :
    if viewMode p w = .live then reloadView p s w old = ⟨none, 0, []⟩
    else (reloadView p s w old).generation = old.generation + 1 ∧ (reloadView p s w old).coverageSet = [] ∧
      ∃ n, (reloadView p s w old).newest = some n ∧ n.generation = (reloadView p s w old).generation ∧
        n.qt = s.su.qt ∧ n.count = shownCount t w ∧ ∀ i, i < recordCount w → n.images[i]? = some (recordImage t w i) := by
  obtain ⟨hcount, himage⟩ := recordImage_congr hw hr hp hclu hcvu
  split
  case isTrue hm => exact if_pos hm
  case isFalse hm =>
    rw [reloadView, if_neg hm]
    refine ⟨rfl, rfl, _, rfl, rfl, rfl, hcount.symm, fun i hi => ?_⟩
    rw [himage]
    simp only [takeSnapshot, List.getElem?_map, List.getElem?_range hi, Option.map_some]

/-! ### The lines at a completion -/

theorem reset_crane (n : Nat) : CraneUnit.reset.crane n = Crane.initial := rfl

/-- With every crane at its reset values no HOLD line is deasserted (R44). -/
theorem holdLine_reset {s : State} (h : s.clu = CraneUnit.reset) (n : Nat) : holdLine s n = true := by
  unfold holdLine holdReason
  rw [h, reset_crane]
  split
  · rfl
  · split <;> rfl

/-- With every crane at its reset values, no latch and no pulse, IRQ_CRANE is deasserted in every mode (R161). -/
theorem irqCrane_reset {s : State} (h : s.clu = CraneUnit.reset) (hl : s.rpu.craneLatch = false)
    (hpulse : s.rpu.pulseStart = none) : irqCrane s = false := by
  unfold irqCrane
  cases s.su.setup with
  | none => rfl
  | some p =>
    simp only [hl, hpulse, h, reset_crane]
    cases p.irqMode with
    | level =>
      have hd : linkDown Crane.initial = false := rfl
      simp only [hd, Bool.and_false, List.any_eq_false, Bool.false_eq_true, not_false_eq_true, implies_true]
    | latchRead => rfl
    | latchAck => rfl
    | timed => rfl

/-! ### The row -/

/-- An answer to a read of the load under way is taken (R169). -/
theorem exec_indexWordReadDone {s s1 : State} {id : AxiId} {q : InjRequest} {l : Load} (resp : Resp) (v : Word)
    (ht : takeInjected s .read id = some (q, s1)) (hq : q.body.isWordRead = true) (hlive : q.live = true)
    (hl : s1.su.load = some l) :
    exec (.indexWordReadDone id resp v) s = .next (indexWordAnswered l q.body resp v s1) := by
  have h : exec (.indexWordReadDone id resp v) s = execIndexWordReadDone id resp v s := rfl
  rw [h]
  simp only [execIndexWordReadDone, ht, hq, hl, hlive, if_true]

/-- The read's word put with those already in. -/
theorem takeWord_brings {b : InjBody} {v : Word} {wu wd wr nu nd nr : Option Word}
    (h : b = .ulIndexRead ∧ nu = some v ∧ nd = wd ∧ nr = wr ∨ b = .dlIndexRead ∧ nu = wu ∧ nd = some v ∧ nr = wr ∨
      b = .repIndexRead ∧ nu = wu ∧ nd = wd ∧ nr = some v) :
    b.isWordRead = true ∧ takeWord b v wu wd wr = (nu, nd, nr) := by
  rcases h with ⟨rfl, rfl, rfl, rfl⟩ | ⟨rfl, rfl, rfl, rfl⟩ | ⟨rfl, rfl, rfl, rfl⟩ <;> exact ⟨rfl, rfl⟩

section Answered
variable {l : Load} {p : Setup} {wu wd wr nu nd nr : Option Word} {b : InjBody} {v : Word}

theorem indexWordAnswered_fails {resp : Resp} (hp : l.phase = .words p wu wd wr) (hr : resp ≠ .okay) (s : State) :
    indexWordAnswered l b resp v s = failLoad readError s := by
  have h : injectedOkay resp = false := beq_eq_false_iff_ne.mpr hr
  simp only [indexWordAnswered, hp, h, Bool.not_false, if_true]

theorem indexWordAnswered_kept (hp : l.phase = .words p wu wd wr) (hw : takeWord b v wu wd wr = (nu, nd, nr))
    (hn : nu = none ∨ nd = none ∨ nr = none) (s : State) : indexWordAnswered l b .okay v s =
      { s with su := { s.su with load := some { l with phase := .words p nu nd nr } } } := by
  have h : injectedOkay .okay = true := rfl
  simp only [indexWordAnswered, hp, h, hw, Bool.not_true, Bool.false_eq_true, if_false]
  split
  · simp at hn
  · rfl

theorem indexWordAnswered_completes {a d c : Word} (hp : l.phase = .words p wu wd wr)
    (hw : takeWord b v wu wd wr = (some a, some d, some c)) (s : State) :
    indexWordAnswered l b .okay v s = completeLoad p l.keep a d c s := by
  have h : injectedOkay .okay = true := rfl
  simp only [indexWordAnswered, hp, h, hw, Bool.not_true, Bool.false_eq_true, if_false]

end Answered

/-- The state of a completion before the final status is decided: the units reloaded, the views taken, the records
handed over (R170). -/
def loaded (p : Setup) (keep : Bool) (a b c : Word) (s : State) : State :=
  { reloadUnits p keep a b c s with
    vu := ⟨reloadView p (reloadUnits p keep a b c s) .crane s.vu.crane,
      reloadView p (reloadUnits p keep a b c s) .coverage s.vu.coverage, 0⟩
    rpu := { reloadReports p c with queue := completionRecords p keep a b c s } }

theorem completeLoad_eq (p : Setup) (keep : Bool) (a b c : Word) (s : State) :
    completeLoad p keep a b c s = decideCommand .done (loaded p keep a b c s) := by
  rw [loaded, ← reloadReports_reported]
  rfl

/-- Settles O46: the three outcomes of an index word read; each unit's completion values by its own lemma. -/
theorem Loads.indexWordAnswered : Obligations.IndexWordAnswered := by
  intro s s1 id resp v q l p wu wd wr nu nd nr ht hlive hl hphase hword
  obtain ⟨hbody, hw⟩ := takeWord_brings hword
  obtain ⟨u, rfl⟩ : ∃ u, s1 = { s with pu := u } := ⟨_, takeInjected_frame s s1 .read id q ht⟩
  have hexec := exec_indexWordReadDone resp v ht hbody hlive hl
  refine ⟨fun hr hn => ?_, fun a b c hr hu hd hrep => ?_, fun hr => ?_⟩
  · rw [hexec, hr, indexWordAnswered_kept hphase hw hn]
  · subst hr hu hd hrep
    rw [hexec, indexWordAnswered_completes hphase hw, completeLoad_eq]
    have hfin := decideCommand_final .done (loaded p l.keep a b c { s with pu := u })
    obtain ⟨cmd, ws, ht, -⟩ := decideCommand_frame .done (loaded p l.keep a b c { s with pu := u })
    rw [ht] at hfin ⊢
    obtain ⟨r, rest, hrec, hcode, horigin, hrest, hlen⟩ := completionRecords_eq p l.keep a b c { s with pu := u }
    refine ⟨_, rfl, rfl, hfin, rfl, rfl, rfl, rfl, ⟨r, rest, ?_, hcode, horigin, hrest, hlen⟩, holdLine_reset rfl,
      irqCrane_reset rfl rfl rfl, orphan_reportsOrphaned u _ (fun _ h => h), ?_, rfl, ?_, ?_, ?_, ?_, ?_⟩
    · exact congrArg (fun rs => { reloadReports p c with queue := rs }) hrec
    · intro o ho
      obtain ⟨o', -, rfl⟩ := List.mem_map.mp ho
      exact o'.outdated_newest
    · rintro w (rfl | rfl)
      · exact reloadView_eq s.vu.crane (.inl rfl) rfl rfl rfl rfl
      · exact reloadView_eq s.vu.coverage (.inr rfl) rfl rfl rfl rfl
    · exact reloadReefers_scanPos p l.keep s.su.qt s.rfu
    · exact reloadReefers_emptied p s.su.qt s.rfu
    · exact reloadReefers_kept p s.su.qt s.rfu
    · split
      case isTrue hk => exact reloadCoverage_kept p l.keep s.cvu hk
      case isFalse hk => exact reloadCoverage_emptied p l.keep s.cvu hk
  · rw [hexec, indexWordAnswered_fails hphase hr, failLoad]
    have hfin := decideCommand_final .done (enterPassOnly readError { s with pu := u })
    obtain ⟨cmd, ws, ht, hws⟩ := decideCommand_frame .done (enterPassOnly readError { s with pu := u })
    rw [ht] at hfin ⊢
    refine ⟨_, rfl, rfl, rfl, rfl, rfl, rfl, rfl, rfl, rfl, rfl, rfl, ?_, ?_, hfin⟩
    · exact passOnly_noLoadRead u hws
    · exact orphan_reportsOrphaned u _ (fun b h => by rw [h, Bool.true_or])

end Sys2Proof.Machine
end

