-- ==== Sys2Proof/Proofs/PowerOn.lean ====
section
/-! SUPPORT. Power-on reset (R167). -/

namespace Sys2Proof.Machine

open Sys2Proof

theorem exec_powerOnReset (s : State) (b : BitVec 8) : exec (.powerOnReset b) s =
    .next { State.afterReset b with pending := s.pending, free := s.free } := rfl

/-- Outside RUNNING every HOLD line is asserted, for that reason (R44, R45). -/
theorem hold_not_running {s : State} (h : s.su.runState ≠ .running) (n : Nat) :
    holdLine s n = true ∧ holdReason s n = .notRunning := by
  have hr : holdReason s n = .notRunning := if_pos h
  exact ⟨by rw [holdLine, hr]; rfl, hr⟩

/-- No parameters in force: both interrupt lines are deasserted (R153). -/
theorem irq_no_setup {s : State} (h : s.su.setup = none) : irqCrane s = false ∧ irqEvent s = false := by
  simp only [irqCrane, irqEvent, h, and_self]

/-- Settles O2: the state after the reset is the power-on state, with the waiting commands as they stood. -/
theorem powerOnResetValues : Obligations.PowerOnResetValues := by
  intro s b
  refine ⟨_, exec_powerOnReset s b, ?_⟩
  have hrun : ({ State.afterReset b with pending := s.pending, free := s.free } : State).su.runState ≠ .running := by
    intro h
    cases h
  obtain ⟨hcrane, hevent⟩ :=
    irq_no_setup (s := { State.afterReset b with pending := s.pending, free := s.free }) rfl
  refine ⟨rfl, rfl, rfl, rfl, rfl, rfl, rfl, rfl, rfl, rfl, rfl, fun _ => rfl, fun n => ⟨rfl, hold_not_running hrun n⟩,
    fun _ => rfl, rfl, rfl, fun _ => rfl, rfl, rfl, rfl, rfl, rfl, rfl, hcrane, hevent, rfl, rfl⟩

end Sys2Proof.Machine
end

