-- ==== Sys2Proof/Proofs/TerminalLaw.lean ====
section
/-! SUPPORT. Every single effect keeps the law on terminals: a terminal is learned only where it is bound to no other
crane, and every other effect keeps or drops what is learned (R24, R26). -/

namespace Sys2Proof.Machine

open Sys2Proof

/-! ### The roster of a validated copy (R24) -/

/-- `somePair` finds none exactly where no earlier element is related to a later one. -/
theorem somePair_eq_false {α : Type} {rel : α → α → Bool} (l : List α) :
    somePair rel l = false ↔ l.Pairwise (fun a b => rel a b = false) := by
  induction l with
  | nil => simp [somePair]
  | cons x xs ih => simp [somePair, ih]

/-- A field holds no more than its bytes can. -/
theorem ofLe_lt (bs : List Byte) : ofLe bs < 256 ^ bs.length := by
  induction bs with
  | nil => simp [ofLe]
  | cons b bs ih =>
    have := b.isLt
    simp only [ofLe, List.length_cons, Nat.pow_succ]
    omega

theorem field_lt (bs : List Byte) (a n : Nat) : field bs a n < 256 ^ n := by
  have h := ofLe_lt (slice bs a n)
  rwa [slice_eq, List.length_map, List.length_range, ← slice_eq] at h

/-- The roster of a copy's setup, in numbers. -/
theorem rosterTerminal_setupOf (copy : List Byte) (n : Nat) (t : Word) :
    rosterTerminal (setupOf copy) n = some t ↔ n < 12 ∧ field copy (0xC0 + 8 * n) 4 = t.toNat ∧ t ≠ 0 := by
  have hlt := field_lt copy (0xC0 + 8 * n) 4
  simp only [rosterTerminal, setupOf, List.getElem?_map]
  by_cases hn : n < 12
  · rw [List.getElem?_range hn]
    simp only [Option.map_some, rosterEntryOf]
    constructor
    · intro h
      split at h
      · cases h
      · rename_i hz
        obtain rfl := Option.some.inj h
        exact ⟨hn, by simp only [BitVec.toNat_ofNat]; omega, hz⟩
    · rintro ⟨-, ht, hz⟩
      rw [ht, BitVec.ofNat_toNat, BitVec.setWidth_eq, if_neg hz]
  · rw [List.getElem?_eq_none (by simpa using Nat.le_of_not_lt hn)]
    simp [hn]

/-- ROSTER finds no fault exactly where no terminal stands in the roster twice (R24). -/
theorem rosterBad_eq_false (copy : List Byte) : rosterBad copy = false ↔ (setupOf copy).rosterOk := by
  have hlen : (setupOf copy).roster.length = Config.craneCount := by simp [setupOf, Config.craneCount]
  rw [rosterBad, somePair_eq_false, List.pairwise_iff_getElem]
  simp only [rawTerminals, List.length_map, List.length_range, List.getElem_map, List.getElem_range,
    Bool.and_eq_false_iff, decide_eq_false_iff_not, not_not]
  simp only [Setup.rosterOk, hlen, true_and, rosterTerminal_setupOf]
  constructor
  · rintro h m n t ⟨hm, hmt, hz⟩ ⟨hn, hnt, -⟩
    have hz' : t.toNat ≠ 0 := fun h0 => hz (BitVec.eq_of_toNat_eq h0)
    rcases Nat.lt_trichotomy m n with hlt | heq | hlt
    · rcases h m n hm hn hlt with h0 | hne <;> omega
    · exact heq
    · rcases h n m hn hm hlt with h0 | hne <;> omega
  · intro h i j hi hj hij
    by_contra hc
    simp only [not_or, not_not] at hc
    obtain ⟨hz, heq⟩ := hc
    have hlt := field_lt copy (0xC0 + 8 * i) 4
    have ht : (BitVec.ofNat 32 (field copy (0xC0 + 8 * i) 4)).toNat = field copy (0xC0 + 8 * i) 4 := by
      simp only [BitVec.toNat_ofNat]
      omega
    have hne : BitVec.ofNat 32 (field copy (0xC0 + 8 * i) 4) ≠ 0 := by
      intro h0
      rw [h0] at ht
      exact hz ht.symm
    have := h i j _ ⟨hi, ht.symm, hne⟩ ⟨hj, by rw [ht, heq], hne⟩
    omega

theorem validated_rosterOk (sbase : BitVec 8) (copy : List Byte) (h : validateSetup sbase copy = none) :
    (setupOf copy).rosterOk :=
  (rosterBad_eq_false copy).mp (firstFailing_none _ h (rosterBad copy, 0x09) (by simp))

/-! ### What a crane has learned -/

theorem Crane.takeState_learned (p : Setup) (n : Nat) (c : Crane) (gap : Bool) (before : Option Qt) (a now : Qt) :
    (c.takeState p n gap before a now).1.learned = c.learned := by
  unfold Crane.takeState
  split
  · rfl
  · rfl
  · rfl
  · simp only [apply_ite Prod.fst, apply_ite Crane.learned, ite_self]

/-- Steps 3 to 7 of a frame change nothing of what is learned (R31 to R39). -/
theorem takeStatus_learned (p : Setup) (f : StatusFrame) (now : Qt) (gap : Bool) (c : Crane) :
    (takeStatus p f.crane f now gap c).1.learned = c.learned := by
  rcases Nat.lt_or_ge f.age.toNat p.timing.lateMs with hf | ha
  · rw [takeStatus_fresh p f now gap c hf]
    exact Crane.takeState_learned ..
  · rw [takeStatus_aged p f now gap c ha]
    rfl

/-- A frame's terminal is learned where the claim step says so, and nothing else is (R26). -/
theorem handleStatus_learned (p : Setup) (clu : CraneUnit) (f : StatusFrame) (now : Qt) :
    (handleStatus p clu f now).1.learned = (clu.crane f.crane).learned ∨
      ((handleStatus p clu f now).1.learned = some f.terminal ∧ boundElsewhere p clu f.crane f.terminal = false) := by
  unfold handleStatus
  dsimp only
  split
  · exact .inl rfl
  · split
    · refine .inl ?_
      split
      · rfl
      · rfl
      · exact takeStatus_learned ..
      · exact takeStatus_learned ..
    · rename_i hclaim
      have hfree : boundElsewhere p clu f.crane f.terminal = false := by
        unfold claimOutcome at hclaim
        split at hclaim
        · split at hclaim <;> cases hclaim
        · split at hclaim
          · cases hclaim
          · rename_i hb
            exact Bool.eq_false_iff.mpr hb
      refine .inr ⟨?_, hfree⟩
      split
      · rfl
      · rfl
      · exact takeStatus_learned ..
      · exact takeStatus_learned ..
    · exact .inl rfl
    · exact .inl rfl

theorem Crane.listCommand_learned (n : Nat) (c : Crane) (o : Outstanding) (now : Qt) :
    (c.listCommand n o now).1.learned = c.learned := by
  unfold Crane.listCommand
  split
  · split <;> rfl
  · rfl

theorem offerCommand_learned (n slot : Nat) (c : Crane) (seq : Half) (cls : Byte) (stale : Bool) (now : Qt) :
    (offerCommand n slot c seq cls stale now).crane.learned = c.learned := by
  unfold offerCommand
  split
  · exact Crane.listCommand_learned ..
  · rfl
  · rfl

/-- No departure changes what is learned (R55). -/
theorem craneDecision_learned (s : State) (slot : Nat) (r : DlRecord) (d : Decision) (c : Crane) :
    (craneDecision s slot r d c).crane.learned = c.learned := by
  unfold craneDecision
  cases d with
  | pass => rfl
  | halt reason => rfl
  | delivered =>
    dsimp only
    split
    · exact offerCommand_learned ..
    · rfl
  | stale =>
    dsimp only
    split
    · exact offerCommand_learned ..
    · rfl

/-! ### What an effect does to what is learned -/

/-- What an effect does to the learned terminals: under the same setup each is kept or dropped; all are dropped; or an
enabled crane learns one, not 0, that is bound to no other (R26). -/
inductive LearnedChange (s t : State) : Prop
  | kept (hp : t.su.setup = s.su.setup)
      (h : ∀ n, (t.clu.crane n).learned = (s.clu.crane n).learned ∨ (t.clu.crane n).learned = none)
  | dropped (h : ∀ n, (t.clu.crane n).learned = none)
  | learned (p : Setup) (n : Nat) (x : Word) (hs : s.su.setup = some p) (ht : t.su.setup = some p)
      (hn : craneEnabled (some p) n = true) (hx : x ≠ 0) (hfree : boundElsewhere p s.clu n x = false)
      (hnew : (t.clu.crane n).learned = some x)
      (hother : ∀ m, m ≠ n → (t.clu.crane m).learned = (s.clu.crane m).learned)

/-- A change of crane n keeps or drops what it has learned, or is that of a frame it learns from (R26, R48). -/
theorem CraneChange.learned {s : State} {n : Nat} {c : Crane} (h : CraneChange s n c) :
    c.learned = (s.clu.crane n).learned ∨ c.learned = none ∨
      ∃ p x, s.su.setup = some p ∧ craneEnabled (some p) n = true ∧ x ≠ 0 ∧ boundElsewhere p s.clu n x = false ∧
        c.learned = some x := by
  cases h with
  | late => exact .inl rfl
  | lost => exact .inl rfl
  | traceOpened => exact .inl rfl
  | reset => exact .inr (.inl rfl)
  | decided s0 slot r => exact .inl (craneDecision_learned ..)
  | status p f q cells hp hf hn =>
    subst hn
    obtain ⟨hen, hz⟩ := parseCells_acceptedCrane hf
    rcases handleStatus_learned p s.clu f q with h | ⟨h, hfree⟩
    · exact .inl h
    · exact .inr (.inr ⟨p, f.terminal, hp, hp ▸ hen, hz, hfree, h⟩)

theorem Effect.learned {s t : State} (h : Effect s t) : LearnedChange s t := by
  cases h with
  | crane n c hc =>
    have other : ∀ m, m ≠ n → ((s.clu.setCrane n c).crane m).learned = (s.clu.crane m).learned := fun m hm => by
      rw [CraneUnit.crane_setCrane, if_neg hm]
    have keeps : ((s.clu.setCrane n c).crane n).learned = c.learned := congrArg _ (crane_setCrane_same ..)
    have keptBy : c.learned = (s.clu.crane n).learned ∨ c.learned = none →
        LearnedChange s { s with clu := s.clu.setCrane n c } := fun hl => .kept rfl fun m => by
      by_cases hm : m = n
      · subst hm
        exact hl.imp keeps.trans keeps.trans
      · exact .inl (other m hm)
    rcases hc.learned with hl | hl | ⟨p, x, hp, hn, hx, hfree, hl⟩
    · exact keptBy (.inl hl)
    · exact keptBy (.inr hl)
    · exact .learned p n x hp hp hn hx hfree (keeps.trans hl) other
  | cranesCleared =>
    refine .kept rfl fun n => .inl ?_
    exact (congrArg Crane.learned (s.clu.clearCounters_crane n) :)
  | powerOn b => exact .dropped fun _ => rfl
  | reloaded p a b c l => exact .dropped fun _ => rfl
  | passOnly code => exact .dropped fun _ => rfl
  | _ => exact .kept rfl fun _ => .inl rfl

/-! ### The law -/

theorem terminalLaw_iff (s : State) : terminalLaw s ↔
    (∀ p, s.holds p → p.rosterOk) ∧
      (∀ p, s.su.setup = some p → ∀ m n t, boundTo p s m t → boundTo p s n t → m = n) ∧
      (s.su.setup = none → ∀ n, (s.clu.crane n).learned = none) ∧
      ∀ n, (s.clu.crane n).learned ≠ some 0 ∧ (Config.craneCount ≤ n → (s.clu.crane n).learned = none) := by
  unfold terminalLaw State.holds
  cases s.su.setup <;> simp

/-- A crane beyond the roster has no terminal in it. -/
theorem rosterTerminal_lt {p : Setup} {n : Nat} {t : Word} (hp : p.rosterOk) (h : rosterTerminal p n = some t) :
    n < 12 := by
  by_contra hn
  have : p.roster[n]? = none := List.getElem?_eq_none (hp.1 ▸ Nat.le_of_not_lt hn)
  simp [rosterTerminal, this] at h

theorem craneEnabled_lt {p : Setup} {n : Nat} (hp : p.rosterOk) (h : craneEnabled (some p) n = true) : n < 12 := by
  by_contra hn
  have : p.roster[n]? = none := List.getElem?_eq_none (hp.1 ▸ Nat.le_of_not_lt hn)
  simp [craneEnabled, this] at h

/-- What the claim step takes as free is bound to no other crane (R26). -/
theorem not_boundTo_of_free {p : Setup} {s : State} {n m : Nat} {x : Word} (hp : p.rosterOk)
    (hbeyond : ∀ k, Config.craneCount ≤ k → (s.clu.crane k).learned = none)
    (hfree : boundElsewhere p s.clu n x = false) (hm : m ≠ n) : ¬ boundTo p s m x := by
  intro hb
  have hm12 : m < 12 := by
    rcases hb with h | h
    · exact rosterTerminal_lt hp h
    · by_contra hge
      rw [hbeyond m (Nat.le_of_not_lt hge)] at h
      cases h
  have hno := List.any_eq_false.mp hfree m (List.mem_range.mpr hm12)
  simp only [Bool.and_eq_true, Bool.or_eq_true, decide_eq_true_eq, hm, ne_eq, not_false_eq_true, true_and, not_or] at hno
  obtain ⟨hros, hlearn⟩ := hno
  rcases hb with h | h
  · refine hros ?_
    unfold rosterTerminal at h
    split at h
    · rename_i r hr
      split at h
      · cases h
      · rw [hr]
        exact h
    · cases h
  · exact hlearn h

/-- A terminal bound after a crane kept or dropped what it had learned was bound before. -/
theorem boundTo_mono {p : Setup} {s t : State} {n : Nat} {x : Word}
    (h : (t.clu.crane n).learned = (s.clu.crane n).learned ∨ (t.clu.crane n).learned = none)
    (hb : boundTo p t n x) : boundTo p s n x := by
  rcases hb with hb | hb
  · exact .inl hb
  · rcases h with h | h
    · exact .inr (h ▸ hb)
    · rw [h] at hb
      cases hb

/-- Every effect keeps the law on terminals. -/
theorem Effect.keeps_terminalLaw {s t : State} (h : Effect s t) (hs : terminalLaw s) : terminalLaw t := by
  rw [terminalLaw_iff] at hs ⊢
  obtain ⟨hros, honce, hnone, hrange⟩ := hs
  have hros' : ∀ p, t.holds p → p.rosterOk := by
    intro p hp
    rcases h.holds p hp with hp | ⟨copy, hv, rfl⟩
    · exact hros p hp
    · exact validated_rosterOk _ copy hv
  refine ⟨hros', ?_⟩
  cases h.learned with
  | kept hp hl =>
    refine ⟨fun p ht m n x hm hn => ?_, fun ht n => ?_, fun n => ?_⟩
    · exact honce p (hp ▸ ht) m n x (boundTo_mono (hl m) hm) (boundTo_mono (hl n) hn)
    · exact (hl n).elim (fun h => h.trans (hnone (hp ▸ ht) n)) id
    · obtain ⟨hz, hbeyond⟩ := hrange n
      rcases hl n with h | h <;> rw [h]
      · exact ⟨hz, hbeyond⟩
      · exact ⟨nofun, fun _ => rfl⟩
  | dropped hl =>
    have roster : ∀ p n x, boundTo p t n x → rosterTerminal p n = some x := by
      rintro p n x (hb | hb)
      · exact hb
      · rw [hl n] at hb
        cases hb
    refine ⟨fun p ht m n x hm hn => ?_, fun _ => hl, fun n => ?_⟩
    · exact (hros' p (.inl ht)).2 m n x (roster p m x hm) (roster p n x hn)
    · rw [hl n]
      exact ⟨nofun, fun _ => rfl⟩
  | learned p k x hsp htp hk hx hfree hnew hother =>
    have hok := hros p (.inl hsp)
    have hfree' : ∀ m, m ≠ k → ¬ boundTo p s m x := fun m hm =>
      not_boundTo_of_free hok (fun n => (hrange n).2) hfree hm
    have old : ∀ m y, boundTo p t m y → boundTo p s m y ∨ (m = k ∧ y = x) := by
      rintro m y (hb | hb)
      · exact .inl (.inl hb)
      · by_cases hm : m = k
        · subst hm
          exact .inr ⟨rfl, Option.some.inj (hb.symm.trans hnew)⟩
        · exact .inl (.inr ((hother m hm).symm.trans hb))
    refine ⟨fun q hq m n y hm hn => ?_, fun h0 => (nomatch h0.symm.trans htp), fun n => ?_⟩
    · obtain rfl := Option.some.inj (hq.symm.trans htp)
      rcases old m y hm with hm | ⟨hmk, rfl⟩
      · rcases old n y hn with hn | ⟨rfl, rfl⟩
        · exact honce q hsp m n y hm hn
        · exact Classical.byContradiction fun hne => hfree' m hne hm
      · rcases old n y hn with hn | ⟨hnk, -⟩
        · exact Classical.byContradiction fun hne => hfree' n (fun h => hne (hmk.trans h.symm)) hn
        · exact hmk.trans hnk.symm
    · by_cases hn : n = k
      · subst hn
        rw [hnew]
        exact ⟨fun h0 => hx (Option.some.inj h0), fun hge => absurd (craneEnabled_lt hok hk) (Nat.not_lt.mpr hge)⟩
      · rw [hother n hn]
        exact hrange n

/-- Settles O57: every step is a sequence of effects, and each effect keeps the law on terminals. -/
theorem terminalLawKept : Obligations.TerminalLawKept := fun s t hs h =>
  step_keeps (fun _ _ => Effect.keeps_terminalLaw) s t h hs

end Sys2Proof.Machine
end

