-- ==== Sys2Proof/Proofs/SetupValidation.lean ====
section
/-! SUPPORT. The validation of a setup block copy: each check of R169's table against the limit it stands for, and the
first that fails (R24, R75, R91, R112, R114, R153, R162, R163, R173). -/

namespace Sys2Proof.Machine

open Sys2Proof

/-! ### Checks in the order of their codes -/

/-- A list of checks numbered from `n` on, each of which finds a fault exactly where its limit is broken, the limits
before it holding. -/
def numberedChecks (limit : Nat → Prop) : Nat → List (Bool × Byte) → Prop
  | _, [] => True
  | n, (fails, code) :: rest =>
    code.toNat = n ∧ (fails = false ↔ limit n) ∧ (limit n → numberedChecks limit (n + 1) rest)

/-- The first failing check of a numbered list is that of the first limit broken. -/
theorem firstFailing_numbered (limit : Nat → Prop) (l : List (Bool × Byte)) (n : Nat)
    (h : numberedChecks limit n l) :
    (firstFailing l = none ↔ ∀ c, n ≤ c → c < n + l.length → limit c) ∧
      ∀ code : Byte, firstFailing l = some code ↔
        n ≤ code.toNat ∧ code.toNat < n + l.length ∧ ¬ limit code.toNat ∧
          ∀ c, n ≤ c → c < code.toNat → limit c := by
  induction l generalizing n with
  | nil =>
    simp only [firstFailing, List.length_nil, true_iff, reduceCtorEq, false_iff]
    exact ⟨fun c h1 h2 => by omega, fun code ⟨h1, h2, _⟩ => by omega⟩
  | cons x rest ih =>
    obtain ⟨fails, first⟩ := x
    obtain ⟨hcode, hlimit, hrest⟩ := h
    cases fails with
    | true =>
      have hbroken : ¬ limit n := fun hn => nomatch hlimit.mpr hn
      refine ⟨⟨nofun, fun hall => absurd (hall n (Nat.le_refl n) (by simp)) hbroken⟩, fun code => ?_⟩
      constructor
      · intro h
        obtain rfl := Option.some.inj h
        rw [hcode]
        exact ⟨Nat.le_refl n, by simp, hbroken, fun c h1 h2 => by omega⟩
      · rintro ⟨hle, -, -, hbefore⟩
        have heq : first.toNat = code.toNat := by
          by_contra hne
          exact hbroken (hbefore n (Nat.le_refl n) (by omega))
        exact congrArg some (BitVec.eq_of_toNat_eq heq)
    | false =>
      have hn : limit n := hlimit.mp rfl
      obtain ⟨hnone, hsome⟩ := ih (n + 1) (hrest hn)
      have split : ∀ m, (∀ c, n ≤ c → c < m → limit c) ↔ ∀ c, n + 1 ≤ c → c < m → limit c := by
        refine fun m => ⟨fun h c h1 h2 => h c (by omega) h2, fun h c h1 h2 => ?_⟩
        rcases Nat.eq_or_lt_of_le h1 with rfl | h1
        · exact hn
        · exact h c h1 h2
      have hlen : n + (rest.length + 1) = n + 1 + rest.length := by omega
      have hstep : firstFailing ((false, first) :: rest) = firstFailing rest := rfl
      rw [hstep, List.length_cons, hlen]
      refine ⟨hnone.trans (split _).symm, fun code => (hsome code).trans ?_⟩
      rw [split]
      constructor
      · rintro ⟨h1, h2⟩
        exact ⟨by omega, h2⟩
      · rintro ⟨h1, h2, h3, h4⟩
        have hne : n ≠ code.toNat := fun heq => h3 (heq ▸ hn)
        exact ⟨by omega, h2, h3, h4⟩

/-! ### Ranges -/

theorem outside_eq_false (n low high : Nat) : outside n low high = false ↔ low ≤ n ∧ n ≤ high := by
  simp only [outside, Bool.or_eq_false_iff, decide_eq_false_iff_not, Nat.not_lt]

theorem outsideInt_eq_false (n low high : Int) : outsideInt n low high = false ↔ low ≤ n ∧ n ≤ high := by
  simp only [outsideInt, Bool.or_eq_false_iff, decide_eq_false_iff_not, Int.not_lt]

/-! ### The checks -/

/-- ROLE_TABLE (R162). -/
theorem roleTableBad_eq_false (sbase : BitVec 8) (copy : List Byte) :
    roleTableBad copy = false ↔ setupLimit sbase copy 0x04 := by
  have hinj : (setupOf copy).injId.toNat = rawInjId copy :=
    Nat.mod_eq_of_lt (field_lt copy 0x40 2)
  have hrole : ∀ n, Role.ofCode n = .app ∨ Role.ofCode n = .radio := fun n => by
    unfold Role.ofCode
    split
    · exact .inl rfl
    · exact .inr rfl
  simp only [setupLimit, hinj]
  simp only [roleTableBad, rawRanges, setupOf, Bool.or_eq_false_iff, List.any_eq_false, somePair_eq_false,
    List.forall_mem_map, List.pairwise_map, List.mem_range, rangesMeet, Bool.and_eq_true, Bool.and_eq_false_iff,
    decide_eq_true_eq, decide_eq_false_iff_not, Nat.not_lt, Nat.not_le, hrole, true_and, not_and, and_assoc]
  constructor
  · rintro ⟨hcode, hsound, hapart, hfree⟩
    refine ⟨hcode, fun r hr => ⟨hsound r hr, ?_⟩, hapart.imp ?_⟩
    · have := hfree r hr
      omega
    · intro a b h
      omega
  · rintro ⟨hcode, hrange, hapart⟩
    refine ⟨hcode, fun r hr => (hrange r hr).1, hapart.imp ?_, fun r hr => ?_⟩
    · intro a b h
      omega
    · have := (hrange r hr).2
      omega

/-- The windows of a copy are those of the setup it makes. -/
theorem extents_setupOf (copy : List Byte) : (setupOf copy).windows.extents = rawExtents copy := rfl

/-- WINDOW_RANGE (R163). -/
theorem windowRangeBad_eq_false (sbase : BitVec 8) (copy : List Byte) :
    windowRangeBad copy = false ↔ setupLimit sbase copy 0x05 := by
  simp only [setupLimit, extents_setupOf]
  simp only [windowRangeBad, Bool.or_eq_false_iff, outside_eq_false, List.any_eq_false, decide_eq_true_eq, Nat.not_lt,
    setupOf, windowsOf, and_assoc]

/-- WINDOW_ALIGN (R163). -/
theorem windowAlignBad_eq_false (sbase : BitVec 8) (copy : List Byte) :
    windowAlignBad copy = false ↔ setupLimit sbase copy 0x06 := by
  simp only [setupLimit, extents_setupOf]
  simp only [windowAlignBad, List.any_eq_false, decide_eq_true_eq, not_not]

/-- WINDOW_OVERLAP (R163), the ring sizes being in range: no window is empty then. -/
theorem windowOverlapBad_eq_false (sbase : BitVec 8) (copy : List Byte) (hrange : setupLimit sbase copy 0x05) :
    windowOverlapBad sbase copy = false ↔ setupLimit sbase copy 0x07 := by
  have hsize : ∀ e ∈ setupExtent sbase :: rawExtents copy, 0 < e.size := by
    obtain ⟨hul, -, hdl, -, hrep, -⟩ := hrange
    simp only [setupOf, windowsOf] at hul hdl hrep
    simp only [rawExtents, setupExtent, viewExtent, List.forall_mem_cons]
    refine ⟨by omega, by omega, by omega, by omega, by omega, by omega, by omega, by omega, by omega, by omega, by omega,
      by omega, nofun⟩
  have hlimit : setupLimit sbase copy 0x07 ↔ (setupExtent sbase :: rawExtents copy).Pairwise
      (fun a b => a.base + a.size ≤ b.base ∨ b.base + b.size ≤ a.base) := Iff.rfl
  rw [hlimit, windowOverlapBad, somePair_eq_false]
  refine List.Pairwise.iff_of_mem fun {a b} ha hb => ?_
  have h1 := hsize a ha
  have h2 := hsize b hb
  simp only [extentsMeet, overlaps, Bool.and_eq_false_iff, decide_eq_false_iff_not]
  omega

/-- VIEW_MODE (R173). -/
theorem viewModeBad_eq_false (sbase : BitVec 8) (copy : List Byte) :
    viewModeBad copy = false ↔ setupLimit sbase copy 0x08 := by
  have hmode : ∀ n, (ViewMode.ofCode n).code = n ↔ n ≤ 2 := by
    intro n
    unfold ViewMode.ofCode ViewMode.code
    split_ifs <;> simp only <;> omega
  simp only [setupLimit, viewModeBad, Bool.or_eq_false_iff, decide_eq_false_iff_not, Nat.not_lt, setupOf, hmode]

/-- CRANE_TIMING (R24). -/
theorem timingBad_eq_false (sbase : BitVec 8) (copy : List Byte) :
    timingBad (rawTiming copy) = false ↔ setupLimit sbase copy 0x0A := by
  simp only [setupLimit, setupOf]
  generalize rawTiming copy = t
  simp only [timingBad, Bool.or_eq_false_iff, outside_eq_false, decide_eq_false_iff_not, Nat.not_lt]
  omega

/-- CLASS_TABLE (R91). -/
theorem classesBad_eq_false (sbase : BitVec 8) (copy : List Byte) :
    (rawClasses copy).any classBad = false ↔ setupLimit sbase copy 0x0B := by
  have hlen : (rawClasses copy).length = 16 := by simp [rawClasses]
  simp only [setupLimit, setupOf, hlen, true_and, List.any_eq_false, Bool.not_eq_true]
  refine forall₂_congr fun k _ => ?_
  simp only [classBad, Bool.or_eq_false_iff, outside_eq_false, decide_eq_false_iff_not, Nat.not_lt]
  omega

/-- PLUGS_PER_SEG (R75). -/
theorem plugsBad_eq_false (sbase : BitVec 8) (copy : List Byte) :
    outside (rawPlugsPerSeg copy) 1 4096 = false ↔ setupLimit sbase copy 0x0C := outside_eq_false ..

theorem classMode_mem (n : Nat) :
    (n, ClassMode.ofCode n) ∈ [(0, ClassMode.absolute), (1, .relative)] ↔ n ≤ 1 := by
  unfold ClassMode.ofCode
  split
  · simp [*]
  · simp
    omega

/-- COVERAGE_PARAM (R112). -/
theorem coverageBad_eq_false (sbase : BitVec 8) (copy : List Byte) :
    coverageBad (rawCoverage copy) (rawClassMode copy) = false ↔ setupLimit sbase copy 0x0D := by
  have hmode : (field copy 0x1D4 1, (setupOf copy).classMode) ∈ [(0, ClassMode.absolute), (1, .relative)] ↔
      rawClassMode copy ≤ 1 := classMode_mem _
  simp only [setupLimit, hmode, Setup.windowOk, Geometry.ok, geometryOf]
  simp only [setupOf]
  generalize rawCoverage copy = c
  generalize rawClassMode copy = m
  simp only [coverageBad, Bool.or_eq_false_iff, outside_eq_false, outsideInt_eq_false, decide_eq_false_iff_not,
    Nat.not_lt]
  omega

/-- BASELINE (R114), SEG_COUNT being in range: every segment of the map has an entry in the table then. -/
theorem baselineBad_eq_false (sbase : BitVec 8) (copy : List Byte) (hcount : setupLimit sbase copy 0x0D) :
    baselineBad copy = false ↔ setupLimit sbase copy 0x0E := by
  have hseg : (rawCoverage copy).segCount ≤ 128 := by
    obtain ⟨-, -, -, h, -⟩ := hcount
    exact h
  have hbase : ∀ g, g < (rawCoverage copy).segCount → baselineOf (setupOf copy) g = rawBaseline copy g := by
    intro g hg
    have hg' : g < 128 := by omega
    simp [baselineOf, setupOf, hg']
  simp only [setupLimit, baselineBad, List.any_eq_false, List.mem_range, Option.any_eq_true, not_exists, not_and,
    Bool.not_eq_true, outsideInt_eq_false]
  exact ⟨fun h g b hg hb => h g hg b ((hbase g hg).symm.trans hb), fun h g hg b hb => h g b hg ((hbase g hg).trans hb)⟩

theorem irqMode_mem (n : Nat) : (n, CraneIrqMode.ofCode n) ∈
    [(0, CraneIrqMode.level), (1, .latchRead), (2, .latchAck), (3, .timed)] ↔ n ≤ 3 := by
  unfold CraneIrqMode.ofCode
  by_cases h0 : n = 0
  · simp [h0]
  · by_cases h1 : n = 1
    · simp [h1]
    · by_cases h2 : n = 2
      · simp [h2]
      · simp [h0, h1, h2]
        omega

/-- REPORT_PARAM (R153). -/
theorem reportParamBad_eq_false (sbase : BitVec 8) (copy : List Byte) :
    reportParamBad copy = false ↔ setupLimit sbase copy 0x0F := by
  have hmask : (setupOf copy).irqMask.toNat = field copy 0x304 2 := Nat.mod_eq_of_lt (field_lt copy 0x304 2)
  have hmode : (field copy 0x302 1, (setupOf copy).irqMode) ∈
      [(0, CraneIrqMode.level), (1, .latchRead), (2, .latchAck), (3, .timed)] ↔ field copy 0x302 1 ≤ 3 := irqMode_mem _
  simp only [setupLimit, hmask, hmode]
  simp only [setupOf, windowsOf, reportParamBad, Bool.or_eq_false_iff, outside_eq_false, decide_eq_false_iff_not,
    Nat.not_lt, Nat.not_le]
  omega

/-! ### The validation -/

/-- The checks of R169's table in order, each with its limit. -/
theorem validateSetup_numbered (sbase : BitVec 8) (copy : List Byte) :
    ∃ l, validateSetup sbase copy = firstFailing l ∧ l.length = 14 ∧ numberedChecks (setupLimit sbase copy) 0x02 l := by
  refine ⟨_, rfl, rfl, ?_⟩
  refine ⟨rfl, by simp [setupLimit], fun _ => ⟨rfl, by simp [setupLimit], fun _ => ?_⟩⟩
  refine ⟨rfl, roleTableBad_eq_false sbase copy, fun _ => ?_⟩
  refine ⟨rfl, windowRangeBad_eq_false sbase copy, fun hrange => ?_⟩
  refine ⟨rfl, windowAlignBad_eq_false sbase copy, fun _ => ?_⟩
  refine ⟨rfl, windowOverlapBad_eq_false sbase copy hrange, fun _ => ?_⟩
  refine ⟨rfl, viewModeBad_eq_false sbase copy, fun _ => ?_⟩
  refine ⟨rfl, rosterBad_eq_false copy, fun _ => ?_⟩
  refine ⟨rfl, timingBad_eq_false sbase copy, fun _ => ?_⟩
  refine ⟨rfl, classesBad_eq_false sbase copy, fun _ => ?_⟩
  refine ⟨rfl, plugsBad_eq_false sbase copy, fun _ => ?_⟩
  refine ⟨rfl, coverageBad_eq_false sbase copy, fun hcoverage => ?_⟩
  refine ⟨rfl, baselineBad_eq_false sbase copy hcoverage, fun _ => ?_⟩
  exact ⟨rfl, reportParamBad_eq_false sbase copy, fun _ => trivial⟩

/-- Settles O45: the checks stand in the order of their codes, and each fails exactly where its limit is broken. -/
theorem validatedSetupInRange : Obligations.ValidatedSetupInRange := by
  intro sbase copy
  obtain ⟨l, hl, hlen, hnum⟩ := validateSetup_numbered sbase copy
  obtain ⟨hnone, hsome⟩ := firstFailing_numbered (setupLimit sbase copy) l 0x02 hnum
  have hlast : ∀ n, n < 0x02 + l.length ↔ n ≤ 0x0F := fun n => by
    rw [hlen]
    omega
  simp only [hlast] at hnone hsome
  rw [hl]
  exact ⟨hnone, hsome⟩

end Sys2Proof.Machine
end

