-- ==== Sys2Proof/Proofs/PortTime.lean ====
section
/-! SUPPORT. Port time (R168): the checks still due taken one by one in their order, what each of them leaves alone, and
the increment (R40, R41, R105, R129, R161). -/

namespace Sys2Proof.Machine

open Sys2Proof

/-! ### What the checks leave alone -/

/-- The two states differ in the cranes, the reefer table, the segments and their scan position, the Report Unit and the
checks due alone. -/
def onlyChecksDiffer (s t : State) : Prop :=
  t = { s with
    clu := t.clu, rfu := { s.rfu with table := t.rfu.table },
    cvu := { s.cvu with segments := t.cvu.segments, scanPos := t.cvu.scanPos }, rpu := t.rpu, due := t.due }

theorem onlyChecksDiffer.refl (s : State) : onlyChecksDiffer s s := rfl

theorem onlyChecksDiffer.trans {s t u : State} (h : onlyChecksDiffer s t) (k : onlyChecksDiffer t u) :
    onlyChecksDiffer s u := by
  unfold onlyChecksDiffer at *
  rw [k, h]

theorem craneEntered_checks (n : Nat) (s : State) : onlyChecksDiffer s (craneEntered n s) := by
  unfold craneEntered
  split
  · exact .refl s
  · split
    · exact .refl s
    · split <;> rfl

theorem enterLost_checks (p : Setup) (n : Nat) (s : State) : onlyChecksDiffer s (enterLost p n s) := by
  obtain ⟨r, s1, s2, rfl, h2, h⟩ := enterLost_stages p n s
  rw [h]
  refine .trans ?_ (craneEntered_checks n s2)
  rcases h2 with rfl | ⟨x, -, rfl⟩ <;> rfl

theorem deadlineCheck_checks (p : Setup) (n : Nat) (s : State) : onlyChecksDiffer s (deadlineCheck p n s) := by
  rcases deadlineCheck_cases p n s with ⟨-, h⟩ | ⟨-, h⟩ | h <;> rw [h]
  · exact enterLost_checks p n s
  · rfl
  · rfl

theorem checkDeadlines_checks (p : Setup) (ns : List Nat) (s : State) : onlyChecksDiffer s (checkDeadlines p ns s) := by
  induction ns generalizing s with
  | nil => exact .refl s
  | cons n ns ih => exact (deadlineCheck_checks p n s).trans (ih _)

theorem visitReefers_checks (p : Setup) (is : List Nat) (s : State) : onlyChecksDiffer s (visitReefers p is s) := by
  rw [visitReefers_frame]
  rfl

theorem changeSegment_checks (g : Nat) (f : Segment → Segment × List Record) (s : State) :
    onlyChecksDiffer s (changeSegment g f s) := rfl

theorem scanAdvanced_checks (n : Nat) (s : State) :
    onlyChecksDiffer s { s with cvu := { s.cvu with scanPos := n } } := rfl

theorem coverageVisit_checks (p : Setup) (s : State) : onlyChecksDiffer s (coverageVisit p s) :=
  .trans (.trans (changeSegment_checks ..) (.trans (changeSegment_checks ..) (changeSegment_checks ..)))
    (scanAdvanced_checks ..)

theorem endPulse_checks (s : State) : onlyChecksDiffer s (endPulse s) := rfl

/-! ### The checks due as an operand -/

/-- The state with other checks due. -/
def State.withDue (s : State) (d : DueChecks) : State := { s with due := d }

@[simp] theorem State.withDue_su (s : State) (d : DueChecks) : (s.withDue d).su = s.su := rfl
@[simp] theorem State.withDue_due (s : State) (d : DueChecks) : (s.withDue d).due = d := rfl
@[simp] theorem State.withDue_withDue (s : State) (d e : DueChecks) : (s.withDue d).withDue e = s.withDue e := rfl

/-- The checks `d` taken at the current QT in their order: deadline checks, visits, coverage visit, pulse test. -/
def takeChecks (p : Setup) (d : DueChecks) (s : State) : State :=
  let s1 := checkDeadlines p d.deadlines s
  let s2 := visitReefers p d.visits s1
  let s3 := if d.coverage then coverageVisit p s2 else s2
  if d.pulse && pulseOver p s3 then endPulse s3 else s3

theorem finishDue_none {s : State} (hp : s.su.setup = none) : finishDue s = s.withDue DueChecks.none := by
  simp only [finishDue, hp]
  rfl

theorem finishDue_some {s : State} {p : Setup} (hp : s.su.setup = some p) :
    finishDue s = (takeChecks p s.due s).withDue DueChecks.none := by
  simp only [finishDue, hp]
  rfl

theorem takeChecks_checks (p : Setup) (d : DueChecks) (s : State) : onlyChecksDiffer s (takeChecks p d s) := by
  have h2 := (checkDeadlines_checks p d.deadlines s).trans (visitReefers_checks p d.visits _)
  have h3 : onlyChecksDiffer s (if d.coverage then
      coverageVisit p (visitReefers p d.visits (checkDeadlines p d.deadlines s))
      else visitReefers p d.visits (checkDeadlines p d.deadlines s)) := by
    split
    · exact h2.trans (coverageVisit_checks p _)
    · exact h2
  have h4 : ∀ (b : Bool) (t : State), onlyChecksDiffer t (if b then endPulse t else t) := fun b t => by
    cases b
    · exact .refl t
    · exact endPulse_checks t
  exact h3.trans (h4 _ _)

theorem finishDue_checks (s : State) : onlyChecksDiffer s (finishDue s) := by
  cases hp : s.su.setup with
  | none =>
    rw [finishDue_none hp]
    rfl
  | some p =>
    rw [finishDue_some hp]
    exact (takeChecks_checks p s.due s).trans rfl

/-! ### No check looks at the checks due -/

theorem craneEntered_withDue (n : Nat) (s : State) (d : DueChecks) :
    craneEntered n (s.withDue d) = (craneEntered n s).withDue d := by
  unfold craneEntered
  rw [State.withDue_su]
  split
  · rfl
  · split
    · rfl
    · split <;> rfl

theorem enterLost_withDue (p : Setup) (n : Nat) (s : State) (d : DueChecks) :
    enterLost p n (s.withDue d) = (enterLost p n s).withDue d := by
  have hpos : ((s.withDue d).clu.crane n).position = (s.clu.crane n).position := rfl
  have hlocal : ((s.withDue d).clu.crane n).localCtl = (s.clu.crane n).localCtl := rfl
  simp only [enterLost, hpos, hlocal]
  rw [← craneEntered_withDue]
  congr 1
  cases (s.clu.crane n).position with
  | none => rfl
  | some x =>
    dsimp only [Option.map_some]
    split <;> rfl

theorem deadlineCheck_withDue (p : Setup) (n : Nat) (s : State) (d : DueChecks) :
    deadlineCheck p n (s.withDue d) = (deadlineCheck p n s).withDue d := by
  have hc : (s.withDue d).clu.crane n = s.clu.crane n := rfl
  simp only [deadlineCheck, hc, State.withDue_su]
  split
  · exact enterLost_withDue p n s d
  · split <;> rfl

theorem checkDeadlines_withDue (p : Setup) (ns : List Nat) (s : State) (d : DueChecks) :
    checkDeadlines p ns (s.withDue d) = (checkDeadlines p ns s).withDue d := by
  induction ns generalizing s with
  | nil => rfl
  | cons n ns ih => rw [checkDeadlines, deadlineCheck_withDue, ih, checkDeadlines]

theorem visitReefer_withDue (p : Setup) (i : Nat) (s : State) (d : DueChecks) :
    visitReefer p i (s.withDue d) = (visitReefer p i s).withDue d := by
  have he : (s.withDue d).rfu.entry i = s.rfu.entry i := rfl
  unfold visitReefer
  rw [he, State.withDue_su]
  split
  · rfl
  · split
    · rfl
    · split
      · unfold silenceReefer
        dsimp only
        split
        · rename_i h
          exact (if_pos h).symm ▸ rfl
        · rename_i h
          exact (if_neg h).symm ▸ rfl
      · rfl

theorem visitReefers_withDue (p : Setup) (is : List Nat) (s : State) (d : DueChecks) :
    visitReefers p is (s.withDue d) = (visitReefers p is s).withDue d := by
  induction is generalizing s with
  | nil => rfl
  | cons i is ih => rw [visitReefers, visitReefer_withDue, ih, visitReefers]

theorem takeChecks_withDue (p : Setup) (e : DueChecks) (s : State) (d : DueChecks) :
    takeChecks p e (s.withDue d) = (takeChecks p e s).withDue d := by
  simp only [takeChecks, checkDeadlines_withDue, visitReefers_withDue]
  generalize visitReefers p e.visits (checkDeadlines p e.deadlines s) = u
  have h3 : (if e.coverage then coverageVisit p (u.withDue d) else u.withDue d) =
      (if e.coverage then coverageVisit p u else u).withDue d := by
    split <;> rfl
  rw [h3]
  generalize (if e.coverage then coverageVisit p u else u) = v
  have hover : pulseOver p (v.withDue d) = pulseOver p v := rfl
  rw [hover]
  split <;> rfl

/-- A deadline check leaves the checks due as they are. -/
theorem deadlineCheck_due (p : Setup) (n : Nat) (s : State) : (deadlineCheck p n s).due = s.due :=
  (congrArg State.due (deadlineCheck_withDue p n s s.due) :)

/-! ### The first check taken by its own row -/

/-- Taking the checks still due goes on with the others from a state in which the first is taken. -/
theorem finishDue_first {s v : State} {p : Setup} {d : DueChecks} (hp : s.su.setup = some p) (hv : v.su.setup = some p)
    (h : takeChecks p s.due s = takeChecks p d v) : finishDue s = finishDue (v.withDue d) := by
  have hv' : (v.withDue d).su.setup = some p := hv
  rw [finishDue_some hp, finishDue_some hv', State.withDue_due, takeChecks_withDue, h, State.withDue_withDue]

/-- LINK_LOST with its condition, at a check due (R41). -/
theorem exec_linkLost {s : State} {p : Setup} {n : Fin 12} (hp : s.su.setup = some p) (hr : s.su.runState = .running)
    (hn : n.val ∈ s.due.deadlines) (hl : lostCondition p (s.clu.crane n) s.su.qt = true) :
    exec (.linkLost n) s = .next ((enterLost p n s).deadlineDone n) := by
  have h : exec (.linkLost n) s = execLinkLost n s := rfl
  rw [h, execLinkLost, hp]
  dsimp only
  rw [if_pos ⟨hr, hn, hl⟩]

/-- LINK_LATE with its condition, at a check due (R40). -/
theorem exec_linkLate {s : State} {p : Setup} {n : Fin 12} (hp : s.su.setup = some p) (hr : s.su.runState = .running)
    (hn : n.val ∈ s.due.deadlines) (hl : lateCondition p (s.clu.crane n) s.su.qt = true) :
    exec (.linkLate n) s = .next ((enterLate n s).deadlineDone n) := by
  have h : exec (.linkLate n) s = execLinkLate n s := rfl
  rw [h, execLinkLate, hp]
  dsimp only
  rw [if_pos ⟨hr, hn, hl⟩]

/-- The visit due first, taken by the row that its entry's limit names (R105 to R107). -/
theorem exec_firstVisit {s u : State} {p : Setup} {i : Fin 2048} {is : List Nat} {e : Reefer}
    (hp : s.su.setup = some p) (hr : s.su.runState = .running) (hi : s.due.visits = i.val :: is)
    (he : s.rfu.entry i = some e)
    (h : lossReached p s.su.qt e = true ∧ exec (.reeferLost i) s = .next u ∨
      silenceReached p s.su.qt e = true ∧ exec (.reeferSilent i) s = .next u) :
    u = (visitReefer p i s).withDue { s.due with visits := is } := by
  have hmem : i.val ∈ s.due.visits := hi ▸ List.mem_cons_self ..
  rw [State.withDue, ← takeVisits_head p i is s hi]
  rcases h with ⟨hl, h⟩ | ⟨hl, h⟩ <;> obtain rfl := Host.Outcome.next.inj h
  · rw [hp, he]
    exact if_pos ⟨hr, hmem, hl⟩
  · rw [hp, he]
    exact if_pos ⟨hr, hmem, hl⟩

theorem exec_coverageScanVisit {s : State} {p : Setup} (hp : s.su.setup = some p) (hr : s.su.runState = .running)
    (hc : s.due.coverage = true) : exec .coverageScanVisit s = .next (coverageVisit p s).coverageDone := by
  have h : exec .coverageScanVisit s = .next (scanVisit (fun _ _ => true) s) := rfl
  rw [h, scanVisit, hp]
  dsimp only
  rw [if_pos ⟨hr, hc, rfl⟩]

theorem exec_irqCranePulseEnd {s : State} {p : Setup} (hp : s.su.setup = some p) (hd : s.due.pulse = true)
    (ho : pulseOver p s = true) : exec .irqCranePulseEnd s = .next (endPulse s).pulseDone := by
  have h : exec .irqCranePulseEnd s = execIrqCranePulseEnd s := rfl
  rw [h, execIrqCranePulseEnd, hp]
  dsimp only
  rw [if_pos ⟨hd, ho⟩]

theorem pulseOver_iff (p : Setup) (s : State) : pulseOver p s = true ↔
    p.irqMode = .timed ∧ ∃ x, s.rpu.pulseStart = some x ∧ p.pulseMs ≤ elapsed s.su.qt x := by
  unfold pulseOver
  cases s.rpu.pulseStart <;> simp

/-- The deadline check of a crane that meets neither condition finds nothing. -/
theorem deadlineCheck_nothing {p : Setup} {n : Nat} {s : State}
    (hlost : lostCondition p (s.clu.crane n) s.su.qt = false)
    (hlate : lateCondition p (s.clu.crane n) s.su.qt = false) : deadlineCheck p n s = s := by
  simp only [deadlineCheck, hlost, hlate, Bool.false_eq_true, if_false]

/-- The visit to an index without an entry at a limit finds nothing. -/
theorem visitReefer_nothing {p : Setup} {i : Nat} {s : State}
    (h : ∀ e, s.rfu.entry i = some e → lossReached p s.su.qt e = false ∧ silenceReached p s.su.qt e = false) :
    visitReefer p i s = s := by
  rcases visitReefer_cases p i s with hv | ⟨e, he, ⟨hl, -⟩ | ⟨-, hl, -⟩⟩
  · exact hv
  · rw [(h e he).1] at hl
    cases hl
  · rw [(h e he).2] at hl
    cases hl

/-- A deadline check that is first of its list, taken by its row, leaves the rest of the list due. -/
theorem deadlineDone_first {s : State} {n : Nat} {ns : List Nat} {p : Setup} (hd : s.due.deadlines = n :: ns)
    (hn : n ∉ ns) : (deadlineCheck p n s).deadlineDone n =
      (deadlineCheck p n s).withDue { s.due with deadlines := ns } := by
  have hf : (n :: ns).filter (fun m => decide (m ≠ n)) = ns := by
    rw [List.filter_cons_of_neg (by simp), List.filter_eq_self]
    intro m hm
    exact decide_eq_true fun h => hn (h ▸ hm)
  rw [State.deadlineDone, State.withDue, deadlineCheck_due, hd, hf]

/-- The deadline check due first, taken by the row of what it finds or without effect (R40, R41). -/
theorem firstDeadline_taken {s u : State} {p : Setup} {n : Fin 12} {ns : List Nat} (hp : s.su.setup = some p)
    (hr : s.su.runState = .running) (hd : s.due.deadlines = n.val :: ns) (hn : n.val ∉ ns)
    (h : lostCondition p (s.clu.crane n) s.su.qt = true ∧ exec (.linkLost n) s = .next u ∨
      lateCondition p (s.clu.crane n) s.su.qt = true ∧ exec (.linkLate n) s = .next u ∨
      lostCondition p (s.clu.crane n) s.su.qt = false ∧ lateCondition p (s.clu.crane n) s.su.qt = false ∧
        u = { s with due := { s.due with deadlines := ns } }) :
    u = (deadlineCheck p n s).withDue { s.due with deadlines := ns } := by
  have hmem : n.val ∈ s.due.deadlines := hd ▸ List.mem_cons_self ..
  rcases h with ⟨hl, h⟩ | ⟨hl, h⟩ | ⟨hlost, hlate, rfl⟩
  · rw [exec_linkLost hp hr hmem hl] at h
    obtain rfl := Host.Outcome.next.inj h
    rw [← deadlineDone_first hd hn, deadlineCheck, if_pos hl]
  · rw [exec_linkLate hp hr hmem hl] at h
    obtain rfl := Host.Outcome.next.inj h
    have hlost : lostCondition p (s.clu.crane n) s.su.qt = false := by
      simp only [lateCondition, Bool.and_eq_true, Bool.not_eq_true'] at hl
      exact hl.2
    rw [← deadlineDone_first hd hn]
    simp only [deadlineCheck, hlost, hl, Bool.false_eq_true, if_false, if_true]
  · rw [deadlineCheck_nothing hlost hlate]
    rfl

/-- The checks still due come to the same with the first of them taken. -/
theorem dueStep.finishDue_eq {s u : State} (h : dueStep s u) : finishDue s = finishDue u := by
  obtain ⟨p, hp, ⟨hr, n, ns, hd, hn, hstep⟩ | ⟨hr, hd, i, is, hi, hstep⟩ | ⟨hr, hd, hi, hc, hstep⟩ |
    ⟨hd, hi, hc, hpulse, hmode, hover, hstep⟩⟩ := h
  · rw [firstDeadline_taken hp hr hd hn hstep]
    refine finishDue_first hp ((congrArg SetupUnit.setup (deadlineCheck_su p n s)).trans hp) ?_
    simp only [takeChecks, hd, checkDeadlines]
  · have hu : u = (visitReefer p i s).withDue { s.due with visits := is } := by
      rcases hstep with ⟨e, he, hstep⟩ | ⟨hnone, rfl⟩
      · exact exec_firstVisit hp hr hi he hstep
      · rw [visitReefer_nothing hnone]
        rfl
    rw [hu]
    refine finishDue_first hp ((congrArg SetupUnit.setup (visitReefer_su p i s)).trans hp) ?_
    simp only [takeChecks, hd, hi, checkDeadlines, visitReefers]
  · rw [exec_coverageScanVisit hp hr hc] at hstep
    obtain rfl := Host.Outcome.next.inj hstep
    refine finishDue_first (v := coverageVisit p s) (d := { s.due with coverage := false }) hp hp ?_
    simp only [takeChecks, hd, hi, hc, checkDeadlines, visitReefers, if_true, Bool.false_eq_true, if_false]
  · have ho : pulseOver p s = true := (pulseOver_iff p s).mpr ⟨hmode, hover⟩
    rw [exec_irqCranePulseEnd hp hpulse ho] at hstep
    obtain rfl := Host.Outcome.next.inj hstep
    refine finishDue_first (v := endPulse s) (d := { s.due with pulse := false }) hp hp ?_
    simp only [takeChecks, hd, hi, hc, hpulse, ho, checkDeadlines, visitReefers, Bool.false_eq_true, if_false,
      Bool.and_self, Bool.false_and, if_true]

/-! ### Nothing found -/

theorem checkDeadlines_nothing {p : Setup} {ns : List Nat} {s : State}
    (h : ∀ n ∈ ns, lostCondition p (s.clu.crane n) s.su.qt = false ∧ lateCondition p (s.clu.crane n) s.su.qt = false) :
    checkDeadlines p ns s = s := by
  induction ns with
  | nil => rfl
  | cons n ns ih =>
    obtain ⟨⟨hlost, hlate⟩, hns⟩ := List.forall_mem_cons.mp h
    rw [checkDeadlines, deadlineCheck_nothing hlost hlate, ih hns]

theorem visitReefers_nothing {p : Setup} {is : List Nat} {s : State}
    (h : ∀ i ∈ is, ∀ e, s.rfu.entry i = some e →
      lossReached p s.su.qt e = false ∧ silenceReached p s.su.qt e = false) : visitReefers p is s = s := by
  induction is with
  | nil => rfl
  | cons i is ih =>
    obtain ⟨hi, his⟩ := List.forall_mem_cons.mp h
    rw [visitReefers, visitReefer_nothing hi, ih his]

/-- Where no check still due finds anything, taking them leaves none due and nothing else changed. -/
theorem finishDue_nothing {s : State} (h : nothingFound s) : finishDue s = s.withDue DueChecks.none := by
  cases hp : s.su.setup with
  | none => exact finishDue_none hp
  | some p =>
    obtain ⟨hdead, hvis, hcov, hpulse⟩ := h p hp
    have hover : (s.due.pulse && pulseOver p s) = false := by
      rw [Bool.and_eq_false_iff, or_iff_not_imp_left]
      intro hd
      rw [Bool.eq_false_iff]
      intro ho
      obtain ⟨hmode, x, hx, hle⟩ := (pulseOver_iff p s).mp ho
      have := hpulse (by simpa using hd) hmode x hx
      omega
    rw [finishDue_some hp]
    simp only [takeChecks, checkDeadlines_nothing hdead, visitReefers_nothing hvis, hcov, hover, Bool.false_eq_true,
      if_false]

theorem nothingFound_none (s : State) : nothingFound (s.withDue DueChecks.none) := fun _ _ =>
  ⟨fun _ hn => (nomatch hn), fun _ hi => (nomatch hi), rfl, fun h => (nomatch h)⟩

/-- A deadline check due first in RUNNING is taken, by its row where it finds something. -/
theorem dueStep_of_deadline {s : State} {p : Setup} {n : Nat} {ns : List Nat} (hp : s.su.setup = some p)
    (hr : s.su.runState = .running) (hd : s.due.deadlines = n :: ns) (hn : n ∉ ns) (hlt : n < 12) :
    ∃ u, dueStep s u := by
  have hmem : (⟨n, hlt⟩ : Fin 12).val ∈ s.due.deadlines := hd ▸ List.mem_cons_self ..
  cases hlost : lostCondition p (s.clu.crane n) s.su.qt with
  | true => exact ⟨_, p, hp, .inl ⟨hr, ⟨n, hlt⟩, ns, hd, hn, .inl ⟨hlost, exec_linkLost hp hr hmem hlost⟩⟩⟩
  | false =>
    cases hlate : lateCondition p (s.clu.crane n) s.su.qt with
    | true => exact ⟨_, p, hp, .inl ⟨hr, ⟨n, hlt⟩, ns, hd, hn, .inr (.inl ⟨hlate, exec_linkLate hp hr hmem hlate⟩)⟩⟩
    | false => exact ⟨_, p, hp, .inl ⟨hr, ⟨n, hlt⟩, ns, hd, hn, .inr (.inr ⟨hlost, hlate, rfl⟩)⟩⟩

/-- A visit due first in RUNNING, no deadline check being due, is taken, by its row where it finds something. -/
theorem dueStep_of_visit {s : State} {p : Setup} {i : Nat} {is : List Nat} (hp : s.su.setup = some p)
    (hr : s.su.runState = .running) (hd : s.due.deadlines = []) (hi : s.due.visits = i :: is) (hlt : i < 2048) :
    ∃ u, dueStep s u := by
  by_cases hfound : ∃ e, s.rfu.entry i = some e ∧
      (lossReached p s.su.qt e = true ∨ silenceReached p s.su.qt e = true)
  · obtain ⟨e, he, hl | hl⟩ := hfound
    · exact ⟨_, p, hp, .inr (.inl ⟨hr, hd, ⟨i, hlt⟩, is, hi, .inl ⟨e, he, .inl ⟨hl, rfl⟩⟩⟩)⟩
    · exact ⟨_, p, hp, .inr (.inl ⟨hr, hd, ⟨i, hlt⟩, is, hi, .inl ⟨e, he, .inr ⟨hl, rfl⟩⟩⟩)⟩
  · refine ⟨_, p, hp, .inr (.inl ⟨hr, hd, ⟨i, hlt⟩, is, hi, .inr ⟨fun e he => ?_, rfl⟩⟩)⟩
    exact ⟨Bool.eq_false_iff.mpr fun hl => hfound ⟨e, he, .inl hl⟩,
      Bool.eq_false_iff.mpr fun hl => hfound ⟨e, he, .inr hl⟩⟩

/-- Of checks as an increment makes them due, none finds anything, or the first is taken (R40, R41, R105, R129, R161). -/
theorem nothingFound_or_dueStep {s : State} (h : dueInRange s) : nothingFound s ∨ ∃ u, dueStep s u := by
  obtain ⟨hnodup, hcranes, hindices, hstopped⟩ := h
  cases hp : s.su.setup with
  | none => exact .inl fun p hp' => nomatch hp.symm.trans hp'
  | some p =>
    have running : ¬ (s.due.deadlines = [] ∧ s.due.visits = [] ∧ s.due.coverage = false) →
        s.su.runState = .running := fun hd => by
      by_contra hr
      exact hd (hstopped hr)
    cases hd : s.due.deadlines with
    | cons n ns =>
      have hn : n ∉ ns := (List.nodup_cons.mp (hd ▸ hnodup)).1
      exact .inr (dueStep_of_deadline hp (running fun h0 => by simp [hd] at h0) hd hn
        (hcranes n (hd ▸ List.mem_cons_self ..)))
    | nil =>
      cases hi : s.due.visits with
      | cons i is =>
        exact .inr (dueStep_of_visit hp (running fun h0 => by simp [hi] at h0) hd hi
          (hindices i (hi ▸ List.mem_cons_self ..)))
      | nil =>
        cases hc : s.due.coverage with
        | true =>
          have hr := running fun h0 => by simp [hc] at h0
          exact .inr ⟨_, p, hp, .inr (.inr (.inl ⟨hr, hd, hi, hc, rfl⟩))⟩
        | false =>
          by_cases ho : s.due.pulse = true ∧ pulseOver p s = true
          · obtain ⟨hpulse, hover⟩ := ho
            obtain ⟨hmode, hstart⟩ := (pulseOver_iff p s).mp hover
            exact .inr ⟨_, p, hp, .inr (.inr (.inr ⟨hd, hi, hc, hpulse, hmode, hstart, rfl⟩))⟩
          · refine .inl fun q hq => ?_
            obtain rfl := Option.some.inj (hp.symm.trans hq)
            refine ⟨by simp [hd], by simp [hi], hc, fun hpulse hmode x hx => ?_⟩
            by_contra hle
            exact ho ⟨hpulse, (pulseOver_iff p s).mpr ⟨hmode, x, hx, Nat.le_of_not_lt hle⟩⟩

/-! ### The increment -/

/-- The state one millisecond later. -/
def State.clocked (s : State) : State := { s with su := { s.su with qt := s.su.qt + 1 } }

theorem exec_qtIncrement (s : State) : exec .qtIncrement s = .next (armChecks (finishDue s).clocked) := rfl

/-- The tick count after an increment, and whether the coverage visit falls due (R129). -/
theorem nextTick_eq (n : Nat) :
    nextTick n = (if n + 1 < 100 then n + 1 else 0, decide (100 ≤ n + 1)) := by
  unfold nextTick
  split
  · rw [if_neg (by omega), decide_eq_true (by omega)]
  · rw [if_pos (by omega), decide_eq_false (by omega)]

/-- In RUNNING an increment moves the scans on and makes the checks due (R40, R41, R105, R129, R161). -/
theorem armChecks_running {s : State} (h : s.su.runState = .running) : armChecks s = { s with
    rfu := { s.rfu with scanPos := (s.rfu.scanPos + 2) % 2048 }
    cvu := { s.cvu with tick := if s.cvu.tick + 1 < 100 then s.cvu.tick + 1 else 0 }
    due := ⟨List.range 12, [s.rfu.scanPos % 2048, (s.rfu.scanPos + 1) % 2048], decide (100 ≤ s.cvu.tick + 1), true⟩ } := by
  rw [armChecks, if_pos h, nextTick_eq]
  rfl

/-- In other run states the scans hold, and the test of a pulse alone is due (R161, R168). -/
theorem armChecks_stopped {s : State} (h : s.su.runState ≠ .running) :
    armChecks s = { s with due := ⟨[], [], false, true⟩ } := if_neg h

/-- Settles O3: the checks still due change the units they speak of alone, and taking them in order may begin with the
row of the first. -/
theorem qtIncrementCounts : Obligations.QtIncrementCounts := by
  refine ⟨fun s => ?_, fun s h => ?_, fun s u h => ?_, fun s h => nothingFound_or_dueStep h⟩
  · obtain ⟨clu, table, segments, scanPos, rpu, due, hfin⟩ : ∃ clu table segments scanPos rpu due,
        finishDue s = { s with
          clu := clu, rfu := { s.rfu with table := table },
          cvu := { s.cvu with segments := segments, scanPos := scanPos }, rpu := rpu, due := due } :=
      ⟨_, _, _, _, _, _, finishDue_checks s⟩
    have hsame : nothingFound s → clu = s.clu ∧ rpu = s.rpu ∧ table = s.rfu.table ∧ segments = s.cvu.segments ∧
        scanPos = s.cvu.scanPos := fun h => by
      have heq := hfin.symm.trans (finishDue_nothing h)
      exact ⟨congrArg State.clu heq, congrArg State.rpu heq, congrArg (fun t => t.rfu.table) heq,
        congrArg (fun t => t.cvu.segments) heq, congrArg (fun t => t.cvu.scanPos) heq⟩
    refine ⟨_, exec_qtIncrement s, ?_⟩
    rw [hfin]
    by_cases hr : s.su.runState = .running
    · rw [armChecks_running (by exact hr)]
      refine ⟨rfl, fun _ => ⟨rfl, rfl, rfl⟩, fun h => absurd hr h, rfl, rfl, rfl, rfl, rfl, rfl, rfl, rfl, fun h => ?_⟩
      obtain ⟨rfl, rfl, rfl, rfl, rfl⟩ := hsame h
      exact ⟨rfl, rfl, rfl, rfl⟩
    · rw [armChecks_stopped (by exact hr)]
      refine ⟨rfl, fun h => absurd h hr, fun _ => ⟨rfl, rfl, rfl⟩, rfl, rfl, rfl, rfl, rfl, rfl, rfl, rfl, fun h => ?_⟩
      obtain ⟨rfl, rfl, rfl, rfl, rfl⟩ := hsame h
      exact ⟨rfl, rfl, rfl, rfl⟩
  · have hnone : finishDue (s.withDue DueChecks.none) = s.withDue DueChecks.none :=
      finishDue_nothing (nothingFound_none s)
    exact congrArg (fun t => Host.Outcome.next (armChecks t.clocked)) ((finishDue_nothing h).trans hnone.symm)
  · exact congrArg (fun t => Host.Outcome.next (armChecks t.clocked)) h.finishDue_eq

end Sys2Proof.Machine
end

