-- ==== Sys2Proof/Proofs/CraneDeadlines.lean ====
section
/-! SUPPORT. Entry into LATE, LOST and CLAIM: the HOLD line, the latch and the pulse, the vote of a lost crane (R40 to
R42, R47, R125, R127, R161), and the status frames that end at the claim or the sequence step (R26 to R29). -/

namespace Sys2Proof.Machine

open Sys2Proof

/-! ### The lines at an entry into LOST or CLAIM -/

/-- HOLD is asserted while the link state is neither LIVE nor LATE (R44). -/
theorem holdLine_of_down {s : State} {n : Nat} (hlive : (s.clu.crane n).link ≠ .live)
    (hlate : (s.clu.crane n).link ≠ .late) : holdLine s n = true := by
  unfold holdLine holdReason
  split
  · rfl
  · split
    · rfl
    · cases h : (s.clu.crane n).link with
      | live => exact absurd h hlive
      | late => exact absurd h hlate
      | _ => rfl

/-- An entry into LOST or CLAIM sets the latch or starts a pulse, for a crane in the mask and by the mode (R161). -/
theorem craneEntered_eq {s : State} {p : Setup} (n : Nat) (hp : s.su.setup = some p) : craneEntered n s =
    { s with rpu := { s.rpu with
        craneLatch := if p.irqMask.getLsbD n = true ∧ (p.irqMode = .latchRead ∨ p.irqMode = .latchAck) then true
          else s.rpu.craneLatch
        pulseStart := if p.irqMask.getLsbD n = true ∧ p.irqMode = .timed then some s.su.qt
          else s.rpu.pulseStart } } := by
  simp only [craneEntered, hp, inMask]
  by_cases hm : p.irqMask.getLsbD n = true
  · cases hmode : p.irqMode <;> simp [hm]
  · simp [hm]

theorem ReportUnit.handOver_craneLatch (u : ReportUnit) (r : Record) : (u.handOver r).craneLatch = u.craneLatch :=
  u.handOverAll_craneLatch [r]

theorem ReportUnit.handOver_pulseStart (u : ReportUnit) (r : Record) : (u.handOver r).pulseStart = u.pulseStart :=
  u.handOverAll_pulseStart [r]

/-! ### LINK_LATE (R40) -/

/-- The deadline of R40 reached, and none of R41. -/
theorem lateCondition_of {p : Setup} {c : Crane} {now a : Qt} (hlink : c.link = .live) (ha : c.lastArrival = some a)
    (hlate : p.timing.lateMs ≤ elapsed now a) (hlost : elapsed now a < p.timing.lostMs)
    (hecho : ∀ o rest, c.outstanding = o :: rest → elapsed now o.departed < p.timing.echoMs) :
    lateCondition p c now = true := by
  have hover : echoOverdue c now p.timing.echoMs = false := by
    unfold echoOverdue
    cases ho : c.outstanding with
    | nil => rfl
    | cons o rest => exact decide_eq_false (Nat.not_le.mpr (hecho o rest ho))
  simp [lateCondition, lostCondition, silentFor, ha, hover, hlink, hlate, hlost]

/-- Settles O4: the check due finds the LATE condition alone, and entry into LATE changes the link state. -/
theorem linkLateEntry : Obligations.LinkLateEntry := by
  intro s p n a hp hr hn hlink ha hlate hlost hecho
  have hexec := exec_linkLate hp hr hn (lateCondition_of hlink ha hlate hlost hecho)
  have hcrane : ((enterLate n s).deadlineDone n).clu.crane n = { s.clu.crane n with link := .late } :=
    crane_setCrane_same ..
  refine ⟨_, _, hexec, rfl, hcrane, fun m hm => ?_, ?_, rfl, rfl, rfl, rfl, rfl⟩
  · exact (CraneUnit.crane_setCrane s.clu n m _).trans (if_neg hm)
  · have hsu : ((enterLate n s).deadlineDone n).su = s.su := rfl
    simp only [holdLine, holdReason, hsu, hcrane, hlink]

/-! ### The vote of a lost crane (R47, R125, R127) -/

/-- Two classes together have no more entries in a history than it holds. -/
theorem count_add_count_le {c d : SegClass} (h : c ≠ d) (l : List SegClass) : l.count c + l.count d ≤ l.length := by
  induction l with
  | nil => simp
  | cons x l ih =>
    simp only [List.count_cons, List.length_cons, beq_iff_eq]
    split
    · rename_i hc
      rw [if_neg (fun hd => h (hc.symm.trans hd))]
      omega
    · split <;> omega

theorem pushHistory_eq (history : List SegClass) (c : SegClass) : pushHistory history c = appended history c := by
  simp only [pushHistory, appended, List.length_append, List.length_singleton, Config.historyDepth]

/-- A history holds at most five entries after one is appended (R125). -/
theorem appended_length (history : List SegClass) (c : SegClass) : (appended history c).length ≤ 5 := by
  simp only [appended, List.length_drop, List.length_append, List.length_singleton]
  omega

/-- Of at most five entries three or more equal one class at most (R125). -/
theorem majority_declares {history : List SegClass} (hlen : history.length ≤ 5) (old : SegClass) :
    declares history old ((majority history).getD old) := by
  cases hm : majority history with
  | some d =>
    have hd : 3 ≤ history.count d := by simpa using List.find?_some hm
    have honly : ∀ c, 3 ≤ history.count c → d = c := fun c hc => by
      by_contra hne
      have := count_add_count_le hne history
      omega
    refine ⟨fun c _ hc => honly c hc, fun hnone => ?_⟩
    have hmem := List.mem_of_find?_eq_some hm
    have hknown : d ≠ .unknown := fun h => by simp [h] at hmem
    have := hnone d hknown
    omega
  | none =>
    refine ⟨fun c hknown hc => ?_, fun _ => rfl⟩
    have hno := List.find?_eq_none.mp hm c (by cases c <;> simp at hknown ⊢)
    exact absurd (decide_eq_true hc) hno

/-- A class appended to the history of a segment: the history, the class it declares, and a record of a change alone
(R125). -/
theorem appendClass_taken (p : Setup) (seg : Nat) (g : Segment) (c : SegClass) (v : Option Int) (now : Qt) :
    (appendClass p seg g c v now).1 = { g with
        history := appended g.history c, declared := (majority (appended g.history c)).getD g.declared } ∧
      (appendClass p seg g c v now).2.length ≤ 1 ∧
      ((appendClass p seg g c v now).2 = [] ↔
        (majority (appended g.history c)).getD g.declared = g.declared) := by
  simp only [appendClass, pushHistory_eq]
  cases majority (appended g.history c) with
  | none => simp
  | some d => by_cases hd : d = g.declared <;> simp [hd]

theorem weakerAverage_isSome (g : Segment) : (weakerAverage g).isSome = true ↔ ¬ (g.ul = none ∧ g.dl = none) := by
  unfold weakerAverage
  cases g.ul <;> cases g.dl <;> simp

/-- `z` is segment `y` after a loss vote: discarded and counted where both averages are EMPTY, else a HOLE in its history
(R47, R125, R127). -/
def votedFrom (y z : Segment) : Prop :=
  if y.ul = none ∧ y.dl = none then z = { y with discarded := min 65535 (y.discarded + 1) }
  else z = { y with history := appended y.history .hole, declared := z.declared } ∧
    declares z.history y.declared z.declared

/-- A loss vote, with at most one CLASS_CHANGE, made exactly where the declared class changes (R47, R127, R128). -/
theorem voteSegment_taken (p : Setup) (seg : Nat) (now : Qt) (y : Segment) :
    votedFrom y (voteSegment p seg now y).1 ∧ (voteSegment p seg now y).2.length ≤ 1 ∧
      classChanges (voteSegment p seg now y).2 ∧
      ((voteSegment p seg now y).2 = [] ↔ (voteSegment p seg now y).1.declared = y.declared) := by
  by_cases h : y.ul = none ∧ y.dl = none
  · have hv : voteSegment p seg now y = ({ y with discarded := satInc y.discarded }, []) :=
      if_neg (fun hw => (weakerAverage_isSome y).mp hw h)
    rw [hv, votedFrom, if_pos h]
    exact ⟨rfl, Nat.zero_le _, classChanges_nil, by simp⟩
  · have hv : voteSegment p seg now y = appendClass p seg y .hole none now := if_pos ((weakerAverage_isSome y).mpr h)
    obtain ⟨hseg, hlen, hrec⟩ := appendClass_taken p seg y .hole none now
    rw [hv, votedFrom, if_neg h, hseg]
    exact ⟨⟨rfl, majority_declares (appended_length ..) y.declared⟩, hlen, appendClass_records p seg y .hole none now, hrec⟩

/-! ### LINK_LOST (R41, R42) -/

/-- A crane without a known position, or under LOCAL control, becomes LOST with its record and no vote (R42, R47). -/
theorem enterLost_unvoted (p : Setup) (n : Nat) (s : State)
    (h : (s.clu.crane n).position = none ∨ (s.clu.crane n).localCtl = true) :
    ∃ r, recordNames r 0x12 .clu n s.su.qt [] ∧ enterLost p n s = craneEntered n
      ({ s with clu := s.clu.setCrane n ((s.clu.crane n).enterLost p.timing.tracePost) }.report [r]) := by
  simp only [enterLost]
  cases hx : (s.clu.crane n).position with
  | none => exact ⟨_, ⟨rfl, rfl, rfl, rfl, rfl⟩, rfl⟩
  | some x =>
    have hl : (s.clu.crane n).localCtl = true := h.resolve_left (by simp [hx])
    exact ⟨_, ⟨rfl, rfl, rfl, rfl, rfl⟩, congrArg (craneEntered n) (if_pos hl)⟩

/-- A crane of known position that is not under LOCAL control votes for the segment under it (R42, R47). -/
theorem enterLost_voted (p : Setup) (n x : Nat) (s : State) (hx : (s.clu.crane n).position = some x)
    (hl : (s.clu.crane n).localCtl = false) :
    ∃ r, recordNames r 0x12 .clu n s.su.qt [] ∧ enterLost p n s = craneEntered n
      (changeSegment (segmentOf p x) (voteSegment p (segmentOf p x) s.su.qt)
        ({ s with clu := s.clu.setCrane n ((s.clu.crane n).enterLost p.timing.tracePost) }.report [r])) := by
  simp only [enterLost, hx]
  exact ⟨_, ⟨rfl, rfl, rfl, rfl, rfl⟩, congrArg (craneEntered n) (if_neg (by simp [hl]))⟩

/-- Entry into LOST: the crane's record, LINK_LOST with what the vote makes, the latch or the pulse; and the segments are
those of the vote, where one is taken (R42, R47, R161). -/
theorem enterLost_taken {s : State} {p : Setup} (n : Nat) (hp : s.su.setup = some p) :
    ∃ r rest segs, recordNames r 0x12 .clu n s.su.qt [] ∧ enterLost p n s = { s with
        clu := s.clu.setCrane n ((s.clu.crane n).enterLost p.timing.tracePost)
        cvu := { s.cvu with segments := segs }
        rpu := { s.rpu.handOverAll (r :: rest) with
          craneLatch := (if p.irqMask.getLsbD n = true ∧ (p.irqMode = .latchRead ∨ p.irqMode = .latchAck) then true
            else s.rpu.craneLatch)
          pulseStart := (if p.irqMask.getLsbD n = true ∧ p.irqMode = .timed then some s.su.qt
            else s.rpu.pulseStart) } } ∧
      (((s.clu.crane n).position = none ∨ (s.clu.crane n).localCtl = true) ∧ segs = s.cvu.segments ∧ rest = [] ∨
        ∃ x, (s.clu.crane n).position = some x ∧ (s.clu.crane n).localCtl = false ∧
          segs = (s.cvu.setSegment (segmentOf p x)
            (voteSegment p (segmentOf p x) s.su.qt (s.cvu.segment (segmentOf p x))).1).segments ∧
          rest = (voteSegment p (segmentOf p x) s.su.qt (s.cvu.segment (segmentOf p x))).2) := by
  by_cases h : (s.clu.crane n).position = none ∨ (s.clu.crane n).localCtl = true
  · obtain ⟨r, hr, he⟩ := enterLost_unvoted p n s h
    refine ⟨r, [], _, hr, ?_, .inl ⟨h, rfl, rfl⟩⟩
    rw [he, craneEntered_eq n (by exact hp)]
    simp only [State.report_rpu, ReportUnit.handOverAll_craneLatch, ReportUnit.handOverAll_pulseStart]
    rfl
  · rw [not_or] at h
    obtain ⟨hx, hl⟩ := h
    obtain ⟨x, hx⟩ := Option.ne_none_iff_exists'.mp hx
    have hl : (s.clu.crane n).localCtl = false := Bool.eq_false_iff.mpr hl
    obtain ⟨r, hr, he⟩ := enterLost_voted p n x s hx hl
    refine ⟨r, _, _, hr, ?_, .inr ⟨x, hx, hl, rfl, rfl⟩⟩
    rw [he, craneEntered_eq n (by exact hp)]
    simp only [changeSegment, State.report_rpu, ReportUnit.handOverAll_craneLatch, ReportUnit.handOverAll_pulseStart]
    rfl

/-- A deadline of R41 reached by a watched crane. -/
theorem lostCondition_of {p : Setup} {c : Crane} {now : Qt} (hlink : c.link = .live ∨ c.link = .late)
    (h : (∃ a, c.lastArrival = some a ∧ p.timing.lostMs ≤ elapsed now a) ∨
      (∃ o rest, c.outstanding = o :: rest ∧ p.timing.echoMs ≤ elapsed now o.departed)) :
    lostCondition p c now = true := by
  have hw : c.watched = true := by
    unfold Crane.watched
    rcases hlink with h | h <;> rw [h] <;> rfl
  rcases h with ⟨a, ha, hle⟩ | ⟨o, rest, ho, hle⟩
  · simp [lostCondition, hw, silentFor, ha, hle]
  · simp [lostCondition, hw, echoOverdue, ho, hle]

/-- Settles O5: the check due finds the LOST condition, and entry into LOST takes the vote where there is one. -/
theorem linkLostEntry : Obligations.LinkLostEntry := by
  intro s p n hp hr hn hlink hcond
  have hexec := exec_linkLost hp hr hn (lostCondition_of hlink hcond)
  obtain ⟨r, rest, segs, ⟨hcode, horigin, hobject, hqt, -⟩, he, hvote⟩ := enterLost_taken (n := n.val) hp
  have hcrane : (s.clu.setCrane n ((s.clu.crane n).enterLost p.timing.tracePost)).crane n =
      (s.clu.crane n).enterLost p.timing.tracePost := crane_setCrane_same ..
  have hold : holdLine ((enterLost p n s).deadlineDone n) n = true := by
    have hl : (((enterLost p n s).deadlineDone n).clu.crane n).link = .lost := by
      rw [State.deadlineDone_clu, he]
      exact congrArg Crane.link hcrane
    exact holdLine_of_down (by rw [hl]; decide) (by rw [hl]; decide)
  refine ⟨_, hexec, ?_⟩
  rw [he] at hold ⊢
  refine ⟨rfl, hcrane, fun m hm => ?_, hold, rfl, fun hno => ?_, fun x hx hl => ?_, r, rest, rfl, hcode, horigin, hobject,
    hqt, ?_⟩
  · exact (CraneUnit.crane_setCrane s.clu n m _).trans (if_neg hm)
  · rcases hvote with ⟨-, rfl, -⟩ | ⟨x, hx, hl, -⟩
    · exact fun _ => rfl
    · simp [hx, hl] at hno
  · rcases hvote with ⟨hno, -⟩ | ⟨y, hy, -, rfl, -⟩
    · simp [hx, hl] at hno
    · obtain rfl := Option.some.inj (hx.symm.trans hy)
      refine ⟨fun g hg => (CoverageUnit.segment_setSegment s.cvu _ g _).trans (if_neg hg), ?_⟩
      have hseg := (CoverageUnit.segment_setSegment s.cvu (segmentOf p x) (segmentOf p x)
        (voteSegment p (segmentOf p x) s.su.qt (s.cvu.segment (segmentOf p x))).1).trans (if_pos rfl)
      have htaken := (voteSegment_taken p (segmentOf p x) s.su.qt (s.cvu.segment (segmentOf p x))).1
      rw [← hseg] at htaken
      exact htaken
  · rcases hvote with ⟨-, rfl, rfl⟩ | ⟨x, -, -, rfl, rfl⟩
    · exact ⟨Nat.zero_le _, nofun, iff_of_true rfl fun _ => rfl⟩
    · obtain ⟨-, hlen, hchange, hrec⟩ :=
        voteSegment_taken p (segmentOf p x) s.su.qt (s.cvu.segment (segmentOf p x))
      have hseg := fun g => CoverageUnit.segment_setSegment s.cvu (segmentOf p x) g
        (voteSegment p (segmentOf p x) s.su.qt (s.cvu.segment (segmentOf p x))).1
      refine ⟨hlen, fun y hy => (hchange y hy).2, hrec.trans ⟨fun hd g => ?_, fun hd => ?_⟩⟩
      · refine (congrArg Segment.declared (hseg g)).trans ?_
        split
        · rename_i hg
          rw [hg]
          exact hd
        · rfl
      · exact (congrArg Segment.declared ((hseg (segmentOf p x)).trans (if_pos rfl))).symm.trans (hd (segmentOf p x))

/-! ### Status frames not taken (R26 to R29) -/

/-- A frame that ends at the claim or the sequence step stores its crane, hands over its records, and no more. -/
theorem dispatchStatus_ended (p : Setup) (f : StatusFrame) (q : Qt) (s : State) (y : Crane)
    (h : handleStatus p s.clu f q = (y, [], .ended)) :
    dispatchStatus p f q s = { s with clu := s.clu.setCrane f.crane y } := by
  unfold dispatchStatus
  rw [h]
  rfl

/-- A frame that enters CLAIM stores its crane, hands over its records, and is seen by the Report Unit (R27, R161). -/
theorem dispatchStatus_claimed (p : Setup) (f : StatusFrame) (q : Qt) (s : State) (y : Crane) (r : Record)
    (h : handleStatus p s.clu f q = (y, [r], .claimed)) :
    dispatchStatus p f q s = craneEntered f.crane
      { s with clu := s.clu.setCrane f.crane y, rpu := s.rpu.handOver r } := by
  unfold dispatchStatus
  rw [h]
  rfl

/-- A frame for a crane in CLAIM is discarded and counted (R28). -/
theorem handleStatus_discarded (p : Setup) (clu : CraneUnit) (f : StatusFrame) (q : Qt)
    (h : (clu.crane f.crane).link = .claim) :
    handleStatus p clu f q = ((clu.crane f.crane).countClaimDiscard, [], .ended) := if_pos h

/-- A frame with its crane's terminal goes on to the sequence step; a duplicate and a frame behind end there (R29). -/
theorem handleStatus_sequence (p : Setup) (s : State) (f : StatusFrame) (q : Qt)
    (hlink : (s.clu.crane f.crane).link ≠ .claim) (hbound : terminalOfCrane p s f) :
    (sequenceOutcome (s.clu.crane f.crane) f.seq = .duplicate →
      handleStatus p s.clu f q = ((s.clu.crane f.crane).countDuplicate, [], .ended)) ∧
    (sequenceOutcome (s.clu.crane f.crane) f.seq = .behind →
      handleStatus p s.clu f q = ((s.clu.crane f.crane).countBehind, [], .ended)) := by
  unfold handleStatus
  dsimp only
  rw [if_neg hlink, claimOutcome_bound p s f hbound]
  exact ⟨fun h => by simp only [h], fun h => by simp only [h]⟩

theorem sequenceOutcome_duplicate {c : Crane} {seq : Half} (hvalid : c.seqValid = true)
    (hd : (seq - c.lastSeq).toNat = 0) : sequenceOutcome c seq = .duplicate := by
  simp only [sequenceOutcome, seqDiff, hvalid, hd, Bool.not_true, Bool.false_eq_true, if_false, if_true]

theorem sequenceOutcome_behind {c : Crane} {seq : Half} (hvalid : c.seqValid = true)
    (hd : 32768 ≤ (seq - c.lastSeq).toNat) : sequenceOutcome c seq = .behind := by
  have hne : (seq - c.lastSeq).toNat ≠ 0 := by omega
  simp only [sequenceOutcome, seqDiff, hvalid, hne, hd, Bool.not_true, Bool.false_eq_true, if_false, if_true]

/-- A terminal bound to another crane is found bound elsewhere (R26). -/
theorem boundElsewhere_of {p : Setup} {s : State} {n m : Nat} {t : Word} (hne : m ≠ n) (hm : m < 12)
    (h : boundTo p s m t) : boundElsewhere p s.clu n t = true := by
  unfold boundElsewhere
  refine List.any_eq_true.mpr ⟨m, List.mem_range.mpr hm, ?_⟩
  rcases h with h | h
  · unfold rosterTerminal at h
    split at h
    · rename_i r hr
      split at h
      · cases h
      · simp [hne, hr, Option.some.inj h]
    · cases h
  · simp [hne, h]

/-- A frame whose terminal is not the crane's, or is another's, takes the crane to CLAIM, with the reason first in its
record (R26, R27). -/
theorem handleStatus_claimed {p : Setup} {s : State} {f : StatusFrame} {why : Byte} (q : Qt)
    (hlink : (s.clu.crane f.crane).link ≠ .claim)
    (h : (∃ x, x ≠ f.terminal ∧ why = 0 ∧ (rosterTerminal p f.crane = some x ∨
        (rosterTerminal p f.crane = none ∧ (s.clu.crane f.crane).learned = some x))) ∨
      (rosterTerminal p f.crane = none ∧ (s.clu.crane f.crane).learned = none ∧ why = 1 ∧
        ∃ m, m ≠ f.crane ∧ m < 12 ∧ boundTo p s m f.terminal)) :
    ∃ r, handleStatus p s.clu f q = ((s.clu.crane f.crane).enterClaim, [r], .claimed) ∧ r.code = 0x13 ∧
      r.origin = .clu ∧ r.object = BitVec.ofNat 16 f.crane ∧ r.detail[0]? = some why := by
  unfold handleStatus
  dsimp only
  rw [if_neg hlink]
  rcases h with ⟨x, hx, rfl, hexpected⟩ | ⟨hros, hlearn, rfl, m, hne, hm, hb⟩
  · have hclaim : claimOutcome p s.clu f.crane (((p.roster[f.crane]?).map (fun r => r.terminal)).getD 0)
        (s.clu.crane f.crane) f.terminal = .mismatch := by
      unfold claimOutcome
      rw [expectedTerminal_roster]
      rcases hexpected with h | ⟨hr, hl⟩
      · simp [h, Ne.symm hx]
      · simp [hr, hl, Ne.symm hx]
    rw [hclaim]
    exact ⟨_, rfl, rfl, rfl, rfl, rfl⟩
  · have hclaim : claimOutcome p s.clu f.crane (((p.roster[f.crane]?).map (fun r => r.terminal)).getD 0)
        (s.clu.crane f.crane) f.terminal = .elsewhere := by
      unfold claimOutcome
      rw [expectedTerminal_roster]
      simp [hros, hlearn, boundElsewhere_of hne hm hb]
    rw [hclaim]
    exact ⟨_, rfl, rfl, rfl, rfl, rfl⟩

/-- Settles O15: each frame by the step of R25 that it ends at. -/
theorem statusFrameNotTaken : Obligations.StatusFrameNotTaken := by
  refine ⟨fun s p e q rest f k hp hcase => ?_, fun s p e q rest f why hp hlink hcase => ?_⟩
  · have hhandle : handleStatus p s.clu f q = ({ s.clu.crane f.crane with counters := k }, [], .ended) := by
      rcases hcase with ⟨hlink, rfl⟩ | ⟨hlink, hbound, hvalid, hd, rfl⟩ | ⟨hlink, hbound, hvalid, hd, rfl⟩
      · exact handleStatus_discarded p s.clu f q hlink
      · exact (handleStatus_sequence p s f q hlink hbound).1 (sequenceOutcome_duplicate hvalid hd)
      · exact (handleStatus_sequence p s f q hlink hbound).2 (sequenceOutcome_behind hvalid hd)
    have heq := dispatchStatus_ended p f q
      (settledUl s rest { s.rcu.ul with acceptedCrane := s.rcu.ul.acceptedCrane + 1 }) _ hhandle
    refine ⟨_, (exec_parsesTo_crane hp).trans (congrArg _ heq), rfl, crane_setCrane_same .., fun m hm => ?_⟩
    exact (CraneUnit.crane_setCrane s.clu f.crane m _).trans (if_neg hm)
  · obtain ⟨r, hhandle, hcode, horigin, hobject, hwhy⟩ := handleStatus_claimed q hlink hcase
    have heq := dispatchStatus_claimed p f q
      (settledUl s rest { s.rcu.ul with acceptedCrane := s.rcu.ul.acceptedCrane + 1 }) _ r hhandle
    rw [craneEntered_eq f.crane (by exact hp.1)] at heq
    refine ⟨_, r, (exec_parsesTo_crane hp).trans (congrArg _ heq), ?_, crane_setCrane_same .., fun m hm => ?_, ?_, hcode,
      horigin, hobject, hwhy⟩
    · simp only [ReportUnit.handOver_craneLatch, ReportUnit.handOver_pulseStart]
      rfl
    · exact (CraneUnit.crane_setCrane s.clu f.crane m _).trans (if_neg hm)
    · have hl : ((s.clu.setCrane f.crane (s.clu.crane f.crane).enterClaim).crane f.crane).link = .claim :=
        congrArg Crane.link (crane_setCrane_same ..)
      exact holdLine_of_down (fun h => nomatch hl.symm.trans h) (fun h => nomatch hl.symm.trans h)

end Sys2Proof.Machine
end

