-- ==== Sys2Proof/Proofs/CraneCommands.lean ====
section
/-! SUPPORT. The commands that name a crane or a reefer, taken in RUNNING (R37, R48, R84, R102, R172). -/

namespace Sys2Proof.Machine

open Sys2Proof

/-! ### A command given in RUNNING -/

/-- Without a setup no window is watched, and a command from any master is begun and judged (R162, R171). -/
theorem completeWrite_given_unloaded {s : State} {w : Write} {code : Byte} {arg : Half} (hp : s.su.setup = none)
    (h : commandGiven s w code arg) :
    completeWrite w s = judgeCommand code arg (beginCommand code arg (returnWrite w s)) := by
  obtain ⟨⟨role, hrole, -⟩, hok, hidle, hcov, -⟩ := id h
  have hp' : (returnWrite w s).su.setup = none := hp
  have hidle' : (returnWrite w s).su.command.phase = .idle := hidle
  have hcov' : coversWhole w (commandWordAddr (returnWrite w s)) 4 = true := hcov
  have hv : countViewWrite w (returnWrite w s) = returnWrite w s := by simp only [countViewWrite, hp']
  have hw : writeWindows role w (returnWrite w s) = returnWrite w s := by simp only [writeWindows, hp']
  have hcode : writtenCode (returnWrite w s) w = code := (writtenCode_given h :)
  have harg : writtenArg (returnWrite w s) w = arg := (writtenArg_given h :)
  have hcmd : isCommandWrite (returnWrite w s) role w = true := by
    simp only [isCommandWrite, hp', hcov', Option.isNone_none, Bool.or_true, Bool.and_self]
  rcases completeWrite_cases w s with ⟨hn, -⟩ | ⟨role', hrole', ⟨hf, -⟩ | ⟨-, h3⟩⟩
  · rw [hn] at hrole
    cases hrole
  · rw [hok] at hf
    cases hf
  · obtain rfl := Option.some.inj (hrole.symm.trans hrole')
    rw [h3, hv, hw, writeCommand, if_pos hcmd, hcode, harg]
    simp only [takeCommand, hidle']

/-- A command given in RUNNING is begun and judged, with a setup in force or without. -/
theorem commandWrite_judged {s : State} {w : Write} {code : Byte} {arg : Half} (hr : s.su.runState = .running)
    (h : commandGiven s w code arg) : commandWrite (fun c => decide (c = code)) w s =
      judgeCommand code arg (beginCommand code arg (returnWrite w s)) := by
  cases hp : s.su.setup with
  | some p => exact commandWrite_given hr hp h
  | none =>
    have hcode := writtenCode_given h
    rw [← completeWrite_given_unloaded hp h]
    obtain ⟨-, -, -, hcov, -⟩ := h
    rw [commandWrite, hcov, hcode, if_pos (by simp)]

/-- A command given in RUNNING whose action answers a state with the Setup and Path Units standing is taken with DONE,
and the state is the action's but for the Setup Unit. -/
theorem commandWrite_done {s u : State} {w : Write} {code : Byte} {arg : Half} (action : Half → State → Option State)
    (hr : s.su.runState = .running) (hg : commandGiven s w code arg) (hj : judgeCommand code = judgeRunning action)
    (ha : action arg (beginCommand code arg (returnWrite w s)) = some u)
    (hsu : u.su = (beginCommand code arg (returnWrite w s)).su)
    (hpu : u.pu = (beginCommand code arg (returnWrite w s)).pu) (hq : u.pending = s.pending) :
    ∃ t, commandWrite (fun c => decide (c = code)) w s = t ∧ commandTaken s t w code arg .done ∧
      t = { u with su := t.su } := by
  obtain ⟨t, ht, htaken, hframe⟩ := judgeRunning_done action code arg w s u hr ha hsu hpu hq
  exact ⟨t, by rw [commandWrite_judged hr hg, hj, ht], htaken, hframe⟩

/-! ### The actions -/

theorem resetCrane_taken {arg : Half} (h : arg.toNat < 12) (s : State) :
    resetCrane arg s = some { s with clu := s.clu.setCrane arg.toNat (s.clu.crane arg.toNat).afterReset } := if_pos h

theorem openTrace_taken {arg : Half} (h : arg.toNat < 12) (s : State) :
    openTrace arg s = some { s with clu := s.clu.setCrane arg.toNat (s.clu.crane arg.toNat).traceOpened } := if_pos h

theorem namedEntry_taken {arg : Half} (h : arg.toNat < 2048) (s : State) :
    namedEntry arg s = s.rfu.entry arg.toNat := if_pos h

theorem ackEntry_taken {arg : Half} {s : State} {e : Reefer} (h : arg.toNat < 2048)
    (he : s.rfu.entry arg.toNat = some e) :
    ackEntry arg s = some { s with rfu := ackReefer arg.toNat e s.rfu } := by
  rw [ackEntry, namedEntry_taken h, he, Option.map_some]

theorem forgetEntry_taken {arg : Half} {s : State} {e : Reefer} (h : arg.toNat < 2048)
    (he : s.rfu.entry arg.toNat = some e) :
    forgetEntry arg s = some { s with rfu := forgetReefer arg.toNat s.rfu } := by
  rw [forgetEntry, namedEntry_taken h, he, Option.map_some]

theorem ackReefer_entry (i j : Nat) (e : Reefer) (u : ReeferUnit) : (ackReefer i e u).entry j =
    if j = i then some { e with latchHigh := false, latchLow := false } else u.entry j :=
  ReeferUnit.entry_setEntry ..

theorem forgetReefer_entry (i j : Nat) (u : ReeferUnit) :
    (forgetReefer i u).entry j = if j = i then none else u.entry j :=
  ReeferUnit.entry_setEntry u i j none

theorem mem_forgetReefer_departed (i j : Nat) (u : ReeferUnit) :
    j ∈ (forgetReefer i u).departed ↔ j ∈ u.departed ∧ j ≠ i := by
  simp only [forgetReefer, List.mem_filter, bne_iff_ne]

/-- Settles O47: each command is begun, its action answers, and DONE is decided. -/
theorem craneAndReeferCommandsDone : Obligations.CraneAndReeferCommandsDone := by
  refine ⟨fun s w arg hr harg => ⟨fun hg => ?_, fun hg => ?_⟩, fun s w arg e hr harg he => ⟨fun hg => ?_, fun hg => ?_⟩⟩
  · obtain ⟨t, ht, htaken, hframe⟩ := commandWrite_done resetCrane hr hg rfl (resetCrane_taken harg _) rfl rfl rfl
    have hcrane : t.clu.crane arg.toNat = (s.clu.crane arg.toNat).afterReset := by
      rw [hframe]
      exact crane_setCrane_same ..
    refine ⟨t, congrArg Host.Outcome.next ht, htaken, ?_⟩
    have hhold : holdLine t arg.toNat = true :=
      holdLine_of_down (by rw [hcrane]; nofun) (by rw [hcrane]; nofun)
    rw [hframe] at hhold ⊢
    exact ⟨rfl, rfl, rfl, rfl, rfl, rfl, fun m hm => (CraneUnit.crane_setCrane s.clu arg.toNat m _).trans (if_neg hm),
      hhold, crane_setCrane_same ..⟩
  · obtain ⟨t, ht, htaken, hframe⟩ := commandWrite_done openTrace hr hg rfl (openTrace_taken harg _) rfl rfl rfl
    refine ⟨t, congrArg Host.Outcome.next ht, htaken, ?_⟩
    rw [hframe]
    exact ⟨rfl, rfl, rfl, rfl, rfl, rfl,
      fun m hm => (CraneUnit.crane_setCrane s.clu arg.toNat m _).trans (if_neg hm), crane_setCrane_same ..⟩
  · obtain ⟨t, ht, htaken, hframe⟩ := commandWrite_done ackEntry hr hg rfl (ackEntry_taken harg he) rfl rfl rfl
    refine ⟨t, congrArg Host.Outcome.next ht, htaken, ?_⟩
    rw [hframe]
    exact ⟨rfl, rfl, rfl, rfl, rfl, rfl, rfl,
      fun j hj => (ackReefer_entry arg.toNat j e s.rfu).trans (if_neg hj),
      (ackReefer_entry arg.toNat arg.toNat e s.rfu).trans (if_pos rfl)⟩
  · obtain ⟨t, ht, htaken, hframe⟩ := commandWrite_done forgetEntry hr hg rfl (forgetEntry_taken harg he) rfl rfl rfl
    refine ⟨t, congrArg Host.Outcome.next ht, htaken, ?_⟩
    rw [hframe]
    exact ⟨rfl, rfl, rfl, rfl, rfl, rfl, rfl,
      fun j hj => (forgetReefer_entry arg.toNat j s.rfu).trans (if_neg hj),
      (forgetReefer_entry arg.toNat arg.toNat s.rfu).trans (if_pos rfl),
      fun i => mem_forgetReefer_departed arg.toNat i s.rfu⟩

end Sys2Proof.Machine
end

