-- ==== Sys2Proof/Proofs/OutstandingList.lean ====
section
/-! SUPPORT. The outstanding list of a crane: what an offered command makes of it, and that every single effect keeps it
at 8 entries or fewer, ascending in sequence, and empty in IDLE, LOST and CLAIM (R61 to R63). -/

namespace Sys2Proof.Machine

open Sys2Proof

/-! ### The order of sequences -/

theorem seqAhead_iff (a b : Half) : seqAhead a b = true ↔ 1 ≤ (a - b).toNat ∧ (a - b).toNat ≤ 32767 := by
  change (decide (1 ≤ (a - b).toNat) && decide ((a - b).toNat ≤ 32767)) = true ↔ _
  rw [Bool.and_eq_true, decide_eq_true_eq, decide_eq_true_eq]

/-- Sequences within 32767 of the oldest stand in the order of their distances from it (R61). -/
theorem seqAhead_iff_of_within {a b oldest : Half} (ha : (a - oldest).toNat ≤ 32767)
    (hb : (b - oldest).toNat ≤ 32767) : seqAhead a b = true ↔ (b - oldest).toNat < (a - oldest).toNat := by
  rw [seqAhead_iff]
  simp only [BitVec.toNat_sub] at *
  omega

/-- In an ascending list every entry lies within 32767 of the oldest and not past the newest (R63). -/
theorem ascending_between {l : List Outstanding} {oldest newest : Outstanding}
    (hasc : l.Pairwise (fun a b => seqAhead b.seq a.seq = true)) (hhead : l.head? = some oldest)
    (hlast : l.getLast? = some newest) {x : Outstanding} (hx : x ∈ l) :
    (x.seq - oldest.seq).toNat ≤ (newest.seq - oldest.seq).toNat ∧ (newest.seq - oldest.seq).toNat ≤ 32767 := by
  obtain ⟨rest, rfl⟩ := List.head?_eq_some_iff.mp hhead
  obtain ⟨init, hinit⟩ := List.getLast?_eq_some_iff.mp hlast
  have within : ∀ y ∈ oldest :: rest, (y.seq - oldest.seq).toNat ≤ 32767 := by
    intro y hy
    rcases List.mem_cons.mp hy with rfl | hy
    · simp
    · exact ((seqAhead_iff _ _).mp ((List.pairwise_cons.mp hasc).1 y hy)).2
  have hnewest := within newest (List.mem_of_getLast? hlast)
  refine ⟨?_, hnewest⟩
  have hx' := hx
  rw [hinit] at hx' hasc
  rcases List.mem_append.mp hx' with hi | hi
  · exact Nat.le_of_lt ((seqAhead_iff_of_within hnewest (within x hx)).mp
      ((List.pairwise_append.mp hasc).2.2 x hi newest (List.mem_singleton_self _)))
  · obtain rfl := List.mem_singleton.mp hi
    exact Nat.le_refl _

/-- A sequence ahead of the oldest and of the newest entry of an ascending list is ahead of every entry (R61, R63). -/
theorem seqAhead_all {l : List Outstanding} {oldest newest : Outstanding} {s : Half}
    (hasc : l.Pairwise (fun a b => seqAhead b.seq a.seq = true)) (hhead : l.head? = some oldest)
    (hlast : l.getLast? = some newest) (hnewest : seqAhead s newest.seq = true)
    (holdest : seqAhead s oldest.seq = true) {x : Outstanding} (hx : x ∈ l) : seqAhead s x.seq = true := by
  obtain ⟨hle, hin⟩ := ascending_between hasc hhead hlast hx
  have hs := ((seqAhead_iff _ _).mp holdest).2
  have hlt := (seqAhead_iff_of_within hs hin).mp hnewest
  exact (seqAhead_iff_of_within hs (Nat.le_trans hle hin)).mpr (Nat.lt_of_le_of_lt hle hlt)

/-! ### A command offered to the list (R61, R62) -/

/-- A sequence offered to a list enters it: it is ahead of the newest and of the oldest entry, or there is none (R61). -/
def entersList (l : List Outstanding) (s : Half) : Bool :=
  match l.head?, l.getLast? with
  | some oldest, some newest => seqAhead s newest.seq && seqAhead s oldest.seq
  | _, _ => true

/-- The list with an entry appended, the oldest of a full one displaced (R61, R62). -/
def listedAfter (l : List Outstanding) (x : Outstanding) : List Outstanding :=
  (if l.length = 8 then l.drop 1 else l) ++ [x]

theorem entersList_ends {l : List Outstanding} {s : Half} (h : entersList l s = true) :
    l = [] ∨ ∃ oldest newest, l.head? = some oldest ∧ l.getLast? = some newest ∧ seqAhead s newest.seq = true ∧
      seqAhead s oldest.seq = true := by
  cases l with
  | nil => exact .inl rfl
  | cons o rest =>
    have hlast : (o :: rest).getLast? = some ((o :: rest).getLast (by simp)) := List.getLast?_eq_some_getLast _
    rw [entersList, hlast] at h
    exact .inr ⟨o, _, rfl, hlast, Bool.and_eq_true_iff.mp h⟩

/-- A list of at most eight that a command enters holds at most eight after it, and ascends (R61 to R63). -/
theorem listedAfter_ok {l : List Outstanding} {x : Outstanding} (hlen : l.length ≤ 8)
    (hasc : l.Pairwise (fun a b => seqAhead b.seq a.seq = true)) (hin : entersList l x.seq = true) :
    (listedAfter l x).length ≤ 8 ∧ (listedAfter l x).Pairwise (fun a b => seqAhead b.seq a.seq = true) := by
  have hsub : (if l.length = 8 then l.drop 1 else l).Sublist l := by
    split
    · exact List.drop_sublist 1 l
    · exact List.Sublist.refl l
  have hahead : ∀ y ∈ l, seqAhead x.seq y.seq = true := fun y hy => by
    rcases entersList_ends hin with rfl | ⟨oldest, newest, hhead, hlast, hn, ho⟩
    · cases hy
    · exact seqAhead_all hasc hhead hlast hn ho hy
  constructor
  · rw [listedAfter, List.length_append, List.length_singleton]
    split
    · rw [List.length_drop]
      omega
    · omega
  · rw [listedAfter, List.pairwise_append]
    refine ⟨hasc.sublist hsub, List.pairwise_singleton _ _, fun y hy z hz => ?_⟩
    obtain rfl := List.mem_singleton.mp hz
    exact hahead y (hsub.subset hy)

/-- A command that enters the list of its crane: the entry, the last listed sequence, the displaced entry counted and
reported (R61, R62). -/
theorem Crane.listCommand_eq (n : Nat) (c : Crane) (x : Outstanding) (now : Qt) (hlen : c.outstanding.length ≤ 8) :
    c.listCommand n x now = ({ c with
        outstanding := listedAfter c.outstanding x
        lastListed := some x.seq
        counters := { c.counters with
          unconfirmed := if c.outstanding.length = 8 then c.counters.unconfirmed + 1 else c.counters.unconfirmed } },
      if c.outstanding.length = 8 then
        c.outstanding.head?.toList.map (fun oldest => recCmdUnconfirmed n oldest x.seq now)
      else []) := by
  unfold Crane.listCommand listedAfter
  cases h : c.outstanding with
  | nil => rfl
  | cons oldest rest =>
    rw [h] at hlen
    by_cases hfull : (oldest :: rest).length = 8
    · rw [if_pos hfull, if_pos hfull, if_pos hfull]
      exact if_pos (Nat.le_of_eq hfull.symm)
    · rw [if_neg hfull, if_neg hfull, if_neg hfull]
      exact if_neg (by simp only [Config.outstandingDepth]; omega)

theorem offer_enters {l : List Outstanding} {s : Half} (h : entersList l s = true) : offer l s = .enters := by
  rcases entersList_ends h with rfl | ⟨oldest, newest, hhead, hlast, hn, ho⟩
  · rfl
  · rw [offer, hhead, hlast]
    simp [hn, ho]

/-- A refused command: the comparison that failed is named, the newest where both did (R61). -/
theorem offer_refused {l : List Outstanding} {s : Half} (h : entersList l s = false) :
    ∃ oldest newest, l.head? = some oldest ∧ l.getLast? = some newest ∧
      ((seqAhead s newest.seq = false ∧ offer l s = .refusedNewest newest.seq oldest.seq) ∨
        (seqAhead s newest.seq = true ∧ seqAhead s oldest.seq = false ∧
          offer l s = .refusedOldest newest.seq oldest.seq)) := by
  unfold entersList at h
  split at h
  · rename_i oldest newest hhead hlast
    refine ⟨oldest, newest, hhead, hlast, ?_⟩
    rw [offer, hhead, hlast]
    cases hn : seqAhead s newest.seq with
    | false => exact .inl ⟨rfl, by simp [hn]⟩
    | true =>
      have ho : seqAhead s oldest.seq = false := by simpa [hn] using h
      exact .inr ⟨rfl, ho, by simp [hn, ho]⟩
  · cases h

/-- An offered command that enters (R61). -/
theorem offerCommand_enters {c : Crane} {seq : Half} (n slot : Nat) (cls : Byte) (stale : Bool) (now : Qt)
    (h : entersList c.outstanding seq = true) : offerCommand n slot c seq cls stale now =
      ⟨(c.listCommand n ⟨seq, cls, now⟩ now).1, (c.listCommand n ⟨seq, cls, now⟩ now).2, false⟩ := by
  rw [offerCommand, offer_enters h]

/-- An offered command that is refused leaves the crane as it is (R61). -/
theorem offerCommand_refused {c : Crane} {seq : Half} (n slot : Nat) (cls : Byte) (stale : Bool) (now : Qt)
    (h : entersList c.outstanding seq = false) : ∃ oldest newest failedOldest,
      c.outstanding.head? = some oldest ∧ c.outstanding.getLast? = some newest ∧
      (seqAhead seq oldest.seq = true → failedOldest = false) ∧
      (seqAhead seq newest.seq = true → failedOldest = true) ∧
      offerCommand n slot c seq cls stale now =
        ⟨c, [recCmdOrder n slot seq newest.seq oldest.seq stale failedOldest now], true⟩ := by
  obtain ⟨oldest, newest, hhead, hlast, ⟨hn, ho⟩ | ⟨hn, hold, ho⟩⟩ := offer_refused h
  · exact ⟨oldest, newest, false, hhead, hlast, fun _ => rfl, fun h => absurd (hn.symm.trans h) (by decide),
      by rw [offerCommand, ho]⟩
  · exact ⟨oldest, newest, true, hhead, hlast, fun h => absurd (hold.symm.trans h) (by decide), fun _ => rfl,
      by rw [offerCommand, ho]⟩

/-! ### Changes that list no command -/

/-- The link states in which the list is empty (R63). -/
def Crane.unlinked (c : Crane) : Prop := c.link = .idle ∨ c.link = .lost ∨ c.link = .claim

/-- Crane `y` is crane `c` with entries of its list removed at most, and emptied where it becomes IDLE, LOST or CLAIM. -/
def Crane.listShrinks (c y : Crane) : Prop :=
  y.outstanding.Sublist c.outstanding ∧ (y.unlinked → c.unlinked ∨ y.outstanding = [])

theorem Crane.listShrinks.keeps {c y : Crane} (h : c.listShrinks y) (hc : c.outstandingOk) : y.outstandingOk := by
  obtain ⟨hsub, hempty⟩ := h
  obtain ⟨hlen, hasc, hnone⟩ := hc
  refine ⟨Nat.le_trans hsub.length_le hlen, hasc.sublist hsub, fun hy => ?_⟩
  rcases hempty hy with hc | h
  · rw [hnone hc] at hsub
    exact List.sublist_nil.mp hsub
  · exact h

theorem Crane.listShrinks_of_same {c y : Crane} (hl : y.outstanding = c.outstanding) (hk : y.link = c.link) :
    c.listShrinks y :=
  ⟨hl ▸ List.Sublist.refl _, fun hy => .inl (by unfold Crane.unlinked at *; rwa [hk] at hy)⟩

theorem Crane.listShrinks_of_empty {c y : Crane} (h : y.outstanding = []) : c.listShrinks y :=
  ⟨h ▸ List.nil_sublist _, fun _ => .inr h⟩

/-- Entries removed with the link state kept, or made LIVE or LATE. -/
theorem Crane.listShrinks_of_linked {c y : Crane} (hl : y.outstanding.Sublist c.outstanding)
    (hk : y.link = c.link ∨ y.link = .live ∨ y.link = .late) : c.listShrinks y := by
  refine ⟨hl, fun hy => .inl ?_⟩
  unfold Crane.unlinked at *
  rcases hk with hk | hk | hk <;> rw [hk] at hy
  · exact hy
  · simp at hy
  · simp at hy

/-- The state step leaves the list, and the link state or makes it LIVE (R38, R39). -/
theorem Crane.takeState_list (p : Setup) (n : Nat) (c : Crane) (gap : Bool) (before : Option Qt) (a now : Qt) :
    (c.takeState p n gap before a now).1.outstanding = c.outstanding ∧
      ((c.takeState p n gap before a now).1.link = c.link ∨ (c.takeState p n gap before a now).1.link = .live) := by
  unfold Crane.takeState
  split
  · exact ⟨rfl, .inr rfl⟩
  · exact ⟨rfl, .inl rfl⟩
  · exact ⟨rfl, .inl rfl⟩
  · dsimp only
    generalize ite (gap = true) _ _ = count
    split
    · exact ⟨rfl, .inr rfl⟩
    · exact ⟨rfl, .inl rfl⟩

/-- A taken frame removes the entries its echo covers (R33). -/
theorem takeStatus_listShrinks (p : Setup) (f : StatusFrame) (now : Qt) (gap : Bool) (c : Crane) :
    c.listShrinks (takeStatus p f.crane f now gap c).1 := by
  have hsub : (c.outstanding.filter (fun o => !echoCovers f.echo o.seq)).Sublist c.outstanding := List.filter_sublist
  rcases Nat.lt_or_ge f.age.toNat p.timing.lateMs with hf | ha
  · obtain ⟨hlist, hlink⟩ := Crane.takeState_list p f.crane (c.stored p f now gap) gap c.lastArrival
      (now - f.age.setWidth 32) now
    rw [takeStatus_fresh p f now gap c hf]
    exact Crane.listShrinks_of_linked (hlist ▸ hsub) (hlink.imp_right .inl)
  · rw [takeStatus_aged p f now gap c ha]
    exact Crane.listShrinks_of_linked hsub (.inl rfl)

/-- A status frame lists no command (R25). -/
theorem handleStatus_listShrinks (p : Setup) (clu : CraneUnit) (f : StatusFrame) (now : Qt) :
    (clu.crane f.crane).listShrinks (handleStatus p clu f now).1 := by
  unfold handleStatus
  dsimp only
  split
  · exact Crane.listShrinks_of_same rfl rfl
  · split
    · split
      · exact Crane.listShrinks_of_same rfl rfl
      · exact Crane.listShrinks_of_same rfl rfl
      · exact takeStatus_listShrinks ..
      · exact takeStatus_listShrinks ..
    · split
      · exact Crane.listShrinks_of_same rfl rfl
      · exact Crane.listShrinks_of_same rfl rfl
      · exact takeStatus_listShrinks p f now false { clu.crane f.crane with learned := some f.terminal }
      · exact takeStatus_listShrinks p f now true { clu.crane f.crane with learned := some f.terminal }
    · exact Crane.listShrinks_of_empty rfl
    · exact Crane.listShrinks_of_empty rfl

/-! ### Departures -/

/-- The departure of a crane out of range or disabled is decided PASS (R52). -/
theorem departureDecision_pass {s : State} {r : DlRecord} (h : passesBy s r) : departureDecision s r = .pass := by
  cases hdep : r.departed with
  | false => rw [departureDecision_first hdep, firstDecision_pass h]
  | true => rw [departureDecision_later hdep, laterDecision_pass h]

/-- The departure of an enabled crane whose HOLD line is asserted is decided HALT (R52, R54). -/
theorem departureDecision_hold {s : State} {r : DlRecord} (hp : ¬ passesBy s r) (h : holdLine s r.crane = true) :
    departureDecision s r = .halt .hold := by
  cases hdep : r.departed with
  | false => rw [departureDecision_first hdep, firstDecision_halt hp (.inl h), haltReason, if_pos h]
  | true => rw [departureDecision_later hdep, laterDecision_held hp h]

/-- A crane that is not held is LIVE or LATE (R44). -/
theorem linked_of_free {s : State} {n : Nat} (h : holdLine s n = false) : ¬ (s.clu.crane n).unlinked := by
  rintro (hk | hk | hk) <;>
    exact absurd (h.symm.trans (holdLine_of_down (by rw [hk]; decide) (by rw [hk]; decide))) (by decide)

/-- An offered command keeps the law on the list of a crane that is LIVE or LATE (R61 to R63). -/
theorem offerCommand_outstandingOk {c : Crane} (n slot : Nat) (seq : Half) (cls : Byte) (stale : Bool) (now : Qt)
    (hc : c.outstandingOk) (hlinked : ¬ c.unlinked) :
    (offerCommand n slot c seq cls stale now).crane.outstandingOk := by
  cases hin : entersList c.outstanding seq with
  | false =>
    obtain ⟨_, _, _, -, -, -, -, h⟩ := offerCommand_refused n slot cls stale now hin
    rw [h]
    exact hc
  | true =>
    obtain ⟨hlen, hasc, -⟩ := hc
    obtain ⟨hlen', hasc'⟩ := listedAfter_ok (x := ⟨seq, cls, now⟩) hlen hasc hin
    rw [offerCommand_enters n slot cls stale now hin, Crane.listCommand_eq n c _ now hlen]
    exact ⟨hlen', hasc', fun hk => absurd hk hlinked⟩

/-- A departure keeps the law on the list of its crane (R55). -/
theorem craneDecision_outstandingOk {s : State} {r : DlRecord} (slot : Nat)
    (hc : (s.clu.crane r.crane).outstandingOk) :
    (craneDecision s slot r (departureDecision s r) (s.clu.crane r.crane)).crane.outstandingOk := by
  have offered : departureDecision s r ≠ .pass → departureDecision s r ≠ .halt .hold → ∀ cls stale,
      (offerCommand r.crane slot (s.clu.crane r.crane) r.seq cls stale s.su.qt).crane.outstandingOk :=
    fun hpass hhold cls stale => offerCommand_outstandingOk _ _ _ _ _ _ hc <| linked_of_free <|
      Bool.eq_false_iff.mpr fun h => hhold (departureDecision_hold (mt departureDecision_pass hpass) h)
  unfold craneDecision
  cases hd : departureDecision s r with
  | pass => exact hc
  | halt reason => exact hc
  | delivered =>
    dsimp only
    split
    · exact offered (by rw [hd]; decide) (by rw [hd]; decide) _ _
    · exact hc
  | stale =>
    dsimp only
    split
    · exact offered (by rw [hd]; decide) (by rw [hd]; decide) _ _
    · exact hc

/-! ### The law -/

/-- Every change of a crane keeps the law on its list. -/
theorem CraneChange.keeps_outstandingOk {s : State} {n : Nat} {c : Crane} (h : CraneChange s n c)
    (hs : (s.clu.crane n).outstandingOk) : c.outstandingOk := by
  cases h with
  | late =>
    refine Crane.listShrinks.keeps (c := s.clu.crane n) ?_ hs
    exact Crane.listShrinks_of_linked (List.Sublist.refl _) (.inr (.inr rfl))
  | lost => exact (Crane.listShrinks_of_empty rfl).keeps hs
  | status p f q cells hp hf hn =>
    subst hn
    exact (handleStatus_listShrinks p s.clu f q).keeps hs
  | decided s0 slot r hsu hclu hr =>
    subst hr
    rw [← hclu] at hs ⊢
    exact craneDecision_outstandingOk slot hs
  | reset => exact (Crane.listShrinks_of_empty rfl).keeps hs
  | traceOpened => exact (Crane.listShrinks_of_same rfl rfl).keeps hs

theorem Crane.initial_outstandingOk : Crane.initial.outstandingOk := ⟨Nat.zero_le _, .nil, fun _ => rfl⟩

/-- Every effect keeps the law on the outstanding lists. -/
theorem Effect.keeps_outstandingLaw {s t : State} (h : Effect s t) (hs : outstandingLaw s) : outstandingLaw t := by
  cases h with
  | crane n c hc =>
    intro m
    rw [CraneUnit.crane_setCrane]
    split
    · exact hc.keeps_outstandingOk (hs n)
    · exact hs m
  | cranesCleared =>
    intro n
    rw [CraneUnit.clearCounters_crane]
    exact hs n
  | powerOn b => exact fun _ => Crane.initial_outstandingOk
  | reloaded p a b c l => exact fun _ => Crane.initial_outstandingOk
  | passOnly code => exact fun _ => Crane.initial_outstandingOk
  | _ => exact hs

/-- Settles O53: every step is a sequence of effects, and each effect keeps the lists. -/
theorem outstandingLawKept : Obligations.OutstandingLawKept := fun s t hs h =>
  step_keeps (fun _ _ => Effect.keeps_outstandingLaw) s t h hs

end Sys2Proof.Machine
end

