-- ==== Sys2Proof/Proofs/ListedCommands.lean ====
section
/-! SUPPORT. A first departure decided DELIVERED or STALE: its offer to the outstanding list and its records (R55, R61,
R62). -/

namespace Sys2Proof.Machine

open Sys2Proof

/-! ### The offer -/

theorem offerCommand_refused_eq (n slot : Nat) (c : Crane) (seq : Half) (cls : Byte) (stale : Bool) (now : Qt) :
    (offerCommand n slot c seq cls stale now).refused = !entersList c.outstanding seq := by
  cases hin : entersList c.outstanding seq with
  | true => rw [offerCommand_enters n slot cls stale now hin]; rfl
  | false =>
    obtain ⟨_, _, _, -, -, -, -, h⟩ := offerCommand_refused n slot cls stale now hin
    rw [h]; rfl

/-- The codes of an offer's records: CMD_UNCONFIRMED for a displaced entry, CMD_ORDER for a refused command (R61, R62). -/
theorem offerCommand_codes (n slot : Nat) (c : Crane) (seq : Half) (cls : Byte) (stale : Bool) (now : Qt)
    (hlen : c.outstanding.length ≤ 8) : (offerCommand n slot c seq cls stale now).records.map Record.code =
      if entersList c.outstanding seq = true then (if c.outstanding.length = 8 then [0x1A] else []) else [0x1C] := by
  cases hin : entersList c.outstanding seq with
  | true =>
    rw [offerCommand_enters n slot cls stale now hin, Crane.listCommand_eq n c _ now hlen, if_pos rfl]
    dsimp only
    split
    case isTrue hfull =>
      cases hl : c.outstanding with
      | nil => exact absurd (hl ▸ hfull) (by decide)
      | cons oldest rest => rfl
    case isFalse => rfl
  | false =>
    obtain ⟨_, _, _, -, -, -, -, h⟩ := offerCommand_refused n slot cls stale now hin
    rw [h]; rfl

/-- The records of an offer name the displaced entry, or the two entries the sequence was compared with (R61, R62). -/
theorem offerCommand_records {n slot : Nat} {c : Crane} {seq : Half} {cls : Byte} {stale : Bool} {now : Qt}
    (hlen : c.outstanding.length ≤ 8) {q : Record} (hq : q ∈ (offerCommand n slot c seq cls stale now).records) :
    (q.origin = .clu ∧ q.object = BitVec.ofNat 16 n ∧ q.qt = now) ∧
      (q.code = 0x1A ∧ (∃ y, c.outstanding.head? = some y ∧
          q.detail.take 12 = le16 y.seq ++ [y.cls, 0] ++ le16 seq ++ [0, 0] ++ le32 y.departed) ∨
        q.code = 0x1C ∧ ∃ oldest newest, c.outstanding.head? = some oldest ∧ c.outstanding.getLast? = some newest ∧
          q.detail.take 9 = le16 (BitVec.ofNat 16 slot) ++ le16 seq ++ le16 newest.seq ++ le16 oldest.seq ++
            [if stale = true then 1 else 0] ∧
          (seqAhead seq oldest.seq = true → q.detail[9]? = some 0) ∧
          (seqAhead seq newest.seq = true → q.detail[9]? = some 1)) := by
  cases hin : entersList c.outstanding seq with
  | true =>
    rw [offerCommand_enters n slot cls stale now hin, Crane.listCommand_eq n c _ now hlen] at hq
    dsimp only at hq
    split at hq
    · obtain ⟨y, hy, rfl⟩ := List.mem_map.mp hq
      exact ⟨⟨rfl, rfl, rfl⟩, .inl ⟨rfl, y, Option.mem_toList.mp hy, rfl⟩⟩
    · cases hq
  | false =>
    obtain ⟨oldest, newest, failedOldest, hhead, hlast, h0, h1, h⟩ := offerCommand_refused n slot cls stale now hin
    rw [h] at hq
    obtain rfl := List.mem_singleton.mp hq
    refine ⟨⟨rfl, rfl, rfl⟩, .inr ⟨rfl, oldest, newest, hhead, hlast, ?_, fun ho => ?_, fun hn => ?_⟩⟩
    · cases stale <;> rfl
    · rw [h0 ho]; rfl
    · rw [h1 hn]; rfl

/-! ### The decision -/

/-- CMD_STALE of a first departure, where its decision is STALE (R55). -/
def staleRecords (k : Nat) (r : DlRecord) (now : Qt) (stale listed : Bool) : List Record :=
  if stale = true then [recCmdStale r.crane k r.seq r.cls true listed r.validity (elapsed now r.writeQt) now] else []

theorem staleRecords_codes (k : Nat) (r : DlRecord) (now : Qt) (stale listed : Bool) :
    (staleRecords k r now stale listed).map Record.code = if stale = true then [0x19] else [] := by
  cases stale <;> rfl

theorem staleRecords_detail {k : Nat} {r : DlRecord} {now : Qt} {stale listed : Bool} {q : Record}
    (hq : q ∈ staleRecords k r now stale listed) :
    (q.origin = .clu ∧ q.object = BitVec.ofNat 16 r.crane ∧ q.qt = now) ∧ q.code = 0x19 ∧
      q.detail.take 16 = le16 (BitVec.ofNat 16 k) ++ le16 r.seq ++ [r.cls, 1, if listed = true then 1 else 0, 0] ++
        le16 r.validity ++ [0, 0] ++ le32 (now - r.writeQt) := by
  unfold staleRecords at hq
  split at hq
  · obtain rfl := List.mem_singleton.mp hq
    refine ⟨⟨rfl, rfl, rfl⟩, rfl, ?_⟩
    have helapsed : BitVec.ofNat 32 (elapsed now r.writeQt) = now - r.writeQt := by
      rw [elapsed, BitVec.ofNat_toNat, BitVec.setWidth_eq]
    rw [recCmdStale, helapsed]
    cases listed <;> rfl
  · cases hq

/-- The decision of a first departure that is neither PASS nor HALT (R52). -/
def listedDecision (stale : Bool) : Decision := if stale = true then .stale else .delivered

/-- What a first departure decided DELIVERED or STALE lists and records (R55, R61). -/
theorem craneDecision_first {s : State} {k : Nat} {r : DlRecord} {c : Crane} (h : r.departed = false) (stale : Bool) :
    craneDecision s k r (listedDecision stale) c =
      (let o := offerCommand r.crane k c r.seq (if stale = true then 2 else r.cls) stale s.su.qt
       ⟨if stale = true then o.crane.countStale else o.crane,
        staleRecords k r s.su.qt stale (entersList c.outstanding r.seq) ++ o.records, o.refused⟩) := by
  cases stale with
  | false => simp [craneDecision, listedDecision, h, staleRecords, listedClass]
  | true => simp [craneDecision, listedDecision, h, staleRecords, listedClass, offerCommand_refused_eq]

/-- The crane after such a departure (R55, R61, R62). -/
theorem craneDecision_first_crane {s : State} {k : Nat} {r : DlRecord} {c : Crane} (h : r.departed = false)
    (stale : Bool) (hlen : c.outstanding.length ≤ 8) :
    let counted := if stale = true then c.counters.stale + 1 else c.counters.stale
    (craneDecision s k r (listedDecision stale) c).crane =
      if entersList c.outstanding r.seq = true then { c with
        outstanding := listedAfter c.outstanding ⟨r.seq, if stale = true then 2 else r.cls, s.su.qt⟩
        lastListed := some r.seq
        counters := { c.counters with
          stale := counted
          unconfirmed := if c.outstanding.length = 8 then c.counters.unconfirmed + 1 else c.counters.unconfirmed } }
      else { c with counters := { c.counters with stale := counted } } := by
  rw [craneDecision_first h]
  cases hin : entersList c.outstanding r.seq with
  | true =>
    rw [offerCommand_enters _ _ _ _ _ hin, Crane.listCommand_eq _ c _ _ hlen]
    cases stale <;> rfl
  | false =>
    obtain ⟨_, _, _, -, -, -, -, ho⟩ := offerCommand_refused r.crane k (if stale = true then 2 else r.cls) stale
      s.su.qt hin
    rw [ho]
    cases stale <;> rfl

/-- A crane that is not held is enabled (R44). -/
theorem craneEnabled_of_free {s : State} {n : Nat} (h : holdLine s n = false) : craneEnabled s.su.setup n = true := by
  by_contra hdis
  have hheld : holdLine s n = true := by
    unfold holdLine holdReason
    split
    · rfl
    · rw [if_pos (by simpa using hdis)]
      rfl
  exact absurd (h.symm.trans hheld) (by decide)

/-- A first departure of an unheld crane with class and length in range is STALE past its validity, else DELIVERED
(R52, R53). -/
theorem departureDecision_listed {s : State} {r : DlRecord} (hdep : r.departed = false) (hcrane : r.crane ≤ 11)
    (hfree : holdLine s r.crane = false) (hcls : r.cls.toNat ≤ 2) (hmin : 4 ≤ r.len) (hmax : r.len ≤ 248) :
    departureDecision s r = listedDecision
      (decide (r.validity ≠ 0 ∧ r.validity.toNat < (s.su.qt - r.writeQt).toNat)) := by
  have hp : ¬ passesBy s r := by
    unfold passesBy
    rw [craneEnabled_of_free hfree]
    simpa using hcrane
  have hin : ¬ (holdLine s r.crane = true ∨ 2 < r.cls.toNat ∨ r.len < 4 ∨ 248 < r.len) := by
    rw [hfree]
    simp only [Bool.false_eq_true, false_or]
    omega
  rw [departureDecision_first hdep, firstDecision_stale hp hin]
  simp only [listedDecision, decide_eq_true_eq]

/-- Of the counters, DL_ORDER counts a refusal alone (R61, R64). -/
theorem listedDecision_order (d : DlCounters) (stale enters : Bool) :
    ((d.count (listedDecision stale)).countOrder (!enters)).order = if enters = true then d.order else d.order + 1 := by
  cases stale <;> cases enters <;> rfl

/-- How often each code stands among the records of such a departure (R55, R61, R62). -/
theorem listedCodes_count (stale enters : Bool) (n : Nat) :
    let codes : List Byte := (if stale = true then [0x19] else []) ++
      (if enters = true then (if n = 8 then [0x1A] else []) else [0x1C])
    codes.count 0x19 = (if stale = true then 1 else 0) ∧ codes.count 0x1A = (if enters = true ∧ n = 8 then 1 else 0) ∧
      codes.count 0x1C = if enters = true then 0 else 1 := by
  by_cases hn : n = 8 <;> cases stale <;> cases enters <;> simp [hn]

/-- Settles O26: the decision lists or is refused, and its records are CMD_STALE's and the offer's. -/
theorem deliveredCommandListed : Obligations.DeliveredCommandListed := by
  intro s s1 b o tb k hfetch hcom hcomplete hkind hdep hcrane hfree hcls hmin hmax hlen
  obtain ⟨early, pu, t, hexec, -, ht, -⟩ := exec_departure_one hfetch
  have hdepart := fetchClassByte_command ((isCommand_iff _).mpr ⟨hcom, hcomplete, hkind⟩)
  have hrpu : t.rpu = (depart k s).rpu := by rw [ht, countEarly_frame, hdepart]
  have hclu : t.clu = (depart k s).clu := by rw [ht, countEarly_frame, hdepart]
  have horder : t.rcu.dl.order = (depart k s).rcu.dl.order := by
    rw [ht, ← hdepart]
    cases early <;> rfl
  have hdecided := departureDecision_listed hdep hcrane hfree hcls hmin hmax
  generalize hstale : decide ((s.rcu.record k).validity ≠ 0 ∧
    (s.rcu.record k).validity.toNat < (s.su.qt - (s.rcu.record k).writeQt).toNat) = stale at hdecided
  obtain ⟨-, hdl, hcraneAfter, hrecords⟩ := depart_decided hdecided rfl
  rw [← hclu, craneDecision_first_crane hdep stale hlen] at hcraneAfter
  rw [← hrpu, craneDecision_first hdep] at hrecords
  rw [craneDecision_first hdep, offerCommand_refused_eq] at hdl
  rw [hdl, listedDecision_order] at horder
  refine ⟨t, _, hexec, hrecords, ?_⟩
  dsimp only
  rw [hstale, List.map_append, staleRecords_codes, offerCommand_codes _ _ _ _ _ _ _ hlen]
  obtain ⟨hstales, hdisplaced, hrefused⟩ := listedCodes_count stale
    (entersList (s.clu.crane (s.rcu.record k).crane).outstanding (s.rcu.record k).seq)
    (s.clu.crane (s.rcu.record k).crane).outstanding.length
  refine ⟨?_, hstales, hdisplaced, hrefused, fun q hq => ?_⟩
  · cases hin : entersList (s.clu.crane (s.rcu.record k).crane).outstanding (s.rcu.record k).seq with
    | true =>
      rw [hin] at hcraneAfter horder
      exact (if_pos hin).mpr ⟨hcraneAfter, horder⟩
    | false =>
      rw [hin] at hcraneAfter horder
      exact (if_neg (Bool.eq_false_iff.mp hin)).mpr ⟨hcraneAfter, horder⟩
  · rcases List.mem_append.mp hq with hq | hq
    · obtain ⟨⟨horigin, hobject, hqt⟩, hcode, hdetail⟩ := staleRecords_detail hq
      exact ⟨horigin, hobject, hqt, .inl ⟨hcode, hdetail⟩⟩
    · obtain ⟨⟨horigin, hobject, hqt⟩, hdetail⟩ := offerCommand_records hlen hq
      exact ⟨horigin, hobject, hqt, .inr hdetail⟩

end Sys2Proof.Machine
end

