-- ==== Sys2Proof/Proofs/StopOverlay.lean ====
section
/-! SUPPORT. The data of a RADIO beat in the downlink ring: the STOP overlay by the last fetch decision, the fetches of a
beat that carries byte 9 of several slots, and DL_EARLY (R52 to R59). -/

namespace Sys2Proof.Machine

open Sys2Proof

/-! ### The overlay of one byte (R56 to R58) -/

theorem isMotionByte_iff (r : DlRecord) (off : Nat) :
    isMotionByte r off = true ↔ 12 ≤ off ∧ off ≤ 7 + r.len ∧ off ≤ 255 := by
  unfold isMotionByte
  rw [Bool.and_eq_true, Bool.and_eq_true, decide_eq_true_eq, decide_eq_true_eq, decide_eq_true_eq, and_assoc]

theorem governs_iff (s : State) (r : DlRecord) : governs s r = true ↔ isCommand r = true ∧ ¬ passesBy s r := by
  unfold governs
  rw [Bool.and_eq_true, Bool.not_eq_true', ← Bool.not_eq_true, unrostered_iff]

/-- A committed, header-complete crane command of an enabled crane (R58). -/
def governedBy (s : State) (r : DlRecord) : Prop :=
  r.committed = true ∧ r.complete = true ∧ r.kind = 2 ∧ r.crane ≤ 11 ∧ craneEnabled s.su.setup r.crane = true

theorem governs_iff_governedBy (s : State) (r : DlRecord) : governs s r = true ↔ governedBy s r := by
  rw [governs_iff, isCommand_iff, passesBy, not_or, Nat.not_lt, Bool.not_eq_false, and_assoc, and_assoc]
  rfl

theorem governs_congr {s s' : State} (hsu : s'.su = s.su) (r : DlRecord) : governs s' r = governs s r := by
  rw [governs, governs, unrostered, unrostered, hsu]

theorem countEarly_su (early : Bool) (s : State) : (countEarly early s).su = s.su := by
  rw [countEarly_frame]

section Byte

variable {s : State} {tb : Windows} {a : Nat} {bs : List Byte} {j k off : Nat}

theorem overlayBytes_outside (hplace : dlPlace tb (a + j) = none) : (overlayBytes s tb a bs)[j]? = bs[j]? := by
  rw [overlayBytes_get]
  have hid : overlayByte s tb (a + j) = id := by
    funext x
    rw [overlayByte, hplace]
    rfl
  rw [hid, Option.map_id_fun, id]

/-- A byte of a slot that does not govern, or was last decided DELIVERED or PASS, passes as it is (R58). -/
theorem overlayBytes_passed (hplace : dlPlace tb (a + j) = some (k, off))
    (h : governs s (s.rcu.record k) = false ∨ (s.rcu.record k).lastFetch = .none) :
    (overlayBytes s tb a bs)[j]? = bs[j]? := by
  rw [overlayBytes_get]
  have hid : overlayByte s tb (a + j) = id := by
    funext x
    unfold overlayByte
    rw [hplace]
    dsimp only
    rcases h with h | h <;> rw [h]
    · rfl
    · exact ite_self _
  rw [hid, Option.map_id_fun, id]

/-- A slot that governs and was last decided HALT or STALE returns class STOP and zero motion bytes (R56). -/
theorem overlayBytes_stopped (hj : j < bs.length) (hplace : dlPlace tb (a + j) = some (k, off))
    (hgov : governs s (s.rcu.record k) = true)
    (hstop : (s.rcu.record k).lastFetch = .halt ∨ (s.rcu.record k).lastFetch = .stale) :
    (overlayBytes s tb a bs)[j]? = if off = 9 then some 2
      else if 12 ≤ off ∧ off ≤ 7 + (s.rcu.record k).len ∧ off ≤ 255 then some 0 else bs[j]? := by
  rw [overlayBytes_get, List.getElem?_eq_getElem hj, Option.map_some]
  unfold overlayByte
  rw [hplace]
  dsimp only
  rw [hgov]
  have hbyte : ∀ x : Byte, some (if off = 9 then 2 else if isMotionByte (s.rcu.record k) off = true then 0 else x) =
      if off = 9 then some 2
      else if 12 ≤ off ∧ off ≤ 7 + (s.rcu.record k).len ∧ off ≤ 255 then some 0 else some x := fun x => by
    simp only [isMotionByte_iff, apply_ite some]
  rcases hstop with h | h <;> rw [h]
  · exact hbyte _
  · exact hbyte _

/-- Apart from byte 9, a slot that governs returns zero motion bytes unless its last decision is NONE (R58). -/
theorem overlayBytes_motion (hj : j < bs.length) (hplace : dlPlace tb (a + j) = some (k, off))
    (hgov : governs s (s.rcu.record k) = true) (hoff : off ≠ 9) (hdec : (s.rcu.record k).lastFetch ≠ .none) :
    (overlayBytes s tb a bs)[j]? =
      if 12 ≤ off ∧ off ≤ 7 + (s.rcu.record k).len ∧ off ≤ 255 then some 0 else bs[j]? := by
  cases hf : (s.rcu.record k).lastFetch with
  | none => exact absurd hf hdec
  | halt => rw [overlayBytes_stopped hj hplace hgov (.inl hf), if_neg hoff]
  | stale => rw [overlayBytes_stopped hj hplace hgov (.inr hf), if_neg hoff]
  | undecided =>
    rw [overlayBytes_get, List.getElem?_eq_getElem hj, Option.map_some]
    unfold overlayByte
    rw [hplace]
    dsimp only
    rw [hgov, hf]
    have hbyte : ∀ x : Byte, some (if isMotionByte (s.rcu.record k) off = true then 0 else x) =
        if 12 ≤ off ∧ off ≤ 7 + (s.rcu.record k).len ∧ off ≤ 255 then some 0 else some x := fun x => by
      simp only [isMotionByte_iff, apply_ite some]
    exact hbyte _

/-- Apart from byte 9: zero for a motion byte of a slot that governs, unless its last decision is NONE (R58). -/
theorem overlayBytes_unfetched {r : DlRecord} (hr : s.rcu.record k = r) (hj : j < bs.length)
    (hplace : dlPlace tb (a + j) = some (k, off)) (hoff : off ≠ 9) :
    (overlayBytes s tb a bs)[j]? = if governs s r = true ∧ r.lastFetch ≠ .none ∧
      12 ≤ off ∧ off ≤ 7 + r.len ∧ off ≤ 255 then some 0 else bs[j]? := by
  subst hr
  by_cases hgov : governs s (s.rcu.record k) = true
  · by_cases hdec : (s.rcu.record k).lastFetch = .none
    · rw [overlayBytes_passed hplace (.inr hdec), if_neg fun h => h.2.1 hdec]
    · rw [overlayBytes_motion hj hplace hgov hoff hdec]
      simp only [hgov, hdec, ne_eq, not_false_eq_true, true_and]
  · rw [overlayBytes_passed hplace (.inl (Bool.eq_false_iff.mpr hgov)), if_neg fun h => hgov h.1]

end Byte

/-! ### The bursts in flight after a beat -/

theorem findOpen_putOpen (os : List OpenRead) (o : OpenRead) : findOpen (putOpen os o) o.id = some o := by
  have hnone : (os.filter (fun x => decide (x.id ≠ o.id))).find? (fun x => decide (x.id = o.id)) = none := by
    rw [List.find?_eq_none]
    intro x hx
    simpa using (List.mem_filter.mp hx).2
  rw [findOpen, putOpen, List.find?_append, hnone, Option.none_or]
  simp

/-- The burst a beat belongs to has the beat's ID (R165). -/
theorem burstOf_id {b : ReadBeat} {s s1 : State} {o : OpenRead} (h : burstOf b s = some (o, s1)) : o.id = b.id := by
  unfold burstOf at h
  split at h
  · rename_i o' hcont
    obtain ⟨rfl, -⟩ := Prod.mk.inj (Option.some.inj h)
    unfold continued at hcont
    split at hcont
    · cases hcont
    · split at hcont
      · rename_i x hx
        split at hcont
        · cases hcont
        · obtain rfl := Option.some.inj hcont
          simpa using List.find?_some hx
      · cases hcont
  · split at h
    · rename_i role _
      have ho : (beginBurst b role s).1 = o := congrArg Prod.fst (Option.some.inj h)
      rw [← ho]
      unfold beginBurst
      dsimp only
      split
      · rfl
      · split <;> rfl
    · cases h

/-- A beat that is not the last keeps its burst in flight (R143). -/
theorem endBeat_findOpen {b : ReadBeat} {o : OpenRead} (data : List Byte) (s : State) (hid : o.id = b.id)
    (hmore : b.beat + 1 < b.spans.length) : findOpen (endBeat b o data s).pu.openReads b.id = some o := by
  have hlast : isLastBeat b = false := decide_eq_false (Nat.not_le.mpr hmore)
  have hreads : (endBeat b o data s).pu.openReads = putOpen s.pu.openReads o := by
    simp only [endBeat, hlast, Bool.false_eq_true, if_false]
  rw [hreads, ← hid, findOpen_putOpen]

/-! ### Motion bytes apart from a departure (R58) -/

/-- A beat carries early motion bytes where a slot that governs and is UNDECIDED has one in it. -/
theorem carriesEarly_iff (s : State) (tb : Windows) (b : ReadBeat) :
    carriesEarly s tb (beatAddr b) b.data.length = true ↔ undecidedMotion s tb b := by
  have hplaced : ∀ r : DlRecord, ∀ off, (governs s r && decide (r.lastFetch = .undecided) && isMotionByte r off) = true ↔
      (r.committed = true ∧ r.complete = true ∧ r.kind = 2 ∧ r.crane ≤ 11 ∧ craneEnabled s.su.setup r.crane = true ∧
        r.lastFetch = .undecided ∧ 12 ≤ off ∧ off ≤ 7 + r.len ∧ off ≤ 255) := fun r off => by
    rw [Bool.and_eq_true, Bool.and_eq_true, decide_eq_true_eq, isMotionByte_iff, governs_iff_governedBy, governedBy]
    simp only [and_assoc]
  unfold carriesEarly undecidedMotion
  rw [List.any_eq_true]
  constructor
  · rintro ⟨j, hj, h⟩
    split at h
    · rename_i k off hplace
      exact ⟨j, k, off, List.mem_range.mp hj, hplace, (hplaced _ off).mp h⟩
    · cases h
  · rintro ⟨j, k, off, hj, hplace, h⟩
    refine ⟨j, List.mem_range.mpr hj, ?_⟩
    rw [hplace]
    exact (hplaced _ off).mpr h

theorem mem_classByteSlots (tb : Windows) (a n k : Nat) :
    k ∈ classByteSlots tb a n ↔ ∃ j, j < n ∧ dlPlace tb (a + j) = some (k, 9) := by
  unfold classByteSlots
  rw [List.mem_filterMap]
  constructor
  · rintro ⟨j, hj, h⟩
    split at h
    · rename_i slot off hplace
      split at h
      · rename_i hoff
        subst hoff
        obtain rfl := Option.some.inj h
        exact ⟨j, List.mem_range.mp hj, hplace⟩
      · cases h
    · cases h
  · rintro ⟨j, hj, hplace⟩
    refine ⟨j, List.mem_range.mpr hj, ?_⟩
    rw [hplace]
    rfl

/-- A RADIO beat: its fetches, DL_EARLY counted once for the burst, and the data overlaid (R19, R58). -/
theorem radioBeat_eq (tb : Windows) (b : ReadBeat) (o : OpenRead) (s : State) : radioBeat tb b o s =
    (let f := fetchAll (classByteSlots tb (beatAddr b) b.data.length) s
     let early := carriesEarly f tb (beatAddr b) b.data.length
     let u := countEarly (early && !o.early) f
     endBeat b { o with early := o.early || early } (overlayBytes u tb (beatAddr b) b.data) u) := rfl

/-- MOTION_BYTES_READ: the beat passes with its data overlaid, and no slot is fetched (R58). -/
theorem exec_motionBytesRead {s s1 : State} {b : ReadBeat} {o : OpenRead} {tb : Windows}
    (hburst : burstOf b s = some (o, s1)) (hrole : o.role = .radio) (htable : o.table = some tb)
    (hresp : isOkay b.resp = true) (hslots : classByteSlots tb (beatAddr b) b.data.length = [])
    (hring : beatCarries b tb.dlSlots (tb.dlCount * 256) = true) :
    exec (.motionBytesRead b) s = .next (
      let early := carriesEarly s tb (beatAddr b) b.data.length
      let u := countEarly (early && !o.early) s1
      endBeat b { o with early := o.early || early } (overlayBytes u tb (beatAddr b) b.data) u) := by
  have hmotion : isMotionBeat b o = true := by
    simp [isMotionBeat, isDepartureBeat, htable, hrole, hslots, hring, Config.slotBytes]
  have hpass : exec (.motionBytesRead b) s = .next (radioBeat tb b o s1) := by
    simp [exec, execMotionBytesRead, passBeat, hburst, hmotion, carryBeat, htable, hrole, hresp]
  obtain ⟨vu, pu, rfl⟩ : ∃ vu pu, s1 = { s with vu := vu, pu := pu } := ⟨_, _, (burstOf_only b s s1 o hburst).1⟩
  rw [hpass, radioBeat_eq, hslots]
  rfl

/-- Settles O28: the bytes by the overlay, DL_EARLY by what the beat carries and its burst has counted. -/
theorem motionBytesOverlaid : Obligations.MotionBytesOverlaid := by
  intro s s1 b o tb hburst hrole htable hresp hslots hring
  have hexec := exec_motionBytesRead hburst hrole htable hresp hslots hring
  have hid := burstOf_id hburst
  have hearly := carriesEarly_iff s tb b
  obtain ⟨vu, pu, rfl⟩ : ∃ vu pu, s1 = { s with vu := vu, pu := pu } := ⟨_, _, (burstOf_only b s s1 o hburst).1⟩
  generalize carriesEarly s tb (beatAddr b) b.data.length = early at hexec hearly
  dsimp only at hexec
  refine ⟨_, _, hexec, rfl, overlayBytes_length .., ?_, fun j hj k off hplace => ?_, fun hnot hmotion => ?_,
    fun hnone => ?_, fun hmore => ⟨_, endBeat_findOpen _ _ hid hmore, ?_⟩⟩
  · cases early <;> cases o.early <;> rfl
  · have hoff : off ≠ 9 := by
      rintro rfl
      have hmem := (mem_classByteSlots tb (beatAddr b) b.data.length k).mpr ⟨j, hj, hplace⟩
      rw [hslots] at hmem
      cases hmem
    have hbyte := overlayBytes_unfetched (countEarly_record (early && !o.early) { s with vu := vu, pu := pu } k)
      hj hplace hoff
    rw [governs_congr (countEarly_su ..)] at hbyte
    exact hbyte.trans (if_congr (and_congr_left' (governs_iff_governedBy s (s.rcu.record k))) rfl rfl)
  · rw [hearly.mpr hmotion, hnot]
    rfl
  · have hstands : (early && !o.early) = false := by
      rw [Bool.and_eq_false_iff, Bool.not_eq_false', ← Bool.not_eq_true, hearly]
      exact hnone.symm
    rw [hstands]
    rfl
  · rw [← hearly, Bool.or_eq_true]

theorem afterDeparture_fetch (r : DlRecord) (d : Decision) : (r.afterDeparture d).lastFetch = d.fetch := by
  unfold DlRecord.afterDeparture
  split <;> rfl

/-! ### The fetches of a beat (R19, R20, R52 to R57) -/

theorem offerCommand_link (n slot : Nat) (c : Crane) (seq : Half) (cls : Byte) (stale : Bool) (now : Qt) :
    (offerCommand n slot c seq cls stale now).crane.link = c.link := by
  unfold offerCommand
  split
  · unfold Crane.listCommand
    dsimp only
    split
    · split <;> rfl
    · rfl
  · rfl
  · rfl

/-- No departure changes a link state (R55). -/
theorem craneDecision_link (s : State) (slot : Nat) (r : DlRecord) (d : Decision) (c : Crane) :
    (craneDecision s slot r d c).crane.link = c.link := by
  unfold craneDecision
  cases d with
  | pass => rfl
  | halt reason => rfl
  | delivered =>
    dsimp only
    split
    · exact offerCommand_link ..
    · rfl
  | stale =>
    dsimp only
    split
    · exact offerCommand_link ..
    · rfl

theorem fetchClassByte_su (k : Nat) (s : State) : (fetchClassByte k s).su = s.su := by
  rw [fetchClassByte_frame]

theorem fetchAll_su (ks : List Nat) (s : State) : (fetchAll ks s).su = s.su := by
  rw [fetchAll_frame]

theorem fetchClassByte_link (k n : Nat) (s : State) :
    ((fetchClassByte k s).clu.crane n).link = (s.clu.crane n).link := by
  by_cases hc : isCommand (s.rcu.record k) = true
  · rw [fetchClassByte_command hc]
    by_cases hn : n = (s.rcu.record k).crane
    · rw [hn, (depart_decided rfl rfl).2.2.1, craneDecision_link]
    · rw [depart_crane_other k s n hn]
  · rw [fetchClassByte_other hc]

/-- A fetch leaves every HOLD line as it is (R44). -/
theorem fetchClassByte_hold (k n : Nat) (s : State) : holdLine (fetchClassByte k s) n = holdLine s n := by
  rw [holdLine, holdLine, holdReason, holdReason, fetchClassByte_link, fetchClassByte_su]

/-- Two records of one command: a fetch changes the departed flag and the two decisions alone (R19, R57). -/
def sameCommand (r r' : DlRecord) : Prop :=
  r' = { r with departed := r'.departed, overlay := r'.overlay, lastFetch := r'.lastFetch }

theorem sameCommand.refl (r : DlRecord) : sameCommand r r := rfl

theorem sameCommand.trans {r r' r'' : DlRecord} (h : sameCommand r r') (h' : sameCommand r' r'') :
    sameCommand r r'' := by
  unfold sameCommand at *
  rw [h', h]

theorem sameCommand_afterDeparture (r : DlRecord) (d : Decision) : sameCommand r (r.afterDeparture d) := by
  unfold sameCommand DlRecord.afterDeparture
  split <;> rfl

theorem sameCommand.isCommand_eq {r r' : DlRecord} (h : sameCommand r r') : isCommand r' = isCommand r := by rw [h]; rfl
theorem sameCommand.crane_eq {r r' : DlRecord} (h : sameCommand r r') : r'.crane = r.crane := by rw [h]; rfl
theorem sameCommand.len_eq {r r' : DlRecord} (h : sameCommand r r') : r'.len = r.len := by rw [h]; rfl

theorem fetchClassByte_sameCommand (j k : Nat) (s : State) :
    sameCommand (s.rcu.record k) ((fetchClassByte j s).rcu.record k) := by
  by_cases hk : k = j
  · subst hk
    by_cases hc : isCommand (s.rcu.record k) = true
    · rw [fetchClassByte_command hc, (depart_decided rfl rfl).1]
      exact sameCommand_afterDeparture _ _
    · rw [fetchClassByte_other hc]
      exact .refl _
  · rw [(fetchClassByte_rcu j s).2 k hk]
    exact .refl _

theorem fetchAll_sameCommand (ks : List Nat) (k : Nat) (s : State) :
    sameCommand (s.rcu.record k) ((fetchAll ks s).rcu.record k) := by
  induction ks generalizing s with
  | nil => exact .refl _
  | cons j ks ih => exact (fetchClassByte_sameCommand j k s).trans (ih _)

/-- After its fetches a slot governs as before (R58). -/
theorem governs_fetched {s u : State} {k : Nat} (hsu : u.su = s.su)
    (hrec : sameCommand (s.rcu.record k) (u.rcu.record k)) :
    governs u (u.rcu.record k) = governs s (s.rcu.record k) := by
  rw [governs_congr hsu, governs, governs, hrec.isCommand_eq, unrostered, unrostered, hrec.crane_eq]

/-- Slot `k` holds a command of an enabled crane whose HOLD line is asserted. -/
def heldSlot (s : State) (k : Nat) : Prop :=
  governs s (s.rcu.record k) = true ∧ holdLine s (s.rcu.record k).crane = true

/-- A fetch, of this slot or another, leaves a held slot held. -/
theorem heldSlot.fetched {s : State} {k : Nat} (h : heldSlot s k) (j : Nat) : heldSlot (fetchClassByte j s) k := by
  obtain ⟨hgov, hheld⟩ := h
  have hrec := fetchClassByte_sameCommand j k s
  refine ⟨(governs_fetched (fetchClassByte_su j s) hrec).trans hgov, ?_⟩
  rw [hrec.crane_eq, fetchClassByte_hold]
  exact hheld

/-- The fetch of a held slot is decided HALT (R52, R54). -/
theorem heldSlot.halts {s : State} {k : Nat} (h : heldSlot s k) :
    ((fetchClassByte k s).rcu.record k).lastFetch = .halt := by
  obtain ⟨hgov, hheld⟩ := h
  obtain ⟨hcmd, hp⟩ := (governs_iff _ _).mp hgov
  rw [fetchClassByte_command hcmd, (depart_decided (departureDecision_hold hp hheld) rfl).1, afterDeparture_fetch]
  rfl

/-- A held slot that was last decided HALT, or is fetched, ends with HALT (R54). -/
theorem fetchAll_halts {ks : List Nat} {k : Nat} {s : State} (h : heldSlot s k)
    (hk : (s.rcu.record k).lastFetch = .halt ∨ k ∈ ks) : ((fetchAll ks s).rcu.record k).lastFetch = .halt := by
  induction ks generalizing s with
  | nil => exact hk.resolve_right (List.not_mem_nil)
  | cons j ks ih =>
    refine ih (h.fetched j) ?_
    by_cases hj : k = j
    · subst hj
      exact .inl h.halts
    · rw [(fetchClassByte_rcu j s).2 k hj]
      exact hk.imp_right fun hm => (List.mem_cons.mp hm).resolve_left hj

/-- Nothing the fetches read or change depends on the views or the bursts in flight. -/
theorem fetchAll_views (ks : List Nat) (s : State) (vu : ViewUnit) (pu : PathUnit) :
    fetchAll ks { s with vu := vu, pu := pu } = { fetchAll ks s with vu := vu, pu := pu } := by
  induction ks generalizing s with
  | nil => rfl
  | cons k ks ih =>
    rw [fetchAll, fetchClassByte_views, ih]
    rfl

/-- DEPARTURE, with byte 9 of any slots: the slots fetched in turn, and the beat overlaid (R19, R56). -/
theorem exec_departure {s s1 : State} {b : ReadBeat} {o : OpenRead} {tb : Windows} {k : Nat}
    (hburst : burstOf b s = some (o, s1)) (hrole : o.role = .radio) (htable : o.table = some tb)
    (hresp : isOkay b.resp = true) (hk : k ∈ classByteSlots tb (beatAddr b) b.data.length) :
    ∃ u t, exec (.departure b) s = .next t ∧ u.su = s.su ∧ t.rcu = u.rcu ∧
      (∀ j, u.rcu.record j =
        (fetchAll (classByteSlots tb (beatAddr b) b.data.length) s).rcu.record j) ∧
      t.pu.up = [⟨b.id, b.resp, overlayBytes u tb (beatAddr b) b.data⟩] := by
  have hdep : isDepartureBeat b o = true := by
    simp [isDepartureBeat, htable, hrole, List.ne_nil_of_mem hk]
  have hexec : exec (.departure b) s = .next (radioBeat tb b o s1) := by
    simp [exec, execDeparture, passBeat, hburst, hdep, carryBeat, htable, hrole, hresp]
  obtain ⟨vu, pu, rfl⟩ : ∃ vu pu, s1 = { s with vu := vu, pu := pu } := ⟨_, _, (burstOf_only b s s1 o hburst).1⟩
  rw [radioBeat_eq, fetchAll_views] at hexec
  dsimp only at hexec
  refine ⟨countEarly _ _, _, hexec, ?_, rfl, fun j => ?_, rfl⟩
  · rw [countEarly_su]
    exact fetchAll_su ..
  · rw [countEarly_record]

/-! ### The data of a departure (R56, R59) -/

/-- A departure of an enabled crane is stopped: it is held, the first with a class or length out of range or past its
validity, or a later one of a stored HALT or STALE (R52 to R54). -/
def stopsFetch (s : State) (r : DlRecord) : Prop :=
  holdLine s r.crane = true ∨
    r.departed = false ∧ (2 < r.cls.toNat ∨ r.len < 4 ∨ 248 < r.len ∨
      r.validity ≠ 0 ∧ r.validity.toNat < (s.su.qt - r.writeQt).toNat) ∨
    r.departed = true ∧ r.overlay ≠ .none

/-- A stopped departure is decided HALT or STALE, another DELIVERED (R52 to R54, R57). -/
theorem departureDecision_stops {s : State} {r : DlRecord} (hp : ¬ passesBy s r) :
    (stopsFetch s r → (departureDecision s r).fetch = .halt ∨ (departureDecision s r).fetch = .stale) ∧
      (¬ stopsFetch s r → (departureDecision s r).fetch = .none) := by
  by_cases hh : holdLine s r.crane = true
  · rw [departureDecision_hold hp hh]
    exact ⟨fun _ => .inl rfl, fun h => absurd (.inl hh) h⟩
  · cases hdep : r.departed with
    | false =>
      rw [departureDecision_first hdep]
      by_cases hin : 2 < r.cls.toNat ∨ r.len < 4 ∨ 248 < r.len
      · rw [firstDecision_halt hp (.inr hin)]
        exact ⟨fun _ => .inl rfl, fun h => absurd (.inr (.inl ⟨hdep, by tauto⟩)) h⟩
      · rw [firstDecision_stale hp (not_or.mpr ⟨hh, hin⟩)]
        split
        case isTrue hs => exact ⟨fun _ => .inr rfl, fun h => absurd (.inr (.inl ⟨hdep, .inr (.inr (.inr hs))⟩)) h⟩
        case isFalse hs =>
          refine ⟨?_, fun _ => rfl⟩
          rintro (h | ⟨-, h⟩ | ⟨h, -⟩)
          · exact absurd h hh
          · tauto
          · exact absurd (h.symm.trans hdep) (by decide)
    | true =>
      rw [departureDecision_later hdep]
      obtain ⟨hhalt, hstale, hnone⟩ := laterDecision_stored hp hh
      cases ho : r.overlay with
      | halt why =>
        rw [hhalt why ho]
        exact ⟨fun _ => .inl rfl, fun h => absurd (.inr (.inr ⟨hdep, by rw [ho]; nofun⟩)) h⟩
      | stale =>
        rw [hstale ho]
        exact ⟨fun _ => .inr rfl, fun h => absurd (.inr (.inr ⟨hdep, by rw [ho]; nofun⟩)) h⟩
      | none =>
        rw [hnone ho]
        refine ⟨?_, fun _ => rfl⟩
        rintro (h | ⟨h, -⟩ | ⟨-, h⟩)
        · exact absurd h hh
        · exact absurd (h.symm.trans hdep) (by decide)
        · exact absurd ho h

/-- Settles O27: a held slot ends its fetches with HALT; a departure of one slot is overlaid by its decision. -/
theorem heldFetchCarriesStop : Obligations.HeldFetchCarriesStop := by
  refine ⟨fun s s1 b o tb k hburst hrole htable hresp hk hcom hcomplete hkind hcrane hen hheld => ?_,
    fun s s1 b o tb k hfetch hcom hcomplete hkind => ?_⟩
  · obtain ⟨u, t, hexec, hsu, hrcu, hrec, hup⟩ := exec_departure hburst hrole htable hresp hk
    have hgov := (governs_iff_governedBy s (s.rcu.record k)).mpr ⟨hcom, hcomplete, hkind, hcrane, hen⟩
    have hsame := fetchAll_sameCommand (classByteSlots tb (beatAddr b) b.data.length) k s
    have hhalt := fetchAll_halts ⟨hgov, hheld⟩ (.inr hk)
    rw [← hrec] at hsame hhalt
    refine ⟨t, _, hexec, hup, overlayBytes_length .., hrcu ▸ hhalt, fun j hj => ⟨fun off hplace => ?_,
      overlayBytes_outside⟩⟩
    rw [overlayBytes_stopped hj hplace ((governs_fetched hsu hsame).trans hgov) (.inl hhalt), hsame.len_eq]
  · obtain ⟨hburst, hrole, htable, hresp, hslots⟩ := hfetch
    obtain ⟨u, t, hexec, hsu, hrcu, hrec, hup⟩ := exec_departure hburst hrole htable hresp
      (hslots ▸ List.mem_singleton_self k)
    have hrecord : u.rcu.record k = (s.rcu.record k).afterDeparture (departureDecision s (s.rcu.record k)) := by
      rw [hrec, hslots, fetchAll, fetchAll, fetchClassByte_command ((isCommand_iff _).mpr ⟨hcom, hcomplete, hkind⟩)]
      exact (depart_decided rfl rfl).1
    have hsame := sameCommand_afterDeparture (s.rcu.record k) (departureDecision s (s.rcu.record k))
    have hlast := afterDeparture_fetch (s.rcu.record k) (departureDecision s (s.rcu.record k))
    rw [← hrecord] at hsame hlast
    have hgov := governs_fetched hsu hsame
    refine ⟨t, _, hexec, hup, overlayBytes_length .., fun j hj => ⟨fun off hplace => ?_, overlayBytes_outside⟩⟩
    by_cases hp : passesBy s (s.rcu.record k)
    · have hpass : governs u (u.rcu.record k) = false :=
        hgov.trans (Bool.eq_false_iff.mpr fun h => ((governs_iff _ _).mp h).2 hp)
      rw [overlayBytes_passed hplace (.inl hpass)]
      exact (if_neg fun h => h.1 hp).symm
    · obtain ⟨hstops, hruns⟩ := departureDecision_stops hp
      by_cases hstop : stopsFetch s (s.rcu.record k)
      · rw [overlayBytes_stopped hj hplace
          (hgov.trans ((governs_iff _ _).mpr ⟨(isCommand_iff _).mpr ⟨hcom, hcomplete, hkind⟩, hp⟩))
          (hlast ▸ hstops hstop), hsame.len_eq]
        exact (if_pos ⟨hp, hstop⟩).symm
      · rw [overlayBytes_passed hplace (.inr (hlast.trans (hruns hstop)))]
        exact (if_neg fun h => hstop h.2).symm

end Sys2Proof.Machine
end

