-- ==== Sys2Proof/Proofs/ReeferLaw.lean ====
section
/-! SUPPORT. Every single effect keeps the law on the reefer table. The law is said of some of a table's indices, so that
it can be followed through an admission, where the index admitted into stands apart until it is written (R71, R72, R76). -/

namespace Sys2Proof.Machine

open Sys2Proof

/-! ### The law on some of the indices -/

/-- R71, R72 for the indices in `S`; the departed list holds nothing twice. -/
structure ReeferUnit.lawfulOn (S : Nat → Prop) (u : ReeferUnit) : Prop where
  entries : ∀ i e, S i → u.entry i = some e → i < Config.reeferCount ∧ (e.reason = .none ↔ e.state ≠ .departed)
  differ : ∀ i j a b, S i → S j → u.entry i = some a → u.entry j = some b → i ≠ j → reefersDiffer a b
  nodup : u.departed.Nodup
  listed : ∀ i, S i → (i ∈ u.departed ↔ ∃ e, u.entry i = some e ∧ e.state = .departed)

theorem reeferLaw_iff (s : State) : reeferLaw s ↔ s.rfu.lawfulOn fun _ => True :=
  ⟨fun ⟨he, hd, hn, hl⟩ => ⟨fun i e _ => he i e, fun i j a b _ _ => hd i j a b, hn, fun i _ => hl i⟩,
    fun ⟨he, hd, hn, hl⟩ => ⟨fun i e => he i e trivial, fun i j a b => hd i j a b trivial trivial, hn,
      fun i => hl i trivial⟩⟩

theorem ReeferUnit.lawfulOn.emptied {S : Nat → Prop} {u : ReeferUnit} (hentry : ∀ i, u.entry i = none)
    (hdep : u.departed = []) : u.lawfulOn S where
  entries i e _ he := nomatch (hentry i).symm.trans he
  differ i j a b _ _ ha := nomatch (hentry i).symm.trans ha
  nodup := hdep ▸ List.nodup_nil
  listed i _ := by simp [hdep, hentry]

theorem reefersDiffer.symm {a b : Reefer} (h : reefersDiffer a b) : reefersDiffer b a :=
  ⟨h.1.symm, fun hb ha => (h.2 ha hb).symm⟩

/-- `ds'` is the departed list `ds` with nothing changed but the place of index i, which is in it exactly where `b`
holds. -/
structure relisted (i : Nat) (b : Prop) (ds ds' : List Nat) : Prop where
  nodup : ds'.Nodup
  others : ∀ j, j ≠ i → (j ∈ ds' ↔ j ∈ ds)
  here : i ∈ ds' ↔ b

theorem relisted_self {i : Nat} {b : Prop} {ds : List Nat} (hn : ds.Nodup) (hi : i ∈ ds ↔ b) : relisted i b ds ds :=
  ⟨hn, fun _ _ => Iff.rfl, hi⟩

theorem relisted_append {i : Nat} {b : Prop} {ds : List Nat} (hn : ds.Nodup) (hi : i ∉ ds) (hb : b) :
    relisted i b ds (ds ++ [i]) :=
  ⟨List.nodup_append.mpr ⟨hn, List.nodup_singleton i, by rintro a ha _ hx rfl; exact hi (List.mem_singleton.mp hx ▸ ha)⟩,
    fun j hj => by simp [hj], by simp [hb]⟩

theorem relisted_filter {i : Nat} {b : Prop} {ds : List Nat} (hn : ds.Nodup) (hb : ¬ b) :
    relisted i b ds (ds.filter (fun j => j != i)) :=
  ⟨hn.filter _, fun j hj => by simp [hj], by simp [hb]⟩

/-- One index changed: the law holds with it when it holds of the others, what now stands there differs from them, and
the departed list follows. -/
theorem ReeferUnit.lawfulOn.changed {S T : Nat → Prop} {u v : ReeferUnit} {i : Nat} (hu : u.lawfulOn T)
    (hST : ∀ j, S j → j ≠ i → T j) (hother : ∀ j, j ≠ i → v.entry j = u.entry j)
    (hhere : ∀ e, v.entry i = some e → i < Config.reeferCount ∧ (e.reason = .none ↔ e.state ≠ .departed) ∧
      ∀ j b, S j → j ≠ i → u.entry j = some b → reefersDiffer e b)
    (hlist : relisted i (∃ e, v.entry i = some e ∧ e.state = .departed) u.departed v.departed) : v.lawfulOn S where
  entries j e hj he := by
    by_cases hji : j = i
    · subst hji
      obtain ⟨hlt, hreason, -⟩ := hhere e he
      exact ⟨hlt, hreason⟩
    · exact hu.entries j e (hST j hj hji) (hother j hji ▸ he)
  differ j k a b hj hk ha hb hjk := by
    by_cases hji : j = i
    · subst hji
      obtain ⟨-, -, hdiff⟩ := hhere a ha
      exact hdiff k b hk hjk.symm (hother k hjk.symm ▸ hb)
    · by_cases hki : k = i
      · subst hki
        obtain ⟨-, -, hdiff⟩ := hhere b hb
        exact (hdiff j a hj hji (hother j hji ▸ ha)).symm
      · exact hu.differ j k a b (hST j hj hji) (hST k hk hki) (hother j hji ▸ ha) (hother k hki ▸ hb) hjk
  nodup := hlist.nodup
  listed j hj := by
    by_cases hji : j = i
    · subst hji
      exact hlist.here
    · rw [hlist.others j hji, hother j hji]
      exact hu.listed j (hST j hj hji)

/-- The law on the other indices stands when index i is taken off or put on the departed list. -/
theorem ReeferUnit.lawfulOn.relist {u v : ReeferUnit} {i : Nat} (hu : u.lawfulOn fun _ => True)
    (hv : ∀ j, v.entry j = u.entry j) (hn : v.departed.Nodup)
    (hds : ∀ j, j ≠ i → (j ∈ v.departed ↔ j ∈ u.departed)) : v.lawfulOn fun j => j ≠ i where
  entries j e _ he := hu.entries j e trivial (hv j ▸ he)
  differ j k a b _ _ ha hb := hu.differ j k a b trivial trivial (hv j ▸ ha) (hv k ▸ hb)
  nodup := hn
  listed j hj := by rw [hds j hj, hv j, hu.listed j trivial]

/-! ### What keeps an entry's seat -/

/-- Two entries that the collections of R72 do not tell apart. -/
structure sameSeat (a b : Reefer) : Prop where
  container : b.container = a.container
  plug : b.plug = a.plug
  reason : b.reason = a.reason
  departed : b.state = .departed ↔ a.state = .departed

theorem sameSeat.refl (a : Reefer) : sameSeat a a := ⟨rfl, rfl, rfl, Iff.rfl⟩

theorem sameSeat.reefersDiffer {a b a' b' : Reefer} (ha : sameSeat a a') (hb : sameSeat b b')
    (h : reefersDiffer a b) : reefersDiffer a' b' := by
  obtain ⟨hcont, hplug⟩ := h
  refine ⟨by rwa [ha.container, hb.container], fun hsa hsb => ?_⟩
  rw [ha.plug, hb.plug]
  exact hplug (fun h => hsa (ha.departed.mpr h)) fun h => hsb (hb.departed.mpr h)

/-- Under the same departed list, entries that keep their seats keep the law. -/
theorem ReeferUnit.lawfulOn.reseated {S : Nat → Prop} {u v : ReeferUnit} (hu : u.lawfulOn S)
    (hdep : v.departed = u.departed) (h : ∀ i, Option.Rel sameSeat (u.entry i) (v.entry i)) : v.lawfulOn S := by
  have before : ∀ i b, v.entry i = some b → ∃ a, u.entry i = some a ∧ sameSeat a b := by
    intro i b hb
    have hi := h i
    rw [hb] at hi
    generalize u.entry i = x at hi
    cases hi with
    | some hab => exact ⟨_, rfl, hab⟩
  have after : ∀ i a, u.entry i = some a → ∃ b, v.entry i = some b ∧ sameSeat a b := by
    intro i a ha
    have hi := h i
    rw [ha] at hi
    generalize v.entry i = x at hi
    cases hi with
    | some hab => exact ⟨_, rfl, hab⟩
  refine ⟨fun i b hi hb => ?_, fun i j a b hi hj ha hb hij => ?_, hdep ▸ hu.nodup, fun i hi => ?_⟩
  · obtain ⟨a, ha, hab⟩ := before i b hb
    rw [hab.reason, Ne, hab.departed]
    exact hu.entries i a hi ha
  · obtain ⟨a', ha', haa⟩ := before i a ha
    obtain ⟨b', hb', hbb⟩ := before j b hb
    exact haa.reefersDiffer hbb (hu.differ i j a' b' hi hj ha' hb' hij)
  · rw [hdep, hu.listed i hi]
    constructor
    · rintro ⟨a, ha, hst⟩
      obtain ⟨b, hb, hab⟩ := after i a ha
      exact ⟨b, hb, hab.departed.mpr hst⟩
    · rintro ⟨b, hb, hst⟩
      obtain ⟨a, ha, hab⟩ := before i b hb
      exact ⟨a, ha, hab.departed.mp hst⟩

/-- An entry rewritten in its seat keeps the law. -/
theorem ReeferUnit.lawfulOn.setEntry {S : Nat → Prop} {u : ReeferUnit} (hu : u.lawfulOn S) {i : Nat} {a b : Reefer}
    (ha : u.entry i = some a) (hab : sameSeat a b) : (u.setEntry i (some b)).lawfulOn S := by
  refine hu.reseated rfl fun j => ?_
  rw [ReeferUnit.entry_setEntry]
  by_cases hj : j = i
  · rw [if_pos hj, hj, ha]
    exact .some hab
  · rw [if_neg hj]
    cases u.entry j with
    | none => exact .none
    | some x => exact .some (.refl x)

/-- No step of supervision moves an entry (R93). -/
theorem compareBand_sameSeat (k : ReeferClass) (i : Nat) (now : Qt) (e : Reefer) :
    sameSeat e (compareBand k i now e).1 := by
  have hcount : ∀ (area : Area) (e : Reefer), sameSeat e (countArea area e) := by
    intro area e
    unfold countArea
    split <;> exact ⟨rfl, rfl, rfl, Iff.rfl⟩
  have hexc : ∀ t b (e' : Reefer), sameSeat e e' → sameSeat e (enterExcursion k i t b now e').1 := by
    intro t b e' h
    unfold enterExcursion
    split
    · exact ⟨h.container, h.plug, h.reason, h.departed⟩
    · exact h
  unfold compareBand
  split
  · exact .refl e
  · split
    · exact ⟨rfl, rfl, rfl, Iff.rfl⟩
    · dsimp only
      split
      · unfold takeNormal
        dsimp only
        split <;> exact ⟨rfl, rfl, rfl, Iff.rfl⟩
      · obtain ⟨hc, hp, hr, hd⟩ := hcount (areaOf k e.setpoint _) { e with sensorAbsent := false }
        exact hexc _ _ _ ⟨hc, hp, hr, hd⟩

theorem judged_sameSeat (p : Setup) (r : ReeferReport) (i : Nat) (now : Qt) (e : Reefer) :
    sameSeat e (Reefer.judged p r i now e) := by
  obtain ⟨hc, hp, hr, hd⟩ := compareBand_sameSeat (classEntry p r.cls) i now (e.read r)
  exact ⟨hc, hp, hr, hd⟩

theorem keepReefer_sameSeat (p : Setup) (now : Qt) (e : Reefer) : sameSeat e (keepReefer p now e) := by
  refine ⟨rfl, rfl, rfl, ?_⟩
  by_cases h : e.state = .lost ∧ elapsed now e.lastReport < minutesMs (classEntry p e.cls).lossMin
  · simp [keepReefer, h]
  · simp [keepReefer, h]

/-! ### An admission (R76) -/

/-- Index i of the table can take the entry of report `r`: the law holds of the others, none of them has the report's
container, and where the report claims its plug none of them occupies it. -/
structure ReeferUnit.readyFor (w : ReeferUnit) (r : ReeferReport) (i : Nat) : Prop where
  lawful : w.lawfulOn fun j => j ≠ i
  unknown : ∀ j y, j ≠ i → w.entry j = some y → y.container ≠ r.container
  unplugged : r.power ≠ .unplug → ∀ j y, j ≠ i → w.entry j = some y → y.state ≠ .departed → y.plug ≠ r.plug

theorem replaceOccupant_entry (r : ReeferReport) (i : Nat) (now : Qt) (k : Nat) (z : Reefer) (v : ReeferUnit) (j : Nat) :
    (replaceOccupant r i now (some (k, z)) v).1.entry j =
      if j = k then some { z with state := .departed, reason := .replaced } else v.entry j :=
  ReeferUnit.entry_setEntry v k j _

/-- The occupant departs within the law: it leaves its plug and joins the departed list (R77). -/
theorem replaceOccupant_lawful {S : Nat → Prop} {v : ReeferUnit} {k : Nat} {z : Reefer} (hv : v.lawfulOn S) (hk : S k)
    (hz : v.entry k = some z) (hstate : z.state ≠ .departed) (r : ReeferReport) (i : Nat) (now : Qt) :
    (replaceOccupant r i now (some (k, z)) v).1.lawfulOn S := by
  have hgone : (replaceOccupant r i now (some (k, z)) v).1.entry k =
      some { z with state := .departed, reason := .replaced } := by rw [replaceOccupant_entry, if_pos rfl]
  have hout : k ∉ v.departed := by
    rw [hv.listed k hk]
    rintro ⟨y, hy, hd⟩
    exact hstate (Option.some.inj (hz.symm.trans hy) ▸ hd)
  refine hv.changed (fun _ h _ => h) (fun j hj => by rw [replaceOccupant_entry, if_neg hj]) (fun e he => ?_)
    (relisted_append hv.nodup hout ⟨_, hgone, rfl⟩)
  obtain rfl := Option.some.inj (hgone.symm.trans he)
  obtain ⟨hlt, -⟩ := hv.entries k z hk hz
  refine ⟨hlt, by simp, fun j b hj hjk hb => ?_⟩
  obtain ⟨hcont, -⟩ := hv.differ k j z b hk hj hz hb hjk.symm
  exact ⟨hcont, fun h => absurd rfl h⟩

/-- Replacing the occupant makes index i ready for the report (R77). `v` is the table `u` as dispatched with the index
reused off its departed list (R80). -/
theorem replaceOccupant_ready {u v : ReeferUnit} (hwf : u.table.wf none = true) (hu : u.lawfulOn fun _ => True)
    {r : ReeferReport} {i : Nat} (now : Qt) (hid : ∀ j, findContainer u r.container = some j → j = i)
    (hi : findContainer u r.container = some i ∨ ∀ x, u.entry i = some x → x.state = .departed)
    (hv : ∀ j, v.entry j = u.entry j) (hn : v.departed.Nodup)
    (hds : ∀ j, j ≠ i → (j ∈ v.departed ↔ j ∈ u.departed)) :
    (replaceOccupant r i now (occupantOf u r) v).1.readyFor r i ∧
      (i ∈ (replaceOccupant r i now (occupantOf u r) v).1.departed ↔ i ∈ v.departed) := by
  have huniq : u.unique := fun i j a b => hu.differ i j a b trivial trivial
  have hlaw := hu.relist hv hn hds
  have hknown : ∀ j y, j ≠ i → v.entry j = some y → y.container ≠ r.container := fun j y hj hy hc =>
    hj (hid j (hc ▸ findContainer_known hwf huniq (hv j ▸ hy)))
  by_cases hpow : r.power = .unplug
  · rw [occupantOf_unplug hpow]
    exact ⟨⟨hlaw, hknown, fun h => absurd hpow h⟩, Iff.rfl⟩
  · rcases occupantOf_cases hwf huniq hpow hid hi with ⟨hocc, hfree⟩ | ⟨k, z, hocc, hki, hz, hstate, hplug, hone⟩
    · rw [hocc]
      exact ⟨⟨hlaw, hknown, fun _ j y hj hy => hfree j y hj (hv j ▸ hy)⟩, Iff.rfl⟩
    · rw [hocc]
      refine ⟨⟨replaceOccupant_lawful hlaw hki ((hv k).trans hz) hstate r i now, fun j y hj hy => ?_,
        fun _ j y _ hy hs hpl => ?_⟩, by simp [replaceOccupant_departed, hki.symm]⟩
      · rw [replaceOccupant_entry] at hy
        split at hy
        · rename_i hjk
          subst hjk
          obtain rfl := Option.some.inj hy
          exact hknown j z hj ((hv j).trans hz)
        · exact hknown j y hj hy
      · rw [replaceOccupant_entry] at hy
        split at hy
        · obtain rfl := Option.some.inj hy
          exact hs rfl
        · rename_i hjk
          exact hjk (hone j y (hv j ▸ hy) hs hpl)

/-- Unit `v` holds the entry of report `r` at index i: the report's container and plug, DEPARTED exactly where the report
is UNPLUG, and exactly then on the departed list, which is otherwise `ds`. -/
def seatedAs (r : ReeferReport) (i : Nat) (ds : List Nat) (v : ReeferUnit) : Prop :=
  ∃ e, v.entry i = some e ∧ e.container = r.container ∧ e.plug = r.plug ∧ (e.reason = .none ↔ e.state ≠ .departed) ∧
    (e.state = .departed ↔ r.power = .unplug) ∧ relisted i (e.state = .departed) ds v.departed

/-- Supervision leaves an entry in its seat, so it is enough to say how it stood before (R76 steps 5 and 6). -/
theorem seatedAs_judged {p : Setup} {r : ReeferReport} {i : Nat} {now : Qt} {ds : List Nat} {v : ReeferUnit} {x : Reefer}
    (hentry : v.entry i = some (Reefer.judged p r i now x)) (hcont : x.container = r.container) (hplug : x.plug = r.plug)
    (hreason : x.reason = .none ↔ x.state ≠ .departed) (hstate : x.state = .departed ↔ r.power = .unplug)
    (hlist : relisted i (r.power = .unplug) ds v.departed) : seatedAs r i ds v := by
  obtain ⟨hc, hp, hr, hd⟩ := judged_sameSeat p r i now x
  exact ⟨_, hentry, hc.trans hcont, hp.trans hplug, by rwa [hr, Ne, hd], hd.trans hstate,
    hlist.nodup, hlist.others, hlist.here.trans (hd.trans hstate).symm⟩

theorem admitAt_new_seated (p : Setup) {r : ReeferReport} {i : Nat} (old : Option Reefer) {occ : Option (Nat × Reefer)}
    (now : Qt) {u : ReeferUnit} (hocc : r.power = .unplug → occ = none)
    (hn : (replaceOccupant r i now occ u).1.departed.Nodup)
    (hi : i ∉ (replaceOccupant r i now occ u).1.departed) :
    seatedAs r i (replaceOccupant r i now occ u).1.departed (admitAt p r i none old occ now u).1 := by
  by_cases hpow : r.power = .unplug
  · obtain rfl := hocc hpow
    obtain ⟨hentry, hdep, -⟩ := admitAt_new_unplug p r i old now u hpow
    exact seatedAs_judged hentry rfl rfl (by simp [admittedNew]) (by simp [admittedNew, hpow])
      (hdep ▸ relisted_append hn hi hpow)
  · obtain ⟨hentry, hdep, -⟩ := admitAt_new_powered p r i old occ now u hpow
    exact seatedAs_judged hentry rfl rfl (by simp [admittedNew]) (by simp [admittedNew, hpow])
      (hdep.symm ▸ relisted_self hn (iff_of_false hi hpow))

theorem admitAt_known_seated (p : Setup) {r : ReeferReport} {i : Nat} {x : Reefer} {occ : Option (Nat × Reefer)}
    (now : Qt) {u : ReeferUnit} (hocc : r.power = .unplug → occ = none) (hcont : x.container = r.container)
    (hn : (replaceOccupant r i now occ u).1.departed.Nodup)
    (hi : i ∈ (replaceOccupant r i now occ u).1.departed ↔ x.state = .departed) :
    seatedAs r i (replaceOccupant r i now occ u).1.departed (admitAt p r i (some x) none occ now u).1 := by
  by_cases hpow : r.power = .unplug
  · obtain rfl := hocc hpow
    obtain ⟨hentry, hdep, -⟩ := admitAt_known_unplug p r i x now u hpow
    refine seatedAs_judged hentry hcont rfl (by simp [admittedKnown]) (by simp [admittedKnown, hpow]) ?_
    rw [hdep]
    by_cases hx : x.state = .departed
    · rw [if_pos hx]
      exact relisted_self hn (iff_of_true (hi.mpr hx) hpow)
    · rw [if_neg hx]
      exact relisted_append hn (fun h => hx (hi.mp h)) hpow
  · obtain ⟨hentry, hdep, -⟩ := admitAt_known_powered p r i x occ now u hpow
    refine seatedAs_judged hentry hcont rfl (by simp [admittedKnown]) (by simp [admittedKnown, hpow]) ?_
    rw [hdep]
    by_cases hx : x.state = .departed
    · rw [if_pos hx]
      exact relisted_filter hn hpow
    · rw [if_neg hx]
      exact relisted_self hn (iff_of_false (fun h => hx (hi.mp h)) hpow)

/-- The report's entry put on an index ready for it makes the law whole. -/
theorem ReeferUnit.readyFor.seated {w v : ReeferUnit} {r : ReeferReport} {i : Nat} (hw : w.readyFor r i)
    (hi : i < Config.reeferCount) (hother : ∀ j, j ≠ i → v.entry j = w.entry j) (hv : seatedAs r i w.departed v) :
    v.lawfulOn fun _ => True := by
  obtain ⟨e, he, hcont, hplug, hreason, hstate, hlist⟩ := hv
  refine hw.lawful.changed (fun _ _ h => h) hother (fun e' he' => ?_)
    ⟨hlist.nodup, hlist.others, hlist.here.trans (by simp [he])⟩
  obtain rfl := Option.some.inj (he.symm.trans he')
  refine ⟨hi, hreason, fun j b _ hj hb => ⟨fun h => hw.unknown j b hj hb (h.symm.trans hcont), fun hs hsb h => ?_⟩⟩
  exact hw.unplugged (fun hp => hs (hstate.mpr hp)) j b hj hb hsb (h.symm.trans hplug)

/-- Where a container is placed: its own index, a new one, or nowhere at a full table (R76, R80, R81). -/
theorem placement_cases (u : ReeferUnit) (id : List Byte) :
    (∃ i, findContainer u id = some i) ∨
      findContainer u id = none ∧ ((∃ i ds, newIndex u i ds) ∨ placement u id = .refused) := by
  cases hid : findContainer u id with
  | some i => exact .inl ⟨i, rfl⟩
  | none =>
    refine .inr ⟨rfl, ?_⟩
    by_cases hfull : ∀ j, j < 2048 → u.entry j ≠ none
    · cases hds : u.departed with
      | nil => exact .inr ((placement_full hid hfull).2 hds)
      | cons i ds => exact .inl ⟨i, ds, .inr ⟨hfull, hds⟩⟩
    · push Not at hfull
      have hlow := fun j => Nat.find_min hfull (m := j)
      obtain ⟨hlt, hfree⟩ := Nat.find_spec hfull
      exact .inl ⟨Nat.find hfull, u.departed, .inl ⟨hlt, hfree, fun j hj hf => hlow j hj ⟨hj.trans hlt, hf⟩, rfl⟩⟩

/-- A new index lies in the table and, taken off the departed list, leaves the rest of it (R80). -/
theorem newIndex_lawful {u : ReeferUnit} (hu : u.lawfulOn fun _ => True) {i : Nat} {ds : List Nat}
    (hi : newIndex u i ds) : i < Config.reeferCount ∧ relisted i False u.departed ds := by
  rcases hi with ⟨hlt, hfree, -, rfl⟩ | ⟨-, hds⟩
  · exact ⟨hlt, relisted_self hu.nodup (by rw [hu.listed i trivial]; simp [hfree])⟩
  · obtain ⟨e, he, -⟩ := (hu.listed i trivial).mp (hds ▸ List.mem_cons_self ..)
    obtain ⟨hlt, -⟩ := hu.entries i e trivial he
    obtain ⟨hi, hn⟩ := List.nodup_cons.mp (hds ▸ hu.nodup)
    exact ⟨hlt, hn, fun j hj => by simp [hds, hj], iff_of_false hi id⟩

/-- An admission keeps the law: the occupant of the plug departs, then the report's entry is seated (R76). -/
theorem admitReport_lawful (p : Setup) (r : ReeferReport) (q : Qt) {s : State} (hwf : s.rfu.table.wf none = true)
    (hs : reeferLaw s) : (admitReport p r q s.rfu).1.lawfulOn fun _ => True := by
  have hu := (reeferLaw_iff s).mp hs
  rcases placement_cases s.rfu r.container with ⟨i, hfind⟩ | ⟨hid, ⟨i, ds, hnew⟩ | hfull⟩
  · obtain ⟨x, hx, hcont⟩ := findContainer_some hwf hfind
    obtain ⟨hlt, -⟩ := hu.entries i x trivial hx
    obtain ⟨hready, hmem⟩ := replaceOccupant_ready (v := s.rfu) hwf hu q
      (fun j hj => Option.some.inj (hj.symm.trans hfind)) (.inl hfind) (fun _ => rfl) hu.nodup fun _ _ => Iff.rfl
    rw [admitReport_known p r q s.rfu i (placement_known hfind), hx]
    dsimp only
    refine hready.seated hlt (fun j hj => admitAt_entry_other p r i _ _ _ q _ j hj)
      (admitAt_known_seated p q occupantOf_unplug hcont hready.lawful.nodup (hmem.trans ?_))
    simpa [hx] using hu.listed i trivial
  · obtain ⟨hlt, hn, hds, hout⟩ := newIndex_lawful hu hnew
    obtain ⟨hready, hmem⟩ := replaceOccupant_ready (v := { s.rfu with departed := ds }) hwf hu q
      (fun _ h => nomatch hid.symm.trans h) (.inr fun _ => newIndex_departed hs hnew) (fun _ => rfl) hn hds
    rw [admitReport_new hid hnew]
    dsimp only
    exact hready.seated hlt (fun j hj => admitAt_entry_other p r i _ _ _ q _ j hj)
      (admitAt_new_seated p (s.rfu.entry i) q occupantOf_unplug hready.lawful.nodup fun h => hout.mp (hmem.mp h))
  · rw [admitReport_refused p r q s.rfu hfull]
    exact hu

/-! ### The law -/

/-- Index i freed, its entry off the departed list (R84). -/
theorem forgetReefer_lawful {u : ReeferUnit} (hu : u.lawfulOn fun _ => True) (i : Nat) :
    (forgetReefer i u).lawfulOn fun _ => True := by
  have hfree : (forgetReefer i u).entry i = none := by rw [forgetReefer_entry, if_pos rfl]
  refine hu.changed (fun _ _ _ => trivial) (fun j hj => by rw [forgetReefer_entry, if_neg hj])
    (fun e he => nomatch hfree.symm.trans he) (relisted_filter hu.nodup ?_)
  rintro ⟨e, he, -⟩
  exact nomatch hfree.symm.trans he

/-- The reefer table at a completion: emptied, or every entry kept in its seat (R89, R90). -/
theorem reloadReefers_lawful (p : Setup) (keep : Bool) (now : Qt) {u : ReeferUnit} (hu : u.lawfulOn fun _ => True) :
    (reloadReefers p keep now u).lawfulOn fun _ => True := by
  cases keep with
  | false =>
    obtain ⟨hentry, hdep⟩ := reloadReefers_emptied p now u rfl
    exact .emptied hentry hdep
  | true =>
    refine hu.reseated rfl fun i => ?_
    rw [keepReefers_entry]
    cases u.entry i with
    | none => exact .none
    | some e => exact .some (keepReefer_sameSeat p now e)

/-- Only entries outside DEPARTED reach a limit of the silence scan (R106, R107). -/
theorem lossReached_not_departed {p : Setup} {now : Qt} {e : Reefer} (h : lossReached p now e = true) :
    e.state ≠ .departed := by
  intro hd
  simp [lossReached, hd] at h

theorem silenceReached_not_departed {p : Setup} {now : Qt} {e : Reefer} (h : silenceReached p now e = true) :
    e.state ≠ .departed := by
  intro hd
  simp [silenceReached, hd] at h

/-- Every change of the Reefer Unit keeps the law. -/
theorem ReeferChange.keeps_lawful {s : State} {u : ReeferUnit} (h : ReeferChange s u)
    (hwf : s.rfu.table.wf none = true) (hs : reeferLaw s) : u.lawfulOn fun _ => True := by
  have hu := (reeferLaw_iff s).mp hs
  cases h with
  | lost p i e hp he hl => exact hu.setEntry he ⟨rfl, rfl, rfl, iff_of_false nofun (lossReached_not_departed hl)⟩
  | excused p i e hp he hl => exact hu.setEntry he ⟨rfl, rfl, rfl, Iff.rfl⟩
  | silent p i e hp he hl => exact hu.setEntry he ⟨rfl, rfl, rfl, iff_of_false nofun (silenceReached_not_departed hl)⟩
  | admitted p r q => exact admitReport_lawful p r q hwf hs
  | scanned => exact ⟨hu.entries, hu.differ, hu.nodup, hu.listed⟩
  | acked i e he => exact hu.setEntry he ⟨rfl, rfl, rfl, Iff.rfl⟩
  | forgotten i e => exact forgetReefer_lawful hu i

/-- Every effect keeps the law on the reefer table, over canonical tables. -/
theorem Effect.keeps_reeferLaw {s t : State} (h : Effect s t) (hwf : s.rfu.table.wf none = true) (hs : reeferLaw s) :
    reeferLaw t := by
  have hu := (reeferLaw_iff s).mp hs
  cases h with
  | reefers u hu => exact (reeferLaw_iff _).mpr (hu.keeps_lawful hwf hs)
  | powerOn b => exact (reeferLaw_iff _).mpr (.emptied (fun _ => rfl) rfl)
  | reloaded p a b c l => exact (reeferLaw_iff _).mpr (reloadReefers_lawful p l.keep s.su.qt hu)
  | _ => exact hs

/-- Settles O56: every step is a sequence of effects, and each effect keeps the canonical tables and, over them, the law. -/
theorem reeferLawKept : Obligations.ReeferLawKept := by
  intro s t ht hs h
  have keeps : ∀ s t, Effect s t → tableLaw s ∧ reeferLaw s → tableLaw t ∧ reeferLaw t := by
    rintro s t he ⟨hts, hs⟩
    obtain ⟨-, -, -, hwf⟩ := id hts
    exact ⟨he.keeps_tableLaw hts, he.keeps_reeferLaw hwf hs⟩
  obtain ⟨-, hlaw⟩ := step_keeps keeps s t h ⟨ht, hs⟩
  exact hlaw

end Sys2Proof.Machine
end

