-- ==== Sys2Proof/Proofs/ReeferSilence.lean ====
section
/-! SUPPORT. The silence scan visits one by one: an entry at its loss or its silence limit, and a visit behind an
earlier one (R105 to R108). -/

namespace Sys2Proof.Machine

open Sys2Proof

/-! ### What a visit makes of the entry -/

/-- At the loss limit the visit makes the entry LOST (R106). -/
theorem visitReefer_lost {p : Setup} {i : Nat} {s : State} {e : Reefer} (he : s.rfu.entry i = some e)
    (h : lossReached p s.su.qt e = true) : visitReefer p i s = loseReefer i e s := by
  simp only [visitReefer, he, h, if_true]

/-- At the silence limit the visit excuses or declares the silence (R107). -/
theorem visitReefer_silent {p : Setup} {i : Nat} {s : State} {e : Reefer} (he : s.rfu.entry i = some e)
    (h : silenceReached p s.su.qt e = true) : visitReefer p i s = silenceReefer p i e s := by
  have hlost : lossReached p s.su.qt e = false := by
    simp only [silenceReached, Bool.and_eq_true, Bool.not_eq_true'] at h
    obtain ⟨⟨-, hlost⟩, -⟩ := h
    exact hlost
  simp only [visitReefer, he, hlost, h, Bool.false_eq_true, if_false, if_true]

/-- A visit changes no entry but the one visited. -/
theorem visitReefer_entry_other (p : Setup) {i j : Nat} (s : State) (h : i ≠ j) :
    (visitReefer p j s).rfu.entry i = s.rfu.entry i := by
  have hset : ∀ e, (s.rfu.setEntry j e).entry i = s.rfu.entry i := fun e => by
    rw [ReeferUnit.entry_setEntry, if_neg h]
  rcases visitReefer_cases p j s with hv | ⟨e, -, ⟨-, hv⟩ | ⟨-, -, hv⟩⟩ <;> rw [hv]
  · exact hset _
  · unfold silenceReefer
    dsimp only
    split <;> exact hset _

/-! ### The rows -/

/-- Index i's row with its condition: REEFER_LOST at the loss limit, REEFER_SILENT at the silence limit. -/
def limitRow (p : Setup) (now : Qt) (i : Fin 2048) (e : Reefer) (c : Instr) : Prop :=
  c = .reeferLost i ∧ lossReached p now e = true ∨ c = .reeferSilent i ∧ silenceReached p now e = true

/-- Either row with its condition takes the visits due up to its index (R105). -/
theorem exec_limitRow {s : State} {p : Setup} {i : Fin 2048} {e : Reefer} {c : Instr} (hp : s.su.setup = some p)
    (hr : s.su.runState = .running) (hi : i.val ∈ s.due.visits) (he : s.rfu.entry i = some e)
    (h : limitRow p s.su.qt i e c) : exec c s = .next (takeVisits p i s) := by
  rcases h with ⟨rfl, hl⟩ | ⟨rfl, hl⟩
  · have hrow : exec (.reeferLost i) s = execReeferLost i s := rfl
    simp only [hrow, execReeferLost, hp, he, hr, hi, hl, and_self, if_true]
  · have hrow : exec (.reeferSilent i) s = execReeferSilent i s := rfl
    simp only [hrow, execReeferSilent, hp, he, hr, hi, hl, and_self, if_true]

/-- Where the visit is due first, that visit alone is taken. -/
theorem exec_limitRow_first {s : State} {p : Setup} {i : Fin 2048} {is : List Nat} {e : Reefer} {c : Instr}
    (hp : s.su.setup = some p) (hr : s.su.runState = .running) (hi : s.due.visits = i.val :: is)
    (he : s.rfu.entry i = some e) (h : limitRow p s.su.qt i e c) :
    exec c s = .next ((visitReefer p i s).withDue { s.due with visits := is }) := by
  rw [exec_limitRow hp hr (hi ▸ List.mem_cons_self ..) he h, takeVisits_head p i is s hi]
  rfl

/-- The visits up to index i go on alike once the first of them, to another index, is taken. -/
theorem takeVisits_later (p : Setup) {i j : Nat} {is : List Nat} {s : State} (hj : s.due.visits = j :: is)
    (h : j ≠ i) :
    takeVisits p i s = takeVisits p i ((visitReefer p j s).withDue { s.due with visits := is }) := by
  simp only [takeVisits, hj, cutVisits_later i j is h, visitReefers, State.withDue_due, visitReefers_withDue]
  rfl

/-- A row behind an earlier visit comes to the same with that visit taken (R105). -/
theorem exec_limitRow_later {s : State} {p : Setup} {i j : Fin 2048} {is : List Nat} {e : Reefer} {c : Instr}
    (hp : s.su.setup = some p) (hr : s.su.runState = .running) (hj : s.due.visits = j.val :: is) (hij : i ≠ j)
    (hi : i.val ∈ is) (he : s.rfu.entry i = some e) (h : limitRow p s.su.qt i e c) :
    exec c s = exec c ((visitReefer p j s).withDue { s.due with visits := is }) := by
  have hne : i.val ≠ j.val := Fin.val_ne_of_ne hij
  have hsu : ((visitReefer p j s).withDue { s.due with visits := is }).su = s.su := visitReefer_su p j s
  have he' : ((visitReefer p j s).withDue { s.due with visits := is }).rfu.entry i = some e :=
    (visitReefer_entry_other p s hne).trans he
  rw [exec_limitRow hp hr (hj ▸ List.mem_cons_of_mem _ hi) he h, takeVisits_later p hj hne.symm]
  exact (exec_limitRow (hsu ▸ hp) (hsu ▸ hr) hi he' (hsu ▸ h)).symm

/-! ### The records -/

/-- The class and shadow bytes of REEFER_SILENT and SILENCE_EXCUSED (R107). -/
theorem recSilence_detail (excused : Bool) (i : Nat) (e : Reefer) (cls : Nat) (shadowed : Bool) (n ms : Nat) (qt : Qt) :
    (recSilence excused i e cls shadowed n ms qt).detail[7]? = some (BitVec.ofNat 8 cls) ∧
      (recSilence excused i e cls shadowed n ms qt).detail[8]? = some (if shadowed = true then 1 else 0) := by
  simp [recSilence, reeferRecord, mkRecord, padTo, packedBytes, lowByte, flag]

/-! ### The rows at a visit due first -/

/-- The state in which a visit has made index i `e`, with one record, and left the visits `is` due. -/
def State.visited (s : State) (i : Nat) (e : Reefer) (r : Record) (is : List Nat) : State :=
  ({ s with rfu := s.rfu.setEntry i (some e) }.report [r]).withDue { s.due with visits := is }

/-- A visit that finds something changes one entry, hands one record over and leaves the later visits due. -/
theorem State.visited_changes (s : State) (i : Nat) (e : Reefer) (r : Record) (is : List Nat) :
    s.visited i e r is = { s with
      rfu := { s.rfu with table := (s.visited i e r is).rfu.table }, rpu := s.rpu.handOver r,
      due := { s.due with visits := is } } := rfl

theorem State.visited_entry (s : State) (i j : Nat) (e : Reefer) (r : Record) (is : List Nat) :
    (s.visited i e r is).rfu.entry j = if j = i then some e else s.rfu.entry j := ReeferUnit.entry_setEntry ..

/-- Silence at the limit: an excusal more, or SILENT, with the record of either (R107, R108). -/
theorem silenceReefer_visited (p : Setup) (i : Nat) (e : Reefer) (s : State) (is : List Nat) :
    ∃ y r, (silenceReefer p i e s).withDue { s.due with visits := is } = s.visited i y r is ∧
      r.origin = .rfu ∧ r.object = BitVec.ofNat 16 i ∧ r.qt = s.su.qt ∧
      r.detail[7]? = some (BitVec.ofNat 8 (s.cvu.segment e.segment).declared.code) ∧
      r.detail[8]? = some (if shadowedNow s p e.segment none = true then 1 else 0) ∧
      (if e.excusals < (classEntry p e.cls).stretchMax ∧
          ((s.cvu.segment e.segment).declared = .hole ∨ shadowedNow s p e.segment none = true) then
        y = { e with excusals := e.excusals + 1 } ∧ r.code = 0x2E
      else y = { e with state := .silent } ∧ r.code = 0x2C) := by
  by_cases h : e.excusals < (classEntry p e.cls).stretchMax ∧
      ((s.cvu.segment e.segment).declared = .hole ∨ shadowedNow s p e.segment none = true)
  · obtain ⟨hclass, hshadow⟩ := recSilence_detail true i e (s.cvu.segment e.segment).declared.code
      (shadowedNow s p e.segment none) (e.excusals + 1) (elapsed s.su.qt e.lastReport) s.su.qt
    refine ⟨_, _, congrArg (State.withDue · _) (if_pos h), rfl, rfl, rfl, hclass, hshadow, ?_⟩
    rw [if_pos h]
    exact ⟨rfl, rfl⟩
  · obtain ⟨hclass, hshadow⟩ := recSilence_detail false i e (s.cvu.segment e.segment).declared.code
      (shadowedNow s p e.segment none) e.excusals (elapsed s.su.qt e.lastReport) s.su.qt
    refine ⟨_, _, congrArg (State.withDue · _) (if_neg h), rfl, rfl, rfl, hclass, hshadow, ?_⟩
    rw [if_neg h]
    exact ⟨rfl, rfl⟩

theorem lossReached_of {p : Setup} {now : Qt} {e : Reefer} (hstate : e.state = .tracked ∨ e.state = .silent)
    (hlimit : (classEntry p e.cls).lossMin * 60000 ≤ elapsed now e.lastReport) : lossReached p now e = true := by
  simp [lossReached, minutesMs, hstate, hlimit]

theorem silenceReached_of {p : Setup} {now : Qt} {e : Reefer} (hstate : e.state = .tracked)
    (hloss : elapsed now e.lastReport < (classEntry p e.cls).lossMin * 60000)
    (hlimit : (classEntry p e.cls).silenceMin * 60000 * (1 + e.excusals) ≤ elapsed now e.lastReport) :
    silenceReached p now e = true := by
  have hlost : lossReached p now e = false := by
    rw [lossReached, minutesMs, decide_eq_false (Nat.not_le.mpr hloss), Bool.and_false]
  simp [silenceReached, minutesMs, hstate, hlost, hlimit]

/-- Settles O7: a row takes the visit due first, which acts on its entry alone, so that a later entry is visited as it
stood. -/
theorem reeferSilenceVisits : Obligations.ReeferSilenceVisits := by
  refine ⟨fun s p i is e hp hr hi he hstate hlimit => ?_, fun s p i is e hp hr hi he hstate hloss hlimit => ?_,
    fun s p i j is e c hp hr hj hij hi he hc => ⟨fun x u hx => ⟨fun hl hu => ?_, fun hl hu => ?_⟩, fun hnone => ?_⟩⟩
  · have hl := lossReached_of hstate hlimit
    refine ⟨s.visited i { e with state := .lost } (recReeferLost i e (elapsed s.su.qt e.lastReport) s.su.qt) is, _, ?_,
      s.visited_changes .., ?_, fun j hj => ?_, rfl, rfl, rfl, rfl⟩
    · rw [exec_limitRow_first hp hr hi he (.inl ⟨rfl, hl⟩), visitReefer_lost he hl]
      rfl
    · exact (s.visited_entry ..).trans (if_pos rfl)
    · exact (s.visited_entry ..).trans (if_neg hj)
  · have hl := silenceReached_of hstate hloss hlimit
    obtain ⟨y, r, hvisit, horigin, hobject, hqt, hclass, hshadow, hoc⟩ := silenceReefer_visited p i e s is
    have hentry : (s.visited i y r is).rfu.entry i = some y := (s.visited_entry ..).trans (if_pos rfl)
    refine ⟨s.visited i y r is, r, ?_, s.visited_changes .., fun j hj => (s.visited_entry ..).trans (if_neg hj),
      horigin, hobject, hqt, hclass, hshadow, ?_⟩
    · rw [exec_limitRow_first hp hr hi he (.inr ⟨rfl, hl⟩), visitReefer_silent he hl, hvisit]
    · simpa only [hentry, Option.some.injEq] using hoc
  · rw [exec_firstVisit hp hr hj hx (.inl ⟨hl, hu⟩)]
    exact exec_limitRow_later hp hr hj hij hi he hc
  · rw [exec_firstVisit hp hr hj hx (.inr ⟨hl, hu⟩)]
    exact exec_limitRow_later hp hr hj hij hi he hc
  · rw [exec_limitRow_later hp hr hj hij hi he hc, visitReefer_nothing hnone]
    rfl

end Sys2Proof.Machine
end

