-- ==== Sys2Proof/Proofs/ReeferBand.lean ====
section
/-! SUPPORT. The band comparison of a reefer report: the compared value, its area, and what each area makes of the entry
(R96 to R101). -/

namespace Sys2Proof.Machine

open Sys2Proof

/-! ### The compared value and its area -/

/-- The compared value is the supply temperature, or the return temperature where there is no supply (R96). -/
theorem comparedValue_of {e : Reefer} {v : Int} (h : e.supply = some v ∨ (e.supply = none ∧ e.ret = some v)) :
    ∃ fromReturn, comparedValue e = some (v, fromReturn) := by
  rcases h with hs | ⟨hs, hr⟩
  · exact ⟨false, by simp only [comparedValue, hs]⟩
  · exact ⟨true, by simp only [comparedValue, hs, hr]⟩

theorem comparedValue_absent {e : Reefer} (hs : e.supply = none) (hr : e.ret = none) : comparedValue e = none := by
  simp only [comparedValue, hs, hr]

/-- The area is NORMAL in the closed band (R97). -/
theorem areaOf_normal {k : ReeferClass} {sp v : Int} (hlow : sp - k.bandLow ≤ v) (hhigh : v ≤ sp + k.bandHigh) :
    areaOf k sp v = .normal := by
  rw [areaOf, if_neg (by omega), if_neg (by omega)]

/-- Outside the band the area is the side the value lies on (R97). -/
theorem areaOf_outside {k : ReeferClass} {sp v : Int} {a : Area}
    (h : a = .low ∧ v < sp - k.bandLow ∨ a = .high ∧ sp + k.bandHigh < v) : areaOf k sp v = a := by
  rcases h with ⟨rfl, hv⟩ | ⟨rfl, hv⟩
  · exact if_pos hv
  · rw [areaOf, if_neg (by omega), if_pos hv]

/-! ### What the area makes of the entry -/

/-- An area outside NORMAL counts on from its own count, to 15, or from 1 (R98). -/
theorem countArea_eq (a : Area) (e : Reefer) : countArea a e =
    { e with excCount := if a = e.countArea then min 15 (e.excCount + 1) else 1, countArea := a } := by
  unfold countArea
  split
  · rename_i h
    rw [← h]
  · rfl

/-- A NORMAL area ends the count and the excursion, with EXCURSION_CLEAR where there was one (R100). -/
theorem takeNormal_eq (i : Nat) (v : Int) (fromReturn : Bool) (now : Qt) (e : Reefer) :
    (takeNormal i v fromReturn now e).1 = { e with excCount := 0, countArea := .normal, excursion := .normal } ∧
      (takeNormal i v fromReturn now e).2.map Record.code = if e.excursion = .normal then [] else [0x2A] := by
  unfold takeNormal
  by_cases h : e.excursion = .normal
  · rw [if_pos h, if_pos h, ← h]
    exact ⟨rfl, rfl⟩
  · rw [if_neg h, if_neg h]
    exact ⟨rfl, rfl⟩

/-- The area counted EXC_COUNT times becomes the excursion state and joins the latch, with its record, unless it stood
(R99). -/
theorem enterExcursion_eq (k : ReeferClass) (i : Nat) (v : Int) (fromReturn : Bool) (now : Qt) (e : Reefer) :
    if k.excCount ≤ e.excCount ∧ e.excursion ≠ e.countArea then
      (enterExcursion k i v fromReturn now e).1 = { e with
        excursion := e.countArea, latchHigh := e.latchHigh || decide (e.countArea = .high),
        latchLow := e.latchLow || decide (e.countArea = .low) } ∧
      (enterExcursion k i v fromReturn now e).2.map Record.code = [if e.countArea = .low then 0x29 else 0x28]
    else enterExcursion k i v fromReturn now e = (e, []) := by
  unfold enterExcursion
  split
  · refine ⟨rfl, ?_⟩
    by_cases h : e.countArea = .low <;> simp [h, recExcursion, reeferRecord, mkRecord]
  · rfl

/-! ### The comparison -/

/-- Under another power state there is no comparison (R97). -/
theorem compareBand_unpowered (k : ReeferClass) (i : Nat) (now : Qt) {e : Reefer} (h : e.power ≠ .on) :
    compareBand k i now e = (e, []) := if_pos h

/-- Without a compared value the sensor is absent (R101). -/
theorem compareBand_absent (k : ReeferClass) (i : Nat) (now : Qt) {e : Reefer} (hp : e.power = .on)
    (h : comparedValue e = none) : compareBand k i now e = ({ e with sensorAbsent := true }, []) := by
  rw [compareBand, if_neg (not_not_intro hp), h]

theorem compareBand_normal (k : ReeferClass) (i : Nat) (now : Qt) {e : Reefer} {v : Int} {b : Bool} (hp : e.power = .on)
    (h : comparedValue e = some (v, b)) (ha : areaOf k e.setpoint v = .normal) :
    compareBand k i now e = takeNormal i v b now { e with sensorAbsent := false } := by
  rw [compareBand, if_neg (not_not_intro hp), h]
  dsimp only
  rw [ha]

theorem compareBand_outside (k : ReeferClass) (i : Nat) (now : Qt) {e : Reefer} {v : Int} {b : Bool}
    (hp : e.power = .on) (h : comparedValue e = some (v, b)) (ha : areaOf k e.setpoint v ≠ .normal) :
    compareBand k i now e =
      enterExcursion k i v b now (countArea (areaOf k e.setpoint v) { e with sensorAbsent := false }) := by
  rw [compareBand, if_neg (not_not_intro hp), h]
  dsimp only
  split
  · rename_i hn
    exact absurd hn ha
  · rfl

/-- Settles O20: the value compared lies in one area, and that area's rule is taken. -/
theorem bandComparison : Obligations.BandComparison := by
  refine fun k i now e => ⟨fun hp => compareBand_unpowered k i now hp,
    fun hp hs hr => compareBand_absent k i now hp (comparedValue_absent hs hr), fun v hp hv => ?_⟩
  obtain ⟨b, hb⟩ := comparedValue_of hv
  refine ⟨fun hlow hhigh => ?_, fun a ha => ?_⟩
  · rw [compareBand_normal k i now hp hb (areaOf_normal hlow hhigh)]
    exact takeNormal_eq i v b now { e with sensorAbsent := false }
  · have harea := areaOf_outside ha
    have hne : areaOf k e.setpoint v ≠ .normal := by
      rcases ha with ⟨rfl, -⟩ | ⟨rfl, -⟩ <;> simp [harea]
    rw [compareBand_outside k i now hp hb hne, harea]
    have h := enterExcursion_eq k i v b now (countArea a { e with sensorAbsent := false })
    rw [countArea_eq] at h ⊢
    exact h

end Sys2Proof.Machine
end

