-- ==== Sys2Proof/Proofs/Observations.lean ====
section
/-! SUPPORT. One observation (R117 to R125): the averaging step, the thresholds and the candidate, and the three things
that an observation can make of its segment. -/

namespace Sys2Proof.Machine

open Sys2Proof

/-! ### The averaging step (R121) -/

theorem weightStep_bounds (k : Nat) (diff : Int) :
    2 ^ k * weightStep k diff ≤ diff + 2 ^ (k - 1) ∧ diff + 2 ^ (k - 1) < 2 ^ k * (weightStep k diff + 1) := by
  have hk : (0 : Int) < 2 ^ k := by positivity
  refine ⟨Int.mul_ediv_self_le (Int.ne_of_gt hk), ?_⟩
  rw [Int.mul_add, Int.mul_one]
  exact Int.lt_mul_ediv_self_add hk

/-- The step is never past the difference: half of 2^k is short of one whole step (R121). -/
theorem weightStep_toward {k : Nat} (hk : 1 ≤ k) (diff : Int) :
    (0 ≤ diff → 0 ≤ weightStep k diff ∧ weightStep k diff ≤ diff) ∧
      (diff ≤ 0 → diff ≤ weightStep k diff ∧ weightStep k diff ≤ 0) := by
  obtain ⟨hlow, hhigh⟩ := weightStep_bounds k diff
  obtain ⟨n, rfl⟩ : ∃ n, k = n + 1 := ⟨k - 1, by omega⟩
  have hhalf : (1 : Int) ≤ 2 ^ n := one_le_pow₀ (by decide)
  rw [Nat.add_sub_cancel, pow_succ] at hlow hhigh
  generalize weightStep (n + 1) diff = w at *
  generalize (2 : Int) ^ n = half at *
  exact ⟨fun hd => ⟨by nlinarith, by nlinarith⟩, fun hd => ⟨by nlinarith, by nlinarith⟩⟩

/-- An average lies between what it was and the level it took (R121). -/
theorem average_between {k : Nat} (hk : 1 ≤ k) (v l16 : Int) : ∃ w, average k (some v) l16 = some w ∧
    (v ≤ l16 → v ≤ w ∧ w ≤ l16) ∧ (l16 ≤ v → l16 ≤ w ∧ w ≤ v) := by
  obtain ⟨hup, hdown⟩ := weightStep_toward hk (l16 - v)
  refine ⟨_, rfl, fun h => ?_, fun h => ?_⟩
  · have := hup (by omega)
    omega
  · have := hdown (by omega)
    omega

theorem average_ne_none (k : Nat) (a : Option Int) (l16 : Int) : average k a l16 ≠ none := by
  cases a <;> exact Option.some_ne_none _

/-! ### The candidate (R123, R124) -/

theorem thresholds_of {p : Setup} {seg : Nat} {g h : Int} (hgh : gAndH p seg g h) : thresholds p seg = (g, h) := by
  unfold gAndH at hgh
  unfold thresholds
  cases hm : p.classMode <;> cases hb : baselineOf p seg <;> rw [hm, hb] at hgh <;> obtain ⟨rfl, rfl⟩ := hgh <;> rfl

theorem candidate_eq (hyst : Nat) (declared : SegClass) (v g h : Int) : candidate hyst declared v g h =
    if declared = .hole ∧ v < h + hyst then .hole
    else if declared = .good ∧ g - hyst ≤ v then .good
    else if g ≤ v then .good else if v < h then .hole else .marginal := by
  cases declared <;> simp [candidate, plainClass]

theorem weakerAverage_of_le {g : Segment} {v : Int}
    (h : g.ul = some v ∧ (∀ u, g.dl = some u → v ≤ u) ∨ g.dl = some v ∧ (∀ u, g.ul = some u → v ≤ u)) :
    weakerAverage g = some v := by
  unfold weakerAverage
  rcases h with ⟨hv, hle⟩ | ⟨hv, hle⟩ <;> rw [hv]
  · cases hd : g.dl with
    | none => rfl
    | some u => exact congrArg some (min_eq_left (hle u hd))
  · cases hu : g.ul with
    | none => rfl
    | some u => exact congrArg some (min_eq_right (hle u hu))

/-- A class appended makes CLASS_CHANGE where the declared class changes, and no other record (R125). -/
theorem appendClass_codes (p : Setup) (seg : Nat) (g : Segment) (c : SegClass) (v : Option Int) (now : Qt) :
    (appendClass p seg g c v now).2.map Record.code =
      if (appendClass p seg g c v now).1.declared = g.declared then [] else [0x30] := by
  obtain ⟨hseg, hlen, hnil⟩ := appendClass_taken p seg g c v now
  have hcode := appendClass_records p seg g c v now
  rw [hseg]
  generalize (appendClass p seg g c v now).2 = rs at *
  split
  · rename_i h
    rw [hnil.mpr h]
    rfl
  · rename_i h
    match rs, hlen, hnil, hcode with
    | [], _, hnil, _ => exact absurd (hnil.mp rfl) h
    | [r], _, _, hcode => exact congrArg (fun b => [b]) (hcode r (List.mem_singleton_self r)).2

/-! ### What an observation makes of its segment (R117, R119, R120) -/

/-- The level lies in the acceptance window of a setup (R117). -/
def Setup.accepts (p : Setup) (level : Int) : Prop := p.coverage.accLow ≤ level ∧ level ≤ p.coverage.accHigh

/-- A segment with an unshadowed observation stored in the average it feeds and counted, not yet judged (R120). -/
def Segment.fed (p : Setup) (dir : Direction) (l16 : Int) (now : Qt) (g : Segment) : Segment :=
  { g with
    ul := if dir = .ul then average p.coverage.weightShift g.ul l16 else g.ul
    dl := if dir = .dl then average p.coverage.weightShift g.dl l16 else g.dl
    lastUnshadowed := now, unshadowed := satInc g.unshadowed }

theorem Segment.fed_filled (p : Setup) (dir : Direction) (l16 : Int) (now : Qt) (g : Segment) :
    ¬ ((g.fed p dir l16 now).ul = none ∧ (g.fed p dir l16 now).dl = none) := by
  rintro ⟨hul, hdl⟩
  cases dir with
  | ul => exact average_ne_none _ _ _ hul
  | dl => exact average_ne_none _ _ _ hdl

/-- The average fed is judged, and its candidate appended (R120, R124). -/
theorem storeUnshadowed_eq (p : Setup) (seg : Nat) (dir : Direction) (l16 : Int) (now : Qt) (g : Segment) :
    ∃ v, weakerAverage (g.fed p dir l16 now) = some v ∧ storeUnshadowed p seg dir l16 now g =
      appendClass p seg (g.fed p dir l16 now)
        (candidate p.coverage.hyst16 g.declared v (thresholds p seg).1 (thresholds p seg).2) (some v) now := by
  obtain ⟨v, hv⟩ := Option.isSome_iff_exists.mp ((weakerAverage_isSome _).mpr (Segment.fed_filled p dir l16 now g))
  refine ⟨v, hv, ?_⟩
  unfold Segment.fed at hv ⊢
  cases dir <;> simp_all only [storeUnshadowed, if_true, if_false, reduceCtorEq]

section Observation

variable (p : Setup) (seg : Nat) (dir : Direction) (now : Qt) (g : Segment)

theorem observeSegment_refused (shadow : Bool) {level : Int}
    (h : level < p.coverage.accLow ∨ p.coverage.accHigh < level) :
    observeSegment p shadow seg dir level now g = ({ g with rejected := satInc g.rejected }, []) := if_pos h

theorem observeSegment_shadowed {level : Int} (h : p.accepts level) :
    observeSegment p true seg dir level now g = (storeShadowed p (16 * level) now g, []) := by
  obtain ⟨hlow, hhigh⟩ := h
  rw [observeSegment, if_neg (by omega), if_pos rfl]

theorem observeSegment_unshadowed {level : Int} (h : p.accepts level) :
    observeSegment p false seg dir level now g = storeUnshadowed p seg dir (16 * level) now g := by
  obtain ⟨hlow, hhigh⟩ := h
  rw [observeSegment, if_neg (by omega), if_neg Bool.false_ne_true]

/-- An unshadowed observation: stored and counted, its candidate in the history, and the class the history declares. -/
theorem observeSegment_judged {level : Int} (h : p.accepts level) :
    (observeSegment p false seg dir level now g).1 = { g.fed p dir (16 * level) now with
        history := (observeSegment p false seg dir level now g).1.history
        declared := (observeSegment p false seg dir level now g).1.declared } ∧
      (∀ v, weakerAverage (g.fed p dir (16 * level) now) = some v →
        (observeSegment p false seg dir level now g).1.history = appended g.history
          (candidate p.coverage.hyst16 g.declared v (thresholds p seg).1 (thresholds p seg).2)) ∧
      declares (observeSegment p false seg dir level now g).1.history g.declared
        (observeSegment p false seg dir level now g).1.declared ∧
      (observeSegment p false seg dir level now g).2.map Record.code =
        if (observeSegment p false seg dir level now g).1.declared = g.declared then [] else [0x30] := by
  obtain ⟨v, hv, heq⟩ := storeUnshadowed_eq p seg dir (16 * level) now g
  rw [observeSegment_unshadowed p seg dir now g h, heq, appendClass_codes, (appendClass_taken ..).1]
  refine ⟨rfl, fun w hw => ?_, majority_declares (appended_length ..) g.declared, rfl⟩
  rw [Option.some.inj (hw.symm.trans hv)]
  rfl

end Observation

/-- Settles O21: the observation by its level and its shadow, and the averaging step by the bounds of its rounding. -/
theorem observationStored : Obligations.ObservationStored := by
  refine ⟨fun p seg dir level now g shadow => ⟨fun h => ?_, fun hlow hhigh hs => ?_, fun hlow hhigh hs => ?_⟩,
    fun k a l16 hk => ⟨fun ha => ?_, fun v ha => ?_⟩⟩
  · rw [observeSegment_refused p seg dir now g shadow h]
    exact ⟨rfl, rfl⟩
  · subst hs
    rw [observeSegment_shadowed p seg dir now g ⟨hlow, hhigh⟩]
    exact ⟨rfl, rfl⟩
  · subst hs
    obtain ⟨hseg, hhistory, hdeclared, hcodes⟩ := observeSegment_judged p seg dir now g ⟨hlow, hhigh⟩
    refine ⟨hseg, fun v gg h hgh hv => ?_, hdeclared, hcodes⟩
    rw [hseg] at hv
    have hweaker := hhistory v (weakerAverage_of_le hv)
    rwa [thresholds_of hgh, candidate_eq] at hweaker
  · subst ha
    rfl
  · subst ha
    obtain ⟨w, hw, hbetween⟩ := average_between hk v l16
    obtain ⟨hlow, hhigh⟩ := weightStep_bounds k (l16 - v)
    obtain rfl : v + weightStep k (l16 - v) = w := Option.some.inj hw
    refine ⟨_, hw, ?_, ?_, hbetween⟩ <;> rwa [add_sub_cancel_left]

end Sys2Proof.Machine
end

