-- ==== Sys2Proof/Proofs/CoverageLaws.lean ====
section
/-! SUPPORT. What a single effect does to the segments of the map, said once; and that every single effect keeps the law
on empty segments and the law on averages (R122, R126). -/

namespace Sys2Proof.Machine

open Sys2Proof

/-! ### What an effect does to the segments -/

/-- A change of the Coverage Unit leaves a segment, empties it, or makes a change of it. -/
theorem CoverageChange.segment_cases {s : State} {u : CoverageUnit} (h : CoverageChange s u) (m : Nat) :
    u.segment m = s.cvu.segment m ∨ u.segment m = Segment.blank ∨ SegmentChange s m (u.segment m) := by
  cases h with
  | segment g x hx =>
    rw [CoverageUnit.segment_setSegment]
    split
    · rename_i hm
      exact .inr (.inr (hm ▸ hx))
    · exact .inl rfl
  | cleared p arg =>
    rw [clearSegments_segment]
    split
    · exact .inr (.inl rfl)
    · exact .inl rfl
  | _ => exact .inl rfl

/-- What an effect does to the segments: under the same setup each is left, emptied or changed; without a setup each is
left or emptied; or under a new setup each is brought under it or emptied (R140, R141). -/
inductive SegmentsChange (s t : State) : Prop
  | changed (hp : t.su.setup = s.su.setup)
      (h : ∀ m, t.cvu.segment m = s.cvu.segment m ∨ t.cvu.segment m = Segment.blank ∨
        SegmentChange s m (t.cvu.segment m))
  | noSetup (hp : t.su.setup = none)
      (h : ∀ m, t.cvu.segment m = s.cvu.segment m ∨ t.cvu.segment m = Segment.blank)
  | reloaded (p : Setup) (hp : t.su.setup = some p)
      (h : ∀ m, t.cvu.segment m = keepSegment p m (s.cvu.segment m) ∨ t.cvu.segment m = Segment.blank)

/-- The map at a completion: kept under the new setup, or emptied (R140, R141). -/
theorem reloadCoverage_segment (p : Setup) (keep : Bool) (u : CoverageUnit) :
    (∀ m, (reloadCoverage p keep u).segment m = keepSegment p m (u.segment m)) ∨
      ∀ m, (reloadCoverage p keep u).segment m = Segment.blank := by
  by_cases h : keep = true ∧ u.geometry = some ⟨p.coverage.segCount, p.coverage.segLenCm⟩
  · exact .inl (reloadCoverage_kept p keep u h).2
  · obtain ⟨-, -, -, -, hblank⟩ := reloadCoverage_emptied p keep u h
    exact .inr hblank

theorem Effect.segments {s t : State} (h : Effect s t) : SegmentsChange s t := by
  cases h with
  | coverage u hu => exact .changed rfl hu.segment_cases
  | powerOn b => exact .noSetup rfl fun _ => .inr rfl
  | passOnly code => exact .noSetup rfl fun _ => .inl rfl
  | reloaded p a b c l =>
    refine .reloaded p rfl fun m => ?_
    rcases reloadCoverage_segment p l.keep s.cvu with hk | he
    · exact .inl (hk m)
    · exact .inr (he m)
  | _ => exact .changed rfl fun _ => .inl rfl

/-! ### The steps on one segment -/

/-- The aging of the UL and DL averages empties both with the history, the class and DRIFT, or leaves the segment
(R130). -/
theorem ageSegment_cases (p : Setup) (seg : Nat) (now : Qt) (g : Segment) :
    (ageSegment p seg now g).1 = { g with ul := none, dl := none, history := [], declared := .unknown, drift := false } ∨
      (ageSegment p seg now g).1 = g := by
  unfold ageSegment
  split
  · exact .inl rfl
  · exact .inr rfl

/-- The aging of the shadow average empties it, or leaves the segment (R131). -/
theorem ageShadow_cases (p : Setup) (now : Qt) (g : Segment) :
    ageShadow p now g = { g with shadow := none } ∨ ageShadow p now g = g := by
  unfold ageShadow
  split
  · exact .inl rfl
  · exact .inr rfl

/-- The drift test changes DRIFT alone (R132). -/
theorem driftTest_frame (p : Setup) (seg : Nat) (now : Qt) (g : Segment) :
    (driftTest p seg now g).1 = { g with drift := (driftTest p seg now g).1.drift } := by
  unfold driftTest
  split
  · split
    · rfl
    · split <;> rfl
  · rfl

/-! ### The law on empty segments (R126) -/

/-- R126 of one segment. -/
def Segment.classOk (g : Segment) : Prop := g.ul = none → g.dl = none → g.declared = .unknown

theorem Segment.classOk_of_filled {g : Segment} (h : ¬ (g.ul = none ∧ g.dl = none)) : g.classOk :=
  fun hul hdl => absurd ⟨hul, hdl⟩ h

theorem clampAverage_eq_none {p : Setup} {a : Option Int} (h : clampAverage p a = none) : a = none :=
  Option.map_eq_none_iff.mp h

theorem keepSegment_classOk (p : Setup) (n : Nat) {g : Segment} (h : g.classOk) : (keepSegment p n g).classOk :=
  fun hul hdl => h (clampAverage_eq_none hul) (clampAverage_eq_none hdl)

/-- What is stored unshadowed fills an average; what is refused or shadowed leaves both and the class (R117 to R120). -/
theorem observeSegment_classOk (p : Setup) (shadow : Bool) (seg : Nat) (dir : Direction) (level : Int) (now : Qt)
    {g : Segment} (h : g.classOk) : (observeSegment p shadow seg dir level now g).1.classOk := by
  by_cases hl : p.accepts level
  · cases shadow with
    | true =>
      rw [observeSegment_shadowed p seg dir now g hl]
      exact h
    | false =>
      obtain ⟨heq, -⟩ := observeSegment_judged p seg dir now g hl
      refine Segment.classOk_of_filled ?_
      rw [heq]
      exact Segment.fed_filled p dir (16 * level) now g
  · rw [observeSegment_refused p seg dir now g shadow (by unfold Setup.accepts at hl; omega)]
    exact h

/-- A vote declares a class where an average is filled alone (R127). -/
theorem voteSegment_classOk (p : Setup) (seg : Nat) (now : Qt) {g : Segment} (h : g.classOk) :
    (voteSegment p seg now g).1.classOk := by
  obtain ⟨hv, -⟩ := voteSegment_taken p seg now g
  unfold votedFrom at hv
  split at hv
  · rw [hv]
    exact h
  · rename_i hfilled
    obtain ⟨heq, -⟩ := hv
    refine Segment.classOk_of_filled ?_
    rw [heq]
    exact hfilled

theorem SegmentChange.keeps_classOk {s : State} {m : Nat} {x : Segment} (h : SegmentChange s m x)
    (hs : (s.cvu.segment m).classOk) : x.classOk := by
  cases h with
  | observed p shadow dir level now => exact observeSegment_classOk p shadow m dir level now hs
  | voted p n y => exact voteSegment_classOk p m s.su.qt hs
  | aged p =>
    rcases ageSegment_cases p m s.su.qt (s.cvu.segment m) with hx | hx <;> rw [hx]
    · exact fun _ _ => rfl
    · exact hs
  | shadowAged p =>
    rcases ageShadow_cases p s.su.qt (s.cvu.segment m) with hx | hx <;> rw [hx] <;> exact hs
  | driftTested p =>
    rw [driftTest_frame]
    exact hs

/-- Every effect keeps the law on empty segments. -/
theorem Effect.keeps_emptySegmentLaw {s t : State} (h : Effect s t) (hs : emptySegmentLaw s) : emptySegmentLaw t := by
  have blank : Segment.blank.classOk := fun _ _ => rfl
  suffices hall : ∀ m, (t.cvu.segment m).classOk from hall
  intro m
  cases h.segments with
  | changed hp hm =>
    rcases hm m with heq | heq | hx
    · exact heq ▸ hs m
    · exact heq ▸ blank
    · exact hx.keeps_classOk (hs m)
  | noSetup hp hm =>
    rcases hm m with heq | heq
    · exact heq ▸ hs m
    · exact heq ▸ blank
  | reloaded p hp hm =>
    rcases hm m with heq | heq
    · exact heq ▸ keepSegment_classOk p m (hs m)
    · exact heq ▸ blank

/-- Settles O54: every segment is blank at reset, and each effect keeps the law. -/
theorem emptySegmentLawKept : Obligations.EmptySegmentLawKept :=
  ⟨fun _ _ _ => rfl, fun s t hs h => step_keeps (fun _ _ => Effect.keeps_emptySegmentLaw) s t h hs⟩

/-! ### The law on averages (R122) -/

/-- Every average of a segment lies in the acceptance window of a setup. -/
structure Segment.within (p : Setup) (g : Segment) : Prop where
  ul : averageOk p g.ul
  dl : averageOk p g.dl
  shadow : averageOk p g.shadow

theorem averageOk_none (p : Setup) : averageOk p none := nofun

theorem Segment.within_blank (p : Setup) : Segment.blank.within p := ⟨nofun, nofun, nofun⟩

/-- An average stays in the window as it takes a level of the window (R121, R122). -/
theorem averageOk_average {p : Setup} (hp : p.windowOk) {a : Option Int} {level : Int} (hl : p.accepts level)
    (ha : averageOk p a) : averageOk p (average p.coverage.weightShift a (16 * level)) := by
  obtain ⟨hlow, hhigh⟩ := hl
  obtain ⟨-, hshift⟩ := hp
  intro w hw
  cases a with
  | none =>
    obtain rfl := Option.some.inj hw
    omega
  | some v =>
    obtain ⟨x, hx, hup, hdown⟩ := average_between hshift v (16 * level)
    obtain rfl := Option.some.inj (hx.symm.trans hw)
    have hv := ha v rfl
    omega

theorem averageOk_clampAverage {p : Setup} (hp : p.windowOk) (a : Option Int) : averageOk p (clampAverage p a) := by
  intro w hw
  obtain ⟨v, -, rfl⟩ := Option.map_eq_some_iff.mp hw
  obtain ⟨hlt, -⟩ := hp
  omega

theorem keepSegment_within {p : Setup} (hp : p.windowOk) (n : Nat) (g : Segment) : (keepSegment p n g).within p :=
  ⟨averageOk_clampAverage hp g.ul, averageOk_clampAverage hp g.dl, averageOk_clampAverage hp g.shadow⟩

theorem Segment.fed_within {p : Setup} (hp : p.windowOk) (dir : Direction) {level : Int} (hl : p.accepts level) (now : Qt)
    {g : Segment} (h : g.within p) : (g.fed p dir (16 * level) now).within p := by
  obtain ⟨hul, hdl, hshadow⟩ := h
  cases dir with
  | ul => exact ⟨averageOk_average hp hl hul, hdl, hshadow⟩
  | dl => exact ⟨hul, averageOk_average hp hl hdl, hshadow⟩

theorem observeSegment_within {p : Setup} (hp : p.windowOk) (shadow : Bool) (seg : Nat) (dir : Direction) (level : Int)
    (now : Qt) {g : Segment} (h : g.within p) : (observeSegment p shadow seg dir level now g).1.within p := by
  by_cases hl : p.accepts level
  · cases shadow with
    | true =>
      rw [observeSegment_shadowed p seg dir now g hl]
      exact ⟨h.ul, h.dl, averageOk_average hp hl h.shadow⟩
    | false =>
      obtain ⟨hul, hdl, hshadow⟩ := Segment.fed_within hp dir hl now h
      obtain ⟨heq, -⟩ := observeSegment_judged p seg dir now g hl
      rw [heq]
      exact ⟨hul, hdl, hshadow⟩
  · rw [observeSegment_refused p seg dir now g shadow (by unfold Setup.accepts at hl; omega)]
    exact ⟨h.ul, h.dl, h.shadow⟩

/-- A vote changes no average (R127). -/
theorem voteSegment_within (p : Setup) (seg : Nat) (now : Qt) {g : Segment} (h : g.within p) :
    (voteSegment p seg now g).1.within p := by
  obtain ⟨hv, -⟩ := voteSegment_taken p seg now g
  unfold votedFrom at hv
  split at hv
  · rw [hv]
    exact ⟨h.ul, h.dl, h.shadow⟩
  · obtain ⟨heq, -⟩ := hv
    rw [heq]
    exact ⟨h.ul, h.dl, h.shadow⟩

theorem SegmentChange.keeps_within {s : State} {m : Nat} {x : Segment} (h : SegmentChange s m x) {p : Setup}
    (hp : s.su.setup = some p) (hw : p.windowOk) (hs : (s.cvu.segment m).within p) : x.within p := by
  cases h with
  | observed q shadow dir level now hq =>
    obtain rfl := Option.some.inj (hp.symm.trans hq)
    exact observeSegment_within hw shadow m dir level now hs
  | voted q n y hq =>
    obtain rfl := Option.some.inj (hp.symm.trans hq)
    exact voteSegment_within p m s.su.qt hs
  | aged q =>
    rcases ageSegment_cases q m s.su.qt (s.cvu.segment m) with hx | hx <;> rw [hx]
    · exact ⟨averageOk_none p, averageOk_none p, hs.shadow⟩
    · exact hs
  | shadowAged q =>
    rcases ageShadow_cases q s.su.qt (s.cvu.segment m) with hx | hx <;> rw [hx]
    · exact ⟨hs.ul, hs.dl, averageOk_none p⟩
    · exact hs
  | driftTested q =>
    rw [driftTest_frame]
    exact ⟨hs.ul, hs.dl, hs.shadow⟩

theorem averageLaw_iff (s : State) : averageLaw s ↔
    (∀ p, s.holds p → p.windowOk) ∧ ∀ p, s.su.setup = some p → ∀ m, (s.cvu.segment m).within p := by
  refine and_congr Iff.rfl (forall₃_congr fun p _ m => ⟨?_, ?_⟩)
  · rintro ⟨hul, hdl, hshadow⟩
    exact ⟨hul, hdl, hshadow⟩
  · rintro ⟨hul, hdl, hshadow⟩
    exact ⟨hul, hdl, hshadow⟩

/-- COVERAGE_PARAM found no fault in a validated copy (R112). -/
theorem validated_coverage {sbase : BitVec 8} {copy : List Byte} (h : validateSetup sbase copy = none) :
    setupLimit sbase copy 0x0D :=
  (validatedSetupInRange sbase copy).1.mp h 0x0D (by decide) (by decide)

/-- Every effect keeps the law on averages. -/
theorem Effect.keeps_averageLaw {s t : State} (h : Effect s t) (hs : averageLaw s) : averageLaw t := by
  rw [averageLaw_iff] at hs ⊢
  obtain ⟨hwindow, hwithin⟩ := hs
  have hwindow' : ∀ p, t.holds p → p.windowOk := by
    intro p hp
    rcases h.holds p hp with hp | ⟨copy, hv, rfl⟩
    · exact hwindow p hp
    · obtain ⟨hok, -⟩ := validated_coverage hv
      exact hok
  refine ⟨hwindow', fun p hp m => ?_⟩
  cases h.segments with
  | changed hsame hm =>
    rw [hsame] at hp
    rcases hm m with heq | heq | hx
    · exact heq ▸ hwithin p hp m
    · exact heq ▸ Segment.within_blank p
    · exact hx.keeps_within hp (hwindow p (.inl hp)) (hwithin p hp m)
  | noSetup hnone => exact nomatch hnone.symm.trans hp
  | reloaded q hq hm =>
    obtain rfl := Option.some.inj (hq.symm.trans hp)
    rcases hm m with heq | heq
    · exact heq ▸ keepSegment_within (hwindow' q (.inl hp)) m (s.cvu.segment m)
    · exact heq ▸ Segment.within_blank q

/-- No setup is held at reset (R167). -/
theorem reset_holds (p : Setup) : ¬ State.reset.holds p := by
  rintro (h | h) <;> cases h

/-- Settles O55: no setup is held at reset, and each effect keeps the law. -/
theorem averageLawKept : Obligations.AverageLawKept := by
  refine ⟨(averageLaw_iff _).mpr ⟨fun p hp => absurd hp (reset_holds p), fun p hp => absurd (.inl hp) (reset_holds p)⟩,
    fun s t hs h => step_keeps (fun _ _ => Effect.keeps_averageLaw) s t h hs⟩

end Sys2Proof.Machine
end

