-- ==== Sys2Proof/Proofs/MapLaw.lean ====
section
/-! SUPPORT. Every single effect keeps the map within the geometry of the setup in force: what lies on the quay is brought
there by a clamp, and only segments of the map are changed (R35, R75, R112, R113, R116, R138, R141). -/

namespace Sys2Proof.Machine

open Sys2Proof

/-! ### Positions and plugs brought onto the quay (R35, R75, R112, R116) -/

theorem quayEnd_pos {p : Setup} (h : (geometryOf p).ok) : 0 < quayEnd p := by
  obtain ⟨hcount, hlen⟩ := h
  exact Nat.mul_pos hcount hlen

theorem clampPosition_lt {p : Setup} (h : (geometryOf p).ok) (x : Nat) : clampPosition p x < quayEnd p := by
  have hpos := quayEnd_pos h
  rw [clampPosition_eq_min]
  omega

/-- A position before the quay end lies in a segment of the map (R112). -/
theorem segmentOf_lt {p : Setup} {x : Nat} (h : x < quayEnd p) : segmentOf p x < p.coverage.segCount :=
  Nat.div_lt_of_lt_mul (Nat.mul_comm .. ▸ h)

theorem plugSegment_lt {p : Setup} (h : (geometryOf p).ok) (plug : Half) : plugSegment p plug < p.coverage.segCount := by
  have hcount : 0 < p.coverage.segCount := h.1
  rw [plugSegment_eq, segmentOfPlug]
  omega

/-! ### Crane positions (R23, R35) -/

theorem Crane.takeState_position (p : Setup) (n : Nat) (c : Crane) (gap : Bool) (before : Option Qt) (a now : Qt) :
    (c.takeState p n gap before a now).1.position = c.position := by
  unfold Crane.takeState
  split
  · rfl
  · rfl
  · rfl
  · simp only [apply_ite Prod.fst, apply_ite Crane.position, ite_self]

/-- A fresh frame stores its clamped position, an aged one none (R31, R35). -/
theorem takeStatus_position (p : Setup) (f : StatusFrame) (now : Qt) (gap : Bool) (c : Crane) :
    (takeStatus p f.crane f now gap c).1.position = c.position ∨
      (takeStatus p f.crane f now gap c).1.position = some (clampPosition p f.gantry) := by
  rcases Nat.lt_or_ge f.age.toNat p.timing.lateMs with hf | ha
  · rw [takeStatus_fresh p f now gap c hf, clampPosition_eq_min]
    exact .inr (Crane.takeState_position ..)
  · rw [takeStatus_aged p f now gap c ha]
    exact .inl rfl

/-- A status frame leaves the position or stores its own, clamped (R25, R35). -/
theorem handleStatus_position (p : Setup) (clu : CraneUnit) (f : StatusFrame) (now : Qt) :
    (handleStatus p clu f now).1.position = (clu.crane f.crane).position ∨
      (handleStatus p clu f now).1.position = some (clampPosition p f.gantry) := by
  unfold handleStatus
  dsimp only
  split
  · exact .inl rfl
  · split
    · split
      · exact .inl rfl
      · exact .inl rfl
      · exact takeStatus_position ..
      · exact takeStatus_position ..
    · split
      · exact .inl rfl
      · exact .inl rfl
      · exact takeStatus_position p f now false { clu.crane f.crane with learned := some f.terminal }
      · exact takeStatus_position p f now true { clu.crane f.crane with learned := some f.terminal }
    · exact .inl rfl
    · exact .inl rfl

theorem offerCommand_position (n slot : Nat) (c : Crane) (seq : Half) (cls : Byte) (stale : Bool) (now : Qt) :
    (offerCommand n slot c seq cls stale now).crane.position = c.position := by
  unfold offerCommand
  split
  · unfold Crane.listCommand
    split
    · split <;> rfl
    · rfl
  · rfl
  · rfl

/-- No departure moves its crane (R55). -/
theorem craneDecision_position (s : State) (slot : Nat) (r : DlRecord) (d : Decision) (c : Crane) :
    (craneDecision s slot r d c).crane.position = c.position := by
  unfold craneDecision
  cases d with
  | pass => rfl
  | halt reason => rfl
  | delivered =>
    dsimp only
    split
    · exact offerCommand_position ..
    · rfl
  | stale =>
    dsimp only
    split
    · exact offerCommand_position ..
    · rfl

/-- A change of a crane leaves its position, forgets it, or stores one clamped onto the quay. -/
theorem CraneChange.position {s : State} {n : Nat} {c : Crane} (h : CraneChange s n c) :
    c.position = (s.clu.crane n).position ∨ c.position = none ∨
      ∃ p x, s.su.setup = some p ∧ c.position = some (clampPosition p x) := by
  cases h with
  | late => exact .inl rfl
  | lost => exact .inl rfl
  | traceOpened => exact .inl rfl
  | reset => exact .inr (.inl rfl)
  | decided s0 slot r => exact .inl (craneDecision_position ..)
  | status p f q cells hp hf hn =>
    subst hn
    exact (handleStatus_position p s.clu f q).imp_right fun h => .inr ⟨p, f.gantry, hp, h⟩

/-- Every known crane position lies before a quay end. -/
def CraneUnit.onQuay (u : CraneUnit) (bound : Nat) : Prop := ∀ n x, (u.crane n).position = some x → x < bound

theorem CraneChange.keeps_onQuay {s : State} {n : Nat} {c : Crane} (h : CraneChange s n c) {p : Setup}
    (hp : s.su.setup = some p) (hok : (geometryOf p).ok) (hs : s.clu.onQuay (quayEnd p)) :
    (s.clu.setCrane n c).onQuay (quayEnd p) := by
  intro m x hx
  rw [CraneUnit.crane_setCrane] at hx
  split at hx
  · rcases h.position with heq | hnone | ⟨q, y, hq, heq⟩
    · exact hs n x (heq ▸ hx)
    · exact nomatch hnone.symm.trans hx
    · obtain rfl := Option.some.inj (hp.symm.trans hq)
      obtain rfl := Option.some.inj (heq.symm.trans hx)
      exact clampPosition_lt hok y
  · exact hs m x hx

/-! ### Reefer segments (R75, R78, R90) -/

/-- Every entry's segment lies below a number of segments. -/
def ReeferUnit.onQuay (u : ReeferUnit) (bound : Nat) : Prop := ∀ i e, u.entry i = some e → e.segment < bound

theorem ReeferUnit.onQuay.setEntry {u : ReeferUnit} {bound : Nat} (hu : u.onQuay bound) {i : Nat} {e : Option Reefer}
    (he : ∀ x, e = some x → x.segment < bound) : (u.setEntry i e).onQuay bound := by
  intro j x hx
  rw [ReeferUnit.entry_setEntry] at hx
  split at hx
  · exact he x hx
  · exact hu j x hx

/-- An entry changed without its segment stays on the quay. -/
theorem ReeferUnit.onQuay.changed {u : ReeferUnit} {bound : Nat} (hu : u.onQuay bound) {i : Nat} {e y : Reefer}
    (he : u.entry i = some e) (hy : y.segment = e.segment) : (u.setEntry i (some y)).onQuay bound :=
  hu.setEntry fun x hx => by
    obtain rfl := Option.some.inj hx
    exact hy ▸ hu i e he

theorem countArea_segment (a : Area) (e : Reefer) : (countArea a e).segment = e.segment := by
  rw [countArea_eq]

theorem enterExcursion_segment (k : ReeferClass) (i : Nat) (v : Int) (fromReturn : Bool) (now : Qt) (e : Reefer) :
    (enterExcursion k i v fromReturn now e).1.segment = e.segment := by
  unfold enterExcursion
  split <;> rfl

theorem compareBand_segment (k : ReeferClass) (i : Nat) (now : Qt) (e : Reefer) :
    (compareBand k i now e).1.segment = e.segment := by
  unfold compareBand
  split
  · rfl
  · split
    · rfl
    · dsimp only
      split
      · rw [(takeNormal_eq ..).1]
      · rw [enterExcursion_segment, countArea_segment]

/-- Supervision leaves the segment of an entry (R93). -/
theorem judged_segment (p : Setup) (r : ReeferReport) (i : Nat) (now : Qt) (e : Reefer) :
    (Reefer.judged p r i now e).segment = e.segment := compareBand_segment (classEntry p r.cls) i now (e.read r)

/-- The entry admitted takes the segment of the report's plug (R75, R78). -/
theorem admitAt_segment (p : Setup) (r : ReeferReport) (i : Nat) (before old : Option Reefer)
    (occ : Option (Nat × Reefer)) (now : Qt) (u : ReeferUnit) : ∃ e ds, (admitAt p r i before old occ now u).1 =
      { (replaceOccupant r i now occ u).1.setEntry i (some e) with departed := ds } ∧
      e.segment = plugSegment p r.plug :=
  ⟨_, _, rfl, by rw [supervise_judged, judged_segment]; rfl⟩

theorem occupantOf_entry {u : ReeferUnit} {r : ReeferReport} {y : Nat} {e : Reefer} (h : occupantOf u r = some (y, e)) :
    u.entry y = some e := by
  unfold occupantOf at h
  split at h
  · cases h
  · split at h
    · split at h
      · cases h
      · obtain ⟨x, hx, heq⟩ := Option.map_eq_some_iff.mp h
        cases heq
        exact hx
    · cases h

theorem replaceOccupant_onQuay {u v : ReeferUnit} {bound : Nat} (hu : u.onQuay bound) (hv : v.onQuay bound)
    (r : ReeferReport) (i : Nat) (now : Qt) : (replaceOccupant r i now (occupantOf u r) v).1.onQuay bound := by
  cases hocc : occupantOf u r with
  | none => exact hv
  | some o =>
    obtain ⟨y, e⟩ := o
    refine hv.setEntry fun x hx => ?_
    obtain rfl := Option.some.inj hx
    exact hu y e (occupantOf_entry hocc)

/-- An admission at an index, the occupant of the plug taken from table `u` (R76). -/
theorem admitAt_onQuay {p : Setup} (hok : (geometryOf p).ok) {u v : ReeferUnit} (hu : u.onQuay p.coverage.segCount)
    (hv : v.onQuay p.coverage.segCount) (r : ReeferReport) (i : Nat) (before old : Option Reefer) (now : Qt) :
    (admitAt p r i before old (occupantOf u r) now v).1.onQuay p.coverage.segCount := by
  obtain ⟨e, ds, heq, hseg⟩ := admitAt_segment p r i before old (occupantOf u r) now v
  rw [heq]
  refine (replaceOccupant_onQuay hu hv r i now).setEntry fun x hx => ?_
  obtain rfl := Option.some.inj hx
  exact hseg ▸ plugSegment_lt hok r.plug

theorem admitReport_onQuay {p : Setup} (hok : (geometryOf p).ok) {u : ReeferUnit} (hu : u.onQuay p.coverage.segCount)
    (r : ReeferReport) (now : Qt) : (admitReport p r now u).1.onQuay p.coverage.segCount := by
  cases h : placement u r.container with
  | known i =>
    rw [admitReport_known p r now u i h]
    exact admitAt_onQuay hok hu hu r i (u.entry i) none now
  | free i =>
    rw [admitReport_free p r now u i h]
    exact admitAt_onQuay hok hu hu r i none none now
  | reuse i =>
    rw [admitReport_reuse p r now u i h]
    exact admitAt_onQuay (v := { u with departed := u.departed.drop 1 }) hok hu hu r i none (u.entry i) now
  | refused =>
    rw [admitReport_refused p r now u h]
    exact hu

/-- Every change of the Reefer Unit keeps its entries on the quay. -/
theorem ReeferChange.keeps_onQuay {s : State} {u : ReeferUnit} (h : ReeferChange s u) {p : Setup}
    (hp : s.su.setup = some p) (hok : (geometryOf p).ok) (hs : s.rfu.onQuay p.coverage.segCount) :
    u.onQuay p.coverage.segCount := by
  cases h with
  | lost q i e hq he | excused q i e hq he | silent q i e hq he => exact hs.changed he rfl
  | acked i e he => exact hs.changed he rfl
  | admitted q r now hq =>
    obtain rfl := Option.some.inj (hp.symm.trans hq)
    exact admitReport_onQuay hok hs r now
  | scanned => exact hs
  | forgotten i e =>
    intro j x hx
    rw [forgetReefer_entry] at hx
    split at hx
    · cases hx
    · exact hs j x hx

/-- The reefer table at a completion: emptied, or every segment derived anew (R89, R90). -/
theorem reloadReefers_onQuay {p : Setup} (hok : (geometryOf p).ok) (keep : Bool) (now : Qt) (u : ReeferUnit) :
    (reloadReefers p keep now u).onQuay p.coverage.segCount := by
  intro i e he
  cases keep with
  | false =>
    obtain ⟨hnone, -⟩ := reloadReefers_emptied p now u rfl
    exact nomatch (hnone i).symm.trans he
  | true =>
    rw [keepReefers_entry] at he
    obtain ⟨x, -, rfl⟩ := Option.map_eq_some_iff.mp he
    exact plugSegment_lt hok x.plug

/-! ### The map within its geometry (R113) -/

/-- The scan position lies in the map, and every record beyond the map is blank; without a geometry every record is. -/
structure CoverageUnit.laidOut (u : CoverageUnit) : Prop where
  scan : ∀ g, u.geometry = some g → u.scanPos < g.segCount
  beyond : ∀ n, (∀ g, u.geometry = some g → g.segCount ≤ n) → u.segment n = Segment.blank

/-- The map has the geometry of a setup, and every crane position and reefer segment lies on its quay. -/
def State.onQuay (s : State) (p : Setup) : Prop :=
  s.cvu.geometry = some (geometryOf p) ∧ s.clu.onQuay (quayEnd p) ∧ s.rfu.onQuay p.coverage.segCount

theorem mapLaw_iff (s : State) : mapLaw s ↔
    (∀ p, s.holds p → (geometryOf p).ok) ∧ s.cvu.laidOut ∧ ∀ p, s.su.setup = some p → s.onQuay p := by
  have hlaid : (match s.cvu.geometry with
      | some g => s.cvu.scanPos < g.segCount ∧ ∀ n, g.segCount ≤ n → s.cvu.segment n = Segment.blank
      | none => ∀ n, s.cvu.segment n = Segment.blank) ↔ s.cvu.laidOut := by
    constructor
    · intro h
      cases hg : s.cvu.geometry with
      | none =>
        rw [hg] at h
        exact ⟨fun g hg' => (nomatch hg.symm.trans hg'), fun n _ => h n⟩
      | some g =>
        rw [hg] at h
        obtain ⟨hscan, hbeyond⟩ := h
        refine ⟨fun g' hg' => ?_, fun n hn => hbeyond n (hn g hg)⟩
        obtain rfl := Option.some.inj (hg.symm.trans hg')
        exact hscan
    · rintro ⟨hscan, hbeyond⟩
      cases hg : s.cvu.geometry with
      | none => exact fun n => hbeyond n fun g hg' => nomatch hg.symm.trans hg'
      | some g =>
        refine ⟨hscan g hg, fun n hn => hbeyond n fun g' hg' => ?_⟩
        obtain rfl := Option.some.inj (hg.symm.trans hg')
        exact hn
  exact and_congr Iff.rfl (and_congr hlaid Iff.rfl)

/-- Only segments of the map are changed: observations are clamped onto it, cranes stand on it, the scan walks it. -/
theorem SegmentChange.on_map {s : State} {m : Nat} {x : Segment} (h : SegmentChange s m x) (hs : s.cvu.laidOut)
    (hq : ∀ p, s.su.setup = some p → (geometryOf p).ok ∧ s.onQuay p) :
    ∃ g, s.cvu.geometry = some g ∧ m < g.segCount := by
  have scanned : ∀ p, s.su.setup = some p → m = s.cvu.scanPos → ∃ g, s.cvu.geometry = some g ∧ m < g.segCount := by
    rintro p hp rfl
    obtain ⟨-, hgeometry, -⟩ := hq p hp
    exact ⟨_, hgeometry, hs.scan _ hgeometry⟩
  cases h with
  | observed p shadow dir level now hp hm =>
    obtain ⟨hok, hgeometry, -⟩ := hq p hp
    refine ⟨_, hgeometry, ?_⟩
    rcases hm with ⟨y, rfl⟩ | ⟨plug, rfl⟩
    · exact segmentOf_lt (clampPosition_lt hok y)
    · exact plugSegment_lt hok plug
  | voted p n y hp hy hm =>
    obtain ⟨-, hgeometry, hcranes, -⟩ := hq p hp
    exact ⟨_, hgeometry, hm ▸ segmentOf_lt (hcranes n y hy)⟩
  | aged p hp hm => exact scanned p hp hm
  | shadowAged p hp hm => exact scanned p hp hm
  | driftTested p hp hm => exact scanned p hp hm

theorem CoverageChange.keeps_geometry {s : State} {u : CoverageUnit} (h : CoverageChange s u) :
    u.geometry = s.cvu.geometry := by
  cases h <;> rfl

theorem CoverageChange.keeps_laidOut {s : State} {u : CoverageUnit} (h : CoverageChange s u) (hs : s.cvu.laidOut)
    (hq : ∀ p, s.su.setup = some p → (geometryOf p).ok ∧ s.onQuay p) : u.laidOut := by
  constructor
  · intro g hg
    rw [h.keeps_geometry] at hg
    have hscan := hs.scan g hg
    cases h with
    | scanned p hp =>
      obtain ⟨-, hgeometry, -⟩ := hq p hp
      obtain rfl := Option.some.inj (hgeometry.symm.trans hg)
      simp only [geometryOf] at hscan ⊢
      split <;> omega
    | _ => exact hscan
  · intro n hn
    rw [h.keeps_geometry] at hn
    rcases h.segment_cases n with heq | hblank | hx
    · exact heq ▸ hs.beyond n hn
    · exact hblank
    · obtain ⟨g, hg, hlt⟩ := hx.on_map hs hq
      exact absurd (hn g hg) (Nat.not_le.mpr hlt)

/-- The map at a completion: kept as laid out, or emptied with the new geometry (R140, R141). -/
theorem reloadCoverage_laidOut {p : Setup} (hok : (geometryOf p).ok) (keep : Bool) {u : CoverageUnit} (hu : u.laidOut) :
    (reloadCoverage p keep u).geometry = some (geometryOf p) ∧ (reloadCoverage p keep u).laidOut := by
  by_cases h : keep = true ∧ u.geometry = some ⟨p.coverage.segCount, p.coverage.segLenCm⟩
  · obtain ⟨heq, hsegment⟩ := reloadCoverage_kept p keep u h
    have hgeometry : (reloadCoverage p keep u).geometry = u.geometry := by rw [heq]
    have hscan : (reloadCoverage p keep u).scanPos = u.scanPos := by rw [heq]
    refine ⟨hgeometry.trans h.2, fun g hg => hscan ▸ hu.scan g (hgeometry ▸ hg), fun n hn => ?_⟩
    rw [hsegment, hu.beyond n (hgeometry ▸ hn), keepSegment_blank]
  · obtain ⟨hgeometry, hscan, -, -, hblank⟩ := reloadCoverage_emptied p keep u h
    refine ⟨hgeometry, fun g hg => ?_, fun n _ => hblank n⟩
    obtain rfl := Option.some.inj (hgeometry.symm.trans hg)
    rw [hscan]
    exact hok.1

/-! ### The law -/

theorem Effect.keeps_laidOut {s t : State} (h : Effect s t) (hok : ∀ p, t.holds p → (geometryOf p).ok)
    (hs : s.cvu.laidOut) (hq : ∀ p, s.su.setup = some p → (geometryOf p).ok ∧ s.onQuay p) : t.cvu.laidOut := by
  cases h with
  | coverage u hu => exact hu.keeps_laidOut hs hq
  | powerOn b => exact ⟨nofun, fun _ _ => rfl⟩
  | reloaded p a b c l => exact (reloadCoverage_laidOut (hok p (.inl rfl)) l.keep hs).2
  | _ => exact hs

theorem Effect.keeps_onQuay {s t : State} (h : Effect s t) (hok : ∀ p, t.holds p → (geometryOf p).ok)
    (hs : s.cvu.laidOut) (hq : ∀ p, s.su.setup = some p → s.onQuay p) (p : Setup) (hp : t.su.setup = some p) :
    t.onQuay p := by
  have hgeo := hok p (.inl hp)
  cases h with
  | coverage u hu =>
    obtain ⟨hgeometry, hcranes, hreefers⟩ := hq p hp
    exact ⟨hu.keeps_geometry.trans hgeometry, hcranes, hreefers⟩
  | crane n c hc =>
    obtain ⟨hgeometry, hcranes, hreefers⟩ := hq p hp
    exact ⟨hgeometry, hc.keeps_onQuay hp hgeo hcranes, hreefers⟩
  | cranesCleared =>
    obtain ⟨hgeometry, hcranes, hreefers⟩ := hq p hp
    refine ⟨hgeometry, fun n x hx => hcranes n x ?_, hreefers⟩
    rwa [CraneUnit.clearCounters_crane] at hx
  | reefers u hu =>
    obtain ⟨hgeometry, hcranes, hreefers⟩ := hq p hp
    exact ⟨hgeometry, hcranes, hu.keeps_onQuay hp hgeo hreefers⟩
  | powerOn b => cases hp
  | passOnly code => cases hp
  | reloaded q a b c l =>
    obtain rfl := Option.some.inj hp
    exact ⟨(reloadCoverage_laidOut hgeo l.keep hs).1, fun _ _ => nofun, reloadReefers_onQuay hgeo l.keep s.su.qt s.rfu⟩
  | _ => exact hq p hp

/-- Every effect keeps the map within its geometry. -/
theorem Effect.keeps_mapLaw {s t : State} (h : Effect s t) (hs : mapLaw s) : mapLaw t := by
  rw [mapLaw_iff] at hs ⊢
  obtain ⟨hok, hlaid, hon⟩ := hs
  have hok' : ∀ p, t.holds p → (geometryOf p).ok := by
    intro p hp
    rcases h.holds p hp with hp | ⟨copy, hv, rfl⟩
    · exact hok p hp
    · obtain ⟨-, hgeometry, -⟩ := validated_coverage hv
      exact hgeometry
  exact ⟨hok', h.keeps_laidOut hok' hlaid fun p hp => ⟨hok p (.inl hp), hon p hp⟩, h.keeps_onQuay hok' hlaid hon⟩

/-- Settles O59: every step is a sequence of effects, and each effect keeps the map within its geometry. -/
theorem mapLawKept : Obligations.MapLawKept := fun s t hs h => step_keeps (fun _ _ => Effect.keeps_mapLaw) s t h hs

end Sys2Proof.Machine
end

