-- ==== Sys2Proof/Proofs/CoverageScan.lean ====
section
/-! SUPPORT. The coverage scan visit (R129 to R132): what its three steps make of the segment at the scan position, and the
records they make. -/

namespace Sys2Proof.Machine

open Sys2Proof

/-! ### The aging tests (R130, R131) -/

theorem averagesAged_iff (p : Setup) (now : Qt) (g : Segment) : averagesAged p now g = true ↔
    (g.ul ≠ none ∨ g.dl ≠ none) ∧ p.coverage.ageS * 1000 ≤ elapsed now g.lastUnshadowed := by
  rw [averagesAged, Bool.and_eq_true, weakerAverage_isSome, agedOut, decide_eq_true_eq, not_and_or]

theorem shadowAged_iff (p : Setup) (now : Qt) (g : Segment) : shadowAged p now g = true ↔
    g.shadow ≠ none ∧ p.coverage.ageS * 1000 ≤ elapsed now g.lastShadowed := by
  rw [shadowAged, Bool.and_eq_true, Option.isSome_iff_ne_none, agedOut, decide_eq_true_eq]

/-- The aging of the shadow average; an empty one stays empty (R131). -/
theorem ageShadow_eq (p : Setup) (now : Qt) (g : Segment) : ageShadow p now g = { g with
    shadow := if p.coverage.ageS * 1000 ≤ elapsed now g.lastShadowed then none else g.shadow } := by
  unfold ageShadow
  split
  · rename_i h
    obtain ⟨-, haged⟩ := (shadowAged_iff p now g).mp h
    rw [if_pos haged]
  · rename_i h
    by_cases haged : p.coverage.ageS * 1000 ≤ elapsed now g.lastShadowed
    · have hempty : g.shadow = none := by_contra fun hs => h ((shadowAged_iff p now g).mpr ⟨hs, haged⟩)
      rw [if_pos haged, ← hempty]
    · rw [if_neg haged]

/-! ### The drift test (R132) -/

/-- The drift test finds nothing without a baseline or without a DL average. -/
theorem driftTest_untested {p : Setup} {seg : Nat} {g : Segment} (now : Qt) (h : baselineOf p seg = none ∨ g.dl = none) :
    driftTest p seg now g = (g, []) := by
  unfold driftTest
  split
  · rename_i hb hd
    rw [hb, hd] at h
    exact absurd h (by simp)
  · rfl

/-- DRIFT is set beyond the distance, cleared a decibel inside it, and stands between. -/
theorem driftTest_drift {p : Setup} {seg : Nat} {g : Segment} {b d : Int} (now : Qt) (hb : baselineOf p seg = some b)
    (hd : g.dl = some d) : (driftTest p seg now g).1.drift =
      if 16 * p.coverage.driftDb < (d - b).natAbs then true
      else if (d - b).natAbs ≤ 16 * (p.coverage.driftDb - 1) then false else g.drift := by
  unfold driftTest
  rw [hb, hd]
  cases hg : g.drift
  · by_cases hfar : 16 * p.coverage.driftDb < (d - b).natAbs <;> simp [hfar, hg]
  · by_cases hfar : 16 * p.coverage.driftDb < (d - b).natAbs
    · have hnear : ¬ (d - b).natAbs ≤ 16 * (p.coverage.driftDb - 1) := by omega
      simp [hfar, hnear, hg]
    · by_cases hnear : (d - b).natAbs ≤ 16 * (p.coverage.driftDb - 1) <;> simp [hfar, hnear, hg]

/-- A change of DRIFT makes its one record, and nothing else makes any. -/
theorem driftTest_codes (p : Setup) (seg : Nat) (now : Qt) (g : Segment) : (driftTest p seg now g).2.map Record.code =
    if (driftTest p seg now g).1.drift = g.drift then []
    else if (driftTest p seg now g).1.drift = true then [0x32] else [0x33] := by
  unfold driftTest
  split
  · split
    · rename_i h
      have hclear : g.drift = false := by simp_all
      rw [hclear]
      rfl
    · split
      · rename_i h
        have hset : g.drift = true := by simp_all
        rw [hset]
        rfl
      · exact (if_pos rfl).symm
  · exact (if_pos rfl).symm

/-- Records of the Coverage Unit that name a segment at a time. -/
def namesSegment (seg : Nat) (now : Qt) (rs : List Record) : Prop :=
  ∀ r ∈ rs, r.origin = .cvu ∧ r.object = BitVec.ofNat 16 seg ∧ r.qt = now

theorem namesSegment_nil (seg : Nat) (now : Qt) : namesSegment seg now [] := nofun

theorem namesSegment_one {seg : Nat} {now : Qt} {r : Record} (ho : r.origin = .cvu)
    (hr : r.object = BitVec.ofNat 16 seg) (hq : r.qt = now) : namesSegment seg now [r] :=
  fun _ hx => List.mem_singleton.mp hx ▸ ⟨ho, hr, hq⟩

theorem driftTest_records (p : Setup) (seg : Nat) (now : Qt) (g : Segment) :
    namesSegment seg now (driftTest p seg now g).2 := by
  unfold driftTest
  split
  · split
    · exact namesSegment_one rfl rfl rfl
    · split
      · exact namesSegment_one rfl rfl rfl
      · exact namesSegment_nil seg now
  · exact namesSegment_nil seg now

/-! ### The visit of one segment (R129) -/

/-- A segment after the three steps of a visit, and the records they make. -/
def visitedSegment (p : Setup) (seg : Nat) (now : Qt) (g : Segment) : Segment × List Record :=
  let aged := ageSegment p seg now g
  let tested := driftTest p seg now (ageShadow p now aged.1)
  (tested.1, aged.2 ++ tested.2)

/-- UL and DL averages aged leave no average to test for drift. -/
theorem visitedSegment_aged {p : Setup} {now : Qt} {g : Segment} (seg : Nat) (h : averagesAged p now g = true) :
    visitedSegment p seg now g =
      ({ g with
          ul := none, dl := none, history := [], declared := .unknown, drift := false
          shadow := if p.coverage.ageS * 1000 ≤ elapsed now g.lastShadowed then none else g.shadow },
        [recSegmentAged seg g.declared g.drift (elapsed now g.lastUnshadowed) now]) := by
  rw [visitedSegment, ageSegment, if_pos h]
  dsimp only
  rw [ageShadow_eq, driftTest_untested now (.inr rfl)]
  rfl

theorem visitedSegment_unaged {p : Setup} {now : Qt} {g : Segment} (seg : Nat) (h : ¬ averagesAged p now g = true) :
    visitedSegment p seg now g = driftTest p seg now (ageShadow p now g) := by
  rw [visitedSegment, ageSegment, if_neg h]
  rfl

/-- Without aged averages a visit changes at most DRIFT, with its record, beside the shadow average (R131, R132). -/
theorem visitedSegment_drift {p : Setup} {now : Qt} {g : Segment} (seg : Nat) (h : ¬ averagesAged p now g = true) :
    let y := (visitedSegment p seg now g).1
    y.ul = g.ul ∧ y.dl = g.dl ∧ y.history = g.history ∧ y.declared = g.declared ∧
      (visitedSegment p seg now g).2.map Record.code =
        (if y.drift = g.drift then [] else if y.drift = true then [0x32] else [0x33]) ∧
      (baselineOf p seg = none ∨ g.dl = none → y.drift = g.drift) ∧
      ∀ b d, baselineOf p seg = some b → g.dl = some d → y.drift =
        if 16 * p.coverage.driftDb < (d - b).natAbs then true
        else if (d - b).natAbs ≤ 16 * (p.coverage.driftDb - 1) then false else g.drift := by
  have hkept : (ageShadow p now g).ul = g.ul ∧ (ageShadow p now g).dl = g.dl ∧
      (ageShadow p now g).history = g.history ∧ (ageShadow p now g).declared = g.declared ∧
      (ageShadow p now g).drift = g.drift := by
    rw [ageShadow_eq]
    exact ⟨rfl, rfl, rfl, rfl, rfl⟩
  rw [visitedSegment_unaged seg h]
  generalize ageShadow p now g = z at hkept
  obtain ⟨hul, hdl, hhistory, hdeclared, hdrift⟩ := hkept
  have hframe := driftTest_frame p seg now z
  rw [← hul, ← hdl, ← hhistory, ← hdeclared, ← hdrift]
  refine ⟨by rw [hframe], by rw [hframe], by rw [hframe], by rw [hframe], driftTest_codes p seg now z,
    fun hno => by rw [driftTest_untested now hno], fun b d hb hd => driftTest_drift now hb hd⟩

/-- What a visit leaves of a segment whatever it finds: the counts, the last QTs, and the shadow average unless aged. -/
theorem visitedSegment_stands (p : Setup) (seg : Nat) (now : Qt) (g : Segment) :
    let y := (visitedSegment p seg now g).1
    y.unshadowed = g.unshadowed ∧ y.shadowed = g.shadowed ∧ y.rejected = g.rejected ∧ y.discarded = g.discarded ∧
      y.lastUnshadowed = g.lastUnshadowed ∧ y.lastShadowed = g.lastShadowed ∧
      y.shadow = if p.coverage.ageS * 1000 ≤ elapsed now g.lastShadowed then none else g.shadow := by
  by_cases h : averagesAged p now g = true
  · rw [visitedSegment_aged seg h]
    exact ⟨rfl, rfl, rfl, rfl, rfl, rfl, rfl⟩
  · rw [visitedSegment_unaged seg h, driftTest_frame, ageShadow_eq]
    exact ⟨rfl, rfl, rfl, rfl, rfl, rfl, rfl⟩

theorem visitedSegment_records (p : Setup) (seg : Nat) (now : Qt) (g : Segment) :
    namesSegment seg now (visitedSegment p seg now g).2 := by
  by_cases h : averagesAged p now g = true
  · rw [visitedSegment_aged seg h]
    exact namesSegment_one rfl rfl rfl
  · rw [visitedSegment_unaged seg h]
    exact driftTest_records p seg now _

/-! ### The visit (R129) -/

theorem changeSegment_segment (g m : Nat) (f : Segment → Segment × List Record) (s : State) :
    (changeSegment g f s).cvu.segment m = if m = g then (f (s.cvu.segment g)).1 else s.cvu.segment m :=
  CoverageUnit.segment_setSegment s.cvu g m _

/-- The two states differ in the segments and the Report Unit alone. -/
def onlySegmentsDiffer (s t : State) : Prop :=
  t = { s with cvu := { s.cvu with segments := t.cvu.segments }, rpu := t.rpu }

theorem onlySegmentsDiffer.trans {s t u : State} (h : onlySegmentsDiffer s t) (k : onlySegmentsDiffer t u) :
    onlySegmentsDiffer s u := by
  unfold onlySegmentsDiffer at *
  rw [k, h]

theorem changeSegment_only (g : Nat) (f : Segment → Segment × List Record) (s : State) :
    onlySegmentsDiffer s (changeSegment g f s) := rfl

theorem visitSegment_only (p : Setup) (seg : Nat) (now : Qt) (s : State) :
    onlySegmentsDiffer s (visitSegment p seg now s) :=
  .trans (changeSegment_only ..) (.trans (changeSegment_only ..) (changeSegment_only ..))

theorem visitSegment_segment (p : Setup) (seg m : Nat) (now : Qt) (s : State) :
    (visitSegment p seg now s).cvu.segment m =
      if m = seg then (visitedSegment p seg now (s.cvu.segment seg)).1 else s.cvu.segment m := by
  simp only [visitSegment, changeSegment_segment, if_true, visitedSegment]
  split <;> rfl

theorem visitSegment_rpu (p : Setup) (seg : Nat) (now : Qt) (s : State) :
    (visitSegment p seg now s).rpu = s.rpu.handOverAll (visitedSegment p seg now (s.cvu.segment seg)).2 := by
  have hrpu : ∀ f s, (changeSegment seg f s).rpu = s.rpu.handOverAll (f (s.cvu.segment seg)).2 := fun _ _ => rfl
  simp only [visitSegment, hrpu, changeSegment_segment, if_true, visitedSegment, ReportUnit.handOverAll_append,
    ReportUnit.handOverAll_nil]

/-- The coverage visit due: the Coverage Unit's segments and scan position, and the records of the visit (R129). -/
theorem coverageVisit_done (p : Setup) (s : State) : (coverageVisit p s).coverageDone = { s with
    cvu := { s.cvu with
      segments := (visitSegment p s.cvu.scanPos s.su.qt s).cvu.segments
      scanPos := if s.cvu.scanPos + 1 < p.coverage.segCount then s.cvu.scanPos + 1 else 0 }
    rpu := s.rpu.handOverAll (visitedSegment p s.cvu.scanPos s.su.qt (s.cvu.segment s.cvu.scanPos)).2
    due := { s.due with coverage := false } } := by
  rw [← visitSegment_rpu]
  have honly := visitSegment_only p s.cvu.scanPos s.su.qt s
  generalize hv : visitSegment p s.cvu.scanPos s.su.qt s = v at honly ⊢
  have hdone : (coverageVisit p s).coverageDone = { v with
      cvu := { v.cvu with scanPos := if v.cvu.scanPos + 1 < p.coverage.segCount then v.cvu.scanPos + 1 else 0 }
      due := { v.due with coverage := false } } := by
    rw [← hv]
    rfl
  unfold onlySegmentsDiffer at honly
  rw [hdone, honly]

/-- The segment at the scan position after the visit. -/
theorem coverageVisit_segment (p : Setup) (s : State) (m : Nat) : (coverageVisit p s).coverageDone.cvu.segment m =
    if m = s.cvu.scanPos then (visitedSegment p s.cvu.scanPos s.su.qt (s.cvu.segment s.cvu.scanPos)).1
    else s.cvu.segment m := visitSegment_segment p s.cvu.scanPos m s.su.qt s

/-- A row that names the visit due by a test its segment meets takes the visit whole (R144). -/
theorem scanVisit_meets {s : State} {p : Setup} {meets : Setup → Segment → Bool} (hp : s.su.setup = some p)
    (hr : s.su.runState = .running) (hc : s.due.coverage = true) (hm : meets p (s.cvu.segment s.cvu.scanPos) = true) :
    scanVisit meets s = (coverageVisit p s).coverageDone := by
  rw [scanVisit, hp]
  exact if_pos ⟨hr, hc, hm⟩

theorem exec_segmentAged {s : State} {p : Setup} {n : Fin 128} (hp : s.su.setup = some p)
    (hr : s.su.runState = .running) (hc : s.due.coverage = true) (hn : n.val = s.cvu.scanPos)
    (h : averagesAged p s.su.qt (s.cvu.segment n) = true) :
    exec (.segmentAged n) s = .next (coverageVisit p s).coverageDone := by
  refine congrArg Host.Outcome.next (scanVisit_meets hp hr hc ?_)
  rw [← hn, h, decide_eq_true rfl]
  rfl

theorem exec_shadowAverageAged {s : State} {p : Setup} {n : Fin 128} (hp : s.su.setup = some p)
    (hr : s.su.runState = .running) (hc : s.due.coverage = true) (hn : n.val = s.cvu.scanPos)
    (h : shadowAged p s.su.qt (s.cvu.segment n) = true) :
    exec (.shadowAverageAged n) s = .next (coverageVisit p s).coverageDone := by
  refine congrArg Host.Outcome.next (scanVisit_meets hp hr hc ?_)
  rw [← hn, h, decide_eq_true rfl]
  rfl

/-- Settles O8: the visit makes of its segment what the three steps do, and each row takes that visit. -/
theorem coverageVisitAndAging : Obligations.CoverageVisitAndAging := by
  refine ⟨fun s p hp hr hc => ?_, fun s p n hp hr hc hn => ⟨fun hfilled haged => ?_, fun hfilled haged => ?_⟩⟩
  · refine ⟨_, _, exec_coverageScanVisit hp hr hc, coverageVisit_done p s, rfl,
      fun g hg => (coverageVisit_segment p s g).trans (if_neg hg), visitedSegment_records p _ _ _, ?_⟩
    rw [coverageVisit_segment, if_pos rfl]
    generalize s.cvu.segment s.cvu.scanPos = x
    obtain ⟨hunshadowed, hshadowed, hrejected, hdiscarded, hlast, hlastShadowed, hshadow⟩ :=
      visitedSegment_stands p s.cvu.scanPos s.su.qt x
    refine ⟨hunshadowed, hshadowed, hrejected, hdiscarded, hlast, hlastShadowed, hshadow, ?_⟩
    by_cases h : averagesAged p s.su.qt x = true
    · rw [if_pos ((averagesAged_iff p s.su.qt x).mp h), visitedSegment_aged _ h]
      exact ⟨rfl, rfl, rfl, rfl, rfl, rfl⟩
    · rw [if_neg (mt (averagesAged_iff p s.su.qt x).mpr h)]
      exact visitedSegment_drift s.cvu.scanPos h
  · have h := (averagesAged_iff p s.su.qt _).mpr ⟨hfilled, haged⟩
    refine ⟨_, exec_segmentAged hp hr hc hn h, exec_coverageScanVisit hp hr hc, ?_⟩
    rw [coverageVisit_segment, if_pos hn, ← hn, visitedSegment_aged _ h]
    exact ⟨rfl, rfl⟩
  · have h : shadowAged p s.su.qt (s.cvu.segment n) = true := (shadowAged_iff p s.su.qt _).mpr ⟨hfilled, haged⟩
    obtain ⟨-, -, -, -, -, -, hshadow⟩ := visitedSegment_stands p n s.su.qt (s.cvu.segment n)
    refine ⟨_, exec_shadowAverageAged hp hr hc hn h, exec_coverageScanVisit hp hr hc, ?_⟩
    rw [coverageVisit_segment, if_pos hn, ← hn, hshadow, if_pos haged]

end Sys2Proof.Machine
end

