-- ==== Sys2Proof/Proofs/ViewCoverage.lean ====
section
/-! SUPPORT. What the View Unit holds for a view after a change of a view, after a passed burst's coverage is taken and
after every passed burst has left (R147, R148); and a write in a view window, counted and taken by no window (R149). -/

namespace Sys2Proof.Machine

open Sys2Proof

/-! ### What the View Unit holds for a view -/

theorem viewState_setViewState_same {v : View} (hv : v = .crane ∨ v = .coverage) (u : ViewUnit) (x : ViewState) :
    viewState (setViewState u v x) v = x := by
  rcases hv with rfl | rfl <;> rfl

theorem viewState_setViewState_other {v w : View} (h : w ≠ v) (u : ViewUnit) (x : ViewState) :
    viewState (setViewState u v x) w = viewState u w := by
  cases v with
  | status => rfl
  | reefer => rfl
  | crane =>
    cases w with
    | crane => exact absurd rfl h
    | _ => rfl
  | coverage =>
    cases w with
    | coverage => exact absurd rfl h
    | _ => rfl

/-- Nothing is held for the status page and the reefer view (R152). -/
theorem setViewState_unheld {v : View} (hv : ¬ (v = .crane ∨ v = .coverage)) (u : ViewUnit) (x : ViewState) :
    setViewState u v x = u := by
  cases v with
  | status => rfl
  | reefer => rfl
  | crane => exact absurd (.inl rfl) hv
  | coverage => exact absurd (.inr rfl) hv

/-- A change of a view's coverage set leaves every view's snapshot and generation. -/
theorem setCoverageSet_snapshot (u : ViewUnit) (v w : View) (l : List Nat) :
    (viewState (setViewState u v { viewState u v with coverageSet := l }) w).newest = (viewState u w).newest ∧
      (viewState (setViewState u v { viewState u v with coverageSet := l }) w).generation =
        (viewState u w).generation := by
  by_cases hw : w = v
  · subst hw
    by_cases hv : w = .crane ∨ w = .coverage
    · rw [viewState_setViewState_same hv]
      exact ⟨rfl, rfl⟩
    · rw [setViewState_unheld hv]
      exact ⟨rfl, rfl⟩
  · rw [viewState_setViewState_other hw]
    exact ⟨rfl, rfl⟩

/-! ### The coverage of a passed burst (R147, R148) -/

/-- The View Unit with one binding's coverage taken. -/
def joinCoverage (x : ViewBinding) (u : ViewUnit) : ViewUnit :=
  if x.newest = true ∧ x.mode = .all then
    setViewState u x.view { viewState u x.view with
      coverageSet := addCovered x.view (viewState u x.view).coverageSet (coveredRecords x) }
  else u

theorem takeCoverage_cons (x : ViewBinding) (xs : List ViewBinding) (u : ViewUnit) :
    takeCoverage (x :: xs) u = takeCoverage xs (joinCoverage x u) := rfl

theorem joinCoverage_snapshot (x : ViewBinding) (u : ViewUnit) (v : View) :
    (viewState (joinCoverage x u) v).newest = (viewState u v).newest ∧
      (viewState (joinCoverage x u) v).generation = (viewState u v).generation := by
  unfold joinCoverage
  split
  · exact setCoverageSet_snapshot u x.view v _
  · exact ⟨rfl, rfl⟩

theorem joinCoverage_other {x : ViewBinding} {v : View} (u : ViewUnit)
    (h : x.view = v → x.newest = false ∨ x.mode ≠ .all) : viewState (joinCoverage x u) v = viewState u v := by
  unfold joinCoverage
  split
  case isTrue hx =>
    refine viewState_setViewState_other (fun hv => ?_) u _
    rcases h hv.symm with hn | hm
    · exact Bool.false_ne_true (hn.symm.trans hx.1)
    · exact hm hx.2
  case isFalse => rfl

theorem joinCoverage_same {x : ViewBinding} (u : ViewUnit) (hnew : x.newest = true) (hall : x.mode = .all)
    (hv : x.view = .crane ∨ x.view = .coverage) :
    (viewState (joinCoverage x u) x.view).coverageSet =
      addCovered x.view (viewState u x.view).coverageSet (coveredRecords x) := by
  rw [joinCoverage, if_pos ⟨hnew, hall⟩, viewState_setViewState_same hv]

theorem takeCoverage_snapshot (xs : List ViewBinding) (u : ViewUnit) (v : View) :
    (viewState (takeCoverage xs u) v).newest = (viewState u v).newest ∧
      (viewState (takeCoverage xs u) v).generation = (viewState u v).generation := by
  induction xs generalizing u with
  | nil => exact ⟨rfl, rfl⟩
  | cons x xs ih =>
    obtain ⟨hn, hg⟩ := ih (joinCoverage x u)
    obtain ⟨hn', hg'⟩ := joinCoverage_snapshot x u v
    exact ⟨hn.trans hn', hg.trans hg'⟩

/-- A view none of whose bindings covers is left as it stood. -/
theorem takeCoverage_stands {xs : List ViewBinding} {v : View} (u : ViewUnit)
    (h : ∀ x ∈ xs, x.view = v → x.newest = false ∨ x.mode ≠ .all) :
    viewState (takeCoverage xs u) v = viewState u v := by
  induction xs generalizing u with
  | nil => rfl
  | cons x xs ih =>
    rw [takeCoverage_cons, ih _ fun y hy => h y (List.mem_cons_of_mem x hy),
      joinCoverage_other u (h x List.mem_cons_self)]

/-- The coverage set of an ALL-mode view after the one binding of it, to the newest snapshot, has been taken. -/
theorem takeCoverage_joined {xs : List ViewBinding} {x : ViewBinding} (u : ViewUnit)
    (hnodup : (xs.map ViewBinding.view).Nodup) (hx : x ∈ xs) (hnew : x.newest = true) (hall : x.mode = .all)
    (hv : x.view = .crane ∨ x.view = .coverage) :
    (viewState (takeCoverage xs u) x.view).coverageSet =
      addCovered x.view (viewState u x.view).coverageSet (coveredRecords x) := by
  induction xs generalizing u with
  | nil => cases hx
  | cons y ys ih =>
    rw [List.map_cons, List.nodup_cons] at hnodup
    obtain ⟨hy, hys⟩ := hnodup
    rw [takeCoverage_cons]
    rcases List.mem_cons.mp hx with rfl | hx
    · have hrest : ∀ z ∈ ys, z.view = x.view → z.newest = false ∨ z.mode ≠ .all := fun z hz he =>
        absurd (List.mem_map.mpr ⟨z, hz, he⟩) hy
      rw [takeCoverage_stands _ hrest, joinCoverage_same u hnew hall hv]
    · have hne : y.view = x.view → y.newest = false ∨ y.mode ≠ .all := fun he =>
        absurd (List.mem_map.mpr ⟨x, hx, he.symm⟩) hy
      rw [ih _ hys hx, joinCoverage_other u hne]

theorem mem_addCovered (v : View) (old new : List Nat) (i : Nat) :
    i ∈ addCovered v old new ↔ i < recordCount v ∧ (i ∈ old ∨ i ∈ new) := by
  simp only [addCovered, List.mem_filter, List.mem_range, Bool.or_eq_true, List.contains_iff_mem]

theorem mem_coveredRecords {x : ViewBinding} {n : Snapshot} (h : x.snapshot = some n) (i : Nat) :
    i ∈ coveredRecords x ↔ i ∈ x.covered ∧ i ∉ x.spoiled ∧ i < n.count := by
  simp only [coveredRecords, h, List.mem_filter, Bool.and_eq_true, decide_eq_true_eq, Bool.not_eq_true',
    List.contains_eq_mem, decide_eq_false_iff_not, and_comm]

/-! ### Passed bursts leave -/

theorem finishPassed_snapshot (os : List OpenRead) (s : State) (v : View) :
    (viewState (finishPassed os s).vu v).newest = (viewState s.vu v).newest ∧
      (viewState (finishPassed os s).vu v).generation = (viewState s.vu v).generation := by
  induction os generalizing s with
  | nil => exact ⟨rfl, rfl⟩
  | cons o os ih =>
    rw [finishPassed]
    split
    · obtain ⟨hn, hg⟩ := ih (finishBurst o s)
      obtain ⟨hn', hg'⟩ := takeCoverage_snapshot o.views s.vu v
      exact ⟨hn.trans hn', hg.trans hg'⟩
    · exact ih s

theorem finishPassed_none {os : List OpenRead} (s : State) (h : ∀ o ∈ os, o.passed = false) :
    finishPassed os s = s := by
  induction os with
  | nil => rfl
  | cons o os ih =>
    rw [finishPassed, if_neg (Bool.eq_false_iff.mp (h o List.mem_cons_self))]
    exact ih fun x hx => h x (List.mem_cons_of_mem o hx)

theorem findOpen_id {os : List OpenRead} {id : AxiId} {o : OpenRead} (h : findOpen os id = some o) : o.id = id :=
  of_decide_eq_true (p := o.id = id) (List.find?_some (p := fun x : OpenRead => decide (x.id = id)) h)

/-! ### Writes in view windows (R149) -/

theorem mem_allViews (v : View) : v ∈ allViews := by cases v <;> decide

theorem touchesView_of {w : Write} {t : Windows} {v : View} (h : touches w (viewBase t v) (viewExtent v) = true) :
    touchesView w t = true :=
  List.any_eq_true.mpr ⟨v, mem_allViews v, h⟩

theorem countViewWrite_inside {p : Setup} {w : Write} {s : State} (hp : s.su.setup = some p)
    (h : touchesView w p.windows = true) :
    countViewWrite w s = { s with vu := { s.vu with writes := s.vu.writes + 1 } } := by
  simp only [countViewWrite, hp, h, if_true]

/-- A write that reaches no window but the views is taken by no window's rule, in any run state. -/
theorem writeWindows_views {s : State} {p : Setup} {w : Write} (role : Role) (hp : s.su.setup = some p)
    (h : reachesOnly s w .views) (t : State) (ht : t.su = s.su) : writeWindows role w t = t := by
  have hmiss : ∀ y : WatchedWindow, y ≠ .views → y.reached s p.windows w = false := h p hp
  unfold writeWindows
  rw [ht, hp]
  dsimp only
  split
  · cases role with
    | radio => exact writeRadio_outside p w t (hmiss .ulSlots (by decide)) (hmiss .ulProducer (by decide))
    | app =>
      exact writeApp_outside p w t (hmiss .dlSlots (by decide)) (hmiss .dlProducer (by decide))
        (hmiss .consumer (by decide))
    | other => rfl
  · rfl

/-- A view write answered with an error, or of no other window, is returned and counted, and does nothing else. -/
theorem completeWrite_views {s : State} {p : Setup} {w : Write} {role : Role} (hp : s.su.setup = some p)
    (hrole : forwardedRole s .write w.id = some role) (h : isOkay w.resp = false ∨ reachesOnly s w .views) :
    completeWrite w s = countViewWrite w (returnWrite w s) := by
  rcases completeWrite_cases w s with ⟨hnone, -⟩ | ⟨role', -, ⟨-, herror⟩ | ⟨hokay, htaken⟩⟩
  · cases hnone.symm.trans hrole
  · exact herror
  · have honly : reachesOnly s w .views := h.resolve_left fun hf => Bool.false_ne_true (hf.symm.trans hokay)
    have hsu : (countViewWrite w (returnWrite w s)).su = s.su := countViewWrite_su w _
    have hcommand : coversWhole w (commandWordAddr (countViewWrite w (returnWrite w s))) 4 = false := by
      rw [commandWordAddr, setupBase, hsu]
      exact honly p hp .command (by decide)
    rw [htaken, writeWindows_views role' hp honly _ hsu, writeCommand_outside role' w _ hcommand]

/-! ### The obligation -/

theorem exec_viewBurstLastBeat {s : State} {id : AxiId} {o : OpenRead} (h : findOpen s.pu.openReads id = some o)
    (hpassed : o.passed = true) : exec (.viewBurstLastBeat id) s = .next (finishBurst o s) := by
  simp only [exec, execViewBurstLastBeat, h, hpassed, if_true]

/-- Settles O33: a passed burst's coverage is taken binding by binding, of which one at most is of a view; and a view
write is taken by no window's rule. -/
theorem viewBurstsAndWrites : Obligations.ViewBurstsAndWrites := by
  refine ⟨fun s id o hopen hpassed hnodup => ?_, fun s p w role v hp hrole htouch h => ?_⟩
  · obtain rfl := findOpen_id hopen
    refine ⟨_, exec_viewBurstLastBeat hopen hpassed, rfl, takeCoverage_writes .., fun v => ?_⟩
    obtain ⟨hnewest, hgeneration⟩ := takeCoverage_snapshot o.views s.vu v
    refine ⟨hnewest, hgeneration, takeCoverage_stands s.vu, ?_⟩
    rintro x hx rfl hnew hall n hsnapshot hv i
    rw [finishBurst_vu, takeCoverage_joined s.vu hnodup hx hnew hall hv, mem_addCovered, mem_coveredRecords hsnapshot]
  · have hcovers := touchesView_of htouch
    have hexec : exec (.viewWrite w) s = .next (windowWrite (touchesView w) w s) := rfl
    rw [hexec, windowWrite_reached _ p w s hp hcovers, completeWrite_views hp hrole h,
      countViewWrite_inside (s := returnWrite w s) hp hcovers]
    rfl

end Sys2Proof.Machine
end

