-- ==== Sys2Proof/Proofs/ViewBindings.lean ====
section
/-! SUPPORT. The first data beat of an APP burst (R143 to R148): the images of views stand while bursts are begun and
ended, and every view the burst touches is bound once, to the snapshot that is newest when the burst has begun. -/

namespace Sys2Proof.Machine

open Sys2Proof

/-! ### Images where only the views differ -/

/-- No view shows what the View Unit holds for the others, nor a burst in flight (10.5). -/
theorem onlyViewsDiffer.recordImage_eq {s t : State} (h : onlyViewsDiffer s t) (v : View) (i : Nat) :
    recordImage t v i = recordImage s v i := by
  obtain ⟨vu, pu, rfl, hwrites⟩ : ∃ vu pu, t = { s with vu := vu, pu := pu } ∧ vu.writes = s.vu.writes :=
    ⟨t.vu, _, h⟩
  cases v with
  | status => exact congrArg (fun n => statusImage { s with vu := { s.vu with writes := n } }) hwrites
  | crane => rfl
  | coverage => rfl
  | reefer => rfl

theorem onlyViewsDiffer.units {s t : State} (h : onlyViewsDiffer s t) :
    t.su = s.su ∧ t.rcu = s.rcu ∧ t.clu = s.clu ∧ t.rfu = s.rfu ∧ t.cvu = s.cvu ∧ t.rpu = s.rpu := by
  obtain ⟨ht, -⟩ := h
  rw [ht]
  exact ⟨rfl, rfl, rfl, rfl, rfl, rfl⟩

theorem onlyViewsDiffer.shownCount_eq {s t : State} (h : onlyViewsDiffer s t) (v : View) :
    shownCount t v = shownCount s v := by
  obtain ⟨hsu, -⟩ := h.units
  simp only [shownCount, hsu]

theorem onlyViewsDiffer.takeSnapshot_eq {s t : State} (h : onlyViewsDiffer s t) (v : View) (g : Word) :
    takeSnapshot t v g = takeSnapshot s v g := by
  obtain ⟨hsu, -⟩ := h.units
  have himage : recordImage t v = recordImage s v := funext (h.recordImage_eq v)
  simp only [takeSnapshot, hsu, himage, h.shownCount_eq]

theorem takeSnapshot_images (s : State) (v : View) (g : Word) {i : Nat} (hi : i < recordCount v) :
    (takeSnapshot s v g).images[i]? = some (recordImage s v i) := by
  simp only [takeSnapshot, List.getElem?_map, List.getElem?_range hi, Option.map_some]

/-! ### The snapshot a burst calls for (R146, R147) -/

theorem held_of_viewMode {p : Setup} {v : View} (h : viewMode p v ≠ .live) : v = .crane ∨ v = .coverage := by
  cases v with
  | status => exact absurd rfl h
  | reefer => exact absurd rfl h
  | crane => exact .inl rfl
  | coverage => exact .inr rfl

theorem callsSnapshot_live {p : Setup} {v : View} (b : ReadBeat) (x : ViewState) (h : viewMode p v = .live) :
    callsSnapshot p b v x = false := by
  simp only [callsSnapshot, h]

theorem callsSnapshot_header {p : Setup} {v : View} (b : ReadBeat) (x : ViewState) (h : viewMode p v = .header) :
    callsSnapshot p b v x = true ↔ burstCarries b (viewBase p.windows v) 64 = true ∨ x.newest = none := by
  have hsize : headerSize v = 64 := by
    have hlive : viewMode p v ≠ .live := by simp only [h, ne_eq, reduceCtorEq, not_false_eq_true]
    rcases held_of_viewMode hlive with rfl | rfl <;> rfl
  simp only [callsSnapshot, h, hsize, Bool.or_eq_true, Option.isNone_iff_eq_none]

theorem callsSnapshot_all {p : Setup} {v : View} {x : ViewState} {n : Snapshot} (b : ReadBeat) (h : viewMode p v = .all)
    (hn : x.newest = some n) : callsSnapshot p b v x = true ↔ ∀ i, i < n.count → i ∈ x.coverageSet := by
  simp only [callsSnapshot, h, coverageFull, hn, List.all_eq_true, List.mem_range, List.contains_iff_mem]

/-- A view in HEADER or ALL mode without a snapshot calls for one at any first beat (notes/assumptions/26.md). -/
theorem callsSnapshot_missing {p : Setup} {v : View} {x : ViewState} (b : ReadBeat) (h : viewMode p v ≠ .live)
    (hn : x.newest = none) : callsSnapshot p b v x = true := by
  unfold callsSnapshot
  cases hm : viewMode p v with
  | live => exact absurd hm h
  | header => simp only [hn, Option.isNone_none, Bool.or_true]
  | all => simp only [coverageFull, hn]

/-- What is held for a view once a burst that touches it has begun: a new snapshot of the state, or what was held. -/
def readyView (p : Setup) (b : ReadBeat) (v : View) (s : State) (x : ViewState) : ViewState :=
  if callsSnapshot p b v x = true then ⟨some (takeSnapshot s v (x.generation + 1)), x.generation + 1, []⟩ else x

theorem onlyViewsDiffer.readyView_eq {s t : State} (h : onlyViewsDiffer s t) (p : Setup) (b : ReadBeat) (v : View)
    (x : ViewState) : readyView p b v t x = readyView p b v s x := by
  simp only [readyView, h.takeSnapshot_eq]

theorem readyView_called {p : Setup} {b : ReadBeat} {v : View} {x : ViewState} (s : State)
    (h : callsSnapshot p b v x = true) :
    readyView p b v s x = ⟨some (takeSnapshot s v (x.generation + 1)), x.generation + 1, []⟩ := if_pos h

theorem readyView_stands {p : Setup} {b : ReadBeat} {v : View} {x : ViewState} (s : State)
    (h : ¬ callsSnapshot p b v x = true) : readyView p b v s x = x := if_neg h

/-- Outside LIVE mode a view has a snapshot once a burst that touches it has begun. -/
theorem readyView_newest {p : Setup} {v : View} (b : ReadBeat) (s : State) (x : ViewState) (h : viewMode p v ≠ .live) :
    ∃ n, (readyView p b v s x).newest = some n := by
  by_cases hcall : callsSnapshot p b v x = true
  · exact ⟨_, by rw [readyView_called s hcall]⟩
  · rw [readyView_stands s hcall]
    exact Option.ne_none_iff_exists'.mp fun hnone => hcall (callsSnapshot_missing b h hnone)

theorem readySnapshot_viewState (p : Setup) (b : ReadBeat) (v : View) (s : State) :
    viewState (readySnapshot p b v s).vu v = readyView p b v s (viewState s.vu v) := by
  unfold readySnapshot
  split
  case isTrue h =>
    have hmode : viewMode p v ≠ .live := fun hl => by
      rw [callsSnapshot_live b _ hl] at h
      cases h
    rw [readyView_called s h]
    exact viewState_setViewState_same (held_of_viewMode hmode) ..
  case isFalse h => exact (readyView_stands s h).symm

theorem readySnapshot_other {v w : View} (p : Setup) (b : ReadBeat) (s : State) (h : w ≠ v) :
    viewState (readySnapshot p b v s).vu w = viewState s.vu w := by
  unfold readySnapshot
  split
  · exact viewState_setViewState_other h ..
  · rfl

/-! ### The bindings of a burst (R143, R145, R148) -/

/-- The burst carries a byte of the view. -/
def burstTouches (p : Setup) (b : ReadBeat) (v : View) : Bool := burstCarries b (viewBase p.windows v) (viewExtent v)

/-- The binding made of a view: to the snapshot newest in the unit outside LIVE mode, and to no image yet. -/
def freshBinding (p : Setup) (u : ViewUnit) (v : View) : ViewBinding :=
  ⟨v, viewMode p v, if viewMode p v = .live then none else (viewState u v).newest, [], [], [],
    decide (viewMode p v ≠ .live)⟩

theorem bindView_touched {p : Setup} {b : ReadBeat} {v : View} (s : State) (h : burstTouches p b v = true) :
    bindView p b v s = (readySnapshot p b v s, [freshBinding p (readySnapshot p b v s).vu v]) := by
  have hcarries : burstCarries b (viewBase p.windows v) (viewExtent v) = true := h
  simp only [bindView, hcarries, Bool.not_true, Bool.false_eq_true, if_false, freshBinding]

theorem bindView_untouched {p : Setup} {b : ReadBeat} {v : View} (s : State) (h : burstTouches p b v = false) :
    bindView p b v s = (s, []) := by
  have hcarries : burstCarries b (viewBase p.windows v) (viewExtent v) = false := h
  simp only [bindView, hcarries, Bool.not_false, if_true]

theorem bindView_other {v w : View} (p : Setup) (b : ReadBeat) (s : State) (h : w ≠ v) :
    viewState (bindView p b v s).1.vu w = viewState s.vu w := by
  cases ht : burstTouches p b v with
  | true =>
    rw [bindView_touched s ht]
    exact readySnapshot_other p b s h
  | false => rw [bindView_untouched s ht]

/-- Binding the views of a list leaves what is held for every other view. -/
theorem bindViews_other {vs : List View} {w : View} (p : Setup) (b : ReadBeat) (s : State) (h : w ∉ vs) :
    viewState (bindViews p b vs s).1.vu w = viewState s.vu w := by
  induction vs generalizing s with
  | nil => rfl
  | cons v vs ih =>
    rw [List.mem_cons, not_or] at h
    obtain ⟨hne, hrest⟩ := h
    exact (ih _ hrest).trans (bindView_other p b s hne)

theorem bindViews_viewState {vs : List View} {v : View} (p : Setup) (b : ReadBeat) (s : State) (hnodup : vs.Nodup)
    (hv : v ∈ vs) (ht : burstTouches p b v = true) :
    viewState (bindViews p b vs s).1.vu v = readyView p b v s (viewState s.vu v) := by
  induction vs generalizing s with
  | nil => cases hv
  | cons w ws ih =>
    obtain ⟨hw, hws⟩ := List.nodup_cons.mp hnodup
    rcases List.mem_cons.mp hv with rfl | hv
    · calc viewState (bindViews p b (v :: ws) s).1.vu v
          _ = viewState (bindView p b v s).1.vu v := bindViews_other p b _ hw
          _ = viewState (readySnapshot p b v s).vu v := by rw [bindView_touched s ht]
          _ = readyView p b v s (viewState s.vu v) := readySnapshot_viewState p b v s
    · have hne : v ≠ w := fun he => hw (he ▸ hv)
      calc viewState (bindViews p b (w :: ws) s).1.vu v
          _ = readyView p b v (bindView p b w s).1 (viewState (bindView p b w s).1.vu v) := ih _ hws hv
          _ = readyView p b v s (viewState s.vu v) := by
            rw [bindView_other p b s hne, (bindView_only p b w s).readyView_eq]

/-- The views a burst touches are bound, each to the snapshot newest once all are ready. -/
theorem bindViews_bindings {vs : List View} (p : Setup) (b : ReadBeat) (s : State) (hnodup : vs.Nodup) :
    (bindViews p b vs s).2 = (vs.filter (burstTouches p b)).map (freshBinding p (bindViews p b vs s).1.vu) := by
  induction vs generalizing s with
  | nil => rfl
  | cons v vs ih =>
    obtain ⟨hv, hvs⟩ := List.nodup_cons.mp hnodup
    have hcons : (bindViews p b (v :: vs) s).2 =
        (bindView p b v s).2 ++ (bindViews p b vs (bindView p b v s).1).2 := rfl
    have hstate : (bindViews p b (v :: vs) s).1 = (bindViews p b vs (bindView p b v s).1).1 := rfl
    rw [hcons, hstate, ih _ hvs]
    cases ht : burstTouches p b v with
    | true =>
      rw [List.filter_cons_of_pos ht, List.map_cons, bindView_touched s ht]
      have hsame : freshBinding p (bindViews p b vs (readySnapshot p b v s)).1.vu v =
          freshBinding p (readySnapshot p b v s).vu v := by
        simp only [freshBinding, bindViews_other p b _ hv]
      rw [hsame]
      rfl
    | false =>
      rw [List.filter_cons_of_neg (Bool.eq_false_iff.mp ht), bindView_untouched s ht]
      rfl

/-! ### The burst begun -/

/-- An APP burst begun under a setup, in the state it is begun in: judged against the window table in force, and bound
to the views it touches (R143, R163). -/
def appBurst (p : Setup) (b : ReadBeat) (s : State) : OpenRead :=
  ⟨b.id, .app, some p.windows, (allViews.filter (burstTouches p b)).map (freshBinding p s.vu), false, false⟩

theorem appBurst_nodup (p : Setup) (b : ReadBeat) (s : State) :
    ((appBurst p b s).views.map ViewBinding.view).Nodup := by
  have hviews : (appBurst p b s).views.map ViewBinding.view = allViews.filter (burstTouches p b) := by
    simp only [appBurst, List.map_map]
    exact List.map_id _
  rw [hviews]
  exact (show allViews.Nodup by decide).filter _

theorem freshBinding_mem {p : Setup} {b : ReadBeat} {v : View} (s : State) (h : burstTouches p b v = true) :
    freshBinding p s.vu v ∈ (appBurst p b s).views :=
  List.mem_map_of_mem (List.mem_filter.mpr ⟨mem_allViews v, h⟩)

/-- The first data beat of a forwarded APP burst begins it in a state where only the views differ, and where each view
it touches is ready. -/
theorem burstOf_first {s : State} {p : Setup} {b : ReadBeat} (hp : s.su.setup = some p)
    (hrole : forwardedRole s .read b.id = some .app) (hbeat : b.beat = 0) :
    ∃ s1, burstOf b s = some (appBurst p b s1, s1) ∧ onlyViewsDiffer s s1 ∧
      ∀ v, burstTouches p b v = true →
        viewState s1.vu v = readyView p b v s (viewState (finishPassed s.pu.openReads s).vu v) := by
  have hdone := finishPassed_only s.pu.openReads s
  obtain ⟨hsu, -⟩ := hdone.units
  have hcont : continued b s = none := by simp only [continued, hbeat, if_true]
  refine ⟨(bindViews p b allViews (finishPassed s.pu.openReads s)).1, ?_, hdone.trans (bindViews_only ..),
    fun v ht => ?_⟩
  · simp only [burstOf, hcont, hrole, beginBurst, hsu, hp, if_true, appBurst,
      bindViews_bindings p b _ (show allViews.Nodup by decide)]
  · rw [bindViews_viewState p b _ (by decide) (mem_allViews v) ht, hdone.readyView_eq]

/-- A later beat belongs to the burst it continues, in the state as it stands. -/
theorem burstOf_later {s : State} {b : ReadBeat} {o : OpenRead} (h : continued b s = some o) :
    burstOf b s = some (o, s) := by
  simp only [burstOf, h]

/-- The span of a well-formed beat is one of its burst's, so a burst carries what its beat carries. -/
theorem burstCarries_of_beat {b : ReadBeat} {base size : Nat} (hok : b.ok = true) (h : beatCarries b base size = true) :
    burstCarries b base size = true := by
  obtain ⟨-, hspan⟩ := Bool.and_eq_true_iff.mp hok
  cases hx : b.spans[b.beat]? with
  | none =>
    rw [hx] at hspan
    cases hspan
  | some x =>
    rw [hx] at hspan
    simp only [beatCarries, beatAddr, hx, of_decide_eq_true hspan] at h
    exact List.any_eq_true.mpr ⟨x, List.mem_of_getElem? hx, h⟩

end Sys2Proof.Machine
end

