-- ==== Sys2Proof/Proofs/ViewBytes.lean ====
section
/-! SUPPORT. The bytes of a beat in views (R143 to R151): the images a LIVE binding holds, the byte a binding serves,
and what an APP beat returns, notices and keeps. -/

namespace Sys2Proof.Machine

open Sys2Proof

/-! ### The images a burst holds (R144) -/

theorem holdRecords_prefix (s : State) (v : View) (is : List Nat) (held : List (Nat × List Byte)) :
    held <+: holdRecords s v is held := by
  induction is generalizing held with
  | nil => exact List.prefix_rfl
  | cons i is ih =>
    rw [holdRecords]
    split
    · exact ih held
    · exact (List.prefix_append held _).trans (ih _)

/-- An image once taken is the one the burst keeps. -/
theorem holdRecords_held {held : List (Nat × List Byte)} {i : Nat} {h : Nat × List Byte} (s : State) (v : View)
    (is : List Nat) (hfind : held.find? (fun h => decide (h.1 = i)) = some h) :
    (holdRecords s v is held).find? (fun h => decide (h.1 = i)) = some h := by
  obtain ⟨rest, hrest⟩ := holdRecords_prefix s v is held
  rw [← hrest, List.find?_append, hfind, Option.some_or]

/-- A record of the list not held yet is taken as it stands. -/
theorem holdRecords_taken {is : List Nat} {held : List (Nat × List Byte)} {i : Nat} (s : State) (v : View)
    (hfind : held.find? (fun h => decide (h.1 = i)) = none) (hi : i ∈ is) :
    (holdRecords s v is held).find? (fun h => decide (h.1 = i)) = some (i, recordImage s v i) := by
  induction is generalizing held with
  | nil => cases hi
  | cons j js ih =>
    rw [holdRecords]
    by_cases hji : j = i
    · subst hji
      have hany : held.any (fun h => decide (h.1 = j)) = false :=
        List.any_eq_false.mpr (List.find?_eq_none.mp hfind)
      rw [hany, if_neg Bool.false_ne_true]
      refine holdRecords_held s v js ?_
      rw [List.find?_append, hfind, Option.none_or]
      exact List.find?_cons_of_pos (decide_eq_true rfl)
    · have hjs : i ∈ js := (List.mem_cons.mp hi).resolve_left (Ne.symm hji)
      split
      · exact ih hfind hjs
      · refine ih ?_ hjs
        rw [List.find?_append, hfind, Option.none_or]
        exact List.find?_cons_of_neg (by simpa using hji)

/-- The record of a byte of the beat is among the beat's records. -/
theorem mem_beatRecords {tb : Windows} {v : View} {a n j : Nat} (hj : j < n)
    (hin : inExtent (viewBase tb v) (viewExtent v) (a + j) = true) (hrecord : headerSize v ≤ a + j - viewBase tb v) :
    (a + j - viewBase tb v - headerSize v) / recordSize v ∈ beatRecords tb v a n := by
  refine List.mem_filterMap.mpr ⟨j, List.mem_range.mpr hj, ?_⟩
  rw [if_pos hin, recordIndex, if_neg (Nat.not_lt.mpr hrecord)]

/-! ### The binding after a beat -/

theorem noteBeat_held {x : ViewBinding} (s : State) (tb : Windows) (b : ReadBeat) (hlive : x.mode = .live) :
    (noteBeat s tb b x).held = holdRecords s x.view (beatRecords tb x.view (beatAddr b) b.data.length) x.held :=
  if_pos hlive

@[simp] theorem noteBeat_view (s : State) (tb : Windows) (b : ReadBeat) (x : ViewBinding) :
    (noteBeat s tb b x).view = x.view := rfl

@[simp] theorem noteBeat_snapshot (s : State) (tb : Windows) (b : ReadBeat) (x : ViewBinding) :
    (noteBeat s tb b x).snapshot = x.snapshot := rfl

section Byte

variable {tb : Windows} {b : ReadBeat} {x : ViewBinding} {j : Nat}

/-- After a beat a record of it is held: the image held before, or the record as it stands. -/
theorem noteBeat_find {i : Nat} (s : State) (hlive : x.mode = .live)
    (hi : i ∈ beatRecords tb x.view (beatAddr b) b.data.length) :
    (noteBeat s tb b x).held.find? (fun h => decide (h.1 = i)) =
      (x.held.find? (fun h => decide (h.1 = i))).or (some (i, recordImage s x.view i)) := by
  rw [noteBeat_held s tb b hlive]
  cases hheld : x.held.find? (fun h => decide (h.1 = i)) with
  | some h => exact holdRecords_held s x.view _ hheld
  | none => exact holdRecords_taken s x.view hheld hi

/-- A record of the beat that the burst did not hold is held after it, as it stands. -/
theorem noteBeat_takes {i : Nat} (s : State) (hlive : x.mode = .live)
    (hi : i ∈ beatRecords tb x.view (beatAddr b) b.data.length)
    (hnone : x.held.find? (fun h => decide (h.1 = i)) = none) :
    (i, recordImage s x.view i) ∈ (noteBeat s tb b x).held := by
  have hfind := noteBeat_find s hlive hi
  rw [hnone, Option.none_or] at hfind
  exact List.mem_of_find?_eq_some hfind

/-- A LIVE binding serves a record's byte from the image it holds. -/
theorem boundByte_held {off : Nat} {h : Nat × List Byte} (s : State) (hsnapshot : x.snapshot = none)
    (hheader : ¬ off < headerSize x.view)
    (hfind : x.held.find? (fun h => decide (h.1 = (off - headerSize x.view) / recordSize x.view)) = some h) :
    boundByte s x off = (h.2[(off - headerSize x.view) % recordSize x.view]?).getD 0 := by
  simp only [boundByte, recordIndex, hheader, if_false, hsnapshot, hfind, Option.map_some, Option.getD_some]

/-- A LIVE binding serves the header of this beat and the records held, those of this beat taken with it. -/
theorem boundByte_live (s : State) (hlive : x.mode = .live) (hsnapshot : x.snapshot = none) (hj : j < b.data.length)
    (hin : inExtent (viewBase tb x.view) (viewExtent x.view) (beatAddr b + j) = true) :
    boundByte s (noteBeat s tb b x) (beatAddr b + j - viewBase tb x.view) =
      liveByte s x.view x.held (beatAddr b + j - viewBase tb x.view) := by
  have hmem := mem_beatRecords (tb := tb) (v := x.view) hj hin
  generalize beatAddr b + j - viewBase tb x.view = off at hmem ⊢
  by_cases hheader : off < headerSize x.view
  · simp only [boundByte, liveByte, noteBeat_view, noteBeat_snapshot, recordIndex, hheader, if_true, hsnapshot]
  · have hfind := noteBeat_find s hlive (hmem (Nat.not_lt.mp hheader))
    simp only [liveByte, hheader, if_false]
    split
    next h hheld =>
      rw [hheld, Option.some_or] at hfind
      exact boundByte_held (x := noteBeat s tb b x) s hsnapshot hheader hfind
    next hnone =>
      rw [hnone, Option.none_or] at hfind
      exact boundByte_held (x := noteBeat s tb b x) s hsnapshot hheader hfind

/-- A binding to a snapshot serves the snapshot's bytes, whatever the state (R148). -/
theorem boundByte_snapshot {n : Snapshot} (s : State) (off : Nat) (hsnapshot : x.snapshot = some n) :
    boundByte s x off = snapshotByte x.view x.mode n off := by
  by_cases hheader : off < headerSize x.view
  · simp only [boundByte, snapshotByte, recordIndex, hheader, if_true, hsnapshot]
  · simp only [boundByte, snapshotByte, recordIndex, hheader, if_false, hsnapshot]

end Byte

theorem onlyViewsDiffer.liveByte_eq {s t : State} (h : onlyViewsDiffer s t) (v : View) (held : List (Nat × List Byte))
    (off : Nat) : liveByte t v held off = liveByte s v held off := by
  obtain ⟨hsu, -⟩ := h.units
  simp only [liveByte, h.shownCount_eq, h.recordImage_eq, hsu]

/-! ### What a beat returns and keeps -/

/-- The data an APP beat returns: the views' bytes, or DRAM's alone with an error (R143, R149). -/
def returnedData (tb : Windows) (b : ReadBeat) (o : OpenRead) (s : State) : List Byte :=
  if isOkay b.resp then viewBytes s tb (o.views.map (noteBeat s tb b)) (beatAddr b) b.data else b.data

/-- The state after the notice of a summary read, where the beat is one (R151). -/
def noticed (tb : Windows) (b : ReadBeat) (o : OpenRead) (s : State) : State :=
  if isSummaryRead tb b o then summaryNotice s else s

theorem appBeat_eq (tb : Windows) (b : ReadBeat) (o : OpenRead) (s : State) : appBeat tb b o s =
    endBeat b { o with views := o.views.map (noteBeat s tb b) } (returnedData tb b o s) (noticed tb b o s) := rfl

theorem summaryNotice_frame (s : State) : summaryNotice s = { s with rpu := (summaryNotice s).rpu } := by
  unfold summaryNotice
  split
  · split <;> rfl
  · rfl

theorem noticed_frame (tb : Windows) (b : ReadBeat) (o : OpenRead) (s : State) :
    noticed tb b o s = { s with rpu := (noticed tb b o s).rpu } := by
  unfold noticed
  split
  · exact summaryNotice_frame s
  · rfl

theorem summaryNotice_rpu {s : State} {p : Setup} (hp : s.su.setup = some p) :
    (summaryNotice s).rpu = if p.irqMode = .latchRead then { s.rpu with craneLatch := false } else s.rpu := by
  simp only [summaryNotice, hp]
  split <;> rfl

/-- A beat in a view changes neither the units the views show nor, of itself, the View Unit. -/
theorem appBeat_units (tb : Windows) (b : ReadBeat) (o : OpenRead) (s : State) :
    (appBeat tb b o s).su = s.su ∧ (appBeat tb b o s).rcu = s.rcu ∧ (appBeat tb b o s).clu = s.clu ∧
      (appBeat tb b o s).rfu = s.rfu ∧ (appBeat tb b o s).cvu = s.cvu ∧ (appBeat tb b o s).vu = s.vu := by
  rw [appBeat_eq, noticed_frame]
  exact ⟨rfl, rfl, rfl, rfl, rfl, rfl⟩

theorem appBeat_rpu (tb : Windows) (b : ReadBeat) (o : OpenRead) (s : State) :
    (appBeat tb b o s).rpu = (noticed tb b o s).rpu := rfl

theorem appBeat_up (tb : Windows) (b : ReadBeat) (o : OpenRead) (s : State) :
    (appBeat tb b o s).pu.up = [⟨b.id, b.resp, returnedData tb b o s⟩] := rfl

/-- A beat that is not the last keeps its burst in flight, with its bindings noted. -/
theorem appBeat_findOpen {b : ReadBeat} {o : OpenRead} (tb : Windows) (s : State) (hid : o.id = b.id)
    (hmore : b.beat + 1 < b.spans.length) :
    findOpen (appBeat tb b o s).pu.openReads b.id = some { o with views := o.views.map (noteBeat s tb b) } := by
  rw [appBeat_eq]
  exact endBeat_findOpen (o := { o with views := o.views.map (noteBeat s tb b) }) _ _ hid hmore

theorem returnedData_length (tb : Windows) (b : ReadBeat) (o : OpenRead) (s : State) :
    (returnedData tb b o s).length = b.data.length := by
  unfold returnedData
  split
  · exact viewBytes_length ..
  · rfl

theorem returnedData_error {b : ReadBeat} (tb : Windows) (o : OpenRead) (s : State) (h : isOkay b.resp = false) :
    returnedData tb b o s = b.data := if_neg (Bool.eq_false_iff.mp h)

section Data

variable {tb : Windows} {b : ReadBeat} {o : OpenRead} {j : Nat}

theorem returnedData_get (s : State) (hokay : isOkay b.resp = true) : (returnedData tb b o s)[j]? =
    (b.data[j]?).map (viewByte s tb (o.views.map (noteBeat s tb b)) (beatAddr b + j)) := by
  rw [returnedData, if_pos hokay, viewBytes_get]

/-- A byte in no view is DRAM's. -/
theorem returnedData_outside (s : State) (hokay : isOkay b.resp = true)
    (hout : ∀ u, inExtent (viewBase tb u) (viewExtent u) (beatAddr b + j) = false) :
    (returnedData tb b o s)[j]? = b.data[j]? := by
  have hnone : (o.views.map (noteBeat s tb b)).find?
      (fun x => inExtent (viewBase tb x.view) (viewExtent x.view) (beatAddr b + j)) = none :=
    List.find?_eq_none.mpr fun x _ => Bool.eq_false_iff.mp (hout x.view)
  have hbyte : viewByte s tb (o.views.map (noteBeat s tb b)) (beatAddr b + j) = id := funext fun d => by
    rw [viewByte, hnone]
    rfl
  rw [returnedData_get s hokay, hbyte, Option.map_id, id]

/-- The one binding of a view is the one found for a byte of that view alone. -/
theorem find_binding {xs : List ViewBinding} {x : ViewBinding} {a : Nat} (hnodup : (xs.map ViewBinding.view).Nodup)
    (hx : x ∈ xs) (honly : inViewOnly tb x.view a) :
    xs.find? (fun y => inExtent (viewBase tb y.view) (viewExtent y.view) a) = some x := by
  obtain ⟨hin, hout⟩ := honly
  cases hfind : xs.find? (fun y => inExtent (viewBase tb y.view) (viewExtent y.view) a) with
  | none => exact absurd hin (List.find?_eq_none.mp hfind x hx)
  | some y =>
    have hy : inExtent (viewBase tb y.view) (viewExtent y.view) a = true :=
      List.find?_some (p := fun y : ViewBinding => inExtent (viewBase tb y.view) (viewExtent y.view) a) hfind
    have hview : y.view = x.view := by
      by_contra hne
      exact Bool.false_ne_true ((hout y.view hne).symm.trans hy)
    rw [List.inj_on_of_nodup_map hnodup (List.mem_of_find?_eq_some hfind) hx hview]

/-- A byte of one view alone is the one its binding serves. -/
theorem returnedData_inside {x : ViewBinding} (s : State) (hokay : isOkay b.resp = true)
    (hnodup : (o.views.map ViewBinding.view).Nodup) (hx : x ∈ o.views) (hj : j < b.data.length)
    (honly : inViewOnly tb x.view (beatAddr b + j)) : (returnedData tb b o s)[j]? =
      some (boundByte s (noteBeat s tb b x) (beatAddr b + j - viewBase tb x.view)) := by
  have hsame : (o.views.map (noteBeat s tb b)).map ViewBinding.view = o.views.map ViewBinding.view := by
    rw [List.map_map]
    rfl
  have hfind := find_binding (tb := tb) (hsame ▸ hnodup) (List.mem_map_of_mem (f := noteBeat s tb b) hx) honly
  rw [returnedData_get s hokay, List.getElem?_eq_getElem hj, Option.map_some, viewByte, hfind]
  rfl

theorem returnedData_live {x : ViewBinding} (s : State) (hokay : isOkay b.resp = true)
    (hnodup : (o.views.map ViewBinding.view).Nodup) (hx : x ∈ o.views) (hlive : x.mode = .live)
    (hsnapshot : x.snapshot = none) (hj : j < b.data.length) (honly : inViewOnly tb x.view (beatAddr b + j)) :
    (returnedData tb b o s)[j]? = some (liveByte s x.view x.held (beatAddr b + j - viewBase tb x.view)) := by
  rw [returnedData_inside s hokay hnodup hx hj honly, boundByte_live s hlive hsnapshot hj honly.1]

theorem returnedData_snapshot {x : ViewBinding} {n : Snapshot} (s : State) (hokay : isOkay b.resp = true)
    (hnodup : (o.views.map ViewBinding.view).Nodup) (hx : x ∈ o.views) (hsnapshot : x.snapshot = some n)
    (hj : j < b.data.length) (honly : inViewOnly tb x.view (beatAddr b + j)) :
    (returnedData tb b o s)[j]? = some (snapshotByte x.view x.mode n (beatAddr b + j - viewBase tb x.view)) := by
  rw [returnedData_inside s hokay hnodup hx hj honly]
  exact congrArg some (boundByte_snapshot (x := noteBeat s tb b x) s _ hsnapshot)

end Data

end Sys2Proof.Machine
end

