-- ==== Sys2Proof/Proofs/ViewReads.lean ====
section
/-! SUPPORT. The row VIEW_READ_BEAT of an APP burst at its first beat and at later ones, and the statements about LIVE
views, snapshots and the summary read (R143 to R151). -/

namespace Sys2Proof.Machine

open Sys2Proof

/-! ### The row -/

/-- VIEW_READ_BEAT of an APP burst, a byte of a view in the beat. -/
theorem exec_viewReadBeat {s s1 : State} {b : ReadBeat} {o : OpenRead} {tb : Windows} {v : View}
    (hburst : burstOf b s = some (o, s1)) (hrole : o.role = .app) (htable : o.table = some tb)
    (hcarries : beatCarries b (viewBase tb v) (viewExtent v) = true) :
    exec (.viewReadBeat b) s = .next (appBeat tb b o s1) := by
  have hview : isViewBeat b o = true := by
    simp only [isViewBeat, htable]
    exact List.any_eq_true.mpr ⟨v, mem_allViews v, hcarries⟩
  simp only [exec, execViewReadBeat, passBeat, hburst, hview, if_true, carryBeat, htable, hrole]

/-- The first beat of an APP burst, a byte of view `v` in the beat: the burst is begun, then the beat passed. -/
theorem exec_firstViewBeat {s : State} {p : Setup} {b : ReadBeat} {v : View} (hp : s.su.setup = some p)
    (hrole : forwardedRole s .read b.id = some .app) (hbeat : b.beat = 0) (hok : b.ok = true)
    (hcarries : beatCarries b (viewBase p.windows v) (viewExtent v) = true) :
    ∃ s1, exec (.viewReadBeat b) s = .next (appBeat p.windows b (appBurst p b s1) s1) ∧ onlyViewsDiffer s s1 ∧
      freshBinding p s1.vu v ∈ (appBurst p b s1).views ∧
      viewState s1.vu v = readyView p b v s (viewState (finishPassed s.pu.openReads s).vu v) := by
  obtain ⟨s1, hburst, honly, hready⟩ := burstOf_first hp hrole hbeat
  have htouch : burstTouches p b v = true := burstCarries_of_beat hok hcarries
  exact ⟨s1, exec_viewReadBeat hburst rfl rfl hcarries, honly, freshBinding_mem s1 htouch, hready v htouch⟩

/-! ### The obligations -/

/-- Settles O29: a LIVE binding serves what it holds, and takes with each beat the records it did not hold. -/
theorem liveViewRead : Obligations.LiveViewRead := by
  refine ⟨fun s p b v hp hrole hbeat hok hcarries hlive => ?_,
    fun s b o tb x hcont hrole htable hnodup hx hlive hsnapshot hokay hcarries => ?_⟩
  · obtain ⟨s1, hexec, honly, hbound, -⟩ := exec_firstViewBeat hp hrole hbeat hok hcarries
    obtain ⟨hsu, hrcu, hclu, hrfu, hcvu, -⟩ := honly.units
    obtain ⟨hsu', hrcu', hclu', hrfu', hcvu', -⟩ := appBeat_units p.windows b (appBurst p b s1) s1
    have hsnapshot : (freshBinding p s1.vu v).snapshot = none := if_pos hlive
    refine ⟨_, _, hexec, appBeat_up .., returnedData_length .., hsu'.trans hsu, hrcu'.trans hrcu, hclu'.trans hclu,
      hrfu'.trans hrfu, hcvu'.trans hcvu, returnedData_error _ _ s1,
      fun hokay j hj => ⟨returnedData_outside s1 hokay, fun hin => ?_⟩, fun hmore => ?_⟩
    · rw [returnedData_live s1 hokay (appBurst_nodup p b s1) hbound hlive hsnapshot hj hin]
      exact congrArg some (honly.liveByte_eq v [] _)
    · refine ⟨_, _, appBeat_findOpen p.windows s1 rfl (by rwa [hbeat]), rfl, rfl, List.mem_map_of_mem hbound, rfl,
        hlive, hsnapshot, fun j hj hin hrecord => ?_⟩
      rw [← honly.recordImage_eq]
      exact noteBeat_takes (x := freshBinding p s1.vu v) s1 hlive (mem_beatRecords hj hin hrecord) rfl
  · have hburst := burstOf_later hcont
    obtain ⟨hsu, hrcu, hclu, hrfu, hcvu, hvu⟩ := appBeat_units tb b o s
    refine ⟨_, _, exec_viewReadBeat hburst hrole htable hcarries, appBeat_up .., returnedData_length .., hsu, hrcu,
      hclu, hrfu, hcvu, hvu, fun j hj hin => returnedData_live s hokay hnodup hx hlive hsnapshot hj hin,
      fun hmore => ?_⟩
    refine ⟨_, _, appBeat_findOpen tb s (burstOf_id hburst) hmore, List.mem_map_of_mem hx, rfl, hlive, hsnapshot, ?_,
      fun j hj hin hrecord hnew => ?_⟩
    · rw [noteBeat_held s tb b hlive]
      exact holdRecords_prefix ..
    · refine noteBeat_takes s hlive (mem_beatRecords hj hin hrecord) (List.find?_eq_none.mpr fun h hh => ?_)
      simpa using hnew h hh

/-- Settles O30: what is held for the view once the burst has begun, by whether its mode calls for a snapshot. -/
theorem viewSnapshotsTaken : Obligations.ViewSnapshotsTaken := by
  refine ⟨fun s p b v hp hrole hbeat hok hcarries hmode => ?_,
    fun s p b v n hp hrole hbeat hok hcarries hmode hnewest hflight => ?_⟩
  · obtain ⟨s1, hexec, honly, -, hready⟩ := exec_firstViewBeat hp hrole hbeat hok hcarries
    obtain ⟨-, hrcu, hclu, hrfu, hcvu, -⟩ := honly.units
    obtain ⟨-, hrcu', hclu', hrfu', hcvu', hvu⟩ := appBeat_units p.windows b (appBurst p b s1) s1
    obtain ⟨hnewest, hgeneration⟩ := finishPassed_snapshot s.pu.openReads s v
    have hcalls := callsSnapshot_header b (viewState (finishPassed s.pu.openReads s).vu v) hmode
    rw [hnewest] at hcalls
    refine ⟨_, hexec, hrcu'.trans hrcu, hclu'.trans hclu, hrfu'.trans hrfu, hcvu'.trans hcvu,
      (congrArg ViewUnit.writes hvu).trans honly.2, ?_⟩
    dsimp only
    rw [hvu, hready]
    split
    case isTrue hcall =>
      rw [readyView_called s (hcalls.mpr hcall), hgeneration]
      exact ⟨rfl, rfl, _, rfl, rfl, rfl, fun i hi => takeSnapshot_images s v _ hi⟩
    case isFalse hcall =>
      rw [readyView_stands s (mt hcalls.mp hcall)]
      exact ⟨hgeneration, hnewest⟩
  · obtain ⟨s1, hexec, -, -, hready⟩ := exec_firstViewBeat hp hrole hbeat hok hcarries
    obtain ⟨-, -, -, -, -, hvu⟩ := appBeat_units p.windows b (appBurst p b s1) s1
    rw [finishPassed_none s hflight] at hready
    have hcalls := callsSnapshot_all b hmode hnewest
    refine ⟨_, hexec, ?_⟩
    rw [hvu, hready]
    split
    case isTrue hfull =>
      rw [readyView_called s (hcalls.mpr hfull)]
      exact ⟨rfl, rfl, rfl⟩
    case isFalse hfull => exact readyView_stands s (mt hcalls.mp hfull)

/-- Settles O31: outside LIVE mode a binding has a snapshot, the newest at the first beat, and serves it to the last. -/
theorem snapshotServesBurst : Obligations.SnapshotServesBurst := by
  refine ⟨fun s p b v hp hrole hbeat hok hokay hcarries hmode => ?_,
    fun s b o tb x n hcont hrole htable hnodup hx hsnapshot hokay hcarries => ?_⟩
  · obtain ⟨s1, hexec, -, hbound, hready⟩ := exec_firstViewBeat hp hrole hbeat hok hcarries
    obtain ⟨-, -, -, -, -, hvu⟩ := appBeat_units p.windows b (appBurst p b s1) s1
    obtain ⟨n, hnewest⟩ := readyView_newest b s (viewState (finishPassed s.pu.openReads s).vu v) hmode
    rw [← hready] at hnewest
    have hsnapshot : (freshBinding p s1.vu v).snapshot = some n := (if_neg hmode).trans hnewest
    refine ⟨_, _, n, hexec, appBeat_up .., returnedData_length .., by rw [hvu, hnewest],
      fun j hj hin => returnedData_snapshot s1 hokay (appBurst_nodup p b s1) hbound hsnapshot hj hin, fun hmore => ?_⟩
    refine ⟨_, _, appBeat_findOpen p.windows s1 rfl (by rwa [hbeat]), rfl, rfl, ?_, List.mem_map_of_mem hbound, rfl,
      rfl, hsnapshot, decide_eq_true hmode⟩
    rw [List.map_map]
    exact appBurst_nodup p b s1
  · have hburst := burstOf_later hcont
    obtain ⟨-, -, -, -, -, hvu⟩ := appBeat_units tb b o s
    exact ⟨_, _, exec_viewReadBeat hburst hrole htable hcarries, appBeat_up .., returnedData_length .., hvu,
      fun j hj hin => returnedData_snapshot s hokay hnodup hx hsnapshot hj hin,
      fun hmore => ⟨_, _, appBeat_findOpen tb s (burstOf_id hburst) hmore, List.mem_map_of_mem hx, rfl, rfl, hsnapshot,
        rfl⟩⟩

/-- The first beat with a byte of the page is a summary read exactly where the burst carries the summary word. -/
theorem isSummaryRead_first {p : Setup} {b : ReadBeat} {s : State}
    (hcarries : beatCarries b p.windows.statusPage 256 = true)
    (hbound : freshBinding p s.vu .status ∈ (appBurst p b s).views) :
    isSummaryRead p.windows b (appBurst p b s) = burstCarries b (p.windows.statusPage + 10) 2 := by
  have hpage : (appBurst p b s).views.any (fun x => decide (x.view = .status) && x.held.isEmpty) = true :=
    List.any_eq_true.mpr ⟨_, hbound, rfl⟩
  rw [isSummaryRead, hcarries, hpage, Bool.true_and, Bool.and_true]

/-- Settles O32: the notice of a summary read clears the latch in LATCH_READ mode and changes nothing else there. -/
theorem summaryReadClearsLatch : Obligations.SummaryReadClearsLatch := by
  intro s p b hp hrole hbeat hok hcarries
  obtain ⟨s1, hexec, honly, hbound, -⟩ := exec_firstViewBeat (v := .status) hp hrole hbeat hok hcarries
  obtain ⟨hsu, -, -, -, -, hrpu⟩ := honly.units
  obtain ⟨hsu', -⟩ := appBeat_units p.windows b (appBurst p b s1) s1
  have hp1 : s1.su.setup = some p := (congrArg SetupUnit.setup hsu).trans hp
  have hreport : (appBeat p.windows b (appBurst p b s1) s1).rpu =
      if burstCarries b (p.windows.statusPage + 10) 2 = true ∧ p.irqMode = .latchRead then
        { s.rpu with craneLatch := false } else s.rpu := by
    rw [appBeat_rpu, noticed, isSummaryRead_first hcarries hbound]
    cases burstCarries b (p.windows.statusPage + 10) 2 with
    | true => simp only [if_true, summaryNotice_rpu hp1, hrpu, true_and]
    | false => simp only [Bool.false_eq_true, if_false, hrpu, false_and]
  refine ⟨_, hexec, hreport, fun hword hmode => ?_⟩
  rw [if_pos ⟨hword, hmode⟩] at hreport
  simp only [irqCrane, hsu', hp1, hmode, hreport]

end Sys2Proof.Machine
end

