-- ==== Sys2Proof/Proofs/ReportRing.lean ====
section
/-! SUPPORT. The Report Unit: drops counted, records handed over, heads taken, the two injected writes answered, the
consumer index and the end of a pulse (R154 to R161). -/

namespace Sys2Proof.Machine

open Sys2Proof

/-! ### Drops (R156) -/

section Drop
variable (u : ReportUnit) (n : Nat)

/-- Drops change both counts and the flag alone. -/
theorem ReportUnit.drop_frame : u.drop n = { u with
    pendingDrops := (u.drop n).pendingDrops, totalDrops := u.totalDrops + BitVec.ofNat 32 n,
    dropFlag := u.dropFlag || decide (n ≠ 0) } := by
  by_cases hn : n = 0 <;> simp [ReportUnit.drop, hn]

/-- Drops of a unit whose pending count is no more than 65535 (R156). -/
theorem ReportUnit.drop_eq (hd : u.pendingDrops ≤ 65535) : u.drop n = { u with
    pendingDrops := min 65535 (u.pendingDrops + n), totalDrops := u.totalDrops + BitVec.ofNat 32 n,
    dropFlag := u.dropFlag || decide (n ≠ 0) } := by
  have hpending : (u.drop n).pendingDrops = min 65535 (u.pendingDrops + n) := by
    unfold ReportUnit.drop
    split
    case isTrue hn => rw [hn, Nat.add_zero, Nat.min_eq_right hd]
    case isFalse => rfl
  rw [u.drop_frame n, hpending]

@[simp] theorem ReportUnit.drop_zero : u.drop 0 = u := if_pos rfl

@[simp] theorem ReportUnit.drop_queue : (u.drop n).queue = u.queue := by rw [u.drop_frame]

@[simp] theorem ReportUnit.drop_ring : (u.drop n).ring = u.ring := by rw [u.drop_frame]

theorem ReportUnit.drop_drop (m : Nat) : (u.drop m).drop n = u.drop (m + n) := by
  by_cases hm : m = 0
  · rw [hm, drop_zero, Nat.zero_add]
  by_cases hn : n = 0
  · rw [hn, drop_zero, Nat.add_zero]
  have hpending : min 65535 (min 65535 (u.pendingDrops + m) + n) = min 65535 (u.pendingDrops + (m + n)) := by omega
  have hsum : m + n ≠ 0 := by omega
  simp only [ReportUnit.drop, hm, hn, hsum, if_false, hpending, BitVec.ofNat_add, BitVec.add_assoc]

end Drop

/-! ### Records handed over (R154) -/

/-- Records handed over to a unit that takes none are dropped one by one (R154, R156). -/
theorem ReportUnit.handOverAll_refused (u : ReportUnit) (rs : List Record)
    (h : rs ≠ [] → ¬(u.ring = .running ∧ u.queue.length < 32)) : u.handOverAll rs = u.drop rs.length := by
  induction rs generalizing u with
  | nil => exact u.drop_zero.symm
  | cons r rs ih =>
    have hu : u.handOver r = u.drop 1 := if_neg (h (List.cons_ne_nil r rs))
    have hrest := ih (u.drop 1) fun _ => by
      rw [drop_ring, drop_queue]
      exact h (List.cons_ne_nil r rs)
    rw [ReportUnit.handOverAll, hu, hrest, drop_drop, List.length_cons, Nat.add_comm]

/-- How many of `n` records handed over join the queue (R154). -/
def ReportUnit.room (u : ReportUnit) (n : Nat) : Nat :=
  if u.ring = .running then min (32 - u.queue.length) n else 0

/-- Records handed over join the queue while there is room, and the others are dropped (R154). -/
theorem ReportUnit.handOverAll_eq (u : ReportUnit) (rs : List Record) (hq : u.queue.length ≤ 32) :
    u.handOverAll rs =
      { u with queue := u.queue ++ rs.take (u.room rs.length) }.drop (rs.length - u.room rs.length) := by
  by_cases hring : u.ring = .running
  case neg =>
    have hroom : u.room rs.length = 0 := if_neg hring
    rw [hroom, List.take_zero, List.append_nil]
    exact u.handOverAll_refused rs fun _ h => hring h.1
  case pos =>
    have hroom : u.room rs.length = min (32 - u.queue.length) rs.length := if_pos hring
    generalize u.room rs.length = k at hroom ⊢
    have hjoin : u.handOverAll (rs.take k) = { u with queue := u.queue ++ rs.take k } :=
      u.handOverAll_room _ hring (by rw [List.length_take]; omega)
    conv_lhs => rw [← List.take_append_drop k rs]
    rw [handOverAll_append, hjoin, handOverAll_refused, List.length_drop]
    rintro hrest ⟨-, hlt⟩
    have hlen := List.length_pos_iff.mpr hrest
    simp only [List.length_append, List.length_take, List.length_drop] at hlt hlen
    omega

/-- Settles O34: the records within the room join the queue, and the drop of the others is counted. -/
theorem recordsHandedOver : Obligations.RecordsHandedOver := by
  intro u rs hq hd
  exact (u.handOverAll_eq rs hq).trans (ReportUnit.drop_eq _ _ hd)

/-! ### The taking of a record (R155) -/

theorem isWritten_iff (free : Nat) (r : Record) :
    isWritten free r = true ↔ 5 ≤ free ∨ (1 ≤ free ∧ r.origin = .clu) := by
  simp only [isWritten, Bool.or_eq_true, Bool.and_eq_true, decide_eq_true_eq]

theorem isWritten_eq_false_iff (free : Nat) (r : Record) :
    isWritten free r = false ↔ free = 0 ∨ (free ≤ 4 ∧ r.origin ≠ .clu) := by
  rw [← Bool.not_eq_true, isWritten_iff]
  by_cases hr : r.origin = .clu
  · simp only [hr, and_true, ne_eq, not_true, and_false, or_false]
    omega
  · simp only [hr, and_false, or_false, ne_eq, not_false_eq_true, and_true]
    omega

/-- Heads that may not be written are dropped before the others are judged (R155). -/
theorem takeHead_refused (free : Nat) (ds rs : List Record) (u : ReportUnit)
    (h : ∀ d ∈ ds, isWritten free d = false) :
    takeHead free (ds ++ rs) u = takeHead free rs (u.drop ds.length) := by
  induction ds generalizing u with
  | nil => rw [List.nil_append, List.length_nil, u.drop_zero]
  | cons d ds ih =>
    obtain ⟨hd, hds⟩ := List.forall_mem_cons.mp h
    have hstep : takeHead free (d :: ds ++ rs) u = takeHead free (ds ++ rs) (u.drop 1) :=
      if_neg (by rw [hd]; exact Bool.false_ne_true)
    rw [hstep, ih _ hds, u.drop_drop, List.length_cons, Nat.add_comm]

section Take
variable {s : State} {p : Setup}

theorem exec_reportTake (hp : s.su.setup = some p) (hphase : s.rpu.phase = .idle) (hring : s.rpu.ring = .running)
    (hq : s.rpu.queue ≠ []) : exec .reportTake s = .next (takeRecord p s) := by
  have h : exec .reportTake s = execReportTake s := rfl
  rw [h, execReportTake, hp]
  exact congrArg _ (if_pos ⟨hphase, hring, hq⟩)

/-- The first head that may be written is taken, after the drops before it (R155, R156). -/
theorem takeRecord_taken {ds rest : List Record} {r : Record} (hq : s.rpu.queue = ds ++ r :: rest)
    (hds : ∀ d ∈ ds, isWritten (s.rpu.freeSlots p.windows.repCount) d = false)
    (hr : isWritten (s.rpu.freeSlots p.windows.repCount) r = true) :
    takeRecord p s =
      { s with rpu := { s.rpu.drop ds.length with
          queue := rest, inFlight := some r, phase := .record, pendingDrops := 0 } }.injectRpu
        (.recordWrite (recordBytes r (s.rpu.drop ds.length).pendingDrops)) (reportSlotAddr p s.rpu.producer) := by
  have htake : takeHead (s.rpu.freeSlots p.windows.repCount) s.rpu.queue s.rpu =
      ({ s.rpu.drop ds.length with queue := rest }, some r) := by
    rw [hq, takeHead_refused _ _ _ _ hds]
    exact if_pos hr
  rw [takeRecord, htake]

/-- Where no head may be written the queue empties (R155). -/
theorem takeRecord_refused (h : ∀ d ∈ s.rpu.queue, isWritten (s.rpu.freeSlots p.windows.repCount) d = false) :
    takeRecord p s = { s with rpu := { s.rpu.drop s.rpu.queue.length with queue := [] } } := by
  have htake : takeHead (s.rpu.freeSlots p.windows.repCount) s.rpu.queue s.rpu =
      ({ s.rpu.drop s.rpu.queue.length with queue := [] }, none) := by
    conv_lhs => rw [← List.append_nil s.rpu.queue]
    exact takeHead_refused _ _ _ _ h
  rw [takeRecord, htake]

end Take

/-- Settles O35: the heads before the first that may be written are dropped, or all are. -/
theorem reportTaken : Obligations.ReportTaken := by
  intro s p ds rest r hp hphase hring hq hd
  have hne : s.rpu.queue ≠ [] := by simp [hq]
  rw [exec_reportTake hp hphase hring hne]
  refine ⟨fun hds hr => ?_, fun hall => ?_⟩
  · have hrefused := fun d hmem => (isWritten_eq_false_iff _ d).mpr (hds d hmem)
    have hflag : decide (ds.length ≠ 0) = decide (ds ≠ []) := by simp only [ne_eq, List.length_eq_zero_iff]
    rw [takeRecord_taken hq hrefused ((isWritten_iff _ r).mpr hr), s.rpu.drop_eq _ hd, hflag]
    rfl
  · have hflag : (s.rpu.dropFlag || decide (s.rpu.queue.length ≠ 0)) = true := by simp [hne]
    rw [takeRecord_refused fun d hmem => (isWritten_eq_false_iff _ d).mpr (hall d hmem), s.rpu.drop_eq _ hd, hflag]

/-! ### The answers to the report writes (R155, R158, R160) -/

section Answer
variable {s s1 : State} {p : Setup} {id : AxiId} {q : InjRequest}

/-- A response matched with an injected transaction leaves what the Report Unit has still to hand in. -/
theorem takeInjected_waitRpu {ch : Channel} (h : takeInjected s ch id = some (q, s1)) :
    s1.pu.waitRpu = s.pu.waitRpu := by
  obtain ⟨tx, rest, -, hc⟩ := takeInjected_cases s s1 ch id q h
  cases ch <;> rw [hc.2]

/-- The answer to a record write acts where no completion or entry into PASS_ONLY came between (R155, R160). -/
theorem exec_reportRecordWriteDone (resp : Resp) (ht : takeInjected s .write id = some (q, s1))
    (hq : q.body.isRecordWrite = true) :
    exec (.reportRecordWriteDone id resp) s =
      .next (if q.live then reportAnswer resp issueIndexWrite s1 else s1) := by
  have h : exec (.reportRecordWriteDone id resp) s = execReportRecordWriteDone id resp s := rfl
  rw [h]
  simp only [execReportRecordWriteDone, ht, hq, if_true]

/-- The answer to an index write acts where no completion or entry into PASS_ONLY came between (R155, R160). -/
theorem exec_reportIndexWriteDone (resp : Resp) (ht : takeInjected s .write id = some (q, s1))
    (hq : q.body.isIndexWrite = true) :
    exec (.reportIndexWriteDone id resp) s =
      .next (if q.live then reportAnswer resp advanceProducer s1 else s1) := by
  have h : exec (.reportIndexWriteDone id resp) s = execReportIndexWriteDone id resp s := rfl
  rw [h]
  simp only [execReportIndexWriteDone, ht, hq, if_true]

theorem reportAnswer_okay (act : Setup → State → State) (hp : s.su.setup = some p) :
    reportAnswer .okay act s = act p s := by
  simp only [reportAnswer, hp, injectedOkay, beq_self_eq_true, if_true]

theorem reportAnswer_fails {resp : Resp} (act : Setup → State → State) (hp : s.su.setup = some p)
    (hr : resp ≠ .okay) : reportAnswer resp act s = { s with rpu := s.rpu.fail } := by
  have h : injectedOkay resp = false := beq_eq_false_iff_ne.mpr hr
  simp only [reportAnswer, hp, h, Bool.false_eq_true, if_false]

/-- Any answer but OKAY to either report write takes the unit into FAULT (R158). -/
theorem exec_reportWriteFailed {resp : Resp} {c : Instr} (hp : s1.su.setup = some p)
    (ht : takeInjected s .write id = some (q, s1)) (hlive : q.live = true) (hr : resp ≠ .okay)
    (hc : c = .reportRecordWriteDone id resp ∧ q.body.isRecordWrite = true ∨
      c = .reportIndexWriteDone id resp ∧ q.body.isIndexWrite = true) :
    exec c s = .next { s1 with rpu := s1.rpu.fail } := by
  rcases hc with ⟨rfl, hq⟩ | ⟨rfl, hq⟩
  · rw [exec_reportRecordWriteDone resp ht hq, if_pos hlive, reportAnswer_fails _ hp hr]
  · rw [exec_reportIndexWriteDone resp ht hq, if_pos hlive, reportAnswer_fails _ hp hr]

end Answer

/-- Entry into FAULT keeps P, C and the crane line, empties what is held and counts it (R158). -/
theorem ReportUnit.fail_eq (u : ReportUnit) : u.fail = { u with
    queue := [], inFlight := none, phase := .idle, ring := .fault, pendingDrops := (u.drop u.held).pendingDrops,
    totalDrops := u.totalDrops + BitVec.ofNat 32 u.held, dropFlag := u.dropFlag || decide (u.held ≠ 0) } := by
  rw [ReportUnit.fail, u.drop_frame u.held]

theorem ReportUnit.held_eq (u : ReportUnit) :
    u.held = u.queue.length + if u.inFlight = none then 0 else 1 := by
  cases h : u.inFlight <;> simp [ReportUnit.held, h]

theorem irqEvent_fault {s : State} {p : Setup} (hp : s.su.setup = some p) (h : s.rpu.ring = .fault) :
    irqEvent s = true := by
  simp only [irqEvent, hp, h, beq_self_eq_true, Bool.or_true]

/-- Settles O36: each answer frees the request's place, and acts by its response where the write is still live. -/
theorem reportWriteAnswered : Obligations.ReportWriteAnswered := by
  intro s s1 p id resp q hp ht
  have hwait := takeInjected_waitRpu ht
  obtain ⟨pu, rfl⟩ : ∃ pu, s1 = { s with pu := pu } := ⟨_, takeInjected_frame s s1 .write id q ht⟩
  have hp1 : ({ s with pu := pu } : State).su.setup = some p := hp
  refine ⟨fun hq => ⟨fun hlive => ?_, fun hlive hr => ?_⟩, fun hq => ⟨fun hlive => ?_, fun hlive hr => ?_⟩,
    fun hlive hr c hc => ?_⟩
  · simp only [exec_reportRecordWriteDone resp ht hq, hlive, Bool.false_eq_true, if_false]
  · rw [exec_reportRecordWriteDone resp ht hq, if_pos hlive, hr, reportAnswer_okay _ hp1, ← hwait]
    rfl
  · simp only [exec_reportIndexWriteDone resp ht hq, hlive, Bool.false_eq_true, if_false]
  · rw [exec_reportIndexWriteDone resp ht hq, if_pos hlive, hr, reportAnswer_okay _ hp1]
    rfl
  · rw [exec_reportWriteFailed hp1 ht hlive hr hc, s.rpu.fail_eq, ← s.rpu.held_eq]
    exact ⟨_, rfl, rfl, rfl, rfl, rfl, rfl, rfl, rfl, rfl, irqEvent_fault hp1 rfl⟩

/-! ### The consumer index (R157, R159) -/

/-- A whole word in range is taken as C, and clears the drop flag (R157). -/
theorem consumerWritten_taken {p : Setup} {w : Write} (s : State)
    (hwhole : coversWhole w p.windows.reportConsumer 4 = true)
    (hlt : indexValue w p.windows.reportConsumer < p.windows.repCount) :
    consumerWritten p w s =
      { s with rpu := { s.rpu with consumer := indexValue w p.windows.reportConsumer, dropFlag := false } } := by
  simp only [consumerWritten, hwhole, Nat.not_le.mpr hlt, Bool.not_true, Bool.false_eq_true, if_false]

/-- With no drop flagged, IRQ_EVENT stands for the unconsumed records and the ring state alone (R159). -/
theorem irqEvent_no_drops_iff {p : Setup} (s : State) (hp : s.su.setup = some p) (hf : s.rpu.dropFlag = false) :
    irqEvent s = true ↔ p.eventThreshold ≤ s.rpu.unconsumed p.windows.repCount ∨ s.rpu.ring = .fault := by
  simp only [irqEvent, hp, hf, Bool.or_false, Bool.or_eq_true, decide_eq_true_eq, beq_iff_eq]

/-- Settles O37: a value in range is taken, and two terms of IRQ_EVENT remain. -/
theorem consumerIndexTaken : Obligations.ConsumerIndexTaken := by
  intro s p w v h hwhole hv hlt _
  subst hv
  obtain ⟨hp, -⟩ := id h
  rw [exec_consumerIndexWrite h, consumerWritten_taken _ hwhole hlt]
  refine ⟨_, rfl, rfl, ?_⟩
  rw [irqEvent_no_drops_iff (p := p) _ (by exact hp) rfl]
  simp only [ReportUnit.unconsumed, Nat.mod_eq_of_lt hlt, returnWrite_rpu]

/-! ### The end of a pulse (R161) -/

/-- Settles O6: the test due finds the pulse over, and without a pulse start the line is down in TIMED mode. -/
theorem pulseEnds : Obligations.PulseEnds := by
  intro s p x hp hmode hdue hstart hover
  have hend : pulseOver p s = true := (pulseOver_iff p s).mpr ⟨hmode, x, hstart, hover⟩
  refine ⟨_, exec_irqCranePulseEnd hp hdue hend, rfl, ?_⟩
  simp only [irqCrane, State.pulseDone_su, endPulse_su, hp, hmode, State.pulseDone_rpu, endPulse_rpu,
    Option.isSome_none]

end Sys2Proof.Machine
end

