-- ==== Sys2Proof/Proofs/RunStates.lean ====
section
/-! SUPPORT. The law on run states (R167, R170): most events leave the run state and the setup in force and touch no unit
that stands at its power-on values without one; the start of a load, its completion, its failure and the power-on reset
are the events that move the run state. -/

namespace Sys2Proof.Machine

open Sys2Proof

/-! ### The law in its parts -/

/-- No check but the test of a pulse is due. -/
def DueChecks.quiet (d : DueChecks) : Prop := d.deadlines = [] ∧ d.visits = [] ∧ d.coverage = false

/-- The units that do not outlive a failed load stand at their power-on values, and no read burst is bound (R170). -/
def State.unloaded (s : State) : Prop :=
  s.rcu = CaptureUnit.reset ∧ s.clu = CraneUnit.reset ∧ s.vu = ViewUnit.reset ∧ s.rpu = ReportUnit.reset ∧
    ∀ o ∈ s.pu.openReads, o.table = none ∧ o.views = []

theorem runStateLaw_of_setup {s : State} {p : Setup} (hp : s.su.setup = some p) : runStateLaw s ↔
    (s.su.load.isSome = true ↔ s.su.runState = .loading) ∧ (s.su.runState = .running ∨ s.su.runState = .loading) ∧
      (s.su.runState ≠ .running → s.due.quiet) := by
  simp only [runStateLaw, hp, DueChecks.quiet]

theorem runStateLaw_of_none {s : State} (hp : s.su.setup = none) : runStateLaw s ↔
    (s.su.load.isSome = true ↔ s.su.runState = .loading) ∧ s.su.runState ≠ .running ∧ s.unloaded ∧ s.due.quiet := by
  simp only [runStateLaw, hp, DueChecks.quiet, State.unloaded]
  tauto

/-- In RUNNING a setup is in force. -/
theorem runStateLaw.setup_of_running {s : State} (h : runStateLaw s) (hr : s.su.runState = .running) :
    ∃ p, s.su.setup = some p := by
  cases hp : s.su.setup with
  | some p => exact ⟨p, rfl⟩
  | none => exact absurd hr ((runStateLaw_of_none hp).mp h).2.1

/-! ### Events that leave the run state -/

/-- `t` has the run state, the setup in force and the load of `s`, makes no check due outside RUNNING, and without a setup
touches no unit of `State.unloaded`. -/
structure keepsRunState (s t : State) : Prop where
  runState : t.su.runState = s.su.runState
  setup : t.su.setup = s.su.setup
  load : t.su.load.isSome = s.su.load.isSome
  due : s.su.runState ≠ .running → s.due.quiet → t.due.quiet
  units : s.su.setup = none → s.unloaded → t.unloaded

theorem keepsRunState.refl (s : State) : keepsRunState s s := ⟨rfl, rfl, rfl, fun _ h => h, fun _ h => h⟩

theorem keepsRunState.trans {s t u : State} (h : keepsRunState s t) (k : keepsRunState t u) : keepsRunState s u where
  runState := k.runState.trans h.runState
  setup := k.setup.trans h.setup
  load := k.load.trans h.load
  due hr hq := k.due (h.runState ▸ hr) (h.due hr hq)
  units hn hu := k.units (h.setup ▸ hn) (h.units hn hu)

theorem keepsRunState.law {s t : State} (h : keepsRunState s t) (hs : runStateLaw s) : runStateLaw t := by
  obtain ⟨hrun, hsetup, hload, hdue, hunits⟩ := h
  cases hp : s.su.setup with
  | some p =>
    obtain ⟨hl, hr, hq⟩ := (runStateLaw_of_setup hp).mp hs
    rw [runStateLaw_of_setup (hsetup.trans hp), hload, hrun]
    exact ⟨hl, hr, fun h => hdue h (hq h)⟩
  | none =>
    obtain ⟨hl, hr, hu, hq⟩ := (runStateLaw_of_none hp).mp hs
    rw [runStateLaw_of_none (hsetup.trans hp), hload, hrun]
    exact ⟨hl, hr, hunits hp hu, hdue hr hq⟩

/-- With a setup in force, an event that leaves the Setup Unit and the checks due. -/
theorem keepsRunState.of_setup {s t : State} {p : Setup} (hp : s.su.setup = some p) (hsu : t.su = s.su)
    (hdue : t.due = s.due) : keepsRunState s t :=
  ⟨by rw [hsu], by rw [hsu], by rw [hsu], fun _ h => hdue ▸ h, fun hn => nomatch hp.symm.trans hn⟩

/-- In RUNNING under a setup, an event that leaves the Setup Unit. -/
theorem keepsRunState.of_running {s t : State} {p : Setup} (hp : s.su.setup = some p) (hr : s.su.runState = .running)
    (hsu : t.su = s.su) : keepsRunState s t :=
  ⟨by rw [hsu], by rw [hsu], by rw [hsu], fun h => absurd hr h, fun hn => nomatch hp.symm.trans hn⟩

/-- A change of the Path Unit that leaves the read bursts in flight. -/
theorem keepsRunState.of_path {s t : State} (h : t = { s with pu := t.pu })
    (hreads : t.pu.openReads = s.pu.openReads) : keepsRunState s t := by
  obtain ⟨pu, rfl⟩ : ∃ pu, t = { s with pu := pu } := ⟨_, h⟩
  refine ⟨rfl, rfl, rfl, fun _ h => h, fun _ ⟨hrcu, hclu, hvu, hrpu, hopen⟩ => ⟨hrcu, hclu, hvu, hrpu, ?_⟩⟩
  intro o ho
  exact hopen o (hreads ▸ ho)

/-- A change of the command in hand, of what the Setup Unit has still to hand in, and of the free values used. -/
theorem keepsRunState.of_command (s : State) (c : Command) (ws : List InjRequest) (n : Nat) : keepsRunState s { s with
    su := { s.su with command := c }, pu := { s.pu with waitSu := ws }, free := n } :=
  ⟨rfl, rfl, rfl, fun _ h => h, fun _ h => h⟩

/-- The parser (R8) and every command but RELOAD (R172) act in RUNNING alone, and leave the Setup Unit. -/
theorem running_keepsRunState {s t : State} (hs : runStateLaw s) (hr : ¬ s.su.runState ≠ .running) (hsu : t.su = s.su) :
    keepsRunState s t := by
  have hr' : s.su.runState = .running := not_not.mp hr
  obtain ⟨p, hp⟩ := hs.setup_of_running hr'
  exact .of_running hp hr' hsu

theorem dispatch_su (o : ParseOutcome) (q : Qt) (s : State) : (dispatch o q s).su = s.su :=
  (congrArg State.su (dispatch_only o q s) :)

/-! ### Injected transactions and requests -/

theorem takeInjected_keepsRunState {s s1 : State} {ch : Channel} {id : AxiId} {q : InjRequest}
    (h : takeInjected s ch id = some (q, s1)) : keepsRunState s s1 := by
  refine .of_path (takeInjected_frame s s1 ch id q h) ?_
  obtain ⟨tx, rest, -, hc⟩ := takeInjected_cases s s1 ch id q h
  cases ch <;> rw [hc.2]

theorem grant_openReads (ch : Channel) (u : PathUnit) : (grant ch u).openReads = u.openReads := by
  unfold grant
  split
  · rfl
  · cases ch <;> rfl
  · cases ch <;> rfl
  · split <;> cases ch <;> rfl

theorem enqueue_keepsRunState (src : Source) (s : State) : keepsRunState s (enqueue src s) := by
  unfold enqueue
  split
  · exact .refl s
  · split
    · exact .of_path rfl (by cases src <;> rfl)
    · exact .refl s

theorem acceptRequest_keepsRunState (ch : Channel) (f : FwdRequest) (s : State) :
    keepsRunState s (acceptRequest ch f s) := by
  unfold acceptRequest
  split
  · exact .refl s
  · cases ch <;> exact .of_path rfl rfl

theorem returnWrite_keepsRunState (w : Write) (s : State) : keepsRunState s (returnWrite w s) := .of_path rfl rfl

/-- An answer to a report write acts under a setup alone (R158). -/
theorem reportAnswer_keepsRunState (resp : Resp) {act : Setup → State → State} (s : State)
    (hsu : ∀ p, (act p s).su = s.su) (hdue : ∀ p, (act p s).due = s.due) :
    keepsRunState s (reportAnswer resp act s) := by
  unfold reportAnswer
  split
  · exact .refl s
  · rename_i p hp
    split
    · exact .of_setup hp (hsu p) (hdue p)
    · exact .of_setup hp rfl rfl

theorem takeRecord_keepsRunState {p : Setup} {s : State} (hp : s.su.setup = some p) :
    keepsRunState s (takeRecord p s) := by
  simp only [takeRecord]
  split <;> exact .of_setup hp rfl rfl

/-! ### Checks -/

theorem finishDue_due (s : State) : (finishDue s).due = DueChecks.none := by
  unfold finishDue
  split <;> rfl

theorem finishDue_keepsRunState (s : State) : keepsRunState s (finishDue s) := by
  have hsu : (finishDue s).su = s.su := (congrArg State.su (finishDue_checks s) :)
  refine ⟨by rw [hsu], by rw [hsu], by rw [hsu], fun _ _ => ?_, fun hn hu => ?_⟩
  · rw [finishDue_due]
    exact ⟨rfl, rfl, rfl⟩
  · rw [finishDue_none hn]
    exact hu

theorem armChecks_keepsRunState (s : State) : keepsRunState s (armChecks s) := by
  unfold armChecks
  split
  case isTrue hr => exact ⟨rfl, rfl, rfl, fun h => absurd hr h, fun _ h => h⟩
  case isFalse => exact ⟨rfl, rfl, rfl, fun _ _ => ⟨rfl, rfl, rfl⟩, fun _ h => h⟩

theorem takeVisits_keepsRunState {p : Setup} {s : State} (i : Nat) (hp : s.su.setup = some p)
    (hr : s.su.runState = .running) : keepsRunState s (takeVisits p i s) :=
  .of_running hp hr (visitReefers_su ..)

theorem scanVisit_keepsRunState (meets : Setup → Segment → Bool) (s : State) : keepsRunState s (scanVisit meets s) := by
  unfold scanVisit
  split
  · exact .refl s
  · rename_i p hp
    have hsu : (coverageVisit p s).su = s.su := (congrArg State.su (coverageVisit_checks p s) :)
    split
    case isTrue h => exact .of_running hp h.1 hsu
    case isFalse => exact .refl s

/-! ### Read beats -/

/-- A burst bound to no view that leaves takes no coverage with it. -/
theorem finishBurst_unloaded {s : State} {o : OpenRead} (hs : s.unloaded) (ho : o.views = []) :
    (finishBurst o s).unloaded := by
  obtain ⟨hrcu, hclu, hvu, hrpu, hopen⟩ := hs
  refine ⟨hrcu, hclu, ?_, hrpu, fun x hx => hopen x (List.mem_of_mem_filter hx)⟩
  rw [finishBurst_vu, ho]
  exact hvu

theorem finishPassed_unloaded {os : List OpenRead} {s : State} (hs : s.unloaded) (hos : ∀ o ∈ os, o.views = []) :
    (finishPassed os s).unloaded := by
  induction os generalizing s with
  | nil => exact hs
  | cons o os ih =>
    obtain ⟨ho, hos⟩ := List.forall_mem_cons.mp hos
    refine ih ?_ hos
    split
    · exact finishBurst_unloaded hs ho
    · exact hs

/-- Without a setup a burst is bound neither to a window table nor to a view (R143, R163). -/
theorem burstOf_unloaded {b : ReadBeat} {s s1 : State} {o : OpenRead} (hn : s.su.setup = none) (hs : s.unloaded)
    (h : burstOf b s = some (o, s1)) : s1.unloaded ∧ o.table = none ∧ o.views = [] := by
  obtain ⟨-, -, -, -, hopen⟩ := id hs
  unfold burstOf at h
  split at h
  · rename_i o' hcont
    obtain ⟨rfl, rfl⟩ := Prod.mk.inj (Option.some.inj h)
    refine ⟨hs, hopen _ ?_⟩
    unfold continued at hcont
    split at hcont
    · cases hcont
    · split at hcont
      · rename_i x hx
        split at hcont
        · cases hcont
        · obtain rfl := Option.some.inj hcont
          exact List.mem_of_find?_eq_some hx
      · cases hcont
  · split at h
    · rename_i role _
      have hsetup : (finishPassed s.pu.openReads s).su.setup = none :=
        ((congrArg (fun t => t.su.setup) (finishPassed_only s.pu.openReads s).1 :)).trans hn
      have hbegin : beginBurst b role s = (⟨b.id, role, none, [], false, false⟩, finishPassed s.pu.openReads s) := by
        simp only [beginBurst, hsetup]
      rw [hbegin] at h
      obtain ⟨rfl, rfl⟩ := Prod.mk.inj (Option.some.inj h)
      exact ⟨finishPassed_unloaded hs fun o ho => (hopen o ho).2, rfl, rfl⟩
    · cases h

theorem endBeat_unloaded {s : State} {o : OpenRead} (b : ReadBeat) (data : List Byte) (hs : s.unloaded)
    (ho : o.table = none ∧ o.views = []) : (endBeat b o data s).unloaded := by
  obtain ⟨hrcu, hclu, hvu, hrpu, hopen⟩ := hs
  have hfilter : ∀ x ∈ s.pu.openReads.filter (fun x => decide (x.id ≠ o.id)), x.table = none ∧ x.views = [] :=
    fun x hx => hopen x (List.mem_of_mem_filter hx)
  refine ⟨hrcu, hclu, hvu, hrpu, ?_⟩
  simp only [endBeat, ho.2, List.isEmpty_nil, if_true]
  split
  · exact hfilter
  · intro x hx
    rcases List.mem_append.mp hx with hx | hx
    · exact hfilter x hx
    · obtain rfl := List.mem_singleton.mp hx
      exact ho

/-- A beat carried upstream leaves the Setup Unit and the checks due. -/
theorem carryBeat_su_due (b : ReadBeat) (o : OpenRead) (s : State) :
    (carryBeat b o s).su = s.su ∧ (carryBeat b o s).due = s.due := by
  unfold carryBeat
  split
  · exact ⟨rfl, rfl⟩
  · split
    · split
      · rw [radioBeat_eq]
        dsimp only
        rw [endBeat_su, endBeat_due, countEarly_frame, fetchAll_frame]
        exact ⟨rfl, rfl⟩
      · exact ⟨rfl, rfl⟩
    · rw [appBeat_eq, endBeat_su, endBeat_due, noticed_frame]
      exact ⟨rfl, rfl⟩
    · exact ⟨rfl, rfl⟩

theorem passBeat_keepsRunState (accepts : ReadBeat → OpenRead → Bool) (b : ReadBeat) (s : State) :
    keepsRunState s (passBeat accepts b s) := by
  unfold passBeat
  split
  · exact .refl s
  · rename_i o s1 hburst
    split
    case isFalse => exact .refl s
    case isTrue =>
      have honly := (burstOf_only b s s1 o hburst).1
      have hsu1 : s1.su = s.su := (congrArg State.su honly :)
      have hdue1 : s1.due = s.due := (congrArg State.due honly :)
      obtain ⟨hsu, hdue⟩ := carryBeat_su_due b o s1
      cases hp : s.su.setup with
      | some p => exact .of_setup hp (hsu.trans hsu1) (hdue.trans hdue1)
      | none =>
        refine ⟨by rw [hsu, hsu1], by rw [hsu, hsu1], by rw [hsu, hsu1], fun _ h => by rwa [hdue, hdue1],
          fun _ hs => ?_⟩
        obtain ⟨hs1, htable, hviews⟩ := burstOf_unloaded hp hs hburst
        have hcarry : carryBeat b o s1 = endBeat b o b.data s1 := by simp only [carryBeat, htable]
        rw [hcarry]
        exact endBeat_unloaded b b.data hs1 ⟨htable, hviews⟩

theorem finishBurst_keepsRunState {s : State} {id : AxiId} {o : OpenRead} (ho : findOpen s.pu.openReads id = some o) :
    keepsRunState s (finishBurst o s) := by
  refine ⟨rfl, rfl, rfl, fun _ h => h, fun _ h => ?_⟩
  have ⟨_, _, _, _, hopen⟩ := h
  exact finishBurst_unloaded h (hopen o (List.mem_of_find?_eq_some ho)).2

/-! ### Commands -/

theorem decideCommand_keepsRunState (v : CmdStatus) (s : State) : keepsRunState s (decideCommand v s) := by
  obtain ⟨c, ws, h, -⟩ := decideCommand_frame v s
  rw [h]
  exact .of_command s c _ s.free

theorem beginCommand_keepsRunState (code : Byte) (arg : Half) (s : State) :
    keepsRunState s (beginCommand code arg s) := .of_command s _ _ _

theorem statusAnswered_keepsRunState (s : State) : keepsRunState s (statusAnswered s) := by
  unfold statusAnswered
  dsimp only
  split
  · exact .refl s
  · unfold settleCommand
    split
    · split
      · exact .of_command s _ _ s.free
      · exact .of_command s _ s.pu.waitSu s.free
    · exact .of_command s _ s.pu.waitSu s.free
  · split
    · exact .of_command s _ _ _
    · exact .of_command s _ s.pu.waitSu s.free

/-- A load begun keeps the law: the setup in force stands, and no check is left due (R169). -/
theorem startLoad_law (keep : Bool) {s : State} (hs : runStateLaw s) : runStateLaw (startLoad keep s) := by
  have hk := finishDue_keepsRunState s
  have hquiet : (startLoad keep s).due.quiet := by
    have hdue : (startLoad keep s).due = DueChecks.none := finishDue_due s
    rw [hdue]
    exact ⟨rfl, rfl, rfl⟩
  cases hp : s.su.setup with
  | some p =>
    have hp' : (startLoad keep s).su.setup = some p := hk.setup.trans hp
    exact (runStateLaw_of_setup hp').mpr ⟨Iff.intro (fun _ => rfl) (fun _ => rfl), .inr rfl, fun _ => hquiet⟩
  | none =>
    have hp' : (startLoad keep s).su.setup = none := hk.setup.trans hp
    obtain ⟨-, -, hu, -⟩ := (runStateLaw_of_none hp).mp hs
    obtain ⟨hrcu, hclu, hvu, hrpu, hopen⟩ := hk.units hp hu
    refine (runStateLaw_of_none hp').mpr ⟨Iff.intro (fun _ => rfl) (fun _ => rfl), nofun, ?_, hquiet⟩
    refine ⟨?_, hclu, hvu, hrpu, hopen⟩
    have hparse : (startLoad keep s).rcu = { (finishDue s).rcu with parsing := false } := rfl
    rw [hparse, hrcu]
    rfl

theorem judgeReload_law (arg : Half) {s : State} (hs : runStateLaw s) : runStateLaw (judgeReload arg s) := by
  unfold judgeReload
  split
  · exact (decideCommand_keepsRunState _ s).law hs
  · split
    · exact (decideCommand_keepsRunState _ s).law hs
    · exact startLoad_law _ hs

/-- A command other than RELOAD acts in RUNNING alone, where it may change any unit but the Setup Unit (R172). -/
theorem judgeRunning_law (action : Half → State → Option State) (arg : Half) {s : State} (hs : runStateLaw s)
    (ha : ∀ t, action arg s = some t → t.su = s.su) : runStateLaw (judgeRunning action arg s) := by
  unfold judgeRunning
  split
  · exact (decideCommand_keepsRunState _ s).law hs
  · rename_i hr
    split
    · rename_i t ht
      exact ((running_keepsRunState hs hr (ha t ht)).trans (decideCommand_keepsRunState _ t)).law hs
    · exact (decideCommand_keepsRunState _ s).law hs

section Actions
variable {arg : Half} {s t : State}

theorem ackLines_su (h : ackLines arg s = some t) : t.su = s.su := by
  unfold ackLines at h
  split at h
  · split at h <;> cases h <;> rfl
  · cases h
    rfl

theorem resetCrane_su (h : resetCrane arg s = some t) : t.su = s.su := by
  simp only [resetCrane, Option.ite_none_right_eq_some, Option.some.injEq] at h
  rw [← h.2]

theorem openTrace_su (h : openTrace arg s = some t) : t.su = s.su := by
  simp only [openTrace, Option.ite_none_right_eq_some, Option.some.injEq] at h
  rw [← h.2]

theorem ackEntry_su (h : ackEntry arg s = some t) : t.su = s.su := by
  obtain ⟨e, -, rfl⟩ := Option.map_eq_some_iff.mp h
  rfl

theorem forgetEntry_su (h : forgetEntry arg s = some t) : t.su = s.su := by
  obtain ⟨e, -, rfl⟩ := Option.map_eq_some_iff.mp h
  rfl

theorem clearCoverage_su (h : clearCoverage arg s = some t) : t.su = s.su := by
  unfold clearCoverage at h
  split at h
  · rw [Option.ite_none_right_eq_some] at h
    cases h.2
    rfl
  · cases h

theorem clearCounters_su (h : clearCounters arg s = some t) : t.su = s.su := by
  cases h
  rfl

end Actions

theorem judgeCommand_law (code : Byte) (arg : Half) {s : State} (hs : runStateLaw s) :
    runStateLaw (judgeCommand code arg s) := by
  unfold judgeCommand
  split_ifs
  · exact judgeReload_law arg hs
  · exact judgeRunning_law _ arg hs fun _ => ackLines_su
  · exact judgeRunning_law _ arg hs fun _ => resetCrane_su
  · exact judgeRunning_law _ arg hs fun _ => openTrace_su
  · exact judgeRunning_law _ arg hs fun _ => ackEntry_su
  · exact judgeRunning_law _ arg hs fun _ => forgetEntry_su
  · exact judgeRunning_law _ arg hs fun _ => clearCoverage_su
  · exact judgeRunning_law _ arg hs fun _ => clearCounters_su
  · exact (decideCommand_keepsRunState _ s).law hs

/-! ### Completed writes -/

theorem countViewWrite_keepsRunState (w : Write) (s : State) : keepsRunState s (countViewWrite w s) := by
  cases hp : s.su.setup with
  | some p => exact .of_setup hp (countViewWrite_su w s) (countViewWrite_due w s)
  | none =>
    have h : countViewWrite w s = s := by simp only [countViewWrite, hp]
    rw [h]
    exact .refl s

/-- The windows are watched in RUNNING alone (R164). -/
theorem writeWindows_keepsRunState (role : Role) (w : Write) (s : State) : keepsRunState s (writeWindows role w s) := by
  have hsu := writeWindows_su role w s
  unfold writeWindows at hsu ⊢
  split
  · exact .refl s
  · rename_i p hp
    simp only [hp] at hsu
    split
    · rename_i hr
      rw [if_pos hr] at hsu
      exact .of_running hp hr hsu
    · exact .refl s

theorem writeCommand_law (role : Role) (w : Write) {s : State} (hs : runStateLaw s) :
    runStateLaw (writeCommand role w s) := by
  unfold writeCommand
  split
  · rcases takeCommand_cases (writtenCode s w) (writtenArg s w) (judgeCommand (writtenCode s w)) s with
      ⟨-, h⟩ | ⟨-, h⟩ | ⟨-, h⟩ <;> rw [h]
    · exact judgeCommand_law _ _ ((beginCommand_keepsRunState _ _ s).law hs)
    · exact (keepsRunState.of_command s _ s.pu.waitSu s.free).law hs
    · split
      · exact hs
      · exact (keepsRunState.of_command s _ s.pu.waitSu s.free).law hs
  · exact hs

theorem completeWrite_law (w : Write) {s : State} (hs : runStateLaw s) : runStateLaw (completeWrite w s) := by
  have hreturned : runStateLaw (countViewWrite w (returnWrite w s)) :=
    ((returnWrite_keepsRunState w s).trans (countViewWrite_keepsRunState w _)).law hs
  rcases completeWrite_cases w s with ⟨-, h⟩ | ⟨role, -, ⟨-, h⟩ | ⟨-, h⟩⟩ <;> rw [h]
  · exact hs
  · exact hreturned
  · exact writeCommand_law role w ((writeWindows_keepsRunState role w _).law hreturned)

theorem windowWrite_law (covers : Windows → Bool) (w : Write) {s : State} (hs : runStateLaw s) :
    runStateLaw (windowWrite covers w s) := by
  rcases windowWrite_cases covers w s with ⟨h, -⟩ | ⟨p, -, -, h⟩ <;> rw [h]
  · exact hs
  · exact completeWrite_law w hs

theorem commandWrite_law (codes : Byte → Bool) (w : Write) {s : State} (hs : runStateLaw s) :
    runStateLaw (commandWrite codes w s) := by
  rcases commandWrite_cases codes w s with ⟨h, -⟩ | ⟨-, -, h⟩ <;> rw [h]
  · exact hs
  · exact completeWrite_law w hs

/-! ### The end of a load -/

/-- A failed load leaves the part without a setup, in PASS_ONLY (R170). -/
theorem failLoad_law (code : Byte) (s : State) : runStateLaw (failLoad code s) := by
  refine (decideCommand_keepsRunState _ _).law ((runStateLaw_of_none (s := enterPassOnly code s) rfl).mpr ?_)
  refine ⟨Iff.intro nofun nofun, nofun, ⟨rfl, rfl, rfl, rfl, fun o ho => ?_⟩, rfl, rfl, rfl⟩
  obtain ⟨o', -, rfl⟩ := List.mem_map.mp ho
  exact ⟨rfl, rfl⟩

/-- A completed load puts its setup in force, in RUNNING (R170). -/
theorem completeLoad_law (p : Setup) (keep : Bool) (a b c : Word) (s : State) :
    runStateLaw (completeLoad p keep a b c s) := by
  rw [completeLoad_eq]
  refine (decideCommand_keepsRunState _ _).law ((runStateLaw_of_setup (s := loaded p keep a b c s) rfl).mpr ?_)
  exact ⟨Iff.intro nofun nofun, .inl rfl, fun h => absurd rfl h⟩

/-- A load that goes on keeps the law. -/
theorem loadGoesOn_keepsRunState {s : State} {l : Load} (l' : Load) (ws : List InjRequest) (hl : s.su.load = some l) :
    keepsRunState s { s with su := { s.su with load := some l' }, pu := { s.pu with waitSu := ws } } :=
  ⟨rfl, rfl, by rw [hl]; rfl, fun _ h => h, fun _ h => h⟩

theorem setupReadAnswered_law {l : Load} (resp : Resp) (data : List Byte) {s : State} (hl : s.su.load = some l)
    (hs : runStateLaw s) : runStateLaw (setupReadAnswered l resp data s) := by
  unfold setupReadAnswered validated
  dsimp only
  split
  · exact failLoad_law _ s
  · split
    · exact (loadGoesOn_keepsRunState _ s.pu.waitSu hl).law hs
    · split
      · exact failLoad_law _ s
      · exact (loadGoesOn_keepsRunState _ _ hl).law hs

theorem indexWordAnswered_law {l : Load} (body : InjBody) (resp : Resp) (v : Word) {s : State}
    (hl : s.su.load = some l) (hs : runStateLaw s) : runStateLaw (indexWordAnswered l body resp v s) := by
  unfold indexWordAnswered
  split
  · exact hs
  · dsimp only
    split
    · exact failLoad_law _ s
    · split
      · exact completeLoad_law ..
      · exact (loadGoesOn_keepsRunState _ s.pu.waitSu hl).law hs

/-! ### The rows and the step -/

/-- A row that acts under its condition alone. -/
theorem ite_law {s t : State} {c : Prop} [Decidable c] (hs : runStateLaw s) (h : c → keepsRunState s t) :
    runStateLaw (if c then t else s) := by
  split
  case isTrue hc => exact (h hc).law hs
  case isFalse => exact hs

theorem execLinkLate_law (n : Fin 12) {s t : State} (hs : runStateLaw s) (h : execLinkLate n s = .next t) :
    runStateLaw t := by
  obtain rfl := Host.Outcome.next.inj h
  split
  · exact hs
  · rename_i p hp
    exact ite_law hs fun hc => .of_running hp hc.1 rfl

theorem execLinkLost_law (n : Fin 12) {s t : State} (hs : runStateLaw s) (h : execLinkLost n s = .next t) :
    runStateLaw t := by
  obtain rfl := Host.Outcome.next.inj h
  split
  · exact hs
  · rename_i p hp
    exact ite_law hs fun hc => .of_running hp hc.1 (enterLost_su p n s)

theorem execReeferLost_law (i : Fin 2048) {s t : State} (hs : runStateLaw s) (h : execReeferLost i s = .next t) :
    runStateLaw t := by
  obtain rfl := Host.Outcome.next.inj h
  split
  · rename_i p e hp _
    exact ite_law hs fun hc => takeVisits_keepsRunState _ hp hc.1
  · exact hs

theorem execReeferSilent_law (i : Fin 2048) {s t : State} (hs : runStateLaw s) (h : execReeferSilent i s = .next t) :
    runStateLaw t := by
  obtain rfl := Host.Outcome.next.inj h
  split
  · rename_i p e hp _
    exact ite_law hs fun hc => takeVisits_keepsRunState _ hp hc.1
  · exact hs

theorem execIrqCranePulseEnd_law {s t : State} (hs : runStateLaw s) (h : execIrqCranePulseEnd s = .next t) :
    runStateLaw t := by
  obtain rfl := Host.Outcome.next.inj h
  split
  · exact hs
  · rename_i p hp
    exact ite_law hs fun _ => ⟨rfl, rfl, rfl, fun _ h => h, fun hn => nomatch hp.symm.trans hn⟩

theorem execParseStart_law {s t : State} (hs : runStateLaw s) (h : execParseStart s = .next t) : runStateLaw t := by
  obtain rfl := Host.Outcome.next.inj h
  split
  · exact hs
  · rename_i hc
    have hr : ¬ s.su.runState ≠ .running := fun h => hc (.inl h)
    split
    · exact hs
    · exact keepsRunState.law (running_keepsRunState hs hr rfl) hs
    · exact keepsRunState.law (running_keepsRunState hs hr rfl) hs

theorem execParseComplete_law {s t : State} (hs : runStateLaw s) (h : execParseComplete s = .next t) :
    runStateLaw t := by
  obtain rfl := Host.Outcome.next.inj h
  split
  · exact hs
  · rename_i hc
    split
    · exact keepsRunState.law (running_keepsRunState hs (fun h => hc (.inl h)) (dispatch_su ..)) hs
    · exact hs

theorem execViewBurstLastBeat_law (id : AxiId) {s t : State} (hs : runStateLaw s)
    (h : execViewBurstLastBeat id s = .next t) : runStateLaw t := by
  obtain rfl := Host.Outcome.next.inj h
  split
  · rename_i o ho
    exact ite_law hs fun _ => finishBurst_keepsRunState ho
  · exact hs

theorem execReportTake_law {s t : State} (hs : runStateLaw s) (h : execReportTake s = .next t) : runStateLaw t := by
  obtain rfl := Host.Outcome.next.inj h
  split
  · exact hs
  · rename_i p hp
    exact ite_law hs fun _ => takeRecord_keepsRunState hp

theorem execReportRecordWriteDone_law (id : AxiId) (resp : Resp) {s t : State} (hs : runStateLaw s)
    (h : execReportRecordWriteDone id resp s = .next t) : runStateLaw t := by
  obtain rfl := Host.Outcome.next.inj h
  split
  · exact hs
  · rename_i q s1 hq
    have h1 := takeInjected_keepsRunState hq
    refine ite_law hs fun _ => ?_
    split
    · exact h1.trans (reportAnswer_keepsRunState resp s1 (fun _ => rfl) fun _ => rfl)
    · exact h1

theorem execReportIndexWriteDone_law (id : AxiId) (resp : Resp) {s t : State} (hs : runStateLaw s)
    (h : execReportIndexWriteDone id resp s = .next t) : runStateLaw t := by
  obtain rfl := Host.Outcome.next.inj h
  split
  · exact hs
  · rename_i q s1 hq
    have h1 := takeInjected_keepsRunState hq
    refine ite_law hs fun _ => ?_
    split
    · exact h1.trans (reportAnswer_keepsRunState resp s1 (fun _ => rfl) fun _ => rfl)
    · exact h1

theorem execSetupReadDone_law (id : AxiId) (resp : Resp) (data : List Byte) {s t : State} (hs : runStateLaw s)
    (h : execSetupReadDone id resp data s = .next t) : runStateLaw t := by
  obtain rfl := Host.Outcome.next.inj h
  split
  · exact hs
  · rename_i q s1 hq
    have h1 := (takeInjected_keepsRunState hq).law hs
    split
    · split
      · rename_i l hl
        split
        · exact setupReadAnswered_law resp data hl h1
        · exact h1
      · exact h1
    · exact hs

theorem execIndexWordReadDone_law (id : AxiId) (resp : Resp) (v : Word) {s t : State} (hs : runStateLaw s)
    (h : execIndexWordReadDone id resp v s = .next t) : runStateLaw t := by
  obtain rfl := Host.Outcome.next.inj h
  split
  · exact hs
  · rename_i q s1 hq
    have h1 := (takeInjected_keepsRunState hq).law hs
    split
    · split
      · rename_i l hl
        split
        · exact indexWordAnswered_law q.body resp v hl h1
        · exact h1
      · exact h1
    · exact hs

theorem execCommandStatusWriteDone_law (id : AxiId) (resp : Resp) {s t : State} (hs : runStateLaw s)
    (h : execCommandStatusWriteDone id resp s = .next t) : runStateLaw t := by
  obtain rfl := Host.Outcome.next.inj h
  split
  · exact hs
  · rename_i q s1 hq
    exact ite_law hs fun _ => (takeInjected_keepsRunState hq).trans (statusAnswered_keepsRunState s1)

theorem execTransactionForward_law (f : Forward) {s t : State} (hs : runStateLaw s)
    (h : execTransactionForward f s = .next t) : runStateLaw t := by
  obtain rfl := Host.Outcome.next.inj h
  cases f with
  | readRequest => exact (acceptRequest_keepsRunState _ _ s).law hs
  | writeRequest => exact (acceptRequest_keepsRunState _ _ s).law hs
  | readBeat b => exact (passBeat_keepsRunState _ b s).law hs
  | writeResponse w =>
    unfold forwardResponse
    dsimp only
    split
    · exact hs
    · split
      · exact hs
      · exact (returnWrite_keepsRunState w s).law hs

/-- Every command's meaning keeps the law on run states. -/
theorem exec_runStateLaw (c : Instr) {s t : State} (hs : runStateLaw s) (h : exec c s = .next t) : runStateLaw t := by
  cases c with
  | powerOnReset b =>
    obtain rfl := Host.Outcome.next.inj h
    exact ⟨Iff.intro nofun nofun, ⟨nofun, rfl, rfl, rfl, rfl, nofun⟩, fun _ => ⟨rfl, rfl, rfl⟩⟩
  | qtIncrement =>
    obtain rfl := Host.Outcome.next.inj h
    have hclock : keepsRunState (finishDue s) (finishDue s).clocked := ⟨rfl, rfl, rfl, fun _ h => h, fun _ h => h⟩
    exact (((finishDue_keepsRunState s).trans hclock).trans (armChecks_keepsRunState _)).law hs
  | linkLate n => exact execLinkLate_law n hs h
  | linkLost n => exact execLinkLost_law n hs h
  | irqCranePulseEnd => exact execIrqCranePulseEnd_law hs h
  | reeferLost i => exact execReeferLost_law i hs h
  | reeferSilent i => exact execReeferSilent_law i hs h
  | coverageScanVisit | segmentAged g | shadowAverageAged g =>
    obtain rfl := Host.Outcome.next.inj h
    exact (scanVisit_keepsRunState _ s).law hs
  | parseStart => exact execParseStart_law hs h
  | parseComplete => exact execParseComplete_law hs h
  | departure b | motionBytesRead b | viewReadBeat b =>
    obtain rfl := Host.Outcome.next.inj h
    exact (passBeat_keepsRunState _ b s).law hs
  | viewBurstLastBeat id => exact execViewBurstLastBeat_law id hs h
  | reportTake => exact execReportTake_law hs h
  | reportRecordWriteDone id resp => exact execReportRecordWriteDone_law id resp hs h
  | reportIndexWriteDone id resp => exact execReportIndexWriteDone_law id resp hs h
  | injIdRefused id ch n =>
    obtain rfl := Host.Outcome.next.inj h
    exact ite_law hs fun _ => .of_path rfl rfl
  | transactionForward f => exact execTransactionForward_law f hs h
  | injectionEnqueue src =>
    obtain rfl := Host.Outcome.next.inj h
    exact (enqueue_keepsRunState src s).law hs
  | arbiterGrant ch =>
    obtain rfl := Host.Outcome.next.inj h
    exact (keepsRunState.of_path (t := { s with pu := grant ch s.pu }) rfl (grant_openReads ch s.pu)).law hs
  | setupReadDone id resp data => exact execSetupReadDone_law id resp data hs h
  | indexWordReadDone id resp v => exact execIndexWordReadDone_law id resp v hs h
  | commandStatusWriteDone id resp => exact execCommandStatusWriteDone_law id resp hs h
  | commandWriteWhileBusy w =>
    obtain rfl := Host.Outcome.next.inj h
    split
    · exact hs
    · exact commandWrite_law _ w hs
  | ulSlotWrite w | ulProducerIndexWrite w | dlSlotWrite w | dlProducerIndexWrite w | consumerIndexWrite w
  | viewWrite w =>
    obtain rfl := Host.Outcome.next.inj h
    exact windowWrite_law _ w hs
  | reload w | ackLines w | craneReset w | traceOpen w | reeferAck w | reeferForget w | coverageClear w
  | clearCounters w | commandCodeUnknown w =>
    obtain rfl := Host.Outcome.next.inj h
    exact commandWrite_law _ w hs

/-- Settles O60: a step is the meaning of the front command, and every meaning keeps the law. -/
theorem runStateLawKept : Obligations.RunStateLawKept := by
  intro s t hs h
  unfold step at h
  split at h
  · obtain rfl := Host.Outcome.next.inj h
    exact hs
  · rename_i c rest _
    have hrest : runStateLaw { s with pending := rest } := hs
    exact exec_runStateLaw c hrest h

end Sys2Proof.Machine
end

