-- ==== Sys2Proof/Proofs/Arbiter.lean ====
section
/-! SUPPORT. The injection queue and the two arbiters: responses matched (R165), transactions handed in (R165), the table
of grants and its bound (R166). -/

namespace Sys2Proof.Machine

open Sys2Proof

/-! ### Responses matched (R165) -/

/-- The oldest issued request of an ID is taken out, the others keeping their places. -/
theorem takeIssued_oldest (id : AxiId) (is : List Issued) : (∀ i ∈ is, i.id ≠ id) ∧ takeIssued id is = none ∨
    ∃ as i bs, is = as ++ i :: bs ∧ (∀ a ∈ as, a.id ≠ id) ∧ i.id = id ∧ takeIssued id is = some (i, as ++ bs) := by
  induction is with
  | nil => exact .inl ⟨nofun, rfl⟩
  | cons j js ih =>
    by_cases hj : j.id = id
    · exact .inr ⟨[], j, js, rfl, nofun, hj, if_pos hj⟩
    · rcases ih with ⟨hjs, h⟩ | ⟨as, i, bs, rfl, has, hi, h⟩
      · exact .inl ⟨List.forall_mem_cons.mpr ⟨hj, hjs⟩, by simp only [takeIssued, hj, if_false, h]⟩
      · exact .inr ⟨j :: as, i, bs, rfl, List.forall_mem_cons.mpr ⟨hj, has⟩, hi,
          by simp only [takeIssued, hj, if_false, h, List.cons_append]⟩

/-! ### Transactions handed in (R165) -/

/-- A source's first transaction joins the queue while it holds fewer than 8. -/
theorem enqueue_room {s : State} {src : Source} {q : InjRequest} {rest : List InjRequest}
    (hq : s.pu.waiting src = q :: rest) (hroom : s.pu.injectionCount < 8) : enqueue src s =
      { s with pu := { s.pu.setWaiting src rest with ready := s.pu.ready ++ [⟨injIdInForce s, q⟩] } } := by
  simp only [enqueue, hq]
  exact if_pos hroom

theorem enqueue_full (s : State) (src : Source) (hfull : 8 ≤ s.pu.injectionCount) : enqueue src s = s := by
  unfold enqueue
  split
  · rfl
  · exact if_neg (Nat.not_lt.mpr hfull)

theorem PathUnit.setWaiting_other (u : PathUnit) {src x : Source} (h : x ≠ src) (l : List InjRequest) :
    (u.setWaiting src l).waiting x = u.waiting x :=
  match src, x, h with
  | .rpu, .rpu, h => absurd rfl h
  | .rpu, .su, _ => rfl
  | .su, .rpu, _ => rfl
  | .su, .su, h => absurd rfl h

theorem injectionCount_joined (u : PathUnit) (x : Injected) :
    { u with ready := u.ready ++ [x] }.injectionCount = u.injectionCount + 1 := by
  simp only [PathUnit.injectionCount, List.length_append, List.length_singleton]
  omega

/-- Settles O40: the oldest request of an ID by its place in the list; a transaction joins, or finds the queue full. -/
theorem injectionsQueuedAndMatched : Obligations.InjectionsQueuedAndMatched := by
  refine ⟨takeIssued_oldest, fun s src q rest hq => ⟨fun hroom => ?_, fun hfull => ?_⟩⟩
  · refine ⟨_, congrArg Host.Outcome.next (enqueue_room hq hroom), ?_⟩
    have hcount := injectionCount_joined s.pu ⟨injIdInForce s, q⟩
    cases src with
    | rpu => exact ⟨rfl, rfl, fun x hx => s.pu.setWaiting_other hx rest, hcount⟩
    | su => exact ⟨rfl, rfl, fun x hx => s.pu.setWaiting_other hx rest, hcount⟩
  · exact congrArg Host.Outcome.next (enqueue_full s src hfull)

/-! ### The oldest waiting injection of a channel -/

/-- The injections of a channel waiting in the queue, in their order. -/
def injectionsOn (ch : Channel) (xs : List Injected) : List Injected :=
  xs.filter (fun x => decide (x.request.body.channel = ch))

theorem injectionsOn_cons (ch : Channel) (y : Injected) (ys : List Injected) : injectionsOn ch (y :: ys) =
    if y.request.body.channel = ch then y :: injectionsOn ch ys else injectionsOn ch ys := by
  by_cases h : y.request.body.channel = ch <;> simp [injectionsOn, h]

theorem firstInjection_none {ch : Channel} {xs : List Injected} (h : injectionsOn ch xs = []) :
    firstInjection ch xs = none := by
  induction xs with
  | nil => rfl
  | cons y ys ih =>
    rw [injectionsOn_cons] at h
    split at h
    · cases h
    · rename_i hy
      simp only [firstInjection, hy, if_false, ih h]

/-- The oldest of a channel's injections leaves the queue; those of both channels keep their order. -/
theorem firstInjection_some {ch : Channel} {xs ys : List Injected} {x : Injected}
    (h : injectionsOn ch xs = x :: ys) : ∃ rest, firstInjection ch xs = some (x, rest) ∧ injectionsOn ch rest = ys ∧
      rest.length + 1 = xs.length ∧ ∀ c, c ≠ ch → injectionsOn c rest = injectionsOn c xs := by
  induction xs with
  | nil => cases h
  | cons y zs ih =>
    rw [injectionsOn_cons] at h
    split at h
    · rename_i hy
      obtain ⟨rfl, rfl⟩ := List.cons.inj h
      refine ⟨zs, if_pos hy, rfl, rfl, fun c hc => ?_⟩
      rw [injectionsOn_cons, if_neg fun hy' => hc (hy'.symm.trans hy)]
    · rename_i hy
      obtain ⟨rest, hfirst, hrest, hlen, hother⟩ := ih h
      refine ⟨y :: rest, by simp only [firstInjection, hy, if_false, hfirst], ?_, congrArg (· + 1) hlen, fun c hc => ?_⟩
      · rw [injectionsOn_cons, if_neg hy, hrest]
      · rw [injectionsOn_cons, injectionsOn_cons, hother c hc]

/-! ### One grant (R166) -/

section Grant
variable {ch : Channel} {u : PathUnit}

theorem grant_idle (hmine : injectionsOn ch u.ready = []) (hfwd : u.forwards ch = []) : grant ch u = u := by
  simp only [grant, firstInjection_none hmine, hfwd]

/-- The oldest forwarded request goes where no injection waits, or the through count is below 16. -/
theorem grant_forwarded {f : FwdRequest} {fs : List FwdRequest} (hfwd : u.forwards ch = f :: fs)
    (h : injectionsOn ch u.ready = [] ∨ u.through ch < 16) : grant ch u =
      grantForwarded ch f fs (if injectionsOn ch u.ready = [] then 0 else u.through ch + 1) u := by
  cases hmine : injectionsOn ch u.ready with
  | nil => simp only [grant, firstInjection_none hmine, hfwd, if_true]
  | cons x xs =>
    obtain ⟨rest, hfirst, -⟩ := firstInjection_some hmine
    have hlt : u.through ch < Config.throughLimit := h.resolve_left (by rw [hmine]; exact List.cons_ne_nil x xs)
    simp only [grant, hfirst, hfwd, hlt, if_true, reduceCtorEq, if_false]

/-- The oldest injection goes where no forwarded request waits, or the through count has reached 16. -/
theorem grant_injected {x : Injected} {xs : List Injected} (hmine : injectionsOn ch u.ready = x :: xs)
    (h : u.forwards ch = [] ∨ 16 ≤ u.through ch) : ∃ rest, grant ch u = grantInjected ch x rest u ∧
      injectionsOn ch rest = xs ∧ rest.length + 1 = u.ready.length ∧
        ∀ c, c ≠ ch → injectionsOn c rest = injectionsOn c u.ready := by
  obtain ⟨rest, hfirst, hrest⟩ := firstInjection_some hmine
  refine ⟨rest, ?_, hrest⟩
  cases hfwd : u.forwards ch with
  | nil => simp only [grant, hfirst, hfwd]
  | cons f fs =>
    have hge : ¬ u.through ch < Config.throughLimit :=
      Nat.not_lt.mpr (h.resolve_left (by rw [hfwd]; exact List.cons_ne_nil f fs))
    simp only [grant, hfirst, hfwd, hge, if_false]

/-- A grant falls into one of the three rows of R166's table. -/
theorem grant_rows (ch : Channel) (u : PathUnit) :
    (injectionsOn ch u.ready = [] ∧ u.forwards ch = []) ∨
    (∃ f fs, u.forwards ch = f :: fs ∧ (injectionsOn ch u.ready = [] ∨ u.through ch < 16)) ∨
    ∃ x xs, injectionsOn ch u.ready = x :: xs ∧ (u.forwards ch = [] ∨ 16 ≤ u.through ch) := by
  cases hmine : injectionsOn ch u.ready with
  | nil =>
    cases hfwd : u.forwards ch with
    | nil => exact .inl ⟨rfl, rfl⟩
    | cons f fs => exact .inr (.inl ⟨f, fs, rfl, .inl rfl⟩)
  | cons x xs =>
    cases hfwd : u.forwards ch with
    | nil => exact .inr (.inr ⟨x, xs, rfl, .inl rfl⟩)
    | cons f fs =>
      rcases Nat.lt_or_ge (u.through ch) 16 with hlt | hge
      · exact .inr (.inl ⟨f, fs, rfl, .inr hlt⟩)
      · exact .inr (.inr ⟨x, xs, rfl, .inr hge⟩)

end Grant

/-- What a granted forwarded request changes on its channel. -/
theorem grantForwarded_same (ch : Channel) (f : FwdRequest) (fs : List FwdRequest) (n : Nat) (u : PathUnit) :
    (grantForwarded ch f fs n u).forwards ch = fs ∧ (grantForwarded ch f fs n u).ready = u.ready ∧
      (grantForwarded ch f fs n u).through ch = n ∧
      (grantForwarded ch f fs n u).issuedOn ch = u.issuedOn ch ++ [.forwarded f.id f.role] ∧
      (grantForwarded ch f fs n u).down = some (match ch with
        | .read => .read f.id f.addr f.burst
        | .write => .write f.id f.addr f.burst f.data) := by
  cases ch <;> exact ⟨rfl, rfl, rfl, rfl, rfl⟩

theorem grantForwarded_other {ch c : Channel} (hc : c ≠ ch) (f : FwdRequest) (fs : List FwdRequest) (n : Nat)
    (u : PathUnit) : (grantForwarded ch f fs n u).forwards c = u.forwards c ∧
      (grantForwarded ch f fs n u).through c = u.through c ∧
      (grantForwarded ch f fs n u).issuedOn c = u.issuedOn c :=
  match ch, c, hc with
  | .read, .read, hc => absurd rfl hc
  | .read, .write, _ => ⟨rfl, rfl, rfl⟩
  | .write, .read, _ => ⟨rfl, rfl, rfl⟩
  | .write, .write, hc => absurd rfl hc

/-- What a granted injection changes on its channel. -/
theorem grantInjected_same (ch : Channel) (x : Injected) (rest : List Injected) (u : PathUnit) :
    (grantInjected ch x rest u).forwards ch = u.forwards ch ∧ (grantInjected ch x rest u).ready = rest ∧
      (grantInjected ch x rest u).through ch = 0 ∧
      (grantInjected ch x rest u).issuedOn ch = u.issuedOn ch ++ [.injected x] ∧
      (grantInjected ch x rest u).down = some (injectedRequest x) := by
  cases ch <;> exact ⟨rfl, rfl, rfl, rfl, rfl⟩

theorem grantInjected_other {ch c : Channel} (hc : c ≠ ch) (x : Injected) (rest : List Injected) (u : PathUnit) :
    (grantInjected ch x rest u).forwards c = u.forwards c ∧ (grantInjected ch x rest u).through c = u.through c ∧
      (grantInjected ch x rest u).issuedOn c = u.issuedOn c :=
  match ch, c, hc with
  | .read, .read, hc => absurd rfl hc
  | .read, .write, _ => ⟨rfl, rfl, rfl⟩
  | .write, .read, _ => ⟨rfl, rfl, rfl⟩
  | .write, .write, hc => absurd rfl hc

/-- The request an injection puts downstream (R165's table; notes/assumptions/37.md). -/
theorem injectedRequest_eq (x : Injected) : injectedRequest x = match x.request.body with
    | .setupRead _ => .read x.id x.request.addr ⟨.incr, 16, 16⟩
    | .ulIndexRead => .read x.id x.request.addr ⟨.incr, 4, 1⟩
    | .dlIndexRead => .read x.id x.request.addr ⟨.incr, 4, 1⟩
    | .repIndexRead => .read x.id x.request.addr ⟨.incr, 4, 1⟩
    | .recordWrite bs => .write x.id x.request.addr ⟨.incr, 16, 2⟩ (bs.map some)
    | .indexWrite bs => .write x.id x.request.addr ⟨.incr, 4, 1⟩ (bs.map some)
    | .statusWrite bs => .write x.id x.request.addr ⟨.incr, 8, 1⟩ (bs.map some) := by
  unfold injectedRequest
  cases x.request.body <;> rfl

/-- A grant leaves the other channel as it is. -/
theorem grant_other {ch c : Channel} (hc : c ≠ ch) (u : PathUnit) :
    (grant ch u).forwards c = u.forwards c ∧ (grant ch u).through c = u.through c ∧
      (grant ch u).issuedOn c = u.issuedOn c ∧ injectionsOn c (grant ch u).ready = injectionsOn c u.ready := by
  rcases grant_rows ch u with ⟨hmine, hfwd⟩ | ⟨f, fs, hfwd, h⟩ | ⟨x, xs, hmine, h⟩
  · rw [grant_idle hmine hfwd]
    exact ⟨rfl, rfl, rfl, rfl⟩
  · rw [grant_forwarded hfwd h]
    obtain ⟨hforwards, hthrough, hissued⟩ := grantForwarded_other hc f fs _ u
    exact ⟨hforwards, hthrough, hissued, by rw [(grantForwarded_same ch f fs _ u).2.1]⟩
  · obtain ⟨rest, hgrant, -, -, hrest⟩ := grant_injected hmine h
    rw [hgrant]
    obtain ⟨hforwards, hthrough, hissued⟩ := grantInjected_other hc x rest u
    exact ⟨hforwards, hthrough, hissued, by rw [(grantInjected_same ch x rest u).2.1, hrest c hc]⟩

/-- Settles O41: each row of the table by its own lemma, and the other channel stands. -/
theorem grantTable : Obligations.GrantTable := by
  intro s ch
  refine ⟨{ s with pu := grant ch s.pu }, rfl, rfl, fun c hc => grant_other hc s.pu, fun hmine hfwd => ?_,
    fun f fs hfwd h => ?_, fun x xs hmine h => ?_⟩
  · exact congrArg (fun u => { s with pu := u }) (grant_idle hmine hfwd)
  · dsimp only
    rw [grant_forwarded hfwd h]
    exact grantForwarded_same ch f fs _ s.pu
  · obtain ⟨rest, hgrant, hleft, hlen, -⟩ := grant_injected hmine h
    dsimp only
    rw [hgrant]
    obtain ⟨hforwards, hready, hthrough, hissued, hdown⟩ := grantInjected_same ch x rest s.pu
    rw [hready]
    exact ⟨hforwards, hleft, hthrough, hlen, hissued, hdown.trans (congrArg some (injectedRequest_eq x))⟩

/-! ### The bound on waiting (R166) -/

/-- Forwarded requests arriving on a channel. -/
def PathUnit.arrive (ch : Channel) (fs : List FwdRequest) (u : PathUnit) : PathUnit :=
  match ch with
  | .read => { u with fwdRead := u.fwdRead ++ fs }
  | .write => { u with fwdWrite := u.fwdWrite ++ fs }

theorem grantRun_cons (ch : Channel) (fs : List FwdRequest) (rest : List (List FwdRequest)) (u : PathUnit) :
    grantRun ch (fs :: rest) u = grantRun ch rest (grant ch (u.arrive ch fs)) := by
  cases ch <;> rfl

theorem PathUnit.arrive_stands (ch : Channel) (fs : List FwdRequest) (u : PathUnit) :
    (u.arrive ch fs).ready = u.ready ∧ (u.arrive ch fs).through ch = u.through ch ∧
      (u.arrive ch fs).issuedOn ch = u.issuedOn ch := by
  cases ch <;> exact ⟨rfl, rfl, rfl⟩

/-- Where the next grant goes to the oldest injection it waits for no forwarded request. -/
theorem injection_next {ch : Channel} {u : PathUnit} {x : Injected} {xs : List Injected} (fs : List FwdRequest)
    (rest : List (List FwdRequest)) (hmine : injectionsOn ch u.ready = x :: xs)
    (h : (u.arrive ch fs).forwards ch = [] ∨ 16 ≤ u.through ch) :
    (grantRun ch ((fs :: rest).take 1) u).issuedOn ch = u.issuedOn ch ++ [] ++ [.injected x] := by
  obtain ⟨hready, hthrough, hissued⟩ := u.arrive_stands ch fs
  obtain ⟨left, hgrant, -⟩ := grant_injected (by rw [hready, hmine]) (hthrough.symm ▸ h)
  obtain ⟨-, -, -, hgranted, -⟩ := grantInjected_same ch x left (u.arrive ch fs)
  rw [List.take_succ_cons, List.take_zero, grantRun_cons, hgrant, List.append_nil, ← hissued]
  exact hgranted

/-- With `k` forwarded requests left before the through count reaches 16, the oldest injection waits for at most `k`. -/
theorem injection_waits (ch : Channel) (x : Injected) (xs : List Injected) (k : Nat) :
    ∀ (u : PathUnit) (arrivals : List (List FwdRequest)), injectionsOn ch u.ready = x :: xs →
      16 ≤ u.through ch + k → k < arrivals.length →
      ∃ n, n ≤ k + 1 ∧ ∃ before, before.length ≤ k ∧ (∀ i ∈ before, i.isInjected = false) ∧
        (grantRun ch (arrivals.take n) u).issuedOn ch = u.issuedOn ch ++ before ++ [.injected x] := by
  induction k with
  | zero =>
    intro u arrivals hmine hk hlen
    obtain ⟨fs, rest, rfl⟩ := List.exists_cons_of_length_pos hlen
    exact ⟨1, Nat.le_refl _, [], Nat.le_refl _, nofun, injection_next fs rest hmine (.inr hk)⟩
  | succ k ih =>
    intro u arrivals hmine hk hlen
    obtain ⟨fs, rest, rfl⟩ := List.exists_cons_of_length_pos (Nat.zero_lt_of_lt hlen)
    by_cases h : (u.arrive ch fs).forwards ch = [] ∨ 16 ≤ u.through ch
    · exact ⟨1, Nat.le_add_left .., [], Nat.zero_le _, nofun, injection_next fs rest hmine h⟩
    · obtain ⟨hfwd, hlt⟩ := not_or.mp h
      obtain ⟨f, gs, hfwd⟩ := List.exists_cons_of_ne_nil hfwd
      obtain ⟨hready, hthrough, hissued⟩ := u.arrive_stands ch fs
      have hmine' : injectionsOn ch (u.arrive ch fs).ready = x :: xs := by rw [hready, hmine]
      have hgrant := grant_forwarded hfwd (.inr (by rw [hthrough]; exact Nat.lt_of_not_le hlt))
      rw [if_neg (by rw [hmine']; exact List.cons_ne_nil x xs)] at hgrant
      obtain ⟨-, hready', hthrough', hissued', -⟩ :=
        grantForwarded_same ch f gs ((u.arrive ch fs).through ch + 1) (u.arrive ch fs)
      rw [← hgrant] at hready' hthrough' hissued'
      obtain ⟨n, hn, before, hbefore, hfree, hrun⟩ := ih (grant ch (u.arrive ch fs)) rest (by rw [hready', hmine'])
        (by rw [hthrough', hthrough]; omega) (Nat.lt_of_succ_lt_succ hlen)
      refine ⟨n + 1, Nat.succ_le_succ hn, .forwarded f.id f.role :: before, Nat.succ_le_succ hbefore,
        List.forall_mem_cons.mpr ⟨rfl, hfree⟩, ?_⟩
      rw [List.take_succ_cons, grantRun_cons, hrun, hissued', hissued, List.append_assoc (u.issuedOn ch),
        List.singleton_append]

/-- Settles O42: the through count reaches 16 after at most 16 forwarded requests. -/
theorem injectionWaitsAtMostSixteen : Obligations.InjectionWaitsAtMostSixteen :=
  fun ch u x xs arrivals hmine hlen => injection_waits ch x xs 16 u arrivals hmine (Nat.le_add_left ..) (by omega)

end Sys2Proof.Machine
end

