-- ==== Sys2Proof/Proofs/Forwarding.lean ====
section
/-! SUPPORT. Transactions of the INJ_ID refused (R162), and transactions forwarded without effect (R162, R164, R165). -/

namespace Sys2Proof.Machine

open Sys2Proof

/-! ### Refusal (R162) -/

theorem exec_injIdRefused {s : State} {id : AxiId} (ch : Channel) (n : Nat) (hid : id = injIdInForce s) :
    exec (.injIdRefused id ch n) s = .next { s with pu := { s.pu with up := refusalBeats id n ch } } :=
  congrArg Host.Outcome.next (if_pos hid)

/-- SLVERR, once for a write and once a beat for a read. -/
theorem refusalBeats_slverr (id : AxiId) (n : Nat) (ch : Channel) :
    (∀ u ∈ refusalBeats id n ch, u.id = id ∧ u.resp = .slverr) ∧
      (refusalBeats id n ch).length = (match ch with | .read => n | .write => 1) := by
  cases ch with
  | read =>
    refine ⟨fun u hu => ?_, List.length_replicate⟩
    obtain rfl := List.eq_of_mem_replicate hu
    exact ⟨rfl, rfl⟩
  | write =>
    refine ⟨fun u hu => ?_, rfl⟩
    obtain rfl := List.mem_singleton.mp hu
    exact ⟨rfl, rfl⟩

/-! ### Requests, responses and beats forwarded (R164) -/

/-- A write response without effect passes back unchanged. -/
theorem exec_plainResponse {s : State} {w : Write} {role : Role} (hrole : forwardedRole s .write w.id = some role)
    (heffect : hasEffect s role w = false) : exec (.transactionForward (.writeResponse w)) s = .next (returnWrite w s) := by
  have h : forwardResponse w s = returnWrite w s := by
    simp only [forwardResponse, hrole, heffect, Bool.false_eq_true, if_false]
  exact congrArg Host.Outcome.next h

theorem dropIssued_none {id : AxiId} {is : List Issued} (h : takeIssued id is = none) : dropIssued id is = is := by
  simp only [dropIssued, h]

theorem dropIssued_some {id : AxiId} {is rest : List Issued} {i : Issued} (h : takeIssued id is = some (i, rest)) :
    dropIssued id is = rest := by
  simp only [dropIssued, h]

/-- A beat of the role OTHER is none of RADIO or APP, so the part does not act on it. -/
theorem isPlainBeat_other {b : ReadBeat} {o : OpenRead} (h : o.role = .other) : isPlainBeat b o = true := by
  have hdeparture : isDepartureBeat b o = false := by
    unfold isDepartureBeat
    split <;> simp [h]
  have hmotion : isMotionBeat b o = false := by
    unfold isMotionBeat
    split <;> simp [h]
  simp [isPlainBeat, hdeparture, hmotion, h]

/-- It passes with DRAM's data, under a window table or without. -/
theorem carryBeat_other {b : ReadBeat} {o : OpenRead} (s : State) (h : o.role = .other) :
    carryBeat b o s = endBeat b o b.data s := by
  unfold carryBeat
  split
  · rfl
  · simp only [h]

theorem exec_otherBeat {s s1 : State} {b : ReadBeat} {o : OpenRead} (hburst : burstOf b s = some (o, s1))
    (hrole : o.role = .other) :
    exec (.transactionForward (.readBeat b)) s = .next (endBeat b o b.data s1) := by
  have h : passBeat isPlainBeat b s = endBeat b o b.data s1 := by
    simp only [passBeat, hburst, isPlainBeat_other hrole, if_true, carryBeat_other s1 hrole]
  exact congrArg Host.Outcome.next h

/-- Settles O38: each transaction by its own row's meaning; the accepted request and the answers change the Path Unit
alone. -/
theorem requestsRefusedOrForwarded : Obligations.RequestsRefusedOrForwarded := by
  refine ⟨fun s id ch n hid => ?_, fun s => ⟨fun id addr burst hid => ?_, fun id addr burst data hid => ?_,
    fun w role hrole heffect => ?_, fun b o s1 hburst hrole => ?_⟩⟩
  · obtain ⟨hall, hlen⟩ := refusalBeats_slverr id n ch
    exact ⟨_, exec_injIdRefused ch n hid, rfl, hall, hlen⟩
  · exact congrArg Host.Outcome.next (if_neg hid)
  · exact congrArg Host.Outcome.next (if_neg hid)
  · exact ⟨_, exec_plainResponse hrole heffect, rfl, dropIssued_none, fun i rest => dropIssued_some⟩
  · obtain ⟨hsu, hrcu, hclu, hrfu, hcvu, hrpu⟩ := (burstOf_only b s s1 o hburst).units
    exact ⟨_, exec_otherBeat hburst hrole, endBeat_up b o b.data s1, hrcu, hclu, hrfu, hcvu, hrpu, hsu⟩

end Sys2Proof.Machine
end

