-- ==== Sys2Proof/Proofs/CommandWord.lean ====
section
/-! SUPPORT. A completed write of the command word alone in every run state (R162, R171): a command taken and refused
(R172), a write while another command is in hand, and the answers of the status writes (R171). -/

namespace Sys2Proof.Machine

open Sys2Proof

/-! ### A completed write of the command word -/

/-- A write of the command word alone passes back and reaches the command state, whatever the run state. -/
theorem completeWrite_command {s : State} {w : Write} {role : Role} (hrole : forwardedRole s .write w.id = some role)
    (happ : role = .app ∨ s.su.setup = none) (hok : isOkay w.resp = true)
    (hcov : coversWhole w (commandWordAddr s) 4 = true) (honly : reachesOnly s w .command) :
    completeWrite w s = takeCommand (writtenCode s w) (writtenArg s w) (judgeCommand (writtenCode s w))
      (returnWrite w s) := by
  have hwindows : writeWindows role w (countViewWrite w (returnWrite w s)) = returnWrite w s := by
    cases hp : s.su.setup with
    | none =>
      have hp' : (returnWrite w s).su.setup = none := hp
      simp only [countViewWrite, writeWindows, hp']
    | some p =>
      have hp' : (returnWrite w s).su.setup = some p := hp
      obtain rfl : role = .app := happ.resolve_right (by rw [hp]; nofun)
      rw [countViewWrite_outside p w (returnWrite w s) hp (honly p hp .views (by decide))]
      simp only [writeWindows, hp', writeApp_outside p w _ (honly p hp .dlSlots (by decide))
        (honly p hp .dlProducer (by decide)) (honly p hp .consumer (by decide)), ite_self]
  have hcommand : isCommandWrite (returnWrite w s) role w = true := by
    have hcov' : coversWhole w (commandWordAddr (returnWrite w s)) 4 = true := hcov
    rw [isCommandWrite, hcov', Bool.and_true, Bool.or_eq_true, decide_eq_true_eq, Option.isNone_iff_eq_none]
    exact happ
  rcases completeWrite_cases w s with ⟨hn, -⟩ | ⟨role', hrole', ⟨hf, -⟩ | ⟨-, h⟩⟩
  · rw [hn] at hrole
    cases hrole
  · rw [hok] at hf
    cases hf
  · obtain rfl := Option.some.inj (hrole.symm.trans hrole')
    rw [h, hwindows, writeCommand, if_pos hcommand]
    rfl

theorem commandWrite_named {codes : Byte → Bool} {s : State} {w : Write}
    (hcov : coversWhole w (commandWordAddr s) 4 = true) (hcode : codes (writtenCode s w) = true) :
    commandWrite codes w s = completeWrite w s := by
  simp only [commandWrite, hcov, hcode, Bool.and_self, if_true]

section Given
variable {s : State} {w : Write} {code : Byte} {arg : Half}

/-- A command given, under the row of its code, is begun and judged (R171). -/
theorem commandWrite_begun {codes : Byte → Bool} (hg : commandGiven s w code arg) (hcode : codes code = true) :
    commandWrite codes w s = judgeCommand code arg (beginCommand code arg (returnWrite w s)) := by
  have hwritten := writtenCode_given hg
  obtain ⟨⟨role, hrole, happ⟩, hok, hidle, hcov, -, -, -, honly⟩ := id hg
  have hidle' : (returnWrite w s).su.command.phase = .idle := hidle
  rw [commandWrite_named hcov (by rw [hwritten, hcode]), completeWrite_command hrole happ hok hcov honly,
    hwritten, writtenArg_given hg]
  simp only [takeCommand, hidle']

/-! ### Commands refused (R172) -/

/-- The final status decided at once is the taking of the command, and no other unit changes. -/
theorem commandTaken_decided (s : State) (w : Write) (code : Byte) (arg : Half) (v : CmdStatus) :
    commandTaken s (decideCommand v (beginCommand code arg (returnWrite w s))) w code arg v ∧
      unitsStand s (decideCommand v (beginCommand code arg (returnWrite w s))) := by
  rw [decideCommand_waits v _ rfl]
  exact ⟨⟨rfl, rfl, _, rfl⟩, rfl, rfl, rfl, rfl, rfl, rfl, rfl⟩

/-- A command whose judgement is a refusal is taken with that status and changes nothing else. -/
theorem command_refused {codes : Byte → Bool} {c : Instr} {v : CmdStatus} (hg : commandGiven s w code arg)
    (hrow : exec c s = .next (commandWrite codes w s)) (hcode : codes code = true)
    (hjudged : judgeCommand code arg (beginCommand code arg (returnWrite w s)) =
      decideCommand v (beginCommand code arg (returnWrite w s))) :
    ∃ t, exec c s = .next t ∧ commandTaken s t w code arg v ∧ unitsStand s t :=
  ⟨_, hrow.trans (congrArg _ ((commandWrite_begun hg hcode).trans hjudged)), commandTaken_decided s w code arg v⟩

/-- The rows of the commands that act in RUNNING alone. -/
theorem running_row {c : Instr}
    (hc : (c, code) ∈ [(Instr.ackLines w, 0x02), (.craneReset w, 0x03), (.traceOpen w, 0x04), (.reeferAck w, 0x05),
      (.reeferForget w, 0x06), (.coverageClear w, 0x07), (.clearCounters w, 0x08)]) :
    (∃ action, judgeCommand code = judgeRunning action) ∧
      ∀ s, exec c s = .next (commandWrite (fun x => decide (x = code)) w s) := by
  simp only [List.mem_cons, Prod.mk.injEq, List.not_mem_nil, or_false] at hc
  rcases hc with ⟨rfl, rfl⟩ | ⟨rfl, rfl⟩ | ⟨rfl, rfl⟩ | ⟨rfl, rfl⟩ | ⟨rfl, rfl⟩ | ⟨rfl, rfl⟩ | ⟨rfl, rfl⟩
  · exact ⟨⟨ackLines, rfl⟩, fun _ => rfl⟩
  · exact ⟨⟨resetCrane, rfl⟩, fun _ => rfl⟩
  · exact ⟨⟨openTrace, rfl⟩, fun _ => rfl⟩
  · exact ⟨⟨ackEntry, rfl⟩, fun _ => rfl⟩
  · exact ⟨⟨forgetEntry, rfl⟩, fun _ => rfl⟩
  · exact ⟨⟨clearCoverage, rfl⟩, fun _ => rfl⟩
  · exact ⟨⟨clearCounters, rfl⟩, fun _ => rfl⟩

theorem judgeRunning_stopped (action : Half → State → Option State) (arg : Half) {s : State}
    (hr : s.su.runState ≠ .running) : judgeRunning action arg s = decideCommand .refusedState s := if_pos hr

theorem judgeRunning_unanswered {action : Half → State → Option State} {arg : Half} {s : State}
    (hr : s.su.runState = .running) (ha : action arg s = none) :
    judgeRunning action arg s = decideCommand .refusedArg s := by
  simp only [judgeRunning, hr, ne_eq, not_true_eq_false, if_false, ha]

theorem namedEntry_none {s : State} (h : 2048 ≤ arg.toNat ∨ s.rfu.entry arg.toNat = none) :
    namedEntry arg s = none := by
  unfold namedEntry
  split
  case isTrue hlt => exact h.resolve_left (Nat.not_le.mpr hlt)
  case isFalse => rfl

theorem clearCoverage_none {s : State} (harg : arg ≠ 0xFFFF)
    (h : ∀ p, s.su.setup = some p → p.coverage.segCount ≤ arg.toNat) : clearCoverage arg s = none := by
  unfold clearCoverage
  split
  · rename_i p hp
    exact if_neg fun hor => hor.elim (Nat.not_lt.mpr (h p hp)) harg
  · rfl

/-- A command of RUNNING whose argument is out of range: its action has no answer, in a state begun from `s`. -/
theorem running_unanswered {c : Instr}
    (hc : (c, code) ∈ [(Instr.craneReset w, 0x03), (.traceOpen w, 0x04)] ∧ 12 ≤ arg.toNat ∨
      (c, code) ∈ [(Instr.reeferAck w, 0x05), (.reeferForget w, 0x06)] ∧
        (2048 ≤ arg.toNat ∨ s.rfu.entry arg.toNat = none) ∨
      (c, code) = (Instr.coverageClear w, 0x07) ∧ arg ≠ 0xFFFF ∧
        (∀ p, s.su.setup = some p → p.coverage.segCount ≤ arg.toNat)) :
    (∀ u, exec c u = .next (commandWrite (fun x => decide (x = code)) w u)) ∧
      ∃ action, judgeCommand code = judgeRunning action ∧
        action arg (beginCommand code arg (returnWrite w s)) = none := by
  simp only [List.mem_cons, Prod.mk.injEq, List.not_mem_nil, or_false] at hc
  rcases hc with ⟨hc, hout⟩ | ⟨hc, hout⟩ | ⟨⟨rfl, rfl⟩, harg, hseg⟩
  · rcases hc with ⟨rfl, rfl⟩ | ⟨rfl, rfl⟩
    · exact ⟨fun _ => rfl, resetCrane, rfl, if_neg (Nat.not_lt.mpr hout)⟩
    · exact ⟨fun _ => rfl, openTrace, rfl, if_neg (Nat.not_lt.mpr hout)⟩
  · rcases hc with ⟨rfl, rfl⟩ | ⟨rfl, rfl⟩
    · exact ⟨fun _ => rfl, ackEntry, rfl, by rw [ackEntry, namedEntry_none (by exact hout), Option.map_none]⟩
    · exact ⟨fun _ => rfl, forgetEntry, rfl, by rw [forgetEntry, namedEntry_none (by exact hout), Option.map_none]⟩
  · exact ⟨fun _ => rfl, clearCoverage, rfl, clearCoverage_none harg hseg⟩

theorem judgeCommand_unknown (h : code = 0 ∨ 8 < code.toNat) : judgeCommand code = judgeUnknown := by
  have hne : ∀ k : Byte, 1 ≤ k.toNat → k.toNat ≤ 8 → code ≠ k := by
    rintro k hlow hhigh rfl
    rcases h with rfl | h
    · exact absurd hlow (by decide)
    · omega
  simp only [judgeCommand, hne 0x01 (by decide) (by decide), hne 0x02 (by decide) (by decide),
    hne 0x03 (by decide) (by decide), hne 0x04 (by decide) (by decide), hne 0x05 (by decide) (by decide),
    hne 0x06 (by decide) (by decide), hne 0x07 (by decide) (by decide), hne 0x08 (by decide) (by decide), if_false]

end Given

/-- Settles O49: each refusal by its row and by what its judgement decides. -/
theorem commandsRefused : Obligations.CommandsRefused := by
  intro s w code arg hg
  refine ⟨fun c hr hc => ?_, fun c hr hc => ?_, fun c hc => ?_, fun hcode hr => ?_⟩
  · obtain ⟨⟨action, hjudge⟩, hrow⟩ := running_row hc
    refine command_refused hg (hrow s) (decide_eq_true rfl) ?_
    rw [hjudge]
    exact judgeRunning_stopped action arg hr
  · obtain ⟨hrow, action, hjudge, hnone⟩ := running_unanswered hc
    refine command_refused hg (hrow s) (decide_eq_true rfl) ?_
    rw [hjudge]
    exact judgeRunning_unanswered hr hnone
  · rcases hc with ⟨hc, hr, harg⟩ | ⟨rfl, hcode⟩
    · obtain ⟨rfl, rfl⟩ := Prod.mk.inj hc
      refine command_refused hg rfl (decide_eq_true rfl) ?_
      exact (if_neg hr).trans (if_pos harg)
    · refine command_refused hg rfl ?_ ?_
      · simpa using hcode
      · rw [judgeCommand_unknown hcode]
        rfl
  · subst hcode
    exact command_refused hg rfl (decide_eq_true rfl) (if_pos hr)

/-! ### The command state (R171) -/

theorem writtenArg_of_bytes {s : State} {w : Write} {arg : Half}
    (hlow : activeByte w (commandWordAddr s + 2) = some (arg.setWidth 8))
    (hhigh : activeByte w (commandWordAddr s + 3) = some ((arg >>> 8).setWidth 8)) : writtenArg s w = arg := by
  have hbytes : writtenBytes w (commandWordAddr s + 2) 2 = le16 arg := by
    simp only [writtenBytes, hlow, hhigh, Option.getD_some, le16]
  rw [writtenArg, hbytes, ofLe_le16]

section Taken
variable {s : State} (code : Byte) (arg : Half) (judge : Half → State → State)

theorem takeCommand_pending (h : s.su.command.phase = .pending) : takeCommand code arg judge s =
    { s with su := { s.su with command := { s.su.command with busy := true } } } := by
  simp only [takeCommand, h]

/-- In CLOSING the last command refused stands, unless the REFUSED_BUSY write is out. -/
theorem takeCommand_closing (h : s.su.command.phase = .closing) : takeCommand code arg judge s =
    { s with su := { s.su with command := { s.su.command with
      refused := if s.su.command.busyWrite = true then s.su.command.refused else some (code, arg) } } } := by
  obtain ⟨hphase, -⟩ | ⟨hphase, -⟩ | ⟨-, hc⟩ := takeCommand_cases code arg judge s
  · cases h.symm.trans hphase
  · cases h.symm.trans hphase
  · rw [hc]
    by_cases hbusy : s.su.command.busyWrite = true
    · rw [if_pos hbusy, if_pos hbusy]
    · rw [if_neg hbusy, if_neg hbusy]

end Taken

/-- COMMAND_WRITE_WHILE_BUSY of the command word alone: the write reaches the command state. -/
theorem exec_commandWriteWhileBusy {s : State} {w : Write} {code : Byte} {arg : Half}
    (hphase : s.su.command.phase ≠ .idle) (hcov : coversWhole w (commandWordAddr s) 4 = true)
    (hcomplete : completeWrite w s = takeCommand code arg (judgeCommand code) (returnWrite w s)) :
    exec (.commandWriteWhileBusy w) s = .next (takeCommand code arg (judgeCommand code) (returnWrite w s)) := by
  rw [← hcomplete, ← commandWrite_named (codes := fun _ => true) hcov rfl]
  exact congrArg Host.Outcome.next (if_neg hphase)

/-- COMMAND_STATUS_WRITE_DONE frees the request's place, whatever the response. -/
theorem exec_commandStatusWriteDone {s s1 : State} {id : AxiId} {q : InjRequest} (resp : Resp)
    (ht : takeInjected s .write id = some (q, s1)) (hq : q.body.isStatusWrite = true) :
    exec (.commandStatusWriteDone id resp) s = .next (statusAnswered s1) := by
  have h : exec (.commandStatusWriteDone id resp) s = execCommandStatusWriteDone id resp s := rfl
  rw [h]
  simp only [execCommandStatusWriteDone, ht, hq, if_true]

section Answered
variable {s : State}

theorem statusAnswered_undecided (hphase : s.su.command.phase = .pending) (hverdict : s.su.command.verdict = none) :
    statusAnswered s = { s with su := { s.su with command := { s.su.command with pendingAnswered := true } } } := by
  simp only [statusAnswered, hphase, settleCommand, hverdict]

theorem statusAnswered_decided {v : CmdStatus} (hphase : s.su.command.phase = .pending)
    (hverdict : s.su.command.verdict = some v) : statusAnswered s =
      handFinal v { s with su := { s.su with command := { s.su.command with pendingAnswered := true } } } := by
  simp only [statusAnswered, hphase, settleCommand, hverdict, and_self, if_true]

theorem statusAnswered_closed (hphase : s.su.command.phase = .closing)
    (h : s.su.command.busyWrite = true ∨ s.su.command.refused = none) :
    statusAnswered s = { s with su := { s.su with command := Command.idle } } := by
  rcases h with h | h
  · simp only [statusAnswered, hphase, h]
  · cases hbusy : s.su.command.busyWrite <;> simp only [statusAnswered, hphase, h, hbusy]

theorem statusAnswered_refused {code : Byte} {arg : Half} (hphase : s.su.command.phase = .closing)
    (hbusy : s.su.command.busyWrite = false) (hrefused : s.su.command.refused = some (code, arg)) : statusAnswered s =
      { s with su := { s.su with command := { s.su.command with refused := none, busyWrite := true } } }.writeStatusFree
        .refusedBusy code arg := by
  simp only [statusAnswered, hphase, hbusy, hrefused]

end Answered

/-- Settles O50: the command state's three answers to a write, and to a status write answered. -/
theorem commandStateMoves : Obligations.CommandStateMoves := by
  refine ⟨fun s w role code arg hrole happ hok hcov honly hcode hlow hhigh => ?_, fun s s1 id resp q ht hq => ?_⟩
  · have hwritten : writtenCode s w = code := by rw [writtenCode, hcode, Option.getD_some]
    have hcomplete := completeWrite_command hrole happ hok hcov honly
    rw [hwritten, writtenArg_of_bytes hlow hhigh] at hcomplete
    refine ⟨fun hphase => ?_, fun hphase => ?_⟩
    · refine (exec_commandWriteWhileBusy (by rw [hphase]; nofun) hcov hcomplete).trans (congrArg _ ?_)
      exact takeCommand_pending code arg _ (s := returnWrite w s) hphase
    · refine (exec_commandWriteWhileBusy (by rw [hphase]; nofun) hcov hcomplete).trans (congrArg _ ?_)
      exact takeCommand_closing code arg _ (s := returnWrite w s) hphase
  · obtain ⟨pu, rfl⟩ : ∃ pu, s1 = { s with pu := pu } := ⟨_, takeInjected_frame s s1 .write id q ht⟩
    have hexec := exec_commandStatusWriteDone resp ht hq
    refine ⟨fun hphase hverdict => ?_, fun v hphase hverdict => ?_, fun hphase h => ?_,
      fun code arg hphase hbusy hrefused => ?_⟩
    · exact hexec.trans (congrArg _ (statusAnswered_undecided hphase hverdict))
    · exact hexec.trans (congrArg _ (statusAnswered_decided hphase hverdict))
    · exact hexec.trans (congrArg _ (statusAnswered_closed hphase h))
    · exact ⟨_, _, hexec.trans (congrArg _ (statusAnswered_refused hphase hbusy hrefused)), rfl⟩

end Sys2Proof.Machine
end

