-- ==== Sys2Proof/Proofs/ResetLaws.lean ====
section
/-! SUPPORT. Every law holds right after reset (R167): no setup is held, every queue and list is empty, and every numbered
record stands at its power-on values. -/

namespace Sys2Proof.Machine

open Sys2Proof

theorem reset_captureLaw : captureLaw State.reset :=
  ⟨Nat.zero_le _, List.nodup_nil, nofun, fun _ => rfl, rfl⟩

theorem reset_outstandingLaw : outstandingLaw State.reset := fun _ => ⟨Nat.zero_le _, .nil, fun _ => rfl⟩

theorem reset_reeferLaw : reeferLaw State.reset :=
  (reeferLaw_iff _).mpr (ReeferUnit.lawfulOn.emptied (fun _ => rfl) rfl)

theorem reset_terminalLaw : terminalLaw State.reset :=
  ⟨fun p hp => absurd hp (reset_holds p), fun _ => rfl, fun _ => ⟨nofun, fun _ => rfl⟩⟩

theorem reset_boundsLaw : boundsLaw State.reset := by
  have hscan : State.reset.rfu.scanPos < Config.reeferCount := Nat.zero_lt_succ _
  have htick : State.reset.cvu.tick < 100 := Nat.zero_lt_succ _
  exact ⟨Nat.zero_le _, Nat.zero_le _, Nat.zero_le _, Nat.zero_le _, Nat.zero_le _, hscan, htick,
    fun p hp => absurd hp (reset_holds p), fun p hp => absurd (.inl hp) (reset_holds p)⟩

theorem reset_mapLaw : mapLaw State.reset :=
  ⟨fun p hp => absurd hp (reset_holds p), fun _ => rfl, fun p hp => absurd (.inl hp) (reset_holds p)⟩

theorem reset_runStateLaw : runStateLaw State.reset :=
  ⟨Iff.intro nofun nofun, ⟨nofun, rfl, rfl, rfl, rfl, nofun⟩, fun _ => ⟨rfl, rfl, rfl⟩⟩

/-- Settles O51: each law of the reset state, those on the map's segments as proved with their steps. -/
theorem lawsHoldAtReset : Obligations.LawsHoldAtReset :=
  ⟨reset_captureLaw, ⟨rfl, rfl⟩, reset_outstandingLaw, emptySegmentLawKept.1, averageLawKept.1, reset_reeferLaw,
    reset_terminalLaw, reset_boundsLaw, reset_mapLaw, ⟨rfl, rfl, rfl, rfl⟩, reset_runStateLaw⟩

end Sys2Proof.Machine
end

