-- ==== Sys2Proof/Proofs/SetupReads.lean ====
section
/-! SUPPORT. The reads of the setup block answered (R169): the copy gathered, validated, or the load failed (R170). -/

namespace Sys2Proof.Machine

open Sys2Proof

/-! ### The row -/

/-- An answer to a read of the load under way is taken (R169). -/
theorem exec_setupReadDone {s s1 : State} {id : AxiId} {q : InjRequest} {l : Load} (resp : Resp) (data : List Byte)
    (ht : takeInjected s .read id = some (q, s1)) (hq : q.body.isSetupRead = true) (hlive : q.live = true)
    (hl : s1.su.load = some l) :
    exec (.setupReadDone id resp data) s = .next (setupReadAnswered l resp data s1) := by
  have h : exec (.setupReadDone id resp data) s = execSetupReadDone id resp data s := rfl
  rw [h]
  simp only [execSetupReadDone, ht, hq, hl, hlive, if_true]

/-! ### The outcomes of a read -/

theorem padTo_of_length {n : Nat} {bs : List Byte} (h : bs.length = n) : padTo n bs = bs := by
  rw [padTo, ← h, List.take_left]

section Answered
variable {l : Load} {data : List Byte} (s : State)

theorem setupReadAnswered_fails {resp : Resp} (hr : resp ≠ .okay) :
    setupReadAnswered l resp data s = failLoad readError s := by
  have h : injectedOkay resp = false := beq_eq_false_iff_ne.mpr hr
  simp only [setupReadAnswered, h, Bool.not_false, if_true]

theorem setupReadAnswered_kept (hdata : data.length = 256) (hn : l.answered < 63) : setupReadAnswered l .okay data s =
    { s with su := { s.su with load := some { l with copy := l.copy ++ data, answered := l.answered + 1 } } } := by
  have hlt : l.answered + 1 < Config.setupReads := Nat.succ_lt_succ hn
  have h : injectedOkay .okay = true := rfl
  simp only [setupReadAnswered, h, padTo_of_length hdata, hlt, Bool.not_true, Bool.false_eq_true, if_false, if_true]

/-- The 64th read completes the copy, which is then validated. -/
theorem setupReadAnswered_whole (hdata : data.length = 256) (hn : l.answered = 63) :
    setupReadAnswered l .okay data s = validated l (l.copy ++ data) s := by
  have hlt : ¬ l.answered + 1 < Config.setupReads := by
    rw [hn]
    exact Nat.lt_irrefl 64
  have h : injectedOkay .okay = true := rfl
  simp only [setupReadAnswered, h, padTo_of_length hdata, hlt, Bool.not_true, Bool.false_eq_true, if_false]

theorem validated_passes {copy : List Byte} (h : validateSetup s.su.sbase copy = none) : validated l copy s =
    { s with su := { s.su with load := some ⟨l.keep, copy, 64, .words (setupOf copy) none none none⟩ } }.injectSu
      (indexReadRequests (setupOf copy)) := by
  simp only [validated, h]
  rfl

theorem validated_fails {copy : List Byte} {code : Byte} (h : validateSetup s.su.sbase copy = some code) :
    validated l copy s = failLoad code s := by
  simp only [validated, h]

/-- An answer other than OKAY fails the load with READ_ERROR, a whole copy with the code of its first failing check. -/
theorem setupReadAnswered_code {resp : Resp} {code : Byte} (hdata : data.length = 256)
    (h : resp ≠ .okay ∧ code = 0x01 ∨
      resp = .okay ∧ l.answered = 63 ∧ validateSetup s.su.sbase (l.copy ++ data) = some code) :
    setupReadAnswered l resp data s = failLoad code s := by
  rcases h with ⟨hr, rfl⟩ | ⟨rfl, hn, hfails⟩
  · exact setupReadAnswered_fails s hr
  · rw [setupReadAnswered_whole s hdata hn, validated_fails s hfails]

end Answered

/-! ### The failed load (R169, R170) -/

/-- What a failed load leaves: PASS_ONLY without a setup, the reefer table and the coverage map standing, every other
unit at its power-on values, and DONE decided. -/
theorem failLoad_leaves (code : Byte) (s : State) :
    ∃ t, failLoad code s = t ∧ t.su.runState = .passOnly ∧ t.su.setup = none ∧ t.su.faultCode = code ∧
      t.su.load = none ∧ t.su.qt = s.su.qt ∧ t.su.sbase = s.su.sbase ∧ t.rfu = s.rfu ∧ t.cvu = s.cvu ∧
      t.pending = s.pending ∧ t.rcu = CaptureUnit.reset ∧ t.clu = CraneUnit.reset ∧ t.vu = ViewUnit.reset ∧
      t.rpu = ReportUnit.reset ∧ t.pu.waitSu.filter (fun x => x.body.isLoadRead) = [] ∧ reportsOrphaned t.pu ∧
      finalDecided s t .done := by
  have hfinal := decideCommand_final .done (enterPassOnly code s)
  obtain ⟨cmd, ws, ht, hws⟩ := decideCommand_frame .done (enterPassOnly code s)
  rw [ht] at hfinal
  refine ⟨_, ht, rfl, rfl, rfl, rfl, rfl, rfl, rfl, rfl, rfl, rfl, rfl, rfl, rfl, ?_, ?_, hfinal⟩
  · exact passOnly_noLoadRead s.pu hws
  · exact orphan_reportsOrphaned s.pu _ fun b h => by rw [h, Bool.true_or]

/-- Settles O44: a read before the last, the last with a copy that passes, and the two ways a load fails. -/
theorem Loads.setupReadAnswered : Obligations.SetupReadAnswered := by
  intro s s1 id resp data q l ht hq hlive hl hdata
  obtain ⟨u, rfl⟩ : ∃ u, s1 = { s with pu := u } := ⟨_, takeInjected_frame s s1 .read id q ht⟩
  have hwait : u.waitSu = s.pu.waitSu := by
    obtain ⟨tx, rest, -, -, hu⟩ := takeInjected_cases s _ .read id q ht
    exact congrArg (fun t => t.pu.waitSu) hu
  have hexec := exec_setupReadDone resp data ht hq hlive hl
  refine ⟨fun hr hn => ?_, fun hr hn hpass => ?_, fun code hcode => ?_⟩
  · rw [hexec, hr, setupReadAnswered_kept _ hdata hn]
  · rw [hexec, hr, setupReadAnswered_whole _ hdata hn, validated_passes { s with pu := u } hpass, ← hwait]
    exact ⟨_, rfl, rfl, rfl⟩
  · have hfail := setupReadAnswered_code { s with pu := u } hdata hcode
    obtain ⟨t, ht, hrun, hsetup, hfault, hload, hqt, hsbase, hrfu, hcvu, hpending, hrcu, hclu, hvu, hrpu, hreads,
      hreports, hfinal⟩ := failLoad_leaves code { s with pu := u }
    obtain ⟨hcrane, hevent⟩ := irq_no_setup hsetup
    exact ⟨t, by rw [hexec, hfail, ht], hrun, hsetup, hfault, hload, hqt, hsbase, hrfu, hcvu, hpending, hrcu, hclu, hvu,
      hrpu, hreads, hreports, hfinal, holdLine_reset hclu, hevent, hcrane⟩

end Sys2Proof.Machine
end

