-- ==== Sys2Proof/Proofs/Reloads.lean ====
section
/-! SUPPORT. RELOAD taken (R169, R171): the checks still due are blind to the command begun, so that they come to the same
before it and after it, one by one or together. -/

namespace Sys2Proof.Machine

open Sys2Proof

/-! ### What the checks see -/

/-- The state `x` with all that the checks due see or change as it stands in `s`. -/
def State.seeing (x s : State) : State :=
  { x with
    su := { x.su with setup := s.su.setup, qt := s.su.qt }
    clu := s.clu, rfu := s.rfu, cvu := s.cvu, rpu := s.rpu, due := s.due }

theorem craneEntered_seeing (x : State) (n : Nat) (s : State) :
    craneEntered n (x.seeing s) = x.seeing (craneEntered n s) := by
  have hp : (x.seeing s).su.setup = s.su.setup := rfl
  unfold craneEntered
  rw [hp]
  split
  · rfl
  · split
    · rfl
    · split <;> rfl

theorem enterLost_seeing (x : State) (p : Setup) (n : Nat) (s : State) :
    enterLost p n (x.seeing s) = x.seeing (enterLost p n s) := by
  have hpos : ((x.seeing s).clu.crane n).position = (s.clu.crane n).position := rfl
  have hlocal : ((x.seeing s).clu.crane n).localCtl = (s.clu.crane n).localCtl := rfl
  simp only [enterLost, hpos, hlocal]
  rw [← craneEntered_seeing]
  congr 1
  cases (s.clu.crane n).position with
  | none => rfl
  | some y =>
    dsimp only [Option.map_some]
    split <;> rfl

theorem deadlineCheck_seeing (x : State) (p : Setup) (n : Nat) (s : State) :
    deadlineCheck p n (x.seeing s) = x.seeing (deadlineCheck p n s) := by
  have hc : (x.seeing s).clu.crane n = s.clu.crane n := rfl
  have hq : (x.seeing s).su.qt = s.su.qt := rfl
  simp only [deadlineCheck, hc, hq]
  split
  · exact enterLost_seeing x p n s
  · split <;> rfl

theorem checkDeadlines_seeing (x : State) (p : Setup) (ns : List Nat) (s : State) :
    checkDeadlines p ns (x.seeing s) = x.seeing (checkDeadlines p ns s) := by
  induction ns generalizing s with
  | nil => rfl
  | cons n ns ih => rw [checkDeadlines, deadlineCheck_seeing, ih, checkDeadlines]

theorem shadowedNow_seeing (x s : State) (p : Setup) (seg : Nat) (ex : Option Nat) :
    shadowedNow (x.seeing s) p seg ex = shadowedNow s p seg ex := rfl

theorem silenceReefer_seeing (x : State) (p : Setup) (i : Nat) (e : Reefer) (s : State) :
    silenceReefer p i e (x.seeing s) = x.seeing (silenceReefer p i e s) := by
  have hcls : declaredClass (x.seeing s) e.segment = declaredClass s e.segment := rfl
  simp only [silenceReefer, hcls, shadowedNow_seeing]
  split <;> rfl

theorem visitReefer_seeing (x : State) (p : Setup) (i : Nat) (s : State) :
    visitReefer p i (x.seeing s) = x.seeing (visitReefer p i s) := by
  have he : (x.seeing s).rfu.entry i = s.rfu.entry i := rfl
  have hq : (x.seeing s).su.qt = s.su.qt := rfl
  unfold visitReefer
  rw [he, hq]
  split
  · rfl
  · split
    · rfl
    · split
      · exact silenceReefer_seeing x p i _ s
      · rfl

theorem visitReefers_seeing (x : State) (p : Setup) (is : List Nat) (s : State) :
    visitReefers p is (x.seeing s) = x.seeing (visitReefers p is s) := by
  induction is generalizing s with
  | nil => rfl
  | cons i is ih => rw [visitReefers, visitReefer_seeing, ih, visitReefers]

theorem changeSegment_seeing (x : State) (g : Nat) (f : Segment → Segment × List Record) (s : State) :
    changeSegment g f (x.seeing s) = x.seeing (changeSegment g f s) := rfl

theorem coverageVisit_seeing (x : State) (p : Setup) (s : State) :
    coverageVisit p (x.seeing s) = x.seeing (coverageVisit p s) := by
  have hvisit : visitSegment p (x.seeing s).cvu.scanPos (x.seeing s).su.qt (x.seeing s) =
      x.seeing (visitSegment p s.cvu.scanPos s.su.qt s) := by
    simp only [visitSegment, changeSegment_seeing]
    rfl
  simp only [coverageVisit, hvisit]
  rfl

theorem takeChecks_seeing (x : State) (p : Setup) (d : DueChecks) (s : State) :
    takeChecks p d (x.seeing s) = x.seeing (takeChecks p d s) := by
  simp only [takeChecks, checkDeadlines_seeing, visitReefers_seeing]
  generalize visitReefers p d.visits (checkDeadlines p d.deadlines s) = u
  have hvisit : (if d.coverage then coverageVisit p (x.seeing u) else x.seeing u) =
      x.seeing (if d.coverage then coverageVisit p u else u) := by
    split
    · exact coverageVisit_seeing x p u
    · rfl
  rw [hvisit]
  generalize (if d.coverage then coverageVisit p u else u) = v
  have hover : pulseOver p (x.seeing v) = pulseOver p v := rfl
  rw [hover]
  split <;> rfl

/-- The checks still due come to the same whatever stands in the fields they do not see. -/
theorem finishDue_seeing (x s : State) : finishDue (x.seeing s) = x.seeing (finishDue s) := by
  cases hp : s.su.setup with
  | none =>
    have hp' : (x.seeing s).su.setup = none := hp
    rw [finishDue_none hp, finishDue_none hp']
    rfl
  | some p =>
    have hp' : (x.seeing s).su.setup = some p := hp
    rw [finishDue_some hp, finishDue_some hp']
    exact congrArg (fun t => t.withDue DueChecks.none) (takeChecks_seeing x p s.due s)

/-! ### A load begun (R169) -/

/-- The first check due, taken, changes nothing but what checks change. -/
theorem dueStep.checks {s u : State} (h : dueStep s u) : onlyChecksDiffer s u := by
  obtain ⟨p, hp, ⟨hr, n, ns, hd, hn, hstep⟩ | ⟨hr, -, i, is, hi, hstep⟩ | ⟨hr, -, -, hc, hstep⟩ |
    ⟨-, -, -, hpulse, hmode, hover, hstep⟩⟩ := h
  · rw [firstDeadline_taken hp hr hd hn hstep]
    exact (deadlineCheck_checks p n s).trans rfl
  · rcases hstep with ⟨e, he, hstep⟩ | ⟨-, rfl⟩
    · rw [exec_firstVisit hp hr hi he hstep]
      exact (visitReefers_checks p [i.val] s).trans rfl
    · rfl
  · rw [exec_coverageScanVisit hp hr hc] at hstep
    obtain rfl := Host.Outcome.next.inj hstep
    exact (coverageVisit_checks p s).trans rfl
  · rw [exec_irqCranePulseEnd hp hpulse ((pulseOver_iff p s).mpr ⟨hmode, hover⟩)] at hstep
    obtain rfl := Host.Outcome.next.inj hstep
    rfl

/-- The state in which a command given is judged: its response returned, the command begun (R171). -/
def State.begun (s : State) (w : Write) (code : Byte) (arg : Half) : State := beginCommand code arg (returnWrite w s)

section Reload
variable {s u : State} {w : Write}

/-- The checks due are blind to the command begun. -/
theorem finishDue_begun (h : onlyChecksDiffer s u) (code : Byte) (arg : Half) :
    finishDue (u.begun w code arg) = (s.begun w code arg).seeing (finishDue u) := by
  obtain ⟨clu, rfu, cvu, rpu, due, rfl⟩ :
      ∃ clu rfu cvu rpu due, u = { s with clu := clu, rfu := rfu, cvu := cvu, rpu := rpu, due := due } :=
    ⟨_, _, _, _, _, h⟩
  exact finishDue_seeing (s.begun w code arg) { s with clu := clu, rfu := rfu, cvu := cvu, rpu := rpu, due := due }

theorem startLoad_congr {t : State} (keep : Bool) (h : finishDue s = finishDue t) :
    startLoad keep s = startLoad keep t := by
  simp only [startLoad, h]

/-- RELOAD with KEEP 0 or 1 outside LOADING begins a load. -/
theorem exec_reload {keep : Bool} (hg : commandGiven s w 0x01 (if keep then 1 else 0))
    (hr : s.su.runState ≠ .loading) :
    exec (.reload w) s = .next (startLoad keep (s.begun w 0x01 (if keep then 1 else 0))) := by
  refine congrArg Host.Outcome.next ((commandWrite_begun hg (decide_eq_true rfl)).trans ?_)
  refine (if_neg hr).trans ?_
  cases keep <;> rfl

theorem commandGiven_of_checks {code : Byte} {arg : Half} (h : onlyChecksDiffer s u)
    (hg : commandGiven s w code arg) : commandGiven u w code arg := by
  obtain ⟨clu, rfu, cvu, rpu, due, rfl⟩ :
      ∃ clu rfu cvu rpu due, u = { s with clu := clu, rfu := rfu, cvu := cvu, rpu := rpu, due := due } :=
    ⟨_, _, _, _, _, h⟩
  exact hg

end Reload

/-- Settles O43: with nothing found the load begins from the state as it stands; otherwise the first check may be taken
before the command. -/
theorem reloadBegins : Obligations.ReloadBegins := by
  intro s w keep hg hr
  have hexec := exec_reload hg hr
  refine ⟨fun hnothing => ?_, ⟨_, hexec, rfl, finishDue_due _⟩, fun u hstep => ?_⟩
  · have hfinish := finishDue_begun (w := w) (.refl s) 0x01 (if keep then 1 else 0)
    rw [finishDue_nothing hnothing] at hfinish
    refine ⟨_, Config.freeFaultByte s.free, hexec, ?_, fun n => (hold_not_running (by nofun) n).1⟩
    simp only [startLoad, hfinish, State.injectSu]
    cases keep <;> exact congrArg (fun qs => State.mk _ _ { (returnWrite w s).pu with waitSu := qs } _ _ _ _ _ _ _ _)
      (List.append_assoc s.pu.waitSu [_] _)
  · have hu := commandGiven_of_checks hstep.checks hg
    have hsu : u.su = s.su := (congrArg State.su hstep.checks :)
    rw [hexec, exec_reload hu (by rwa [hsu])]
    refine congrArg _ (startLoad_congr keep ?_)
    rw [finishDue_begun (.refl s), finishDue_begun hstep.checks, hstep.finishDue_eq]

end Sys2Proof.Machine
end

