-- ==== Sys2Proof/Proofs/SeveralWindows.lean ====
section
/-! SUPPORT. A write over several windows (R164) in a state no run meets: a capture entry of more than the 256 cells of
its slot (R1), which the capture law keeps out. The model puts a write's bytes into whatever cells an entry holds (R2), so
the cells past the end of the last slot take the bytes written past the end of the window. -/

namespace Sys2Proof.Machine

open Sys2Proof

/-- A setup with rings of 16, 16 and 64 slots and AXI ID 32 as RADIO, all else as a blank copy gives it. -/
def ringsOf16 : Setup :=
  { setupOf [] with
    roles := [⟨32, 32, .radio⟩]
    windows :=
      { ulSlots := 0x10000000, ulProducer := 0x10100000, dlSlots := 0x10200000, dlProducer := 0x10300000,
        reportRing := 0x10400000, reportProducer := 0x10500000, reportConsumer := 0x10500004, statusPage := 0x10600000,
        craneView := 0x10700000, coverageView := 0x10800000, reeferView := 0x10900000,
        ulCount := 16, dlCount := 16, repCount := 64 } }

/-- RUNNING with a PENDING capture entry of the last uplink slot of 257 cells, one more than the slot has bytes. -/
def overlong : State :=
  { State.reset with
    su := { State.reset.su with runState := .running, setup := some ringsOf16 }
    rcu := { CaptureUnit.reset with filling := [⟨15, List.replicate 257 none, 0⟩] } }

/-- A RADIO write of the last byte of the uplink slots and of the byte after it, which no window holds. -/
def pastTheEnd : Write := ⟨32, 0x10000FFF, [some 1, some 2], .okay⟩

/-- The cell past the end of its slot in the first PENDING capture entry. -/
def cellPastSlot (s : State) : Option (Option Byte) := s.rcu.filling.head?.bind (fun e => e.cells[256]?)

theorem ringsOf16_apart : ringsOf16.windows.apart overlong.su.sbase := by
  unfold Windows.apart
  decide +kernel

theorem pastTheEnd_named : namesWrite overlong ringsOf16 pastTheEnd (.ulSlotWrite pastTheEnd) :=
  .inl ⟨.ulSlots, .head _, by decide +kernel⟩

/-- The whole write fills the cell past the end. -/
theorem cellPastSlot_whole :
    cellPastSlot (windowWrite (fun t => touches pastTheEnd t.ulSlots (t.ulCount * Config.slotBytes)) pastTheEnd
      overlong) = some (some 2) := by decide +kernel

/-- The state after the part of the write in the uplink slots, the response not yet returned. -/
def slotsTaken : State :=
  let w := writeWithin pastTheEnd ringsOf16.windows.ulSlots (ringsOf16.windows.ulCount * 256)
  { windowWrite (fun t => touches w t.ulSlots (t.ulCount * Config.slotBytes)) w overlong with pu := overlong.pu }

/-- The part of the write in the uplink slots leaves the cell past the end unseen. -/
theorem cellPastSlot_part : cellPastSlot slotsTaken = some none := by decide +kernel

theorem slotsTaken_setup : slotsTaken.su.setup = some ringsOf16 := by decide +kernel

/-- The part of a write in a window it does not touch is not the event of that window's row. -/
theorem windowWrite_untouched {covers : Windows → Bool} {w : Write} (h : covers ringsOf16.windows = false) :
    windowWrite covers w slotsTaken = slotsTaken := by
  simp only [windowWrite, slotsTaken_setup, h, Bool.false_eq_true, if_false]

/-- Refutes O39: the statement does not ask for the capture law, and from a capture entry of 257 cells for the last
uplink slot the whole write fills the cell past the slot's end, which its part in the window does not reach. -/
theorem not_writeTakenByEachWindow : ¬ Obligations.WriteTakenByEachWindow := by
  intro h
  have hend := h overlong _ slotsTaken slotsTaken slotsTaken slotsTaken slotsTaken ringsOf16 pastTheEnd .radio
    (.ulSlotWrite pastTheEnd) rfl (by decide +kernel) ringsOf16_apart pastTheEnd_named rfl
    (congrArg Host.Outcome.next (windowWrite_untouched (by decide +kernel)))
    (congrArg Host.Outcome.next (windowWrite_untouched (by decide +kernel)))
    (congrArg Host.Outcome.next (windowWrite_untouched (by decide +kernel)))
    (congrArg Host.Outcome.next (windowWrite_untouched (by decide +kernel)))
    ((if_neg (by decide +kernel)).mpr rfl)
  have hstate := Host.Outcome.next.inj hend
  have hcell : some (some (2 : Byte)) = some none :=
    cellPastSlot_whole.symm.trans ((congrArg cellPastSlot hstate).trans cellPastSlot_part)
  exact absurd hcell (by decide)

end Sys2Proof.Machine
end

