-- ==== Sys2Proof/Proofs/Stepping.lean ====
section
/-! SUPPORT. One step and the queue of waiting commands: the front command is executed on the state without it. -/

namespace Sys2Proof.Machine

open Sys2Proof

/-- Settles O1: where the queue has a front, `step` takes its second branch, which runs `exec` on the queue's rest. -/
theorem stepTakesFrontCommand : Obligations.StepTakesFrontCommand := by
  intro s c rest hqueue
  simp only [step, hqueue]

end Sys2Proof.Machine
end
